-- ==== Sys2Proof/Word.lean ====
section
/-! DEFINITION. The words of the CT16: bytes, 16-bit numbers, frames and tick times (spec 00 section 4.3,
12 section 12.1). -/

namespace Sys2Proof

/-- One byte of a message, a record or the image (R190). -/
abbrev Byte := BitVec 8

/-- A 16-bit number: a counter that holds at 65,535, a revision, a digest, a cue tag, a generation. -/
abbrev Half := BitVec 16

/-- A frame number, modulo 2^32 (00 section 4.3). -/
abbrev Frame := BitVec 32

/-- A 32-bit event id or clip id (R58). -/
abbrev Ident := BitVec 32

/-- A tick time, frame × 1024 + phase modulo 2^42 (00 section 4.3). -/
abbrev Tick := BitVec 42

/-- A local channel, 0 to 15 (00 section 4.2). -/
abbrev Chan := Fin 16

end Sys2Proof
end

