-- ==== Sys2Proof/Syntax.lean ====
section
/-! DEFINITION. The commands of the block: one constructor of `Instr` for each row of spec/opcode_table.json, and the
operands they carry. -/

namespace Sys2Proof

/-- The two lanes of the continuity bus. -/
inductive Lane where
  | a
  | b
  deriving DecidableEq, Repr

/-- A symbol on a lane's line (01 section 1.1, R6): a delimiter, a data byte, or one that is neither. -/
inductive Symbol where
  | start
  | data (b : Byte)
  | stop
  | other
  deriving DecidableEq, Repr

/-- The four causes of R6, in its order. -/
inductive FramingCause where
  /-- In HUNTING, a data byte or an end delimiter arrives. -/
  | stray
  /-- In RECEIVING, a symbol that is neither a data byte nor a delimiter arrives. -/
  | badSymbol
  /-- In RECEIVING, a start delimiter arrives before the end delimiter. -/
  | restart
  /-- In RECEIVING, 12 plus the stated length bytes have arrived and a data byte follows. -/
  | overlong
  deriving DecidableEq, Repr

/-- What of a message has arrived (R3): its start delimiter and first byte, its end delimiter with the bytes
collected between the two, or both with no other event between them. -/
inductive RxPart where
  | opening
  | closing (bytes : List Byte)
  | whole (bytes : List Byte)
  deriving DecidableEq, Repr

/-- The pieces of work that the blocks do at one frame boundary (R36): each is whole, and the data book sets no order
among those of different blocks (log 3). -/
inductive Work where
  /-- The time-load judgement (R43). -/
  | timebase
  /-- A lane judges its state (R19). -/
  | laneJudge (l : Lane)
  /-- Isolation is judged, the channel controller reacts, and the quiet counts advance (R20, R96, R18). -/
  | isolation
  /-- The peer records' counts advance (R49). -/
  | peers
  /-- The occupancy account falls (R31). -/
  | account
  /-- The busy count of a lane's waiting copy advances (R29). -/
  | busy (l : Lane)
  /-- The suspect and loss judgements of a channel, then its tally age advances (R90 to R92). -/
  | watch (c : Chan)
  /-- The READY check, or the completion of a handback (R168, R169). -/
  | handback (c : Chan)
  /-- The claim table of a channel ages (R110, step 1 of R111). -/
  | claimAge (c : Chan)
  /-- The bid counter of a channel advances and its window is decided (R116, step 2 of R111). -/
  | bid (c : Chan)
  /-- The YIELDED judgement of a channel (R118, step 3 of R111). -/
  | yielded (c : Chan)
  /-- The claim set is built and placed (R113, step 4 of R111). -/
  | claimSet
  /-- The deadlines, silent counts and repeats of a channel's ports (R146, R142, R144). -/
  | cue (c : Chan)
  /-- Follow-on cueing of a channel is judged (R154). -/
  | follow (c : Chan)
  /-- The report period count advances (R180). -/
  | report
  /-- The as-run period count advances (R162). -/
  | asrun
  deriving DecidableEq, Repr

/-- The commands, in the order of spec/opcode_table.json. `dt` is the number of crystal periods that have passed since
the clock was last read (log 2); `left` is the work of the boundary that is left to commands of its own (log 3). -/
inductive Instr where
  /-- RESET_ASSERT (R184). -/
  | resetAssert
  /-- RESET_RELEASE (R183): the value of the six straps. -/
  | resetRelease (straps : BitVec 6)
  /-- CONFIGURATION_LOAD (R185): the bytes read from a ready memory. -/
  | configurationLoad (image : List Byte)
  /-- NO_MEMORY (R185). -/
  | noMemory
  /-- REF_PULSE (R37, R39). -/
  | refPulse (dt : Nat) (left : List Work)
  /-- REF_LOST (R38): the moment at which one and a half periods have passed. -/
  | refLost (left : List Work)
  /-- FREE_RUN_BOUNDARY (R39): the moment at which the measured period is complete. -/
  | freeRunBoundary (left : List Work)
  /-- MESSAGE_RECEIVED (R3, R4). -/
  | messageReceived (lane : Lane) (dt : Nat) (part : RxPart)
  /-- FRAMING_LOST (R6). -/
  | framingLost (lane : Lane) (dt : Nat) (cause : FramingCause)
  /-- RECEIVE_TALLY (R88): the dispatcher takes the oldest entry of the lane's queue (R9, log 34). -/
  | receiveTally (lane : Lane)
  /-- RECEIVE_SEGMENT (R64). -/
  | receiveSegment (lane : Lane)
  /-- RECEIVE_CLAIM (R107). -/
  | receiveClaim (lane : Lane)
  /-- RECEIVE_CUE (R14). -/
  | receiveCue (lane : Lane)
  /-- RECEIVE_PORT_STATUS (R141). -/
  | receivePortStatus (lane : Lane)
  /-- RECEIVE_TIME_MARK (R41). -/
  | receiveTimeMark (lane : Lane)
  /-- RECEIVE_REPORT (R14). -/
  | receiveReport (lane : Lane)
  /-- RECEIVE_AS_RUN (R14). -/
  | receiveAsRun (lane : Lane)
  /-- ARM (R97). -/
  | arm (lane : Lane)
  /-- DISARM (R97). -/
  | disarm (lane : Lane)
  /-- FORCE_TAKE (R117). -/
  | forceTake (lane : Lane)
  /-- HAND_BACK (R165). -/
  | handBack (lane : Lane)
  /-- HOLD (R155). -/
  | hold (lane : Lane)
  /-- RESUME (R156). -/
  | resume (lane : Lane)
  /-- SKIP (R156). -/
  | skip (lane : Lane)
  /-- RETRY (R102). -/
  | retry (lane : Lane)
  /-- CLEAR_CHANNEL (R103). -/
  | clearChannel (lane : Lane)
  /-- RETIME (R46). -/
  | retime (lane : Lane)
  /-- COPY_BEGIN (R29). -/
  | copyBegin (lane : Lane) (dt : Nat)
  /-- COPY_END (R17): the symbols read back from the line while the copy was sent. -/
  | copyEnd (lane : Lane) (readBack : List Symbol)
  /-- COPY_ABANDONED (R29). -/
  | copyAbandoned (lane : Lane)
  /-- JOIN_COMPLETE (R124). -/
  | joinComplete
  /-- ORIGIN_SUSPECT (R91). -/
  | originSuspect (c : Chan)
  /-- ORIGIN_LOST (R92). -/
  | originLost (c : Chan)
  /-- CLAIM_EXPIRY (R110). -/
  | claimExpiry (c : Chan)
  /-- BID_WINDOW_DECIDED (R116). -/
  | bidWindowDecided (c : Chan)
  /-- LANE_QUIET (R19). -/
  | laneQuiet (lane : Lane)
  /-- ISOLATED (R20). -/
  | isolated
  /-- SERVER_SILENT (R146). -/
  | serverSilent (c : Chan)
  /-- ARM_TIMEOUT (R146). -/
  | armTimeout (c : Chan)
  /-- TAKE_TIMEOUT (R146). -/
  | takeTimeout (c : Chan)
  /-- WITHDRAWN_TAKE_EXPIRY (R146). -/
  | withdrawnTakeExpiry (c : Chan)
  /-- FOLLOW_DUE (R154). -/
  | followDue (c : Chan)
  /-- READY_CHECK (R168). -/
  | readyCheck (c : Chan)
  /-- HANDBACK_DONE (R169). -/
  | handbackDone (c : Chan)
  /-- TIME_LOADED (R43). -/
  | timeLoaded
  /-- REPORT_BUILD (R180). -/
  | reportBuild
  /-- ASRUN_BUILD (R162). -/
  | asrunBuild
  deriving DecidableEq, Repr

end Sys2Proof
end

