-- ==== Sys2Proof/WellFormed.lean ====
section
/-! DEFINITION. Which commands are well formed: the checks that the types of the operands leave open. -/

namespace Sys2Proof

/-- Why a command is ill formed. -/
inductive IllFormed where
  /-- The image is 254 bytes (12 section 12.6). -/
  | imageLength
  /-- No more than 12 + 255 bytes are collected between two delimiters (R1, R6). -/
  | messageTooLong
  /-- A piece of work is left to a command of its own at most once. -/
  | leftRepeats
  /-- No more symbols are read back than the longest copy has: 172 bytes and two delimiters (R1, R17). -/
  | echoTooLong
  deriving DecidableEq, Repr

/-- The longest run of bytes a receiver can collect: 12 plus the largest length byte (R6). -/
def maxCollected : Nat := 12 + 255

/-- The first check a collected part fails, if any. -/
def RxPart.check : RxPart → Except IllFormed Unit
  | .opening => .ok ()
  | .closing bytes => if bytes.length ≤ maxCollected then .ok () else .error .messageTooLong
  | .whole bytes => if bytes.length ≤ maxCollected then .ok () else .error .messageTooLong

/-- The work left to commands of its own names each piece once. -/
def checkLeft (left : List Work) : Except IllFormed Unit :=
  if left.Nodup then .ok () else .error .leftRepeats

/-- The first check a command fails, if any. -/
def Instr.check : Instr → Except IllFormed Unit
  | .configurationLoad image => if image.length = 254 then .ok () else .error .imageLength
  | .refPulse _ left => checkLeft left
  | .refLost left => checkLeft left
  | .freeRunBoundary left => checkLeft left
  | .messageReceived _ _ part => part.check
  | .copyEnd _ readBack => if readBack.length ≤ 174 then .ok () else .error .echoTooLong
  | _ => .ok ()

/-- A command whose operands the outside world can send. -/
def Instr.wellFormed (i : Instr) : Bool :=
  match i.check with
  | .ok _ => true
  | .error _ => false

end Sys2Proof
end

