-- ==== Sys2Proof/Decode.lean ====
section
/-! DEFINITION. The decoding of table words. The rows of spec/opcode_table.json give no fixed bits and no fields, so
no word spells a command (log 4). -/

namespace Sys2Proof

/-- The command that a word spells by the table's bits: none, for no row gives bits. -/
def decodeTableWord (_nbits _w : Nat) : Option Instr := none

end Sys2Proof
end

