-- ==== Sys2Proof/Config.lean ====
section
/-! DEFINITION. What an installer fixes (the parameters of spec 11 section 11.2) and the free values: what the data
book leaves unstated. -/

namespace Sys2Proof

/-- One control-station entry (11 section 11.2). `id` 0 is an unused entry. Bit k − 1 of `perm` stands for directive
kind code k, bit n of `mask` for local channel n (12 section 12.6). -/
structure ControlEntry where
  id : Nat
  perm : Half
  mask : Half
  deriving DecidableEq, Repr

/-- One channel-map entry (11 section 11.2). A station of 0 is none. -/
structure MapEntry where
  enabled : Bool
  armed : Bool
  bus : Byte
  origin : Nat
  standby : Nat
  prec : Nat
  primary : Nat × Nat
  alternate : Option (Nat × Nat)
  filler : Ident
  deriving DecidableEq, Repr

/-- The configuration as the blocks hold it after the installation of R188. -/
structure Config where
  linkDelay : Nat
  gain : Nat
  outlierLimit : Nat
  suspectFrames : Nat
  lossFrames : Nat
  isolationFrames : Nat
  laneQuietFrames : Nat
  claimExpiry : Nat
  bidWindow : Nat
  preroll : Nat
  confirmFrames : Nat
  handbackLead : Nat
  reportPeriod : Nat
  asrunPeriod : Nat
  ratio : Nat
  decrement : Nat
  limit : Nat
  clip : Nat
  timeStation : Nat
  control : Vector ControlEntry 4
  map : Vector MapEntry 16
  deriving DecidableEq, Repr

/-- The default of a channel-map entry (11 section 11.2): not enabled. -/
def MapEntry.blank : MapEntry :=
  { enabled := false, armed := false, bus := 0, origin := 0, standby := 0, prec := 15, primary := (1, 0),
    alternate := none, filler := 0 }

/-- The defaults of 11 section 11.2: the values a blank image carries, and, in CONFIG_FAULT, the values of R189 with
no control station, no channel and no time station. -/
def Config.default : Config :=
  { linkDelay := 0, gain := 3, outlierLimit := 64, suspectFrames := 3, lossFrames := 10, isolationFrames := 5,
    laneQuietFrames := 3, claimExpiry := 4, bidWindow := 8, preroll := 5, confirmFrames := 2, handbackLead := 25,
    reportPeriod := 5, asrunPeriod := 2, ratio := 1, decrement := 600, limit := 900, clip := 2000, timeStation := 0,
    control := Vector.replicate 4 { id := 0, perm := 0, mask := 0 },
    map := Vector.replicate 16 MapEntry.blank }

/-- FREE VALUE (log 9). The byte that stands at an offset of a REPORT built in a frame, where the item of that place
is absent and the data book states no byte for it: an absent live revision (R181), an absent last directive number
(R178, R182), the rest of an empty notice place (R182). -/
opaque Config.unstatedByte : Frame → Nat → Byte

end Sys2Proof
end

