-- ==== Sys2Proof/Machine/State.lean ====
section
/-! DEFINITION. The state of the CT16 as plain data, block by block, and the state after reset. -/

namespace Sys2Proof.Machine

/-! ## Messages -/

/-- The nine message kinds (12 section 12.2). -/
inductive MsgKind where
  | tally
  | segment
  | claim
  | cue
  | portStatus
  | directive
  | timeMark
  | report
  | asRun
  deriving DecidableEq, Repr

/-- An entry of a receive queue (R7): a message that passed R4, with its arrival tick. Its lane is the queue's. -/
structure RxMsg where
  sender : Byte
  kind : MsgKind
  serial : Byte
  stamp : Tick
  payload : List Byte
  arrival : Tick
  deriving DecidableEq, Repr

/-! ## Lane interfaces (01) -/

/-- The modes of a receiver (01 section 1.2). `held` is the receiver before work begins. -/
inductive RxMode where
  | held
  /-- `inRun`: a run of stray symbols has been counted and has not ended (R6). -/
  | hunting (inRun : Bool)
  /-- The arrival tick already taken (R3). -/
  | receiving (arrival : Tick)
  | echo
  deriving DecidableEq, Repr

/-- The states of a lane (R19). -/
inductive LaneState where
  | up
  | quiet
  | echoFault
  deriving DecidableEq, Repr

/-- One lane interface: its receiver, queue, six counters (R8), echo-failure run (R17), quiet count (R18) and state. -/
structure LaneIf where
  mode : RxMode
  queue : List RxMsg
  checkError : Half
  truncated : Half
  framingLost : Half
  overrun : Half
  unknownKind : Half
  lengthError : Half
  echoRun : Byte
  quietCount : Byte
  state : LaneState
  deriving DecidableEq, Repr

/-- The dispatcher's six counters (R16). -/
structure Dispatcher where
  badSender : Half
  malformed : Half
  cueIgnored : Half
  notTargeted : Half
  foreignTally : Half
  foreignSegment : Half
  deriving DecidableEq, Repr

/-! ## Timebase and peer table (03) -/

/-- The states of the reference monitor (03 section 3.2). -/
inductive Monitor where
  | locked
  | freeRun
  deriving DecidableEq, Repr

/-- The timebase. The phase is `base` plus the 1024ths of the measured `period` in `elapsed`, both counted in periods
of the 25 MHz crystal (R35, log 2); while LOCKED, `elapsed` is the interval since the last accepted pulse (R37). -/
structure Timebase where
  count : Frame
  base : Nat
  elapsed : Nat
  period : Nat
  monitor : Monitor
  refLost : Bool
  loaded : Bool
  loadPending : Bool
  pendingValue : Frame
  lastSlip : Frame
  refGlitch : Half
  foreignMark : Half
  deriving DecidableEq, Repr

/-- The learned role of a station, a set of flags (R48, R50). -/
structure Roles where
  origin : Bool
  recovery : Bool
  server : Bool
  control : Bool
  time : Bool
  deriving DecidableEq, Repr

/-- The offset estimator of a peer (R48, 03 section 3.5): `e` in ticks. -/
structure Estimator where
  valid : Bool
  e : Int
  run : Nat
  sat : Bool
  deriving DecidableEq, Repr

/-- One peer record (R48). -/
structure Peer where
  station : Nat
  present : Bool
  roles : Roles
  lastSerial : Option Byte
  since : Byte
  heardA : Byte
  heardB : Byte
  est : Estimator
  deriving DecidableEq, Repr

/-! ## Schedule mirror (04) -/

/-- The start modes of an event (R58). -/
inductive StartMode where
  | follow
  | fixed
  deriving DecidableEq, Repr

/-- An event record (R58). A duration of 0 is OPEN (R190). -/
structure EventRec where
  event : Ident
  clip : Ident
  mode : StartMode
  duration : BitVec 24
  startFrame : Frame
  deriving DecidableEq, Repr

/-- The list a channel holds beside its live list (R61). The received map of a BUILDING list is the set of indices of
its segments; a READY list that is not deferred waits for a join in flight (R72). -/
inductive OtherList where
  | absent
  | building (rev : Half) (total : Nat) (segments : List (Nat × List EventRec))
  | ready (rev : Half) (events : List EventRec) (deferred : Bool)
  deriving DecidableEq, Repr

/-- The mirror status (R82). -/
inductive MirrorStatus where
  | empty
  | current
  | behind
  | mismatch
  deriving DecidableEq, Repr

/-- What the mirror holds for a channel (R61). `liveRev` is none while no revision is committed; `clearWaits` is a
clearing that waits for a join in flight (R83). -/
structure Mirror where
  live : List EventRec
  liveRev : Option Half
  digest : Half
  other : OtherList
  reference : Option (Half × Half)
  status : MirrorStatus
  rejected : Option Half
  short : Option Half
  rebuilt : Option Half
  clearWaits : Bool
  deriving DecidableEq, Repr

/-! ## Channels (05 to 09) -/

/-- The ten channel states (05 section 5.2). -/
inductive ChState where
  | unmapped
  | mirroring
  | suspect
  | lost
  | bidding
  | yielded
  | cueing
  | onAir
  | returning
  | fault
  deriving DecidableEq, Repr

/-- The phases of a tally entry (05 section 5.3). -/
inductive TallyPhase where
  | playing
  | holding
  | standby
  | ready
  deriving DecidableEq, Repr

/-- The origin tally of a channel (R84, R88): the last main-origin entry taken, with the message's stamp. -/
structure OriginTally where
  rev : Half
  digest : Half
  phase : TallyPhase
  event : Option (Ident × Frame)
  readyFrame : Option Frame
  stamp : Tick
  deriving DecidableEq, Repr

/-- Where the current event stands in the live list (R84): at an index, before index 0 (R78), or it is FILLER. -/
inductive Place where
  | at (index : Nat)
  | beforeZero
  | filler
  deriving DecidableEq, Repr

/-- A current event, and the outcome of a join that becomes one (R84, R124). `start` is the schedule start in local
frames; an absent end is open. FILLER has event id 0. -/
structure CurEvent where
  place : Place
  event : Ident
  clip : Ident
  entry : Frame
  start : Frame
  endAt : Option Frame
  natEnd : Option Frame
  held : Bool
  deriving DecidableEq, Repr

/-- The kinds of join (R122). -/
inductive JoinKind where
  | takeover
  | follow
  | resume
  | skip
  | rejoin
  | boundary
  deriving DecidableEq, Repr

/-- A TAKE, pending or withdrawn (R140): its source kind is the kind of the join that gave it. -/
structure Take where
  tag : Half
  source : JoinKind
  takeLocal : Frame
  k : Frame
  outcome : CurEvent
  seen : Bool
  armCount : Nat
  takeCount : Nat
  deriving DecidableEq, Repr

/-- A port record (R140). -/
structure PortRec where
  server : Nat
  port : Nat
  pending : Option Take
  onAirTag : Half
  withdrawn : Option Take
  silent : Byte
  deriving DecidableEq, Repr

/-- The two ports of a channel. -/
inductive PortSel where
  | primary
  | alternate
  deriving DecidableEq, Repr

/-- The phases of an agreed handback (R164). -/
inductive HandbackPhase where
  | set
  | postponing
  | settled
  deriving DecidableEq, Repr

/-- The handback of a channel (R164): absent, REQUESTED, or agreed. -/
inductive Handback where
  | absent
  | requested (sender : Nat) (number : Byte)
  | agreed (phase : HandbackPhase) (hLocal hPeer : Frame) (successor : Ident) (count : Nat)
  deriving DecidableEq, Repr

/-- The status of a closed as-run record (R159). -/
inductive AsRunStatus where
  | complete
  | shortened
  | extended
  | handedBack
  | yielded
  | faulted
  deriving DecidableEq, Repr

/-- An as-run record (R159). -/
structure AsRunRec where
  chan : Chan
  bus : Byte
  event : Ident
  clip : Ident
  entry : Frame
  start : Frame
  endAt : Option Frame
  status : Option AsRunStatus
  server : Nat
  port : Nat
  tag : Half
  closing : Option Half
  deriving DecidableEq, Repr

/-- The kinds of claim a table holds (R106). -/
inductive ClaimKind where
  | bid
  | hold
  deriving DecidableEq, Repr

/-- An entry of a claim table (R106). -/
structure Rival where
  station : Nat
  kind : ClaimKind
  prec : Nat
  age : Nat
  deriving DecidableEq, Repr

/-- A RESUME or SKIP request that waits with a deferred commit (R78): its kind, and whether it was made at a port switch
(R149, read by R175). -/
structure WaitReq where
  kind : JoinKind
  atSwitch : Bool
  deriving DecidableEq, Repr

/-- A channel context (R84), with what the mirror, the claim unit and the cue unit hold for the channel. -/
structure Context where
  state : ChState
  armed : Bool
  tally : Option OriginTally
  standbyStamp : Option Tick
  seen : Bool
  age : Byte
  prec : Nat
  anchor : Option Frame
  cur : Option CurEvent
  active : PortSel
  gen : Half
  handback : Handback
  openRec : Option AsRunRec
  poolShort : Bool
  dualSeen : Bool
  mirror : Mirror
  table : List Rival
  bidCount : Nat
  bidNew : Bool
  release : Nat
  prim : Option PortRec
  alt : Option PortRec
  waitReq : Option WaitReq
  followOwed : Bool
  deriving DecidableEq, Repr

/-! ## Join engine (07) -/

/-- A join request (R122). `atSwitch` marks a request placed at a port switch (R149, read by R175). -/
structure JoinReq where
  chan : Chan
  kind : JoinKind
  gen : Half
  take : Frame
  curEnd : Option Frame
  atSwitch : Bool
  deriving DecidableEq, Repr

/-- A computation in flight, with what it read at its start (R123). -/
structure JoinFlight where
  req : JoinReq
  list : List EventRec
  cur : Option CurEvent
  anchor : Option Frame
  tally : Option OriginTally
  estimate : Option Int
  deriving DecidableEq, Repr

/-- The join engine (R122, R123). -/
structure JoinEngine where
  queue : List JoinReq
  flight : Option JoinFlight
  deriving DecidableEq, Repr

/-! ## Transmitter (02) -/

/-- The claim of a CLAIM entry (R104, 12 section 12.4). -/
inductive WireClaim where
  | bid
  | hold
  | release
  | handback (frame : Frame) (successor : Ident)
  deriving DecidableEq, Repr

/-- A CLAIM entry (R104). -/
structure ClaimEntry where
  bus : Byte
  claim : WireClaim
  prec : Nat
  deriving DecidableEq, Repr

/-- The content of a CUE (R138). -/
inductive CueBody where
  | take (event clip : Ident) (entry k : Frame) (playLength : Option Frame)
  | cancel
  | stop (k : Frame)
  deriving DecidableEq, Repr

/-- A CUE message (R138). -/
structure Cue where
  server : Nat
  port : Nat
  tag : Half
  body : CueBody
  deriving DecidableEq, Repr

/-- A message placed with the transmitter (R22): its content as the placing block built it (R34). -/
inductive OutMsg where
  | claim (entries : List ClaimEntry)
  | cue (c : Cue)
  | report (payload : List Byte)
  | asRun (records : List AsRunRec)
  deriving DecidableEq, Repr

/-- The transmit classes (R22). -/
inductive TxClass where
  | urgent
  | routine
  | bulk
  deriving DecidableEq, Repr

/-- One lane's copy of the message in flight (R29). -/
inductive Copy where
  /-- The copy waits for its line, under its busy count. -/
  | waiting (busy : Nat)
  /-- The copy has begun: its bytes, with stamp and check. -/
  | sending (bytes : List Byte)
  | sent
  | abandoned
  deriving DecidableEq, Repr

/-- The message in flight (R22, R28). -/
structure TxFlight where
  cls : TxClass
  msg : OutMsg
  serial : Byte
  copyA : Copy
  copyB : Copy
  deriving DecidableEq, Repr

/-- The transmitter (R22, R32). The queues hold the unsent messages, oldest first; the message in flight stands before
them in its class's queue and counts toward that queue's capacity. -/
structure Transmitter where
  urgent : List OutMsg
  routine : List OutMsg
  bulk : List OutMsg
  flight : Option TxFlight
  serial : Byte
  account : Nat
  urgentDropped : Half
  routineDiscarded : Half
  bulkNotBuilt : Half
  busySkipA : Half
  busySkipB : Half
  deriving DecidableEq, Repr

/-! ## As-run store (09), notices and reports (10) -/

/-- The carousel cursor (R163): a ring record, counted from the oldest, or an open slot. `ring 0` is the start. -/
inductive Cursor where
  | ring (index : Nat)
  | slot (channel : Nat)
  deriving DecidableEq, Repr

/-- The as-run store (R160, R162, R163): the ring oldest first; its count is its length. -/
structure AsRunStore where
  ring : List AsRunRec
  writePos : Nat
  closing : Half
  period : Nat
  cursor : Cursor
  deriving DecidableEq, Repr

/-- The notice kinds, in the order of the table of R179, which gives their codes 1 to 37 (R191). -/
inductive NoticeKind where
  | originSuspect
  | originLost
  | originReturned
  | bidStart
  | bidWon
  | bidYielded
  | claimLost
  | takeConfirmed
  | portSwitch
  | channelFault
  | dualAir
  | handbackSet
  | handbackPostponed
  | handbackDone
  | handbackAborted
  | revisionCommitted
  | revisionDeferred
  | revisionRejected
  | poolShort
  | digestMismatch
  | scheduleExhausted
  | tallyEventUnknown
  | clockStep
  | estimateSaturated
  | isolated
  | rejoined
  | laneState
  | refLost
  | refRestored
  | timeLoaded
  | timeSlip
  | directiveTaken
  | directiveRefused
  | txDrop
  | asrunHalf
  | asrunWrap
  | configFault
  deriving DecidableEq, Repr

/-- A notice (R179). A kind that carries no parameter has 0 (R191). -/
structure Notice where
  kind : NoticeKind
  chan : Option Chan
  param : BitVec 32
  frame : Frame
  deriving DecidableEq, Repr

/-- The notice ring, newest first, and the notice count (R179). The ring's write position is the count modulo 32. -/
structure Notices where
  ring : List Notice
  count : Half
  deriving DecidableEq, Repr

/-- The counters of the mirror, the channel controller, the claim unit, the cue unit and the directive unit that
REPORT half 0 carries (R181). -/
structure BlockCounters where
  segmentRange : Half
  tallySanity : Half
  tallyStale : Half
  claimRange : Half
  claimTableFull : Half
  foreignStatus : Half
  unknownController : Half
  deriving DecidableEq, Repr

/-- The blocks behind the dispatcher: what they hold between them. -/
structure Works where
  ctx : Vector Context 16
  join : JoinEngine
  tx : Transmitter
  store : AsRunStore
  notices : Notices
  tag : Half
  counters : BlockCounters
  lastNumbers : Vector (Option Byte) 4
  reportCount : Nat
  nextHalf : Nat
  deriving DecidableEq, Repr

/-! ## The part -/

/-- The causes of CONFIG_FAULT (R189). -/
inductive LoadFault where
  | noMemory
  | checkFailed
  | strapInvalid
  deriving DecidableEq, Repr

/-- The load state (R184), with what REPORT half 0 shows of it: the correction count, or the cause. -/
inductive LoadState where
  | reset
  | loading
  | good (corrections : Nat)
  | fault (cause : LoadFault)
  deriving DecidableEq, Repr

/-- The state of the part. `due` is the work of the boundary just made that is still to be done (log 3); `pending` is
the queue of commands, first in, first out (log 4). -/
structure State where
  load : LoadState
  own : Nat
  cfg : Config
  clk : Timebase
  laneA : LaneIf
  laneB : LaneIf
  isolated : Bool
  disp : Dispatcher
  peers : List Peer
  works : Works
  due : List Work
  pending : List Instr
  deriving DecidableEq, Repr

/-- Why a step stops with a fault. The data book gives the part no event that stops it: CONFIG_FAULT (R189) and FAULT
(R150) are states in which it goes on. No constructor, so no step can fault (log 33). -/
inductive Fault where
  deriving DecidableEq, Repr

/-- Why a command has no meaning. -/
inductive Refusal where
  /-- Raised by an arm of `exec` whose command has no meaning yet; no arm is left in that case. Safe: the model stops
  where the part would go on. -/
  | notModelled (mnemonic : String)
  deriving DecidableEq, Repr

/-! ## Reset values -/

/-- A lane interface after reset (R3, R7, R8, R17 to R19): its receiver is held. -/
def LaneIf.reset : LaneIf :=
  { mode := .held, queue := [], checkError := 0, truncated := 0, framingLost := 0, overrun := 0, unknownKind := 0,
    lengthError := 0, echoRun := 0, quietCount := 0, state := .up }

/-- The nominal measured period, 40 ms of the 25 MHz crystal (R40). -/
def nominalPeriod : Nat := 1000000

/-- The timebase after reset (R40, R47). -/
def Timebase.reset : Timebase :=
  { count := 0, base := 0, elapsed := 0, period := nominalPeriod, monitor := .freeRun, refLost := true,
    loaded := false, loadPending := false, pendingValue := 0, lastSlip := 0, refGlitch := 0, foreignMark := 0 }

/-- A peer record after reset (R48). -/
def Peer.reset (station : Nat) : Peer :=
  { station := station, present := false,
    roles := { origin := false, recovery := false, server := false, control := false, time := false },
    lastSerial := none, since := 0, heardA := 255, heardB := 255,
    est := { valid := false, e := 0, run := 0, sat := false } }

/-- The peer table as it is built: a record for each id from 1 to 62 except the part's own (R48, R183). -/
def peerTable (own : Nat) : List Peer :=
  ((List.range' 1 62).filter (· ≠ own)).map Peer.reset

/-- A channel's mirror after reset (R61, R80, R83). -/
def Mirror.reset : Mirror :=
  { live := [], liveRev := none, digest := 0xFFFF, other := .absent, reference := none, status := .empty,
    rejected := none, short := none, rebuilt := none, clearWaits := false }

/-- A channel context after reset (R84): UNMAPPED (R85). -/
def Context.reset : Context :=
  { state := .unmapped, armed := false, tally := none, standbyStamp := none, seen := false, age := 255, prec := 15,
    anchor := none, cur := none, active := .primary, gen := 0, handback := .absent, openRec := none,
    poolShort := false, dualSeen := false, mirror := Mirror.reset, table := [], bidCount := 0, bidNew := false,
    release := 0, prim := none, alt := none, waitReq := none, followOwed := false }

/-- The transmitter after reset (R22). -/
def Transmitter.reset : Transmitter :=
  { urgent := [], routine := [], bulk := [], flight := none, serial := 0, account := 0, urgentDropped := 0,
    routineDiscarded := 0, bulkNotBuilt := 0, busySkipA := 0, busySkipB := 0 }

/-- The blocks behind the dispatcher after reset (R100, R122, R139, R160, R162, R178 to R180). -/
def Works.reset : Works :=
  { ctx := Vector.replicate 16 Context.reset, join := { queue := [], flight := none }, tx := Transmitter.reset,
    store := { ring := [], writePos := 0, closing := 0, period := 0, cursor := .ring 0 },
    notices := { ring := [], count := 0 }, tag := 1,
    counters := { segmentRange := 0, tallySanity := 0, tallyStale := 0, claimRange := 0, claimTableFull := 0,
                  foreignStatus := 0, unknownController := 0 },
    lastNumbers := Vector.replicate 4 none, reportCount := 0, nextHalf := 0 }

/-- The part right after reset: the reset pin is asserted and every block holds its reset values (R184). The straps
are not read yet, so the peer table holds a record for every id (log 7), and no configuration is installed (log 6). -/
def State.reset : State :=
  { load := .reset, own := 0, cfg := Config.default, clk := Timebase.reset, laneA := LaneIf.reset,
    laneB := LaneIf.reset, isolated := false,
    disp := { badSender := 0, malformed := 0, cueIgnored := 0, notTargeted := 0, foreignTally := 0,
              foreignSegment := 0 },
    peers := peerTable 0, works := Works.reset, due := [], pending := [] }

end Sys2Proof.Machine
end

