-- ==== Sys2Proof/Machine/Flags.lean ====
section
/-! DEFINITION. Counts that hold at their maximum, and the comparisons of the data book: frames, ticks, revisions and
claims. -/

namespace Sys2Proof.Machine

/-- A saturating counter advances by one and holds at its maximum (00 section 4.5). -/
def bump {n : Nat} (c : BitVec n) : BitVec n :=
  if c = BitVec.allOnes n then c else c + 1

/-- The signed difference of two frame numbers (00 section 4.3). -/
def frameDiff (x y : Frame) : Int := (x - y).toInt

/-- Frame x is later than frame y (R125). -/
def later (x y : Frame) : Bool := decide (0 < frameDiff x y)

/-- Frame x is at or later than frame y. -/
def atOrLater (x y : Frame) : Bool := decide (0 ≤ frameDiff x y)

/-- The signed difference of two tick times (00 section 4.3). -/
def tickDiff (x y : Tick) : Int := (x - y).toInt

/-- Revision n is newer than revision m (00 section 4.4). -/
def newer (n m : Half) : Bool := decide (0 < (n - m).toInt)

/-- The stamp frame: the frame part of a stamp (R84). -/
def stampFrame (stamp : Tick) : Frame := BitVec.ofNat 32 (stamp.toNat / 1024)

/-- Rounding of n ÷ d to the nearest integer, ties to the even one (00 section 4.5). -/
def roundDiv (n : Int) (d : Nat) : Int :=
  let q := n / (d : Int)
  let r := n % (d : Int)
  if 2 * r < d then q
  else if (d : Int) < 2 * r then q + 1
  else if q % 2 = 0 then q
  else q + 1

/-- An integer held to a range. -/
def clampInt (lo hi x : Int) : Int := if x < lo then lo else if hi < x then hi else x

/-- The order of claims (R105): is the first claim better than the second? A claim is its kind, precedence and
station. -/
def betterClaim (k1 : ClaimKind) (p1 s1 : Nat) (k2 : ClaimKind) (p2 s2 : Nat) : Bool :=
  match k1, k2 with
  | .hold, .bid => true
  | .bid, .hold => false
  | _, _ => decide (p1 < p2) || (decide (p1 = p2) && decide (s1 < s2))

/-- A rival entry against another (R105). -/
def Rival.better (x y : Rival) : Bool :=
  betterClaim x.kind x.prec x.station y.kind y.prec y.station

/-- The best of a list of rival entries (R105). -/
def bestRival : List Rival → Option Rival
  | [] => none
  | r :: rest =>
    match bestRival rest with
    | none => some r
    | some b => if r.better b then some r else some b

/-- The worst of a list of rival entries (R105). -/
def worstRival : List Rival → Option Rival
  | [] => none
  | r :: rest =>
    match worstRival rest with
    | none => some r
    | some b => if b.better r then some r else some b

/-- The claiming states (R112). -/
def ChState.claiming : ChState → Bool
  | .bidding | .cueing | .onAir | .returning => true
  | _ => false

/-- The states called "on air" as a group (05 section 5.2). -/
def ChState.air : ChState → Bool
  | .cueing | .onAir | .returning => true
  | _ => false

/-- The states in which the main origin is authoritative (R81). -/
def ChState.mainAuthority : ChState → Bool
  | .mirroring | .suspect => true
  | _ => false

/-- The phase of the frame clock, held at 1023 (R35). -/
def Timebase.phase (t : Timebase) : Nat := min 1023 (t.base + t.elapsed * 1024 / t.period)

/-- The local tick time (R35). -/
def Timebase.tick (t : Timebase) : Tick := BitVec.ofNat 42 (t.count.toNat * 1024 + t.phase)

/-! ## Codes of 12 section 12.5 -/

/-- The code of a lane state (R191). -/
def LaneState.code : LaneState → Nat
  | .up => 0
  | .quiet => 1
  | .echoFault => 2

/-- The code of a channel state (R191). -/
def ChState.code : ChState → Nat
  | .unmapped => 0
  | .mirroring => 1
  | .suspect => 2
  | .lost => 3
  | .bidding => 4
  | .yielded => 5
  | .cueing => 6
  | .onAir => 7
  | .returning => 8
  | .fault => 9

/-- The code of a mirror status (R191). -/
def MirrorStatus.code : MirrorStatus → Nat
  | .empty => 0
  | .current => 1
  | .behind => 2
  | .mismatch => 3

/-- The code of an as-run status, 0 for an open record (R191). -/
def AsRunStatus.code : Option AsRunStatus → Nat
  | none => 0
  | some .complete => 1
  | some .shortened => 2
  | some .extended => 3
  | some .handedBack => 4
  | some .yielded => 5
  | some .faulted => 6

/-- The code of a notice kind (R191): the place of its row in the table of R179. -/
def NoticeKind.code : NoticeKind → Nat
  | .originSuspect => 1
  | .originLost => 2
  | .originReturned => 3
  | .bidStart => 4
  | .bidWon => 5
  | .bidYielded => 6
  | .claimLost => 7
  | .takeConfirmed => 8
  | .portSwitch => 9
  | .channelFault => 10
  | .dualAir => 11
  | .handbackSet => 12
  | .handbackPostponed => 13
  | .handbackDone => 14
  | .handbackAborted => 15
  | .revisionCommitted => 16
  | .revisionDeferred => 17
  | .revisionRejected => 18
  | .poolShort => 19
  | .digestMismatch => 20
  | .scheduleExhausted => 21
  | .tallyEventUnknown => 22
  | .clockStep => 23
  | .estimateSaturated => 24
  | .isolated => 25
  | .rejoined => 26
  | .laneState => 27
  | .refLost => 28
  | .refRestored => 29
  | .timeLoaded => 30
  | .timeSlip => 31
  | .directiveTaken => 32
  | .directiveRefused => 33
  | .txDrop => 34
  | .asrunHalf => 35
  | .asrunWrap => 36
  | .configFault => 37

/-- The code of a message kind (12 section 12.2). -/
def MsgKind.code : MsgKind → Nat
  | .tally => 1
  | .segment => 2
  | .claim => 3
  | .cue => 4
  | .portStatus => 5
  | .directive => 6
  | .timeMark => 7
  | .report => 8
  | .asRun => 9

/-- The kind a code names (12 section 12.2). -/
def MsgKind.ofCode : Nat → Option MsgKind
  | 1 => some .tally
  | 2 => some .segment
  | 3 => some .claim
  | 4 => some .cue
  | 5 => some .portStatus
  | 6 => some .directive
  | 7 => some .timeMark
  | 8 => some .report
  | 9 => some .asRun
  | _ => none

/-- The largest payload of a kind (R5). -/
def MsgKind.largest : MsgKind → Nat
  | .tally => 65
  | .segment => 134
  | .claim => 88
  | .cue => 25
  | .portStatus => 49
  | .directive => 4
  | .timeMark => 4
  | .report => 160
  | .asRun => 130

/-- The cause codes of CONFIG_FAULT (R189). -/
def LoadFault.code : LoadFault → Nat
  | .noMemory => 1
  | .checkFailed => 2
  | .strapInvalid => 3

/-! ## Notice parameters (R191) -/

/-- A parameter of single bytes, the first in the most significant place (log 10). -/
def paramBytes (b3 b2 b1 b0 : Nat) : BitVec 32 :=
  BitVec.ofNat 8 b3 ++ BitVec.ofNat 8 b2 ++ BitVec.ofNat 8 b1 ++ BitVec.ofNat 8 b0

/-- A parameter of two 2-byte parts (R191). -/
def paramHalves (hi lo : Half) : BitVec 32 := hi ++ lo

/-- The parameter of CLOCK_STEP: one byte station, then the step as a 24-bit signed value (R191). -/
def paramStep (station : Nat) (step : Int) : BitVec 32 := BitVec.ofNat 8 station ++ BitVec.ofInt 24 step

/-- The parameter of HANDBACK_POSTPONED: the count in the top 2 bits, H peer modulo 2^30 below (R191). -/
def paramPostponed (hPeer : Frame) (count : Nat) : BitVec 32 := BitVec.ofNat 2 count ++ hPeer.setWidth 30

end Sys2Proof.Machine
end

