-- ==== Sys2Proof/Machine/Operands.lean ====
section
/-! DEFINITION. Byte order, the CRC-16 of R2, and the decoding and coding of every message, record and payload by the
layouts of R190 and R191. -/

namespace Sys2Proof.Machine

/-! ## Byte order (R190) -/

/-- The number that a list of bytes spells, most significant byte first. -/
def beNat (bs : List Byte) : Nat := bs.foldl (fun n b => n * 256 + b.toNat) 0

/-- A number as n bytes, most significant first. -/
def beBytes : Nat → Nat → List Byte
  | 0, _ => []
  | n + 1, x => beBytes n (x / 256) ++ [BitVec.ofNat 8 x]

/-- The n bytes at an offset of a payload, as a number. -/
def fieldAt (bs : List Byte) (offset n : Nat) : Nat := beNat ((bs.drop offset).take n)

/-- A bit of a flag byte; bit 0 is the least significant (R190). -/
def flagBit (b : Bool) (n : Nat) : Nat := if b then 2 ^ n else 0

/-! ## The check (R2) -/

/-- One bit enters the CRC register: generator x^16 + x^12 + x^5 + 1, shifting toward the most significant end. -/
def crcShift (r : Nat) : Nat :=
  if r < 0x8000 then (r * 2) % 0x10000 else ((r * 2) % 0x10000) ^^^ 0x1021

/-- One byte enters the register, most significant bit first. -/
def crcByte (r : Nat) (b : Byte) : Nat :=
  crcShift (crcShift (crcShift (crcShift (crcShift (crcShift (crcShift (crcShift (r ^^^ (b.toNat * 256)))))))))

/-- The CRC-16 over a list of bytes, from a register of all ones (R2). -/
def crc16 (bs : List Byte) : Half := BitVec.ofNat 16 (bs.foldl crcByte 0xFFFF)

/-! ## Event records and the digest (R58, R80) -/

/-- The code of a start mode (12 section 12.3). -/
def StartMode.code : StartMode → Nat
  | .follow => 1
  | .fixed => 2

/-- The 16 bytes of an event record (12 section 12.3). -/
def EventRec.bytes (r : EventRec) : List Byte :=
  beBytes 4 r.event.toNat ++ beBytes 4 r.clip.toNat ++ beBytes 1 r.mode.code ++ beBytes 3 r.duration.toNat ++
    beBytes 4 r.startFrame.toNat

/-- The event record that 16 bytes spell, if their start mode names one (R13, R58). -/
def readEvent (bs : List Byte) : Option EventRec :=
  let mode : Option StartMode :=
    match fieldAt bs 8 1 with
    | 1 => some .follow
    | 2 => some .fixed
    | _ => none
  mode.map fun m =>
    { event := BitVec.ofNat 32 (fieldAt bs 0 4), clip := BitVec.ofNat 32 (fieldAt bs 4 4), mode := m,
      duration := BitVec.ofNat 24 (fieldAt bs 9 3), startFrame := BitVec.ofNat 32 (fieldAt bs 12 4) }

/-- The digest of a list: the CRC-16 over its event records in list order (R80). -/
def digestOf (events : List EventRec) : Half := crc16 (events.flatMap EventRec.bytes)

/-- The records of a payload of n records of a size, each read by a function. -/
def readRecords {α : Type} (size : Nat) (read : List Byte → Option α) : Nat → List Byte → Option (List α)
  | 0, bs => if bs.isEmpty then some [] else none
  | n + 1, bs =>
    if bs.length < size then none
    else
      match read (bs.take size), readRecords size read n (bs.drop size) with
      | some x, some xs => some (x :: xs)
      | _, _ => none

/-! ## Received payloads (R13, R190) -/

/-- A SEGMENT (12 section 12.3). -/
structure SegmentMsg where
  bus : Byte
  rev : Half
  index : Nat
  total : Nat
  events : List EventRec
  deriving DecidableEq, Repr

/-- SEGMENT: 6 bytes, then at most 8 event records. -/
def readSegment (bs : List Byte) : Option SegmentMsg :=
  if bs.length < 6 ∨ 8 < fieldAt bs 5 1 then none
  else
    (readRecords 16 readEvent (fieldAt bs 5 1) (bs.drop 6)).map fun evs =>
      { bus := BitVec.ofNat 8 (fieldAt bs 0 1), rev := BitVec.ofNat 16 (fieldAt bs 1 2), index := fieldAt bs 3 1,
        total := fieldAt bs 4 1, events := evs }

/-- A TALLY entry (05 section 5.3). A PLAYING or HOLDING entry without event fields has event id 0 (R190). -/
structure TallyEntry where
  bus : Byte
  phase : TallyPhase
  rev : Half
  digest : Half
  event : Ident
  offset : Frame
  readyFrame : Option Frame
  deriving DecidableEq, Repr

/-- The phase a code names (12 section 12.3). -/
def TallyPhase.ofCode : Nat → Option TallyPhase
  | 0 => some .playing
  | 1 => some .holding
  | 2 => some .standby
  | 3 => some .ready
  | _ => none

/-- The entry length that a presence byte implies (12 section 12.3). -/
def tallyEntryLength : Nat → Option Nat
  | 0 => some 8
  | 1 => some 16
  | 2 => some 12
  | _ => none

/-- One TALLY entry, from exactly its own bytes (12 section 12.3). -/
def readTallyEntry (bs : List Byte) : Option TallyEntry :=
  (TallyPhase.ofCode (fieldAt bs 3 1)).map fun ph =>
    { bus := BitVec.ofNat 8 (fieldAt bs 2 1), phase := ph, rev := BitVec.ofNat 16 (fieldAt bs 4 2),
      digest := BitVec.ofNat 16 (fieldAt bs 6 2),
      event := if fieldAt bs 1 1 = 1 then BitVec.ofNat 32 (fieldAt bs 8 4) else 0,
      offset := if fieldAt bs 1 1 = 1 then BitVec.ofNat 32 (fieldAt bs 12 4) else 0,
      readyFrame := if fieldAt bs 1 1 = 2 then some (BitVec.ofNat 32 (fieldAt bs 8 4)) else none }

/-- The entries of a TALLY: each entry's length byte must be the length its presence byte implies. -/
def readTallyEntries : Nat → List Byte → Option (List TallyEntry)
  | 0, bs => if bs.isEmpty then some [] else none
  | n + 1, bs =>
    match tallyEntryLength (fieldAt bs 1 1) with
    | none => none
    | some len =>
      if bs.length < len ∨ fieldAt bs 0 1 ≠ len then none
      else
        match readTallyEntry (bs.take len), readTallyEntries n (bs.drop len) with
        | some x, some xs => some (x :: xs)
        | _, _ => none

/-- TALLY: a count byte of 1 to 4, then the entries. -/
def readTally (bs : List Byte) : Option (List TallyEntry) :=
  match bs with
  | [] => none
  | n :: rest => if 1 ≤ n.toNat ∧ n.toNat ≤ 4 then readTallyEntries n.toNat rest else none

/-- One CLAIM entry and the bytes after it (12 section 12.4): the kind code decides whether it is 3 or 11 bytes. -/
def readClaimEntry (bs : List Byte) : Option (ClaimEntry × List Byte) :=
  let plain (c : WireClaim) : Option (ClaimEntry × List Byte) :=
    if bs.length < 3 then none
    else some ({ bus := BitVec.ofNat 8 (fieldAt bs 0 1), claim := c, prec := fieldAt bs 2 1 }, bs.drop 3)
  match fieldAt bs 1 1 with
  | 1 => plain .bid
  | 2 => plain .hold
  | 3 => plain .release
  | 4 =>
    if bs.length < 11 then none
    else
      some ({ bus := BitVec.ofNat 8 (fieldAt bs 0 1),
              claim := .handback (BitVec.ofNat 32 (fieldAt bs 3 4)) (BitVec.ofNat 32 (fieldAt bs 7 4)),
              prec := fieldAt bs 2 1 }, bs.drop 11)
  | _ => none

/-- At most n CLAIM entries that take up the whole payload. -/
def readClaims : Nat → List Byte → Option (List ClaimEntry)
  | 0, bs => if bs.isEmpty then some [] else none
  | n + 1, bs =>
    if bs.isEmpty then some []
    else
      match readClaimEntry bs with
      | none => none
      | some (x, rest) => (readClaims n rest).map (x :: ·)

/-- CLAIM: 1 to 8 entries with no count byte. -/
def readClaim (bs : List Byte) : Option (List ClaimEntry) := if bs.isEmpty then none else readClaims 8 bs

/-- The states a port reports (08 section 8.1). -/
inductive PortState where
  | idle
  | armed
  | playing
  | fault
  deriving DecidableEq, Repr

/-- A PORT STATUS entry (12 section 12.4). A tag of 0 is absent (R190). -/
structure PortEntry where
  port : Nat
  state : PortState
  armedTag : Half
  playingTag : Half
  deriving DecidableEq, Repr

/-- The port state a code names (12 section 12.4). -/
def PortState.ofCode : Nat → Option PortState
  | 0 => some .idle
  | 1 => some .armed
  | 2 => some .playing
  | 3 => some .fault
  | _ => none

/-- One PORT STATUS entry from its 6 bytes. -/
def readPortEntry (bs : List Byte) : Option PortEntry :=
  (PortState.ofCode (fieldAt bs 1 1)).map fun st =>
    { port := fieldAt bs 0 1, state := st, armedTag := BitVec.ofNat 16 (fieldAt bs 2 2),
      playingTag := BitVec.ofNat 16 (fieldAt bs 4 2) }

/-- PORT STATUS: a count byte of 1 to 8, then 6-byte entries. -/
def readPortStatus (bs : List Byte) : Option (List PortEntry) :=
  match bs with
  | [] => none
  | n :: rest => if 1 ≤ n.toNat ∧ n.toNat ≤ 8 then readRecords 6 readPortEntry n.toNat rest else none

/-- The ten directive kinds (R172). -/
inductive DirKind where
  | arm
  | disarm
  | forceTake
  | handBack
  | hold
  | resume
  | skip
  | retry
  | clearChannel
  | retime
  deriving DecidableEq, Repr

/-- The code of a directive kind (12 section 12.4). -/
def DirKind.code : DirKind → Nat
  | .arm => 1
  | .disarm => 2
  | .forceTake => 3
  | .handBack => 4
  | .hold => 5
  | .resume => 6
  | .skip => 7
  | .retry => 8
  | .clearChannel => 9
  | .retime => 10

/-- The directive kind a code names (12 section 12.4). -/
def DirKind.ofCode : Nat → Option DirKind
  | 1 => some .arm
  | 2 => some .disarm
  | 3 => some .forceTake
  | 4 => some .handBack
  | 5 => some .hold
  | 6 => some .resume
  | 7 => some .skip
  | 8 => some .retry
  | 9 => some .clearChannel
  | 10 => some .retime
  | _ => none

/-- A DIRECTIVE (R172). -/
structure Directive where
  target : Nat
  number : Byte
  kind : DirKind
  bus : Byte
  deriving DecidableEq, Repr

/-- DIRECTIVE: target, number, kind, bus channel. -/
def readDirective (bs : List Byte) : Option Directive :=
  if bs.length = 4 then
    (DirKind.ofCode (fieldAt bs 2 1)).map fun k =>
      { target := fieldAt bs 0 1, number := BitVec.ofNat 8 (fieldAt bs 1 1), kind := k,
        bus := BitVec.ofNat 8 (fieldAt bs 3 1) }
  else none

/-- TIME MARK: the house frame number M. -/
def readTimeMark (bs : List Byte) : Option Frame :=
  if bs.length = 4 then some (BitVec.ofNat 32 (fieldAt bs 0 4)) else none

/-- Can the CUE layout produce the payload? A CANCEL is 5 bytes, a STOP 9, a TAKE 21 or 25 (12 section 12.4). -/
def cueWellFormed (bs : List Byte) : Bool :=
  match fieldAt bs 2 1 with
  | 1 => bs.length == 21 || bs.length == 25
  | 2 => bs.length == 5
  | 3 => bs.length == 9
  | _ => false

/-- Do the codes of eight 5-byte channel sections at an offset name values of their fields (R190, log 11)? -/
def sectionsWellFormed (bs : List Byte) (offset : Nat) : Bool :=
  (List.range 8).all fun i =>
    decide (fieldAt bs (offset + 5 * i) 1 ≤ 9) && decide (fieldAt bs (offset + 5 * i + 1) 1 ≤ 3)

/-- Do the code bytes of a 10-byte notice place name values of their fields (12 section 12.5, R190, log 11)? The codes
in the parameter are those that the notice's kind gives it. -/
def noticeWellFormed (bs : List Byte) (o : Nat) : Bool :=
  let within (offset lo hi : Nat) : Bool := decide (lo ≤ fieldAt bs (o + offset) 1 ∧ fieldAt bs (o + offset) 1 ≤ hi)
  let number (lo hi : Nat) : Bool := decide (lo ≤ fieldAt bs (o + 2) 4 ∧ fieldAt bs (o + 2) 4 ≤ hi)
  match fieldAt bs o 1 with
  | 2 => within 2 1 3 && (decide (fieldAt bs (o + 2) 1 ≠ 3) || within 3 1 4)
  | 3 => number 0 9
  | 6 => within 3 1 2
  | 9 => number 1 4
  | 10 => within 2 1 4 && within 3 0 1
  | 15 => number 1 5
  | 18 => decide (1 ≤ fieldAt bs (o + 4) 2 ∧ fieldAt bs (o + 4) 2 ≤ 6)
  | 25 => number 1 3
  | 27 => within 2 0 1 && within 3 0 2 && within 4 0 2
  | 32 => within 4 1 10 && within 5 0 0
  | 33 => within 4 1 10 && within 5 1 7
  | 34 => within 2 1 9
  | 37 => number 1 3
  | k => decide (k ≤ 37)

/-- The configuration state of half 0 and the cause of a FAULT (R191, R189): is the state a value, and in FAULT the
cause? -/
def configWellFormed (bs : List Byte) : Bool :=
  match fieldAt bs 2 1 with
  | 1 => true
  | 2 => decide (1 ≤ fieldAt bs 3 1 ∧ fieldAt bs 3 1 ≤ 3)
  | _ => false

/-- Can the REPORT layout produce the payload (R191, R190, log 11)? -/
def reportWellFormed (bs : List Byte) : Bool :=
  (bs.length == 160) &&
    (match fieldAt bs 0 1 with
    | 0 =>
      configWellFormed bs && decide (fieldAt bs 4 1 % 16 ≤ 2) &&
        decide (fieldAt bs 4 1 / 16 ≤ 2) && sectionsWellFormed bs 78
    | 1 => sectionsWellFormed bs 1 && (List.range 4).all fun i => noticeWellFormed bs (41 + 10 * i)
    | _ => false)

/-- Can the AS-RUN layout produce the payload (12 section 12.5, log 11)? -/
def asRunWellFormed (bs : List Byte) : Bool :=
  let n := fieldAt bs 0 1
  decide (1 ≤ n ∧ n ≤ 4) && bs.length == 2 + 32 * n &&
    (List.range n).all fun i => decide (fieldAt bs (2 + 32 * i + 2) 1 ≤ 6)

/-! ## Messages sent (R1, R190, R191) -/

/-- The bytes of a CLAIM entry (12 section 12.4). -/
def ClaimEntry.bytes (x : ClaimEntry) : List Byte :=
  [x.bus] ++
    match x.claim with
    | .bid => beBytes 1 1 ++ beBytes 1 x.prec
    | .hold => beBytes 1 2 ++ beBytes 1 x.prec
    | .release => beBytes 1 3 ++ beBytes 1 x.prec
    | .handback f ev => beBytes 1 4 ++ beBytes 1 x.prec ++ beBytes 4 f.toNat ++ beBytes 4 ev.toNat

/-- The payload of a CUE (12 section 12.4). -/
def Cue.bytes (c : Cue) : List Byte :=
  beBytes 1 c.server ++ beBytes 1 c.port ++
    match c.body with
    | .take ev clip entry k len =>
      beBytes 1 1 ++ beBytes 2 c.tag.toNat ++ beBytes 4 ev.toNat ++ beBytes 4 clip.toNat ++ beBytes 4 entry.toNat ++
        beBytes 4 k.toNat ++ (match len with | some n => beBytes 4 n.toNat | none => [])
    | .cancel => beBytes 1 2 ++ beBytes 2 c.tag.toNat
    | .stop k => beBytes 1 3 ++ beBytes 2 c.tag.toNat ++ beBytes 4 k.toNat

/-- The 32 bytes of an as-run record (12 section 12.5). -/
def AsRunRec.bytes (r : AsRunRec) : List Byte :=
  [r.bus] ++ beBytes 1 r.chan.val ++ beBytes 1 (AsRunStatus.code r.status) ++ beBytes 1 r.server ++
    beBytes 1 r.port ++ [0] ++ beBytes 2 r.tag.toNat ++
    beBytes 2 ((r.closing.map BitVec.toNat).getD 0) ++ beBytes 4 r.event.toNat ++ beBytes 4 r.clip.toNat ++
    beBytes 4 r.entry.toNat ++ beBytes 4 r.start.toNat ++ beBytes 4 ((r.endAt.map BitVec.toNat).getD 0) ++ [0, 0]

/-- The kind of a message sent. -/
def OutMsg.kind : OutMsg → MsgKind
  | .claim _ => .claim
  | .cue _ => .cue
  | .report _ => .report
  | .asRun _ => .asRun

/-- The class of a message sent (R22). -/
def OutMsg.cls : OutMsg → TxClass
  | .claim _ => .urgent
  | .cue _ => .urgent
  | .report _ => .routine
  | .asRun _ => .bulk

/-- The payload of a message sent. -/
def OutMsg.payload : OutMsg → List Byte
  | .claim xs => xs.flatMap ClaimEntry.bytes
  | .cue c => c.bytes
  | .report bs => bs
  | .asRun rs => beBytes 1 rs.length ++ [0] ++ rs.flatMap AsRunRec.bytes

/-- The size of a message: 12 plus the payload length (R1). -/
def OutMsg.size (m : OutMsg) : Nat := 12 + m.payload.length

/-- The bytes of a copy (R1, R29): header with serial and stamp, payload, check. -/
def copyBytes (own : Nat) (serial : Byte) (stamp : Tick) (m : OutMsg) : List Byte :=
  let body := beBytes 1 own ++ beBytes 1 m.kind.code ++ [serial] ++ beBytes 1 m.payload.length ++
    beBytes 6 stamp.toNat ++ m.payload
  body ++ beBytes 2 (crc16 body).toNat

/-- A received byte string judged by R4, in the order of its table. -/
inductive RxVerdict where
  | truncated
  | checkError
  | unknownKind
  | lengthError
  | good (sender : Byte) (kind : MsgKind) (serial : Byte) (stamp : Tick) (payload : List Byte)
  deriving DecidableEq, Repr

/-- The judgement of R4. -/
def judgeReceived (bs : List Byte) : RxVerdict :=
  let len := fieldAt bs 3 1
  if bs.length < 4 ∨ bs.length < 12 + len then .truncated
  else if (crc16 (bs.take (10 + len))).toNat ≠ fieldAt bs (10 + len) 2 then .checkError
  else
    match MsgKind.ofCode (fieldAt bs 1 1) with
    | none => .unknownKind
    | some k =>
      if k.largest < len then .lengthError
      else
        .good (BitVec.ofNat 8 (fieldAt bs 0 1)) k (BitVec.ofNat 8 (fieldAt bs 2 1))
          (BitVec.ofNat 42 (fieldAt bs 4 6)) ((bs.drop 10).take len)

end Sys2Proof.Machine
end

