-- ==== Sys2Proof/Machine/Ops.lean ====
section
/-! DEFINITION. The named reads and updates of the state that every block uses: lanes, peer records, contexts, port
records, notices, and the passes between channel states. -/

namespace Sys2Proof.Machine

/-! ## What a block reads besides its own state -/

/-- What the blocks behind the dispatcher read of the rest of the part. `boundary` says that the work of a frame
boundary is being done; `handover` that the join engine is handing over a result (R124). -/
structure Env where
  cfg : Config
  own : Nat
  now : Frame
  isolated : Bool
  peers : List Peer
  boundary : Bool
  handover : Bool
  deriving DecidableEq, Repr

/-- The environment of an event that is no frame boundary. -/
def State.env (s : State) : Env :=
  { cfg := s.cfg, own := s.own, now := s.clk.count, isolated := s.isolated, peers := s.peers, boundary := false,
    handover := false }

/-- The environment of the work of a frame boundary. -/
def State.boundaryEnv (s : State) : Env := { s.env with boundary := true }

/-- The blocks behind the dispatcher do something. -/
def State.onWorks (s : State) (f : Works → Works) : State := { s with works := f s.works }

/-- The part works: the load has ended, good or in CONFIG_FAULT (R184, R188, R189). -/
def State.running (s : State) : Bool :=
  match s.load with
  | .good _ => true
  | .fault _ => true
  | _ => false

/-! ## Lanes -/

/-- A lane interface. -/
def State.lane (s : State) : Lane → LaneIf
  | .a => s.laneA
  | .b => s.laneB

/-- A lane interface changes. -/
def State.modLane (s : State) (l : Lane) (f : LaneIf → LaneIf) : State :=
  match l with
  | .a => { s with laneA := f s.laneA }
  | .b => { s with laneB := f s.laneB }

/-- The code of a lane in a notice (R191). -/
def laneCode : Lane → Nat
  | .a => 0
  | .b => 1

/-! ## Peer records -/

/-- The record of a station. -/
def findPeer (peers : List Peer) (station : Nat) : Option Peer := peers.find? fun p => p.station == station

/-- The record of a station changes. -/
def modPeer (peers : List Peer) (station : Nat) (f : Peer → Peer) : List Peer :=
  peers.map fun p => if p.station = station then f p else p

/-- A block reads an estimator (R57): e, when it is valid. A station without a record, such as an origin of 0 or the
part's own id, reads as not valid (log 47). -/
def Env.estimate (e : Env) (station : Nat) : Option Int :=
  match findPeer e.peers station with
  | some p => if p.est.valid then some p.est.e else none
  | none => none

/-! ## Contexts -/

/-- A channel's context. -/
def Works.at (w : Works) (c : Chan) : Context := w.ctx[c]

/-- A channel's context changes. -/
def Works.mod (w : Works) (c : Chan) (f : Context → Context) : Works :=
  { w with ctx := w.ctx.set c.val (f w.ctx[c]) c.isLt }

/-- A channel's map entry. -/
def Env.entry (e : Env) (c : Chan) : MapEntry := e.cfg.map[c]

/-- The local channel that an enabled entry of the channel map gives a bus channel (R14). -/
def Config.localOf (cfg : Config) (bus : Byte) : Option Chan :=
  (List.finRange 16).find? fun c => cfg.map[c].enabled && decide (cfg.map[c].bus = bus)

/-- The main-origin tally is fresh (R90). -/
def Env.fresh (e : Env) (x : Context) : Bool := x.seen && decide (x.age.toNat < e.cfg.suspectFrames)

/-- A channel is engaged: BIDDING, CUEING, ON_AIR or RETURNING (R43, R175). -/
def Works.engaged (w : Works) : Bool := (List.finRange 16).any fun c => (w.at c).state.claiming

/-! ## Port records -/

/-- A port record of a channel. -/
def Context.portRec (x : Context) : PortSel → Option PortRec
  | .primary => x.prim
  | .alternate => x.alt

/-- A port record of a channel changes, if the channel has it. -/
def Context.modRec (x : Context) (p : PortSel) (f : PortRec → PortRec) : Context :=
  match p with
  | .primary => { x with prim := x.prim.map f }
  | .alternate => { x with alt := x.alt.map f }

/-- The record of the active port. -/
def Context.activeRec (x : Context) : Option PortRec := x.portRec x.active

/-- The channel's pending TAKE: it stands in the record of the active port (R140). -/
def Context.pending (x : Context) : Option Take := x.activeRec.bind PortRec.pending

/-- A successor cue is pending: a TAKE of source FOLLOW, RESUME or SKIP (R75, log 14). -/
def Context.successorPending (x : Context) : Bool :=
  match x.pending with
  | some t =>
    match t.source with
    | .follow | .resume | .skip => true
    | _ => false
  | none => false

/-- The current event is held. -/
def Context.isHeld (x : Context) : Bool :=
  match x.cur with
  | some ev => ev.held
  | none => false

/-- The handback is SETTLED (R168). -/
def Context.settled (x : Context) : Bool :=
  match x.handback with
  | .agreed .settled _ _ _ _ => true
  | _ => false

/-- The code of a port in CHANNEL_FAULT (R191). -/
def portCode : PortSel → Nat
  | .primary => 0
  | .alternate => 1

/-! ## Notices (R179) -/

/-- A notice is made: written as the newest, overwriting the oldest of 32, and counted. -/
def Works.notice (e : Env) (kind : NoticeKind) (chan : Option Chan) (param : BitVec 32) (w : Works) : Works :=
  { w with notices := { ring := ({ kind := kind, chan := chan, param := param, frame := e.now } :: w.notices.ring).take 32,
                        count := w.notices.count + 1 } }

/-! ## Passes between channel states -/

/-- A channel passes to a state. The release count becomes 2 when it leaves the claiming states and 0 when it enters
them (R112). -/
def Works.moveTo (c : Chan) (st : ChState) (w : Works) : Works :=
  w.mod c fun x =>
    { x with
      state := st
      release :=
        if x.state.claiming && !st.claiming then 2
        else if !x.state.claiming && st.claiming then 0
        else x.release }

/-- A channel leaves BIDDING without winning: own precedence returns to the configured precedence and the bid counter
is no longer kept (R114). -/
def Works.endBid (e : Env) (c : Chan) (st : ChState) (w : Works) : Works :=
  (w.moveTo c st).mod c fun x => { x with prec := (e.entry c).prec, bidCount := 0 }

/-- A bidding channel yields to a station whose claim is of a kind (R115, R116). -/
def Works.yieldBid (e : Env) (c : Chan) (station : Nat) (kind : ClaimKind) (w : Works) : Works :=
  (w.endBid e c .yielded).notice e .bidYielded (some c)
    (paramBytes station (match kind with | .bid => 1 | .hold => 2) 0 0)

/-- The best live HOLD of a claim table. -/
def bestHold (table : List Rival) : Option Rival := bestRival (table.filter fun r => r.kind = .hold)

/-- A channel enters BIDDING (R114), forced at precedence 0 (R117) or at the configured precedence. A live rival HOLD
yields it at once (log 22). -/
def Works.enterBidding (e : Env) (c : Chan) (forced : Bool) (w : Works) : Works :=
  let prec := if forced then 0 else (e.entry c).prec
  let w1 := ((w.moveTo c .bidding).mod c fun x => { x with bidCount := 0, prec := prec, bidNew := e.boundary }).notice
    e .bidStart (some c) (BitVec.ofNat 32 prec)
  match bestHold (w1.at c).table with
  | none => w1
  | some r => w1.yieldBid e c r.station .hold

/-- The outcome of a loss decision (R93): LOST with the code of the first failing condition, YIELDED or BIDDING. -/
inductive LossOutcome where
  | lost (code : Nat)
  | yielded
  | bidding
  deriving DecidableEq, Repr

/-- The four bid conditions and the claim table (R93). -/
def Env.lossOutcome (e : Env) (x : Context) : LossOutcome :=
  if !x.armed then .lost 1
  else if e.isolated then .lost 2
  else if x.mirror.live.isEmpty then .lost 3
  else if x.mirror.status = .mismatch then .lost 4
  else if x.table.any (fun r => r.kind = .hold) then .yielded
  else .bidding

/-- The parameter of ORIGIN_LOST (R191). -/
def LossOutcome.param : LossOutcome → BitVec 32
  | .bidding => paramBytes 1 0 0 0
  | .yielded => paramBytes 2 0 0 0
  | .lost code => paramBytes 3 code 0 0

/-- A channel takes the outcome of the loss decision (R93). -/
def Works.lossDecide (e : Env) (c : Chan) (w : Works) : Works :=
  match e.lossOutcome (w.at c) with
  | .lost _ => w.moveTo c .lost
  | .yielded => w.moveTo c .yielded
  | .bidding => w.enterBidding e c false

/-- A LOST channel makes the loss decision again (R94). -/
def Works.redecide (e : Env) (c : Chan) (w : Works) : Works :=
  if (w.at c).state = .lost then w.lossDecide e c else w

end Sys2Proof.Machine
end

