-- ==== Sys2Proof/Machine/Peers.lean ====
section
/-! DEFINITION. The peer table and the offset estimator (spec 03 sections 3.4 and 3.5). -/

namespace Sys2Proof.Machine

/-- The bound of a sample and of an estimate, 2^31 − 1 ticks (R52). -/
def sampleBound : Int := 2147483647

/-- A value held to the nearer bound, and whether it lay outside (R52, R44). -/
def saturate (x : Int) : Int × Bool :=
  (clampInt (-sampleBound) sampleBound x, decide (x < -sampleBound ∨ sampleBound < x))

/-- A sample formed from a message's arrival tick and stamp (R52): the sample, and whether it is marked saturated. -/
def formSample (linkDelay : Nat) (arrival stamp : Tick) : Int × Bool :=
  saturate (tickDiff arrival stamp - linkDelay)

/-- What a sample does to an estimator: its new value, whether SAT was set from clear (R56), and the step of a restart
(R55). -/
structure Sampled where
  est : Estimator
  satSet : Bool
  step : Option Int
  deriving DecidableEq, Repr

/-- A sample meets an estimator (R53 to R56). -/
def Estimator.take (cfg : Config) (x : Estimator) (s : Int) (marked : Bool) : Sampled :=
  if !x.valid then
    { est := { valid := true, e := s, run := 0, sat := x.sat || marked }, satSet := marked && !x.sat, step := none }
  else
    let d := s - x.e
    if d.natAbs ≤ cfg.outlierLimit then
      { est := { x with e := x.e + roundDiv d (2 ^ cfg.gain), run := 0, sat := x.sat || marked },
        satSet := marked && !x.sat, step := none }
    else if x.run + 1 < 4 then
      { est := { x with run := x.run + 1 }, satSet := false, step := none }
    else
      { est := { x with e := s, run := 0, sat := marked }, satSet := marked && !x.sat,
        step := some (clampInt (-8388607) 8388607 (s - x.e)) }

/-- The role flag of a message kind (R50). -/
def Roles.learn (r : Roles) : MsgKind → Roles
  | .tally | .segment => { r with origin := true }
  | .claim | .cue | .report | .asRun => { r with recovery := true }
  | .portStatus => { r with server := true }
  | .directive => { r with control := true }
  | .timeMark => { r with time := true }

/-- A record's last-heard count for a lane becomes 0 (R11, R12). -/
def Peer.heardOn (p : Peer) : Lane → Peer
  | .a => { p with heardA := 0 }
  | .b => { p with heardB := 0 }

/-- An accepted message updates its sender's record (R12, R50), all but the estimator. -/
def Peer.accept (p : Peer) (l : Lane) (m : RxMsg) : Peer :=
  Peer.heardOn
    { p with present := true, lastSerial := some m.serial, since := 0, roles := p.roles.learn m.kind } l

/-- A message is the other lane's copy of one already accepted from its sender (R11). -/
def Peer.repeats (p : Peer) (m : RxMsg) : Bool :=
  decide (p.lastSerial = some m.serial) && decide (p.since.toNat ≤ 2)

/-- A record's counts at a frame boundary (R49). -/
def Peer.tickOver (p : Peer) : Peer :=
  { p with since := bump p.since, heardA := bump p.heardA, heardB := bump p.heardB }

/-- A peer is heard (R51). -/
def Peer.heard (lossFrames : Nat) (p : Peer) : Bool :=
  p.present && decide (min p.heardA.toNat p.heardB.toNat < lossFrames)

/-- How many heard peers hold a role (R51). -/
def roleCount (lossFrames : Nat) (peers : List Peer) (role : Roles → Bool) : Nat :=
  (peers.filter fun p => p.heard lossFrames && role p.roles).length

/-- An estimator at a time load of Δ frames (R44): held at a bound, it has its SAT flag set (R56). -/
def Estimator.shift (x : Estimator) (delta : Int) : Estimator × Bool :=
  if x.valid then
    let r := saturate (x.e + delta * 1024)
    ({ x with e := r.1, sat := x.sat || r.2 }, r.2 && !x.sat)
  else (x, false)

/-- The peer table at a time load (R44). -/
def shiftPeers (delta : Int) (peers : List Peer) : List Peer :=
  peers.map fun p => { p with est := (p.est.shift delta).1 }

/-- The stations whose SAT flag a time load sets from clear, each with its notice due (R56), in order of station id
(log 37). -/
def shiftSaturates (delta : Int) (peers : List Peer) : List Nat :=
  (peers.filter fun p => (p.est.shift delta).2).map Peer.station

end Sys2Proof.Machine
end

