-- ==== Sys2Proof/Machine/Reference.lean ====
section
/-! DEFINITION. The timebase (spec 03 sections 3.1 to 3.3): the passing of time, the reference monitor, the time load
and the marks. -/

namespace Sys2Proof.Machine

/-! ## Time (R35, R38, R39, log 2) -/

/-- The crystal periods at which the monitor acts by itself: one and a half measured periods after the last accepted
pulse in LOCKED (R38), the completion of the measured period in FREE_RUN (R39). -/
def Timebase.deadline (t : Timebase) : Nat :=
  match t.monitor with
  | .locked => (3 * t.period + 1) / 2
  | .freeRun => ((1024 - t.base) * t.period + 1023) / 1024

/-- Crystal periods pass, at most to the deadline (log 2). -/
def Timebase.advance (t : Timebase) (dt : Nat) : Timebase := { t with elapsed := min (t.elapsed + dt) t.deadline }

/-- The deadline is reached. -/
def Timebase.expired (t : Timebase) : Bool := decide (t.deadline ≤ t.elapsed)

/-- A new frame begins at a phase (R36). -/
def Timebase.roll (t : Timebase) (phase : Nat) : Timebase :=
  { t with count := t.count + 1, base := phase, elapsed := 0 }

/-! ## The reference monitor (R37 to R39) -/

/-- A pulse in LOCKED is a glitch: its interval is less than half the measured period (R37). -/
def Timebase.glitch (t : Timebase) : Bool := decide (2 * t.elapsed < t.period)

/-- An accepted pulse in LOCKED (R37). -/
def Timebase.accept (t : Timebase) : Timebase := { t.roll 0 with period := t.elapsed }

/-- The monitor locks on a pulse in FREE_RUN (R39). -/
def Timebase.lock (t : Timebase) : Timebase := { t with monitor := .locked, refLost := false, base := 0, elapsed := 0 }

/-- The reference is lost (R38). -/
def Timebase.lose (t : Timebase) : Timebase := { t.roll 512 with monitor := .freeRun, refLost := true }

/-! ## The time load (R42 to R44, R46) -/

/-- The load takes the value V at a boundary already counted (R43, R45), and the phase begins at 0 (log 20). -/
def Timebase.take (t : Timebase) : Timebase :=
  { t with count := t.pendingValue, base := 0, elapsed := 0, loaded := true, loadPending := false, lastSlip := 0 }

/-- The load waits (R43). -/
def Timebase.wait (t : Timebase) : Timebase := { t with pendingValue := t.pendingValue + 1 }

/-- The shift Δ of a load, at a boundary already counted (R43). -/
def Timebase.shift (t : Timebase) : Int := frameDiff t.pendingValue t.count

/-- A load is made at the boundary (R43). -/
def State.loadDue (s : State) : Bool := s.clk.loadPending && !s.works.engaged

/-- An arrival tick is shifted by Δ frames (R44). -/
def shiftTick (delta : Int) (t : Tick) : Tick := t + BitVec.ofInt 42 (delta * 1024)

/-- A lane's arrival ticks are shifted, that of a message still being received too (R44, R7). -/
def LaneIf.shift (delta : Int) (x : LaneIf) : LaneIf :=
  { x with
    queue := x.queue.map fun m => { m with arrival := shiftTick delta m.arrival }
    mode := match x.mode with | .receiving a => .receiving (shiftTick delta a) | m => m }

/-- The load is made (R43, R44, R56). -/
def State.makeLoad (s : State) : State :=
  let delta := s.clk.shift
  let s1 :=
    { s with clk := s.clk.take, peers := shiftPeers delta s.peers, laneA := s.laneA.shift delta,
             laneB := s.laneB.shift delta }
  s1.onWorks fun w =>
    (shiftSaturates delta s.peers).foldl
      (fun w station => w.notice s1.boundaryEnv .estimateSaturated none (BitVec.ofNat 32 station))
      (w.notice s1.boundaryEnv .timeLoaded none (BitVec.ofInt 32 delta))

/-- The time-load judgement at a boundary (R43). -/
def State.loadBoundary (s : State) : State :=
  if s.loadDue then s.makeLoad
  else if s.clk.loadPending then { s with clk := s.clk.wait }
  else s

/-- RETIME (R46). -/
def Timebase.retime (t : Timebase) : Timebase := { t with loaded := false, loadPending := false, lastSlip := 0 }

/-- A mark taken while not loaded (R42). -/
def Timebase.pend (t : Timebase) (m : Frame) : Timebase := { t with loadPending := true, pendingValue := m + 1 }

/-- The slip of a mark (R45). -/
def slipOf (arrival : Tick) (m : Frame) : Frame := stampFrame arrival - m

/-- A mark taken while loaded is compared (R45). -/
def State.compareMark (s : State) (arrival : Tick) (m : Frame) : State :=
  let slip := slipOf arrival m
  let s1 := { s with clk := { s.clk with lastSlip := slip } }
  if slip ≠ 0 ∧ slip ≠ s.clk.lastSlip then s1.onWorks fun w => w.notice s.env .timeSlip none slip else s1

/-- A TIME MARK reaches the timebase (R41, R42, R45). -/
def State.takeMark (s : State) (sender : Nat) (arrival : Tick) (m : Frame) : State :=
  if s.cfg.timeStation = 0 ∨ sender ≠ s.cfg.timeStation then
    { s with clk := { s.clk with foreignMark := bump s.clk.foreignMark } }
  else if s.clk.loaded then s.compareMark arrival m
  else { s with clk := s.clk.pend m }

end Sys2Proof.Machine
end

