-- ==== Sys2Proof/Machine/JoinEngine.lean ====
section
/-! DEFINITION. The join engine (spec 07): its request queue, the span rule, and the result of each kind of join. -/

namespace Sys2Proof.Machine

/-! ## Requests and their service (R122, R123) -/

/-- A request of the channel is queued. -/
def Works.queuedJoin (w : Works) (c : Chan) : Option JoinReq := w.join.queue.find? fun r => decide (r.chan = c)

/-- A computation for the channel is in flight. -/
def Works.flyingJoin (w : Works) (c : Chan) : Option JoinReq :=
  match w.join.flight with
  | some f => if f.req.chan = c then some f.req else none
  | none => none

/-- A request of the channel, of a kind that a test accepts, is queued or in flight, or waits with a deferred commit
(R78, log 13). -/
def Works.outstanding (w : Works) (c : Chan) (p : JoinKind → Bool) : Bool :=
  ((w.queuedJoin c).any fun r => p r.kind) || ((w.flyingJoin c).any fun r => p r.kind) ||
    (w.at c).waitReq.any fun r => p r.kind

/-- A request placed at a port switch is queued or in flight for the channel (R175), or waits with a deferred commit
(log 13). -/
def Works.switchOutstanding (w : Works) (c : Chan) : Bool :=
  ((w.queuedJoin c).any fun r => r.atSwitch) || ((w.flyingJoin c).any fun r => r.atSwitch) ||
    (w.at c).waitReq.any fun r => r.atSwitch

/-- What the engine reads at the start of a computation (R123). -/
def Works.snapshot (e : Env) (r : JoinReq) (w : Works) : JoinFlight :=
  let x := w.at r.chan
  { req := r, list := x.mirror.live, cur := x.cur, anchor := x.anchor, tally := x.tally,
    estimate := e.estimate (e.entry r.chan).origin }

/-- The engine begins the oldest request when nothing is in flight (R123); while it hands over a result it begins
nothing (R124). -/
def Works.kick (e : Env) (w : Works) : Works :=
  if e.handover then w
  else
    match w.join.flight, w.join.queue with
    | none, r :: rest => { w with join := { queue := rest, flight := some (w.snapshot e r) } }
    | _, _ => w

/-- The queue after a request is placed (R122): the channel's queued request is replaced in its position, and otherwise
the new one joins as the newest. -/
def enqueue (r : JoinReq) (q : List JoinReq) : List JoinReq :=
  if q.any (fun x => x.chan = r.chan) then q.map fun x => if x.chan = r.chan then r else x else q ++ [r]

/-- The parameter of DIRECTIVE_TAKEN and DIRECTIVE_REFUSED (R191). -/
def directiveParam (sender : Nat) (number : Byte) (kind : DirKind) (reason : Nat) : BitVec 32 :=
  paramBytes sender number.toNat kind.code reason

/-- A REQUESTED handback ends: the HAND BACK is refused with a reason (R166, R177). -/
def Works.refuseRequested (e : Env) (c : Chan) (reason : Nat) (w : Works) : Works :=
  match (w.at c).handback with
  | .requested sender number =>
    (w.mod c fun x => { x with handback := .absent }).notice e .directiveRefused (some c)
      (directiveParam sender number .handBack reason)
  | _ => w

/-- The kinds whose request ends a REQUESTED handback (R166). -/
def JoinKind.endsRequest : JoinKind → Bool
  | .resume | .skip | .rejoin => true
  | _ => false

/-- A request is placed for a channel (R100, R122): the join generation is raised and the request carries it. -/
def Works.placeJoin (e : Env) (c : Chan) (kind : JoinKind) (take : Frame) (curEnd : Option Frame) (atSwitch : Bool)
    (w : Works) : Works :=
  let w1 := if kind.endsRequest then w.refuseRequested e c 3 else w
  let w2 := w1.mod c fun x => { x with gen := x.gen + 1 }
  let r : JoinReq :=
    { chan := c, kind := kind, gen := (w2.at c).gen, take := take, curEnd := curEnd, atSwitch := atSwitch }
  { w2 with join := { w2.join with queue := enqueue r w2.join.queue } }.kick e

/-- The frame P after the local frame (R122). -/
def Env.ahead (e : Env) : Frame := e.now + BitVec.ofNat 32 e.cfg.preroll

/-! ## Frames on two clocks (R125, R129, R137) -/

/-- A local frame on a clock whose estimate is given, an estimator that is not valid being taken as 0: L × 1024 − e
modulo 2^42, divided by 1024 and rounded convergently (R129 steps 1 and 2, R137). -/
def convertFrame (estimate : Option Int) (l : Frame) : Frame :=
  BitVec.ofInt 32 (roundDiv (((l.toNat : Int) * 1024 - estimate.getD 0) % 2 ^ 42) 1024)

/-- A frame at a signed distance from another. -/
def frameAt (base : Frame) (d : Int) : Frame := base + BitVec.ofInt 32 d

/-! ## The span rule (R126 to R128) -/

/-- A stretch of a walk, by its distances from the first frame the walk places (R125). -/
inductive Span where
  /-- An event: list index, record, schedule start, air start, natural end, end. -/
  | event (index : Nat) (r : EventRec) (sched air : Int) (natEnd endAt : Option Int)
  /-- Filler in a gap, from one frame to another. -/
  | gap (start endAt : Int)
  /-- Beyond the last event of the list: its start, and the id of the event passed last. -/
  | tail (start : Int) (last : Ident)
  deriving DecidableEq, Repr

/-- A duration, none when OPEN (R58). -/
def EventRec.length (r : EventRec) : Option Int := if r.duration = 0 then none else some r.duration.toNat

/-- A natural end: schedule start plus duration, or open (R125). -/
def EventRec.natEnd (r : EventRec) (sched : Int) : Option Int := r.length.map (sched + ·)

/-- The end of an event with no imposed end that is not held (R126), from its natural end and the start of a FIXED
successor. -/
def spanEnd (natEnd fixedNext : Option Int) : Option Int :=
  match fixedNext, natEnd with
  | none, n => n
  | some s, none => some s
  | some s, some n => some (min n s)

/-- The start of the first event of a list, when it is FIXED. -/
def nextFixed (fixedAt : EventRec → Int) : List (Nat × EventRec) → Option Int
  | [] => none
  | (_, r) :: _ => match r.mode with | .fixed => some (fixedAt r) | .follow => none

/-- The spans after an end (R127, R128): `fixedAt` gives the distance of a FIXED start, `last` is the id of the event
passed last. An event with an empty span is passed, and an open end is the last span. -/
def spansFrom (fixedAt : EventRec → Int) (endAt : Int) (last : Ident) : List (Nat × EventRec) → List Span
  | [] => [.tail endAt last]
  | (i, r) :: rest =>
    let sched := match r.mode with | .follow => endAt | .fixed => fixedAt r
    let air := max endAt sched
    let nat := r.natEnd sched
    let before := if endAt < air then [Span.gap endAt air] else []
    match spanEnd nat (nextFixed fixedAt rest) with
    | none => before ++ [.event i r sched air nat none]
    | some x =>
      if x ≤ air then before ++ spansFrom fixedAt air r.event rest
      else before ++ .event i r sched air nat (some x) :: spansFrom fixedAt x r.event rest

/-- A span's start. -/
def Span.start : Span → Int
  | .event _ _ _ air _ _ => air
  | .gap s _ => s
  | .tail s _ => s

/-- A span contains a frame: its start is not later and its end is later or open (R130). -/
def Span.contains (s : Span) (d : Int) : Bool :=
  decide (s.start ≤ d) &&
    match s with
    | .event _ _ _ _ _ none => true
    | .event _ _ _ _ _ (some x) => decide (d < x)
    | .gap _ x => decide (d < x)
    | .tail _ _ => true

/-! ## Results (R124) -/

/-- What a computation gives: an event or filler to take, a handback frame, or none. -/
inductive JoinOutcome where
  | take (ev : CurEvent)
  | found (hLocal : Frame) (successor : Ident)
  | noBoundary
  deriving DecidableEq, Repr

/-- A join result, with the anchor of a TAKEOVER and the notices due (R124). -/
structure JoinResult where
  outcome : JoinOutcome
  anchor : Option Frame
  due : List (NoticeKind × BitVec 32)
  deriving DecidableEq, Repr

/-- FILLER from a frame (R124, R132). -/
def fillerAt (clip : Ident) (take : Frame) (endAt : Option Frame) : CurEvent :=
  { place := .filler, event := 0, clip := clip, entry := 0, start := take, endAt := endAt, natEnd := endAt,
    held := false }

/-- The outcome of a span taken at a distance from the walk's first frame, whose local frame is `base`. A walk that
began at FILLER and met no event reports event id 0 (R133, log 17). -/
def Span.outcome (clip : Ident) (base take : Frame) (d : Int) : Span → JoinResult
  | .event i r sched _ nat endAt =>
    { outcome := .take
        { place := .at i, event := r.event, clip := r.clip, entry := BitVec.ofInt 32 (d - sched),
          start := frameAt base sched, endAt := endAt.map (frameAt base), natEnd := nat.map (frameAt base),
          held := false },
      anchor := none, due := [] }
  | .gap _ x => { outcome := .take (fillerAt clip take (some (frameAt base x))), anchor := none, due := [] }
  | .tail _ last =>
    { outcome := .take (fillerAt clip take none), anchor := none, due := [(.scheduleExhausted, last)] }

/-- The list with its indices. -/
def indexed (l : List EventRec) : List (Nat × EventRec) := (List.range l.length).zip l

/-- A list event is FIXED. -/
def EventRec.isFixed (r : EventRec) : Bool :=
  match r.mode with
  | .fixed => true
  | .follow => false

/-- The rescue of R131: filler until the first FIXED start later than J. -/
def rescue (f : JoinFlight) (clip : Ident) (j a : Frame) (due : List (NoticeKind × BitVec 32)) : JoinResult :=
  let stop := (f.list.find? fun r => r.isFixed && later r.startFrame j).map fun r => r.startFrame + a
  { outcome := .take (fillerAt clip f.req.take stop), anchor := some a, due := due }

/-- The origin's frame of a take (R129 steps 1 to 3). -/
def JoinFlight.originFrame (f : JoinFlight) : Frame :=
  let j := convertFrame f.estimate f.req.take
  match f.tally with
  | none => j
  | some t => if later (stampFrame t.stamp) j then stampFrame t.stamp else j

/-- The walk of a TAKEOVER from the tallied event (R130), in distances from B = t − q (log 16). -/
def takeoverSpans (held : Bool) (fixedAt : EventRec → Int) (i : Nat) (r : EventRec) (rest : List (Nat × EventRec)) :
    List Span :=
  let nat := r.natEnd 0
  match (if held then none else spanEnd nat (nextFixed fixedAt rest)) with
  | none => [.event i r 0 0 nat none]
  | some x =>
    if x ≤ 0 then spansFrom fixedAt 0 r.event rest
    else .event i r 0 0 nat (some x) :: spansFrom fixedAt x r.event rest

/-- The result with the held flag of its event set (R130 step 2). -/
def JoinResult.setHeld (r : JoinResult) (held : Bool) : JoinResult :=
  match r.outcome with
  | .take ev => { r with outcome := .take { ev with held := held } }
  | _ => r

/-- TAKEOVER (R129 to R131). A tally offset so large that B seems later than J leaves no span that contains J; the
rescue is then taken (log 40). -/
def JoinFlight.takeover (f : JoinFlight) (clip : Ident) : JoinResult :=
  let j := f.originFrame
  let a := f.req.take - j
  if f.list.isEmpty then
    { outcome := .take (fillerAt clip f.req.take none), anchor := some a, due := [(.scheduleExhausted, 0)] }
  else
    match f.tally with
    | none => rescue f clip j a [(.tallyEventUnknown, 0)]
    | some t =>
      match t.phase, t.event with
      | .standby, _ | .ready, _ | _, none => rescue f clip j a [(.tallyEventUnknown, 0)]
      | ph, some (ev, q) =>
        match (indexed f.list).dropWhile fun p => p.2.event != ev with
        | [] => rescue f clip j a [(.tallyEventUnknown, ev)]
        | (i, r) :: rest =>
          let b := stampFrame t.stamp - q
          let held := decide (ph = .holding)
          let spans := takeoverSpans held (fun x => frameDiff x.startFrame b) i r rest
          let d := frameDiff j b
          match spans.find? fun s => s.contains d with
          | some s => { (s.outcome clip (b + a) f.req.take d).setHeld held with anchor := some a }
          | none => rescue f clip j a [(.tallyEventUnknown, ev)]

/-- The list after the current event (R126, R128): after its index, the whole list when it precedes index 0, and from
the first FIXED event at or later than the filler's end when it is FILLER. -/
def JoinFlight.rest (f : JoinFlight) (ev : CurEvent) (a : Frame) (endAt : Option Frame) : List (Nat × EventRec) :=
  match ev.place with
  | .at i => (indexed f.list).drop (i + 1)
  | .beforeZero => indexed f.list
  | .filler =>
    match endAt with
    | none => []
    | some x => (indexed f.list).dropWhile fun p => !(p.2.isFixed && atOrLater (p.2.startFrame + a) x)

/-- The successor of the current event from an imposed end (R133, R134): the first span that begins there. -/
def JoinFlight.successor (f : JoinFlight) (clip : Ident) (ev : CurEvent) (a t : Frame) : JoinResult :=
  match spansFrom (fun r => frameDiff (r.startFrame + a) t) 0 ev.event (f.rest ev a (some t)) with
  | s :: _ => s.outcome clip t t 0
  | [] => { outcome := .take (fillerAt clip t none), anchor := none, due := [] }

/-- A SKIP of FILLER (R134): T is its imposed end (R126), held or not, and the successor found from T (R128) is pulled
forward to T, as though it followed there. A FIXED start between the recorded end and T is passed over (log 32). -/
def JoinFlight.skipFiller (f : JoinFlight) (clip : Ident) (ev : CurEvent) (a t : Frame) : JoinResult :=
  match f.rest ev a (some t) with
  | [] => { outcome := .take (fillerAt clip t none), anchor := none, due := [] }
  | (i, r) :: rest =>
    match spansFrom (fun x => frameDiff (x.startFrame + a) t) 0 0 ((i, { r with mode := .follow }) :: rest) with
    | s :: _ => s.outcome clip t t 0
    | [] => { outcome := .take (fillerAt clip t none), anchor := none, due := [] }

/-- A held current event, or one whose end is open, has no successor by itself; FOLLOW, RESUME and SKIP impose the
carried end on it (R126, R133, R134). -/
def JoinFlight.imposed (f : JoinFlight) (clip : Ident) (skip : Bool) : JoinResult :=
  let a := f.anchor.getD 0
  match f.cur with
  | none => { outcome := .take (fillerAt clip f.req.take none), anchor := none, due := [] }
  | some ev =>
    if skip && decide (ev.place = .filler) then f.skipFiller clip ev a f.req.take
    else f.successor clip ev a f.req.take

/-- The current event re-taken at the take frame, with its own end and held flag (R135). FILLER keeps its natural end
as an event does (log 45). -/
def retake (ev : CurEvent) (clip : Ident) (take : Frame) : CurEvent :=
  match ev.place with
  | .filler => { fillerAt clip take ev.endAt with natEnd := ev.natEnd, held := ev.held }
  | _ => { ev with entry := take - ev.start }

/-- REJOIN (R135), in distances from the current event's air start (log 16). -/
def JoinFlight.rejoin (f : JoinFlight) (clip : Ident) : JoinResult :=
  let a := f.anchor.getD 0
  match f.cur with
  | none => { outcome := .take (fillerAt clip f.req.take none), anchor := none, due := [] }
  | some ev =>
    let base := ev.start + ev.entry
    let d := frameDiff f.req.take base
    match ev.endAt with
    | none => { outcome := .take (retake ev clip f.req.take), anchor := none, due := [] }
    | some x =>
      if d < frameDiff x base then { outcome := .take (retake ev clip f.req.take), anchor := none, due := [] }
      else
        match (spansFrom (fun r => frameDiff (r.startFrame + a) base) (frameDiff x base) ev.event (f.rest ev a ev.endAt)).find?
            fun s => s.contains d with
        | some s => s.outcome clip base f.req.take d
        | none => { outcome := .take (fillerAt clip f.req.take none), anchor := none, due := [] }

/-- The air start and id of a span that is an event beginning at or after a distance (R136). -/
def Span.boundaryAt (d : Int) : Span → Option (Int × Ident)
  | .event _ r _ air _ _ => if d ≤ air then some (air, r.event) else none
  | _ => none

/-- BOUNDARY (R136), in distances from the current event's air start (log 16). -/
def JoinFlight.boundary (f : JoinFlight) : JoinResult :=
  let a := f.anchor.getD 0
  let none_ : JoinResult := { outcome := .noBoundary, anchor := none, due := [] }
  match f.cur with
  | none => none_
  | some ev =>
    match ev.endAt with
    | none => none_
    | some x =>
      let base := ev.start + ev.entry
      match (spansFrom (fun r => frameDiff (r.startFrame + a) base) (frameDiff x base) ev.event (f.rest ev a ev.endAt)).findSome?
          (Span.boundaryAt (frameDiff f.req.take base)) with
      | some (air, id) => { none_ with outcome := .found (frameAt base air) id }
      | none => none_

/-- The result of a computation (R124), given the channel's filler clip. -/
def JoinFlight.result (f : JoinFlight) (clip : Ident) : JoinResult :=
  match f.req.kind with
  | .takeover => f.takeover clip
  | .follow => f.imposed clip false
  | .resume => f.imposed clip false
  | .skip => f.imposed clip true
  | .rejoin => f.rejoin clip
  | .boundary => f.boundary

/-- The result as it is acted on at delivery, given the current event then: a REJOIN re-takes an event that is held, by
a HOLD taken during the computation too, so that it stays held with its own end (R135, R149, R155; log 46). -/
def JoinFlight.resultFor (f : JoinFlight) (clip : Ident) (cur : Option CurEvent) : JoinResult :=
  match f.req.kind, cur with
  | .rejoin, some ev =>
    if ev.held then { outcome := .take (retake ev clip f.req.take), anchor := none, due := [] } else f.result clip
  | _, _ => f.result clip

end Sys2Proof.Machine
end

