-- ==== Sys2Proof/Machine/Mirror.lean ====
section
/-! DEFINITION. The schedule mirror and the event pool (spec 04): segments, validation, commits, the mirror status. -/

namespace Sys2Proof.Machine

/-! ## The event pool (R60) -/

/-- The slots of the other list. -/
def OtherList.slots : OtherList → Nat
  | .absent => 0
  | .building _ _ segs => (segs.map fun p => p.2.length).sum
  | .ready _ events _ => events.length

/-- The slots a channel's lists take. -/
def Mirror.slots (m : Mirror) : Nat := m.live.length + m.other.slots

/-- The slots that all lists take. -/
def Works.usedSlots (w : Works) : Nat := (w.ctx.toList.map fun x => x.mirror.slots).sum

/-- The free slots of the event pool (R60, log 24). -/
def Works.freeSlots (w : Works) : Nat := 4096 - w.usedSlots

/-! ## Mirror status (R62, R82) -/

/-- A channel's mirror changes. -/
def Works.modMirror (w : Works) (c : Chan) (f : Mirror → Mirror) : Works :=
  w.mod c fun x => { x with mirror := f x.mirror }

/-- The revision number of the other list. -/
def OtherList.rev : OtherList → Option Half
  | .absent => none
  | .building r _ _ => some r
  | .ready r _ _ => some r

/-- The live revision is withdrawn (R62). -/
def Mirror.withdrawn (m : Mirror) : Bool := m.liveRev.isSome && decide (m.other.rev = m.liveRev)

/-- The judgement of R82. -/
def Mirror.judged (m : Mirror) : MirrorStatus :=
  match m.liveRev, m.reference with
  | none, _ => .empty
  | some _, none => .current
  | some v, some (r, d) =>
    if m.withdrawn then .behind
    else if newer r v then .behind
    else if r = v ∧ d = m.digest then .current
    else .mismatch

/-- The mirror status is judged; entry into MISMATCH is noticed (R82). -/
def Works.judgeOnly (e : Env) (c : Chan) (w : Works) : Works :=
  let m := (w.at c).mirror
  let w1 := w.modMirror c fun m => { m with status := m.judged }
  if m.judged = .mismatch ∧ m.status ≠ .mismatch then
    w1.notice e .digestMismatch (some c) (paramHalves ((m.reference.map Prod.fst).getD 0) m.digest)
  else w1

/-- The mirror status is judged, and a change is handed to the channel controller (R82, R94). -/
def Works.judgeStatus (e : Env) (c : Chan) (w : Works) : Works :=
  if (w.at c).mirror.judged = (w.at c).mirror.status then w else (w.judgeOnly e c).redecide e c

/-! ## Commit (R72 to R79) -/

/-- Steps 1 to 7 of R74: the READY list becomes the live list. -/
def Works.commitList (e : Env) (c : Chan) (rev : Half) (events : List EventRec) (w : Works) : Works :=
  let w1 := w.mod c fun x =>
    { x with
      poolShort := false
      mirror :=
        { x.mirror with
          live := events, liveRev := some rev, digest := digestOf events, other := .absent, rejected := none,
          short := none, rebuilt := if x.mirror.liveRev = some rev then some rev else none } }
  ((w1.notice e .revisionCommitted (some c) (paramHalves rev (BitVec.ofNat 16 events.length))).judgeOnly e c).redecide
    e c

/-- A deferred READY list is committed before a FOLLOW, RESUME or SKIP request (R78): the current event then precedes
list index 0; FILLER stays FILLER (log 15). -/
def Works.commitDeferred (e : Env) (c : Chan) (w : Works) : Works :=
  match (w.at c).mirror.other with
  | .ready rev events true =>
    (w.commitList e c rev events).mod c fun x =>
      { x with cur := x.cur.map fun ev => if ev.place = .filler then ev else { ev with place := .beforeZero } }
  | _ => w

/-- After an on-air commit, a FOLLOW request is placed when a successor cue is pending, now or at the delivery of a
request already queued (R75), after a list deferred in the meantime is committed (R77, R133, log 39); none is placed for
an open end (R133) or a SETTLED handback (R168): log 19. With no successor cue pending nothing is placed here, even when
the new end is no more than P away: the next judgement of R154 places the FOLLOW (log 43). -/
def Works.followAfterCommit (e : Env) (c : Chan) (w : Works) : Works :=
  let x := w.at c
  match x.state, x.cur.bind CurEvent.endAt with
  | .onAir, some f | .returning, some f =>
    if !x.successorPending || x.settled then w
    else if (w.queuedJoin c).isSome then w.mod c fun y => { y with followOwed := true }
    else (w.commitDeferred e c).placeJoin e c .follow f (some f) false
  | _, _ => w

/-- The end that an on-air commit gives the current event (R75): the end by the span rule when it is open or at least
now + P + 1, else now + P, or in CUEING the later of that and the frame after the pending take. A pending REJOIN counts
as the pending takeover does, and with no TAKE pending the end is now + P (log 38). -/
def onAirEnd (e : Env) (x : Context) (ruled : Option Frame) : Option Frame :=
  match ruled with
  | none => none
  | some f =>
    if atOrLater f (e.ahead + 1) then some f
    else
      match x.state, x.pending with
      | .cueing, some t => if later (t.takeLocal + 1) e.ahead then some (t.takeLocal + 1) else some e.ahead
      | _, _ => some e.ahead

/-- The context brought onto a new list that holds the current event at an index (R75, log 14). -/
def Context.repoint (e : Env) (x : Context) (ev : CurEvent) (index : Nat) (r : EventRec) (rest : List (Nat × EventRec)) :
    Context :=
  let nat := r.natEnd 0
  let ruled := spanEnd nat (nextFixed (fun s => frameDiff (s.startFrame + x.anchor.getD 0) ev.start) rest)
  let endAt := if ev.held then none else onAirEnd e x (ruled.map (frameAt ev.start))
  { x with cur := some { ev with place := .at index, endAt := endAt, natEnd := nat.map (frameAt ev.start) } }

/-- The context of a channel that airs FILLER, after a commit (R76): the new end is its natural end too (log 44). -/
def Context.refill (e : Env) (x : Context) (ev : CurEvent) (events : List EventRec) : Context :=
  if ev.held then x
  else
    let starts := (events.filter EventRec.isFixed).map fun r => r.startFrame + x.anchor.getD 0
    let endAt := starts.find? fun f => atOrLater f (e.ahead + 1)
    { x with cur := some { ev with endAt := endAt, natEnd := endAt } }

/-- A READY list is committed according to the channel's state and current event (R73 to R77). -/
def Works.commitByState (e : Env) (c : Chan) (rev : Half) (events : List EventRec) (w : Works) : Works :=
  let x := w.at c
  match x.cur with
  | none => w.commitList e c rev events
  | some ev =>
    if !x.state.air then w.commitList e c rev events
    else if ev.place = .filler then
      ((w.commitList e c rev events).mod c fun y => y.refill e ev events).followAfterCommit e c
    else
      match (indexed events).dropWhile fun p => p.2.event != ev.event with
      | (i, r) :: rest =>
        ((w.commitList e c rev events).mod c fun y => y.repoint e ev i r rest).followAfterCommit e c
      | [] =>
        (w.modMirror c fun m => { m with other := .ready rev events true }).notice e .revisionDeferred (some c)
          (rev.setWidth 32)

/-- The channel holds a deferred READY list. -/
def Context.deferred (x : Context) : Bool :=
  match x.mirror.other with
  | .ready _ _ true => true
  | _ => false

/-- A READY list that the channel holds when it leaves air is committed off air, unless a join is in flight on the
channel (R79, R72). -/
def Works.exitCommit (e : Env) (c : Chan) (w : Works) : Works :=
  match (w.at c).mirror.other with
  | .ready rev events _ => if (w.flyingJoin c).isSome then w else w.commitList e c rev events
  | _ => w

/-! ## Clearing (R83) -/

/-- The mirror cleared. -/
def Mirror.cleared : Mirror := Mirror.reset

/-- The mirror of a channel is cleared, or the clearing waits for a join in flight on the channel (R83). -/
def Works.clearMirror (c : Chan) (w : Works) : Works :=
  if (w.flyingJoin c).isSome then w.modMirror c fun m => { m with clearWaits := true }
  else (w.modMirror c fun _ => Mirror.cleared).mod c fun x => { x with poolShort := false }

/-- What waited for a join on the channel is done after the delivery (R72, R79, R83, R124 step 2, log 25). -/
def Works.afterJoin (e : Env) (c : Chan) (w : Works) : Works :=
  let x := w.at c
  if x.mirror.clearWaits then w.clearMirror c
  else
    match x.mirror.other with
    | .ready rev events false => w.commitByState e c rev events
    | .ready rev events true =>
      if !x.state.air then w.commitList e c rev events
      else if x.waitReq.isSome then w.commitDeferred e c
      else w
    | _ => w

/-! ## Validation and rejection (R70, R71) -/

/-- For each FIXED event, the next FIXED event starts later (R70 check 3). -/
def fixedOrder : List EventRec → Bool
  | [] => true
  | r :: rest =>
    (match r.mode, rest.find? EventRec.isFixed with
    | .fixed, some s => later s.startFrame r.startFrame
    | _, _ => true) && fixedOrder rest

/-- An OPEN event is last or followed by a FIXED event (R70 check 4). -/
def openOrder : List EventRec → Bool
  | [] => true
  | [_] => true
  | r :: s :: rest => (!decide (r.duration = 0) || s.isFixed) && openOrder (s :: rest)

/-- The reason code of the first check that a list fails (R70, R71), or none. -/
def validate (events : List EventRec) : Option Nat :=
  if events.any fun r => r.event = 0 then some 3
  else if ¬(events.map EventRec.event).Nodup then some 4
  else if !fixedOrder events then some 5
  else if !openOrder events then some 6
  else none

/-- The BUILDING list is discarded, and a withdrawal it held ends (R67, R71, R68). -/
def Works.dropOther (e : Env) (c : Chan) (f : Mirror → Mirror) (after : Works → Works) (w : Works) : Works :=
  let wasWithdrawn := (w.at c).mirror.withdrawn
  let w1 := after (w.modMirror c fun m => f { m with other := .absent })
  if wasWithdrawn then w1.judgeStatus e c else w1

/-- A revision is rejected with a reason (R71). -/
def Works.reject (e : Env) (c : Chan) (rev : Half) (reason : Nat) (w : Works) : Works :=
  w.dropOther e c (fun m => { m with rejected := some rev })
    fun x => x.notice e .revisionRejected (some c) (paramHalves rev (BitVec.ofNat 16 reason))

/-- A collection is abandoned for want of slots (R68). -/
def Works.abandon (e : Env) (c : Chan) (rev : Half) (w : Works) : Works :=
  w.dropOther e c (fun m => { m with short := some rev }) fun x =>
    (x.mod c fun y => { y with poolShort := true }).notice e .poolShort (some c)
      (paramHalves rev (BitVec.ofNat 16 x.freeSlots))

/-! ## Taking a segment (R63 to R69) -/

/-- The events of a complete collection, in index order (R59). -/
def collected (total : Nat) (segs : List (Nat × List EventRec)) : List EventRec :=
  (List.range total).flatMap fun i => ((segs.find? fun p => p.1 == i).map Prod.snd).getD []

/-- Every index from 0 to total − 1 has been received (R64 step 5). -/
def allReceived (total : Nat) (segs : List (Nat × List EventRec)) : Bool :=
  (List.range total).all fun i => segs.any fun p => p.1 == i

/-- A complete list is validated, and is rejected or becomes READY and is offered to commit (R70, R72, R73). -/
def Works.complete (e : Env) (c : Chan) (rev : Half) (events : List EventRec) (w : Works) : Works :=
  match validate events with
  | some reason => w.reject e c rev reason
  | none =>
    let w1 := w.modMirror c fun m => { m with other := .ready rev events false }
    if (w1.flyingJoin c).isSome then w1 else w1.commitByState e c rev events

/-- Steps 3 to 5 of R64: a segment is added to the BUILDING list. -/
def Works.addSegment (e : Env) (c : Chan) (m : SegmentMsg) (w : Works) : Works :=
  match (w.at c).mirror.other with
  | .building rev total segs =>
    if m.index + 1 < total ∧ m.events.length ≠ 8 then w.reject e c rev 2
    else if w.freeSlots < m.events.length then w.abandon e c rev
    else
      let segs1 := segs ++ [(m.index, m.events)]
      let w1 := w.modMirror c fun x => { x with other := .building rev total segs1 }
      if allReceived total segs1 then w1.complete e c rev (collected total segs1) else w1
  | _ => w

/-- A new BUILDING list is started with the segment (R66); a rebuild withdraws the live revision (R67). -/
def Works.startBuilding (e : Env) (c : Chan) (m : SegmentMsg) (w : Works) : Works :=
  let w1 := w.modMirror c fun x => { x with other := .building m.rev m.total [] }
  let w2 := if (w1.at c).mirror.withdrawn then w1.judgeStatus e c else w1
  w2.addSegment e c m

/-- The last three cases of R66: a segment of a newer revision starts a collection, one of the live revision in
MISMATCH starts a rebuild, and another is ignored. -/
def Works.startIfWanted (e : Env) (c : Chan) (m : SegmentMsg) (w : Works) : Works :=
  let x := (w.at c).mirror
  match x.liveRev with
  | none => w.startBuilding e c m
  | some v =>
    if newer m.rev v then w.startBuilding e c m
    else if m.rev = v ∧ x.status = .mismatch ∧ x.rebuilt ≠ some v then w.startBuilding e c m
    else w

/-- A segment of a newer revision supersedes the other list (R65). -/
def Works.supersede (e : Env) (c : Chan) (m : SegmentMsg) (w : Works) : Works :=
  (w.dropOther e c (fun x => { x with short := none, rebuilt := none }) id).startBuilding e c m

/-- A segment meets a channel that holds no other list (R66, R69). -/
def Works.freshSegment (e : Env) (c : Chan) (m : SegmentMsg) (w : Works) : Works :=
  match (w.at c).mirror.short with
  | none => w.startIfWanted e c m
  | some h =>
    let forget := w.modMirror c fun x => { x with short := none }
    if m.rev = h then
      if m.index = 0 ∧ m.total * 8 ≤ w.freeSlots then forget.startIfWanted e c m else w
    else if newer m.rev h then forget.startBuilding e c m
    else w

/-- A segment that passed R63 (R64 to R66). -/
def Works.routeSegment (e : Env) (c : Chan) (m : SegmentMsg) (w : Works) : Works :=
  match (w.at c).mirror.other with
  | .building rev total segs =>
    if m.rev = rev then
      if segs.any (fun p => p.1 == m.index) then w
      else if m.total ≠ total then w.reject e c rev 1
      else w.addSegment e c m
    else if newer m.rev rev then w.supersede e c m
    else w
  | .ready rev _ _ => if newer m.rev rev then w.supersede e c m else w
  | .absent => w.freshSegment e c m

/-- The mirror takes an admitted SEGMENT for a channel (R63). -/
def Works.takeSegment (e : Env) (c : Chan) (m : SegmentMsg) (w : Works) : Works :=
  if m.total = 0 ∨ 32 < m.total ∨ m.total ≤ m.index then
    { w with counters := { w.counters with segmentRange := bump w.counters.segmentRange } }
  else
    match (w.at c).mirror.rejected with
    | some r => if m.rev = r then w else (w.modMirror c fun x => { x with rejected := none }).routeSegment e c m
    | none => w.routeSegment e c m

/-- A TALLY entry reaches the mirror (R81): from the authoritative origin, it replaces the reference and the status is
judged again. -/
def Works.takeReference (e : Env) (c : Chan) (main : Bool) (rev digest : Half) (w : Works) : Works :=
  if (w.at c).state.mainAuthority = main then
    (w.modMirror c fun m => { m with reference := some (rev, digest) }).judgeStatus e c
  else w

end Sys2Proof.Machine
end

