-- ==== Sys2Proof/Machine/Transmit.lean ====
section
/-! DEFINITION. The transmitter (spec 02): the choice of the next message, the placements of each class, completion,
and the occupancy account. -/

namespace Sys2Proof.Machine

/-! ## Choice of the next message (R27, R28) -/

/-- A message is picked: it takes the serial counter's value, each lane holds a copy that waits, and the counter
advances (R28, R29). -/
def Transmitter.launch (t : Transmitter) (cls : TxClass) (m : OutMsg) : Transmitter :=
  { t with flight := some { cls := cls, msg := m, serial := t.serial, copyA := .waiting 0, copyB := .waiting 0 },
           serial := t.serial + 1 }

/-- The third step of the pick: BULK, at or below limit div 2. -/
def Transmitter.pickBulk (cfg : Config) (t : Transmitter) : Transmitter :=
  match t.bulk with
  | [] => t
  | m :: rest => if t.account ≤ cfg.limit / 2 then { t with bulk := rest }.launch .bulk m else t

/-- The pick of R27: nothing changes while a message is in flight, or when no step yields a message. -/
def Transmitter.pick (cfg : Config) (t : Transmitter) : Transmitter :=
  match t.flight with
  | some _ => t
  | none =>
    match t.urgent with
    | m :: rest => { t with urgent := rest }.launch .urgent m
    | [] =>
      match t.routine with
      | m :: rest => if t.account ≤ cfg.limit then { t with routine := rest }.launch .routine m else t.pickBulk cfg
      | [] => t.pickBulk cfg

/-- How many places of a class's queue the message in flight takes (R22). -/
def Transmitter.flying (t : Transmitter) (cls : TxClass) : Nat :=
  match t.flight with
  | some f => if f.cls = cls then 1 else 0
  | none => 0

/-! ## Placement (R23 to R26) -/

/-- A message is a CLAIM. -/
def OutMsg.isClaim : OutMsg → Bool
  | .claim _ => true
  | _ => false

/-- A message is a CUE to a server and port (R24). -/
def OutMsg.isCueTo (server port : Nat) : OutMsg → Bool
  | .cue c => decide (c.server = server) && decide (c.port = port)
  | _ => false

/-- The transmitter after a claim set is placed (R23), before any pick. -/
def Transmitter.withClaims (t : Transmitter) (msgs : List OutMsg) : Transmitter :=
  let others := t.urgent.filter fun m => !m.isClaim
  let fit := msgs.take (16 - (others.length + t.flying .urgent))
  let at_ := (t.urgent.takeWhile fun m => !m.isClaim).length
  { t with
    urgent := others.take at_ ++ fit ++ others.drop at_
    urgentDropped := (msgs.drop fit.length).foldl (fun n _ => bump n) t.urgentDropped }

/-- How many messages of a claim set do not fit (R23). -/
def Transmitter.claimsDropped (t : Transmitter) (msgs : List OutMsg) : Nat :=
  msgs.length - (16 - ((t.urgent.filter fun m => !m.isClaim).length + t.flying .urgent))

/-- A claim set is placed (R23): each dropped message is noticed (R32), and the pick is made (R27). -/
def Works.placeClaims (e : Env) (msgs : List OutMsg) (w : Works) : Works :=
  let w1 := { w with tx := w.tx.withClaims msgs }
  let w2 := (List.range (w.tx.claimsDropped msgs)).foldl
    (fun x _ => x.notice e .txDrop none (paramBytes MsgKind.claim.code 0 0 0)) w1
  { w2 with tx := w2.tx.pick e.cfg }

/-- The unsent CUE for the same server and port is replaced in its position (R24). -/
def replaceCue (server port : Nat) (new : OutMsg) : List OutMsg → List OutMsg
  | [] => []
  | m :: rest => if m.isCueTo server port then new :: rest else m :: replaceCue server port new rest

/-- A CUE is placed (R24). -/
def Works.placeCue (e : Env) (c : Cue) (w : Works) : Works :=
  let t := w.tx
  if t.urgent.any (OutMsg.isCueTo c.server c.port) then
    { w with tx := { t with urgent := replaceCue c.server c.port (.cue c) t.urgent }.pick e.cfg }
  else if t.urgent.length + t.flying .urgent < 16 then
    { w with tx := { t with urgent := t.urgent ++ [OutMsg.cue c] }.pick e.cfg }
  else
    { w with tx := { t with urgentDropped := bump t.urgentDropped } }.notice e .txDrop none
      (paramBytes MsgKind.cue.code c.server c.port 0)

/-- A REPORT is placed (R25). -/
def Works.placeReport (e : Env) (payload : List Byte) (w : Works) : Works :=
  let t := w.tx
  if t.routine.length + t.flying .routine < 4 then
    { w with tx := { t with routine := t.routine ++ [OutMsg.report payload] }.pick e.cfg }
  else
    { w with tx := { t with routine := t.routine.drop 1 ++ [OutMsg.report payload],
                            routineDiscarded := bump t.routineDiscarded }.pick e.cfg }

/-- The BULK queue has room (R26). -/
def Transmitter.bulkRoom (t : Transmitter) : Bool := decide (t.bulk.length + t.flying .bulk < 2)

/-- An AS-RUN is placed (R26). -/
def Works.placeAsRun (e : Env) (records : List AsRunRec) (w : Works) : Works :=
  { w with tx := { w.tx with bulk := w.tx.bulk ++ [OutMsg.asRun records] }.pick e.cfg }

/-! ## Copies, completion and the account (R29 to R31) -/

/-- A lane's copy. -/
def TxFlight.copy (f : TxFlight) : Lane → Copy
  | .a => f.copyA
  | .b => f.copyB

/-- A lane's copy changes. -/
def TxFlight.setCopy (f : TxFlight) (l : Lane) (c : Copy) : TxFlight :=
  match l with
  | .a => { f with copyA := c }
  | .b => { f with copyB := c }

/-- A copy has been sent or abandoned (R30). -/
def Copy.over : Copy → Bool
  | .sent => true
  | .abandoned => true
  | _ => false

/-- The charge of a completed message (R30, R31): its size times ratio when a copy was sent, held at clip. -/
def Transmitter.charge (cfg : Config) (t : Transmitter) (f : TxFlight) : Transmitter :=
  if f.copyA = .sent ∨ f.copyB = .sent then
    { t with account := min cfg.clip (t.account + f.msg.size * cfg.ratio) }
  else t

/-- A lane's copy of the message in flight changes; if both copies are then over, the message is complete: it is
charged, removed, and the pick is made (R30). -/
def Transmitter.copyDone (cfg : Config) (t : Transmitter) (f : TxFlight) (l : Lane) (c : Copy) : Transmitter :=
  let f1 := f.setCopy l c
  if f1.copyA.over && f1.copyB.over then { (t.charge cfg f1) with flight := none }.pick cfg
  else { t with flight := some f1 }

/-- The account at a frame boundary (R31). -/
def Transmitter.decay (cfg : Config) (t : Transmitter) : Transmitter :=
  { t with account := t.account - cfg.decrement }.pick cfg

/-- The busy-skip counter of a lane advances (R29, R32). -/
def Transmitter.skipCopy (t : Transmitter) : Lane → Transmitter
  | .a => { t with busySkipA := bump t.busySkipA }
  | .b => { t with busySkipB := bump t.busySkipB }

/-- The busy count of a lane's waiting copy at a frame boundary (R29): at 2 the copy is abandoned. When that completes
the message (R30), the copy of the next one on a lane whose busy work is still to come counts this boundary (log 36). -/
def Transmitter.busyBoundary (cfg : Config) (l : Lane) (t : Transmitter) : Transmitter :=
  match t.flight with
  | none => t
  | some f =>
    match f.copy l with
    | .waiting n =>
      if 2 ≤ n + 1 then (t.skipCopy l).copyDone cfg f l .abandoned
      else { t with flight := some (f.setCopy l (.waiting (n + 1))) }
    | _ => t

end Sys2Proof.Machine
end

