-- ==== Sys2Proof/Machine/Air.lean ====
section
/-! DEFINITION. A channel on air (spec 05 sections 5.7 to 5.9, 08, 09): cues and port records, port faults, take
confirmation, follow-on cueing, exits from air, as-run records, handback, and the delivery of join results. -/

namespace Sys2Proof.Machine

/-! ## As-run store (R159 to R161, R163) -/

/-- A closed record is appended to the ring (R160), and the cursor stays on the item it named (R163). -/
def AsRunStore.append (r : AsRunRec) (s : AsRunStore) : AsRunStore :=
  let full := decide (512 ≤ s.ring.length)
  { s with
    ring := (if full then s.ring.drop 1 else s.ring) ++ [{ r with closing := some s.closing }]
    writePos := (s.writePos + 1) % 512
    closing := s.closing + 1
    cursor :=
      match full, s.cursor with
      | true, .ring (k + 1) => .ring k
      | _, cur => cur }

/-- A closed record passes to the store; the write position reaching 256 or 0 is noticed (R161). -/
def Works.appendRecord (e : Env) (r : AsRunRec) (w : Works) : Works :=
  let n := w.store.closing.setWidth 32
  let w1 := { w with store := w.store.append r }
  if w1.store.writePos = 256 then w1.notice e .asrunHalf none n
  else if w1.store.writePos = 0 then w1.notice e .asrunWrap none n
  else w1

/-- A channel's open record is closed with an end and a status, and appended (R159). -/
def Works.closeRecord (e : Env) (c : Chan) (endAt : Frame) (status : AsRunStatus) (w : Works) : Works :=
  match (w.at c).openRec with
  | none => w
  | some r =>
    (w.mod c fun x => { x with openRec := none }).appendRecord e
      { r with endAt := some endAt, status := some status }

/-- The status of a record closed at a take on its own port (R153). -/
def closingStatus (takeLocal : Frame) (natEnd : Option Frame) : AsRunStatus :=
  match natEnd with
  | none => .complete
  | some n => if takeLocal = n then .complete else if later n takeLocal then .shortened else .extended

/-! ## Cues (R138, R139, R143, R145, R157) -/

/-- The play length of a TAKE: its outcome's end minus its take local, or absent (R143). -/
def Take.playLength (t : Take) : Option Frame := t.outcome.endAt.map fun f => f - t.takeLocal

/-- The CUE that announces a TAKE on a port (R138). -/
def Take.cue (t : Take) (r : PortRec) : Cue :=
  { server := r.server, port := r.port, tag := t.tag,
    body := .take t.outcome.event t.outcome.clip t.outcome.entry t.k t.playLength }

/-- A CANCEL for a TAKE (R138). -/
def Take.cancel (t : Take) (r : PortRec) : Cue := { server := r.server, port := r.port, tag := t.tag, body := .cancel }

/-- A STOP for a port at a local frame, with its on-air tag (R138). -/
def PortRec.stop (e : Env) (r : PortRec) (stopLocal : Frame) : Cue :=
  { server := r.server, port := r.port, tag := r.onAirTag,
    body := .stop (convertFrame (e.estimate r.server) stopLocal) }

/-- The cue tag after one: from 65,535 to 1 (R139). -/
def nextTag (t : Half) : Half := if t = 0xFFFF then 1 else t + 1

/-- A CANCEL is placed for the pending TAKE, which ceases to be pending. -/
def Works.cancelPending (e : Env) (c : Chan) (w : Works) : Works :=
  match (w.at c).activeRec with
  | none => w
  | some r =>
    match r.pending with
    | none => w
    | some t =>
      (w.placeCue e (t.cancel r)).mod c fun x => x.modRec x.active fun p => { p with pending := none }

/-- The countdowns of a TAKE placed now (R143 step 5). -/
def takeCounts (e : Env) (takeLocal : Frame) : Nat × Nat :=
  let arm := max 1 (frameDiff (takeLocal - 1) e.now).toNat
  (arm, max (arm + 1) (frameDiff (takeLocal + BitVec.ofNat 32 e.cfg.confirmFrames) e.now).toNat)

/-- A TAKE is placed on the channel's active port (R143). -/
def Works.placeTake (e : Env) (c : Chan) (source : JoinKind) (takeLocal : Frame) (ev : CurEvent) (w : Works) : Works :=
  let w1 := (w.cancelPending e c).mod c fun x => x.modRec x.active fun p => { p with withdrawn := none }
  match (w1.at c).activeRec with
  | none => w1
  | some r =>
    let counts := takeCounts e takeLocal
    let t : Take :=
      { tag := w1.tag, source := source, takeLocal := takeLocal,
        k := convertFrame (e.estimate r.server) takeLocal, outcome := ev, seen := false, armCount := counts.1,
        takeCount := counts.2 }
    ({ w1 with tag := nextTag w1.tag }.placeCue e (t.cue r)).mod c fun x =>
      x.modRec x.active fun p => { p with pending := some t }

/-- After a CLOCK_STEP of its server, a port's pending TAKE is converted again, and replaced under a new tag when its K
changes (R145). -/
def Works.reconvert (e : Env) (station : Nat) (c : Chan) (p : PortSel) (w : Works) : Works :=
  match (w.at c).portRec p with
  | none => w
  | some r =>
    match r.pending with
    | none => w
    | some t =>
      let k := convertFrame (e.estimate station) t.takeLocal
      if r.server = station ∧ k ≠ t.k then
        let t1 := { t with tag := w.tag, k := k, seen := false }
        ({ w with tag := nextTag w.tag }.placeCue e (t1.cue r)).mod c fun x =>
          x.modRec p fun q => { q with pending := some t1 }
      else w

/-- Every pending TAKE is examined after a CLOCK_STEP (R145), in order of local channel, the primary port before the
alternate (log 37). -/
def Works.clockStep (e : Env) (station : Nat) (w : Works) : Works :=
  (List.finRange 16).foldl
    (fun w c => (w.reconvert e station c .primary).reconvert e station c .alternate) w

/-- The closing cues of a stretch of air (R157): a CANCEL for the pending TAKE, then a STOP on the active port. -/
def Works.closingCues (e : Env) (c : Chan) (stopLocal : Frame) (w : Works) : Works :=
  let w1 := w.cancelPending e c
  match (w1.at c).activeRec with
  | none => w1
  | some r => w1.placeCue e (r.stop e stopLocal)

/-! ## Leaving air (R99, R120, R150) -/

/-- A port record at an exit from air (R157). -/
def PortRec.cleared (r : PortRec) : PortRec := { r with pending := none, onAirTag := 0, withdrawn := none }

/-- The exit from air (R99): the generation is raised, the cause's cues and closing are made, the air fields become
absent, and a READY list is committed. A HAND BACK still REQUESTED is refused (R166). -/
def Works.leaveAir (e : Env) (c : Chan) (st : ChState) (closing : Works → Works) (w : Works) : Works :=
  let w1 := ((w.refuseRequested e c 3).moveTo c st).mod c fun x => { x with gen := x.gen + 1 }
  let w2 := (closing w1).mod c fun x =>
    { x with
      prim := x.prim.map PortRec.cleared, alt := x.alt.map PortRec.cleared, cur := none, anchor := none,
      handback := .absent, prec := (e.entry c).prec, waitReq := none, followOwed := false }
  w2.exitCommit e c

/-- The cues and the closing of the record at an exit whose stop is now + 1 (R120, R150). -/
def Works.stopNow (e : Env) (c : Chan) (status : AsRunStatus) (w : Works) : Works :=
  (w.closingCues e c (e.now + 1)).closeRecord e c (e.now + 1) status

/-- A channel yields from air to a better rival HOLD (R119, R120): CLAIM_LOST stands before the refusal of a HAND BACK
still REQUESTED (log 37). -/
def Works.yieldAir (e : Env) (c : Chan) (r : Rival) (w : Works) : Works :=
  (w.notice e .claimLost (some c) (paramBytes r.station r.prec 0 0)).leaveAir e c .yielded
    fun x => x.stopNow e c .yielded

/-! ## Follow-on cueing and imposed ends (R154, R156, R78) -/

/-- A FOLLOW request is placed for the current end, after a deferred list is committed (R154, R78). -/
def Works.placeFollow (e : Env) (c : Chan) (endAt : Frame) (w : Works) : Works :=
  (w.commitDeferred e c).placeJoin e c .follow endAt (some endAt) false

/-- A FOLLOW request is due (R154): the end it is due for. -/
def Works.followDue (e : Env) (c : Chan) (w : Works) : Option Frame :=
  let x := w.at c
  match x.state, x.cur.bind CurEvent.endAt with
  | .onAir, some f | .returning, some f =>
    if atOrLater e.ahead f && x.pending.isNone && !x.settled && !(w.outstanding c fun _ => true) then some f else none
  | _, _ => none

/-- Follow-on cueing is judged (R154). -/
def Works.followJudge (e : Env) (c : Chan) (w : Works) : Works :=
  match w.followDue e c with
  | some f => w.placeFollow e c f
  | none => w

/-- A RESUME or SKIP request is placed with T = now + P, after a deferred list is committed; with a join in flight on
the channel the commit waits, and the request with it (R78, R156). It takes the place of a request that waited
(log 13). -/
def Works.requestImposed (e : Env) (c : Chan) (kind : JoinKind) (atSwitch : Bool) (w : Works) : Works :=
  if (w.at c).deferred && (w.flyingJoin c).isSome then
    w.mod c fun x => { x with waitReq := some { kind := kind, atSwitch := atSwitch } }
  else
    ((w.mod c fun x => { x with waitReq := none }).commitDeferred e c).placeJoin e c kind e.ahead (some e.ahead) atSwitch

/-- A request that waited with a deferred commit is placed (R124 step 3), if the channel is still on air. A list that
took the deferred one's place while the request waited, and was itself deferred at this handover, is committed first
(R78, R134, R156; log 13). -/
def Works.placeWaiting (e : Env) (c : Chan) (w : Works) : Works :=
  match (w.at c).waitReq with
  | none => w
  | some r =>
    let w1 := w.mod c fun x => { x with waitReq := none }
    if (w.at c).state.air then (w1.commitDeferred e c).placeJoin e c r.kind e.ahead (some e.ahead) r.atSwitch
    else w1

/-- A kind of request that imposes an end: RESUME or SKIP. -/
def JoinKind.imposes : JoinKind → Bool
  | .resume | .skip => true
  | _ => false

/-- The kind of the newest RESUME or SKIP request that waits, is queued or is in flight for the channel (R149, log 41).
One that waits was made after one that is queued, and one that is queued after one in flight. -/
def Works.imposedKind (w : Works) (c : Chan) : Option JoinKind :=
  ([(w.at c).waitReq.map WaitReq.kind, (w.queuedJoin c).map JoinReq.kind, (w.flyingJoin c).map JoinReq.kind].filterMap
    id).find? JoinKind.imposes

/-! ## Handback (R165 to R171) -/

/-- A handback is aborted with a reason code (R171). -/
def Works.abortHandback (e : Env) (c : Chan) (reason : Nat) (w : Works) : Works :=
  ((w.moveTo c .onAir).mod c fun x => { x with handback := .absent, dualSeen := false }).notice e .handbackAborted
    (some c) (BitVec.ofNat 32 reason)

/-- A BOUNDARY request is placed (R165, R170). -/
def Works.placeBoundary (e : Env) (c : Chan) (w : Works) : Works :=
  w.placeJoin e c .boundary (e.now + BitVec.ofNat 32 e.cfg.handbackLead) none false

/-- A BOUNDARY result meets a REQUESTED handback (R166). -/
def Works.settleRequest (e : Env) (c : Chan) (sender : Nat) (number : Byte) (o : JoinOutcome) (w : Works) : Works :=
  let x := w.at c
  if x.isHeld then w.refuseRequested e c 3
  else if !e.fresh x then w.refuseRequested e c 5
  else
    match o with
    | .found h succ =>
      if later (h - 1) e.now then
        let hPeer := h - x.anchor.getD 0
        let w1 := (w.moveTo c .returning).mod c fun y => { y with handback := .agreed .set h hPeer succ 0 }
        (w1.notice e .handbackSet (some c) hPeer).notice e .directiveTaken (some c)
          (directiveParam sender number .handBack 0)
      else w.refuseRequested e c 6
    | _ => w.refuseRequested e c 6

/-- A BOUNDARY result meets a POSTPONING handback (R170). -/
def Works.settlePostponed (e : Env) (c : Chan) (count : Nat) (o : JoinOutcome) (w : Works) : Works :=
  match o with
  | .found h succ =>
    if later (h - 1) e.now then
      let hPeer := h - (w.at c).anchor.getD 0
      (w.mod c fun y => { y with handback := .agreed .set h hPeer succ count }).notice e .handbackPostponed (some c)
        (paramPostponed hPeer count)
    else w.abortHandback e c 2
  | _ => w.abortHandback e c 2

/-- A BOUNDARY result is acted on (R166, R170); with no handback that waits for it, it is set aside. -/
def Works.boundaryResult (e : Env) (c : Chan) (o : JoinOutcome) (w : Works) : Works :=
  match (w.at c).handback with
  | .requested sender number => w.settleRequest e c sender number o
  | .agreed .postponing _ _ _ count => w.settlePostponed e c count o
  | _ => w

/-- The stored main-origin tally passes the READY check for H peer (R168). -/
def Env.readyPasses (e : Env) (x : Context) (hPeer : Frame) : Bool :=
  e.fresh x &&
    match x.tally with
    | some t => decide (t.phase = .ready) && decide (t.readyFrame = some hPeer)
    | none => false

/-- The READY check (R168, R170). -/
def Works.readyCheck (e : Env) (c : Chan) (w : Works) : Works :=
  let x := w.at c
  match x.handback with
  | .agreed .set h hPeer succ count =>
    if e.readyPasses x hPeer then
      (w.mod c fun y => { y with handback := .agreed .settled h hPeer succ count }).closingCues e c h
    else if count < 3 then
      (w.mod c fun y => { y with handback := .agreed .postponing h hPeer succ (count + 1) }).placeBoundary e c
    else w.abortHandback e c 1
  | _ => w

/-- The handback is complete (R169). -/
def Works.completeHandback (e : Env) (c : Chan) (hLocal hPeer : Frame) (w : Works) : Works :=
  ((w.closeRecord e c hLocal .handedBack).leaveAir e c .mirroring id).notice e .handbackDone (some c) hPeer

/-! ## Port faults (R146 to R150) -/

/-- The causes of a port fault, by their codes (R191). -/
inductive PortFault where
  | serverSilent
  | armTimeout
  | takeTimeout
  | serverFault
  deriving DecidableEq, Repr

/-- The code of a port fault (R191). -/
def PortFault.code : PortFault → Nat
  | .serverSilent => 1
  | .armTimeout => 2
  | .takeTimeout => 3
  | .serverFault => 4

/-- The port switch (R149). -/
def Works.portSwitch (e : Env) (c : Chan) (cause : PortFault) (w : Works) : Works :=
  let w1 := w.notice e .portSwitch (some c) (BitVec.ofNat 32 cause.code)
  let w2 := match (w1.at c).prim with
    | some r => w1.placeCue e (r.stop e e.ahead)
    | none => w1
  let w3 := w2.mod c fun x => { x with prim := x.prim.map PortRec.cleared, active := .alternate }
  match (w3.at c).cur with
  | none => w3
  | some _ =>
    match w3.imposedKind c with
    | some kind => w3.requestImposed e c kind true
    | none => w3.placeJoin e c .rejoin e.ahead none true

/-- A port fault gives FAULT (R150). -/
def Works.channelFault (e : Env) (c : Chan) (cause : PortFault) (w : Works) : Works :=
  (w.notice e .channelFault (some c) (paramBytes cause.code (portCode (w.at c).active) 0 0)).leaveAir e c .fault
    fun x => x.stopNow e c .faulted

/-- A port fault is handled (R148): in RETURNING the handback is aborted first. -/
def Works.portFault (e : Env) (c : Chan) (cause : PortFault) (w : Works) : Works :=
  let w1 := if (w.at c).state = .returning then w.abortHandback e c 5 else w
  let x := w1.at c
  match x.active, x.alt with
  | .primary, some _ => w1.portSwitch e c cause
  | _, _ => w1.channelFault e c cause

/-- A TAKE's countdowns are lowered (R146). -/
def Take.lower (t : Take) : Take := { t with armCount := t.armCount - 1, takeCount := t.takeCount - 1 }

/-- A withdrawn TAKE's countdown is lowered; at 0 it is forgotten (R146). -/
def Take.lowerWithdrawn (t : Take) : Option Take :=
  if t.takeCount - 1 = 0 then none else some { t with takeCount := t.takeCount - 1 }

/-- The countdowns of a port record at a boundary (R146). -/
def PortRec.lower (r : PortRec) : PortRec :=
  { r with pending := r.pending.map Take.lower, withdrawn := r.withdrawn.bind Take.lowerWithdrawn }

/-- The first port fault found for the channel's active port, its countdowns already lowered (R146). -/
def Env.findFault (e : Env) (x : Context) : Option PortFault :=
  match x.activeRec with
  | none => none
  | some r =>
    if e.cfg.lossFrames ≤ r.silent.toNat then some .serverSilent
    else
      match r.pending with
      | none => none
      | some t =>
        if t.armCount = 0 ∧ t.seen = false then some .armTimeout
        else if t.takeCount = 0 then some .takeTimeout
        else none

/-- The context with its countdowns lowered, in a channel on air (R146). -/
def Context.lowered (x : Context) : Context :=
  if x.state.air then { x with prim := x.prim.map PortRec.lower, alt := x.alt.map PortRec.lower } else x

/-- The fault that the boundary finds for a channel (R146). -/
def Env.boundaryFault (e : Env) (x : Context) : Option PortFault :=
  if x.state.air then e.findFault x.lowered else none

/-- A pending TAKE not yet seen armed is placed again (R144). -/
def Works.repeatTake (e : Env) (c : Chan) (w : Works) : Works :=
  let x := w.at c
  match x.activeRec with
  | none => w
  | some r =>
    match r.pending with
    | some t => if x.state.air && !t.seen then w.placeCue e (t.cue r) else w
    | none => w

/-- A port record's silent count at a boundary (R142). -/
def PortRec.silence (r : PortRec) : PortRec := { r with silent := bump r.silent }

/-- The cue unit's work for a channel at a boundary: deadlines (R146), silent counts (R142), repeats (R144). -/
def Works.cueBoundary (e : Env) (c : Chan) (w : Works) : Works :=
  let fault := e.boundaryFault (w.at c)
  let w1 := w.mod c Context.lowered
  let w2 := match fault with
    | some cause => w1.portFault e c cause
    | none => w1
  (w2.mod c fun x => { x with prim := x.prim.map PortRec.silence, alt := x.alt.map PortRec.silence }).repeatTake e c

/-! ## Take confirmation (R152, R153, R155) -/

/-- The record opened by a take confirmed on a port (R153). -/
def openRecord (e : Env) (c : Chan) (r : PortRec) (t : Take) : AsRunRec :=
  { chan := c, bus := (e.entry c).bus, event := t.outcome.event, clip := t.outcome.clip, entry := t.outcome.entry,
    start := t.takeLocal, endAt := none, status := none, server := r.server, port := r.port, tag := t.tag,
    closing := none }

/-- The status that a confirmation on a port gives the open record (R153, log 23). -/
def confirmStatus (r : PortRec) (t : Take) (cur : Option CurEvent) (o : AsRunRec) : AsRunStatus :=
  if o.server = r.server ∧ o.port = r.port then closingStatus t.takeLocal (cur.bind CurEvent.natEnd) else .faulted

/-- The open record is closed, if there is one, and a new one opened (R153). -/
def Works.turnRecord (e : Env) (c : Chan) (r : PortRec) (t : Take) (w : Works) : Works :=
  let x := w.at c
  let w1 := match x.openRec with
    | some o => w.closeRecord e c t.takeLocal (confirmStatus r t x.cur o)
    | none => w
  w1.mod c fun y => { y with openRec := some (openRecord e c r t) }

/-- The current event after a confirmation (R152 step 2): a TAKE of source TAKEOVER or REJOIN finds it in place. -/
def Take.currentAfter (t : Take) (cur : Option CurEvent) : Option CurEvent :=
  match t.source with
  | .takeover | .rejoin => cur
  | _ => some { t.outcome with held := false }

/-- A take is confirmed on a port (R152). -/
def Works.confirm (e : Env) (c : Chan) (p : PortSel) (r : PortRec) (t : Take) (w : Works) : Works :=
  let w1 := (w.turnRecord e c r t).mod c fun x =>
    { x.modRec p fun q => { q with onAirTag := t.tag, pending := none } with cur := t.currentAfter x.cur }
  let w2 :=
    if (w1.at c).state = .cueing then (w1.moveTo c .onAir).mod c fun x => { x with dualSeen := false } else w1
  (w2.notice e .takeConfirmed (some c) t.outcome.event).followJudge e c

/-- The tags that an entry reports include a tag (R141). -/
def PortEntry.carries (m : PortEntry) (tag : Half) : Bool := decide (m.armedTag = tag) || decide (m.playingTag = tag)

/-- A FAULT entry for the active port is a port fault (R147). -/
def PortEntry.isFault (m : PortEntry) (r : PortRec) : Bool :=
  decide (m.state = .fault) &&
    ((r.pending.any fun t => m.carries t.tag) || (decide (r.onAirTag ≠ 0) && m.carries r.onAirTag) ||
      (decide (m.armedTag = 0) && decide (m.playingTag = 0)))

/-- Steps 1 and 2 of R141 in a port record. -/
def PortRec.report (m : PortEntry) (r : PortRec) : PortRec :=
  { r with silent := 0,
           pending := r.pending.map fun t => if m.carries t.tag then { t with seen := true } else t }

/-- Step 3 of R141: the pending TAKE is reported playing. -/
def Works.confirmPlaying (e : Env) (c : Chan) (p : PortSel) (m : PortEntry) (w : Works) : Works :=
  match (w.at c).portRec p with
  | none => w
  | some r =>
    match r.pending with
    | some t => if m.state = .playing ∧ m.playingTag = t.tag then w.confirm e c p r t else w
    | none => w

/-- Step 4 of R141: the withdrawn TAKE is reported playing while the event is held, and the hold is overtaken
(R155, log 35). -/
def Works.overtakeHold (e : Env) (c : Chan) (p : PortSel) (m : PortEntry) (w : Works) : Works :=
  let x := w.at c
  match x.portRec p with
  | none => w
  | some r =>
    match r.withdrawn with
    | some t =>
      if m.state = .playing ∧ m.playingTag = t.tag ∧ x.isHeld then
        (w.mod c fun y => y.modRec p fun q => { q with withdrawn := none }).confirm e c p r t
      else w
    | none => w

/-- Step 5 of R141: a FAULT entry for the active port is judged (R147). -/
def Works.faultReported (e : Env) (c : Chan) (p : PortSel) (m : PortEntry) (w : Works) : Works :=
  let x := w.at c
  match x.portRec p with
  | none => w
  | some r => if p = x.active ∧ x.state.air ∧ m.isFault r then w.portFault e c .serverFault else w

/-- A PORT STATUS entry meets a port record of a channel (R141). -/
def Works.portEntry (e : Env) (sender : Nat) (m : PortEntry) (c : Chan) (p : PortSel) (w : Works) : Works :=
  match (w.at c).portRec p with
  | none => w
  | some r =>
    if r.server = sender ∧ r.port = m.port then
      ((((w.mod c fun x => x.modRec p (PortRec.report m)).confirmPlaying e c p m).overtakeHold e c p m).faultReported
        e c p m)
    else w

/-- A port record names a server. -/
def Works.knowsServer (w : Works) (sender : Nat) : Bool :=
  (List.finRange 16).any fun c =>
    ((w.at c).prim.any fun r => decide (r.server = sender)) || ((w.at c).alt.any fun r => decide (r.server = sender))

/-- A PORT STATUS is taken or ignored (R141). An entry meets the records it matches in order of local channel, the
primary port before the alternate (log 37). -/
def Works.takePortStatus (e : Env) (sender : Nat) (entries : List PortEntry) (w : Works) : Works :=
  if w.knowsServer sender then
    entries.foldl
      (fun w m =>
        (List.finRange 16).foldl
          (fun w c => (w.portEntry e sender m c .primary).portEntry e sender m c .alternate) w) w
  else { w with counters := { w.counters with foreignStatus := bump w.counters.foreignStatus } }

/-! ## Delivery of join results (R124, R132 to R136, R154) -/

/-- The notices due of a result that is acted on are made (R124). -/
def Works.noticesDue (e : Env) (c : Chan) (due : List (NoticeKind × BitVec 32)) (w : Works) : Works :=
  due.foldl (fun w n => w.notice e n.1 (some c) n.2) w

/-- The pending TAKE already announces an outcome (R154). -/
def Take.announces (t : Take) (takeLocal : Frame) (ev : CurEvent) : Bool :=
  decide (t.outcome.event = ev.event) && decide (t.outcome.clip = ev.clip) && decide (t.outcome.entry = ev.entry) &&
    decide (t.takeLocal = takeLocal) && decide (t.playLength = ev.endAt.map fun f => f - takeLocal)

/-- A FOLLOW result reaches the cue unit (R154, R168). -/
def Works.followResult (e : Env) (c : Chan) (takeLocal : Frame) (ev : CurEvent) (w : Works) : Works :=
  let x := w.at c
  if x.settled ∨ x.cur.bind CurEvent.endAt ≠ some takeLocal then w
  else if x.pending.any fun t => t.announces takeLocal ev then
    w.mod c fun y => y.modRec y.active fun p => { p with pending := p.pending.map fun t => { t with outcome := ev } }
  else w.placeTake e c .follow takeLocal ev

/-- A result is acted on (R132 to R136). -/
def Works.actOn (e : Env) (f : JoinFlight) (w : Works) : Works :=
  let c := f.req.chan
  let r := f.resultFor (e.entry c).filler (w.at c).cur
  let w1 := w.noticesDue e c r.due
  match f.req.kind, r.outcome with
  | .takeover, .take ev =>
    (w1.mod c fun x => { x with anchor := r.anchor, cur := some ev }).placeTake e c .takeover f.req.take ev
  | .follow, .take ev => w1.followResult e c f.req.take ev
  | .resume, .take ev | .skip, .take ev =>
    (w1.mod c fun x =>
      { x with cur := x.cur.map fun y => { y with endAt := some f.req.take, held := false } }).placeTake e c
      f.req.kind f.req.take ev
  | .rejoin, .take ev => (w1.mod c fun x => { x with cur := some ev }).placeTake e c .rejoin f.req.take ev
  | .boundary, o => w1.boundaryResult e c o
  | _, _ => w1

/-- A result is stale: its generation is not the channel's, or it is a FOLLOW for a held event (R124 step 1). -/
def Works.staleResult (f : JoinFlight) (w : Works) : Bool :=
  let x := w.at f.req.chan
  decide (f.req.gen ≠ x.gen) || (decide (f.req.kind = .follow) && x.isHeld)

/-- A FOLLOW owed since a commit is placed at the delivery, if a successor cue is still pending (R75); while another
request of the channel is queued it stays owed (log 38). -/
def Works.followOwedNow (e : Env) (c : Chan) (w : Works) : Works :=
  if (w.at c).followOwed && (w.queuedJoin c).isNone then
    (w.mod c fun x => { x with followOwed := false }).followAfterCommit e c
  else w

/-- Delivery (R124 step 1), and the judgement of follow-on cueing that it calls for (R154). -/
def Works.deliver (e : Env) (f : JoinFlight) (w : Works) : Works :=
  let w1 := if w.staleResult f then w else w.actOn e f
  (w1.followOwedNow e f.req.chan).followJudge e f.req.chan

/-- The handover of a completed computation (R124), and the start of the next (R123). -/
def Works.joinComplete (e : Env) (w : Works) : Works :=
  match w.join.flight with
  | none => w
  | some f =>
    let h := { e with handover := true }
    let c := f.req.chan
    let w1 := { w with join := { w.join with flight := none } }
    (((w1.deliver h f).afterJoin h c).placeWaiting h c).kick { e with handover := false }

end Sys2Proof.Machine
end

