-- ==== Sys2Proof/Machine/Watch.lean ====
section
/-! DEFINITION. Channel watch (spec 05): tally entries, suspect and loss, isolation, arming, retry and clearing. -/

namespace Sys2Proof.Machine

/-- Something is done for each local channel in turn, from 0 to 15. -/
def Works.eachChannel (f : Chan → Works → Works) (w : Works) : Works :=
  (List.finRange 16).foldl (fun w c => f c w) w

/-- The counters of the blocks change. -/
def Works.count (w : Works) (f : BlockCounters → BlockCounters) : Works := { w with counters := f w.counters }

/-! ## Tally entries (R86 to R89, R101) -/

/-- The entry tells an event on air: PLAYING or HOLDING. -/
def TallyEntry.airs (t : TallyEntry) : Bool :=
  match t.phase with
  | .playing | .holding => true
  | _ => false

/-- The entry fails the sanity rule (R86). -/
def TallyEntry.insane (t : TallyEntry) : Bool := t.airs && decide (t.event = 0)

/-- An entry's stamp is stale against the held stamp (R87). -/
def staleStamp (held : Option Tick) (stamp : Tick) : Bool :=
  match held with
  | none => false
  | some h => decide (-4096 ≤ tickDiff stamp h ∧ tickDiff stamp h < 0)

/-- The tally stored from an entry: fields that its phase does not carry are absent (R88 step 3). -/
def TallyEntry.stored (t : TallyEntry) (stamp : Tick) : OriginTally :=
  { rev := t.rev, digest := t.digest, phase := t.phase,
    event := if t.airs then some (t.event, t.offset) else none,
    readyFrame := match t.phase with | .ready => t.readyFrame | _ => none, stamp := stamp }

/-- The state effect of a main-origin entry (R89). -/
def Works.returnOrigin (e : Env) (c : Chan) (w : Works) : Works :=
  match (w.at c).state with
  | .suspect => w.moveTo c .mirroring
  | .lost => (w.moveTo c .mirroring).notice e .originReturned (some c) (BitVec.ofNat 32 (ChState.code .lost))
  | .bidding => (w.endBid e c .mirroring).notice e .originReturned (some c) (BitVec.ofNat 32 (ChState.code .bidding))
  | .yielded => (w.moveTo c .mirroring).notice e .originReturned (some c) (BitVec.ofNat 32 (ChState.code .yielded))
  | _ => w

/-- An entry stamped so counts for dual air (R101): on air after the take is confirmed, and in RETURNING only before
H peer. -/
def Context.dualCounts (x : Context) (stamp : Tick) : Bool :=
  match x.state with
  | .onAir => true
  | .returning =>
    match x.handback with
    | .agreed _ _ hPeer _ _ => !atOrLater (stampFrame stamp) hPeer
    | _ => true
  | _ => false

/-- The dual-air judgement (R101). -/
def Works.dualAir (e : Env) (c : Chan) (t : TallyEntry) (stamp : Tick) (w : Works) : Works :=
  let x := w.at c
  if x.dualCounts stamp && t.airs && !x.dualSeen then
    (w.mod c fun y => { y with dualSeen := true }).notice e .dualAir (some c) t.event
  else w

/-- A main-origin entry is taken (R86 to R88). -/
def Works.mainEntry (e : Env) (c : Chan) (t : TallyEntry) (stamp : Tick) (w : Works) : Works :=
  if t.insane then w.count fun n => { n with tallySanity := bump n.tallySanity }
  else
    let stale := staleStamp ((w.at c).tally.map OriginTally.stamp) stamp
    let w1 := ((w.mod c fun x => { x with seen := true, age := 0 }).returnOrigin e c).dualAir e c t stamp
    if stale then w1.count fun n => { n with tallyStale := bump n.tallyStale }
    else (w1.mod c fun x => { x with tally := some (t.stored stamp) }).takeReference e c true t.rev t.digest

/-- A standby-origin entry is taken (R86 to R88). -/
def Works.standbyEntry (e : Env) (c : Chan) (t : TallyEntry) (stamp : Tick) (w : Works) : Works :=
  if t.insane then w.count fun n => { n with tallySanity := bump n.tallySanity }
  else if staleStamp (w.at c).standbyStamp stamp then w.count fun n => { n with tallyStale := bump n.tallyStale }
  else (w.mod c fun x => { x with standbyStamp := some stamp }).takeReference e c false t.rev t.digest

/-! ## Suspect and loss (R90 to R92) -/

/-- A channel becomes suspect at the boundary (R91). -/
def Env.suspectDue (e : Env) (x : Context) : Bool :=
  decide (x.state = .mirroring) && x.seen && decide (e.cfg.suspectFrames ≤ x.age.toNat)

/-- A channel makes the loss decision at the boundary (R92). -/
def Env.lossDue (e : Env) (x : Context) : Bool :=
  decide (x.state = .suspect) && decide (e.cfg.lossFrames ≤ x.age.toNat)

/-- The tally age advances, in every mapped state (R90). -/
def Works.ageTally (c : Chan) (w : Works) : Works :=
  w.mod c fun x => if x.state = .unmapped then x else { x with age := bump x.age }

/-- The judgements of a channel at a boundary, then its tally age (R90). ORIGIN_LOST is made before the BID_START of the
same decision (log 37). -/
def Works.watch (e : Env) (c : Chan) (w : Works) : Works :=
  let x := w.at c
  let w1 :=
    if e.suspectDue x then (w.moveTo c .suspect).notice e .originSuspect (some c) 0
    else if e.lossDue x then (w.notice e .originLost (some c) (e.lossOutcome x).param).lossDecide e c
    else w
  w1.ageTally c

/-! ## Isolation (R96) -/

/-- The reaction to the setting of the isolated flag (R96). -/
def Works.isolate (e : Env) (w : Works) : Works :=
  w.eachChannel fun c w => if (w.at c).state = .bidding then w.endBid e c .lost else w

/-- The reaction to its clearing: every LOST channel decides again (R94, R96). -/
def Works.rejoin (e : Env) (w : Works) : Works := w.eachChannel fun c w => w.redecide e c

/-! ## Arming, retry and clearing (R97, R102, R103) -/

/-- ARM (R97). -/
def Works.arm (e : Env) (c : Chan) (w : Works) : Works :=
  (w.mod c fun x => { x with armed := true }).redecide e c

/-- DISARM (R97). -/
def Works.disarm (e : Env) (c : Chan) (w : Works) : Works :=
  let w1 := w.mod c fun x => { x with armed := false }
  if (w1.at c).state = .bidding then w1.endBid e c .lost else w1

/-- RETRY (R102). -/
def Works.retry (e : Env) (c : Chan) (w : Works) : Works :=
  if e.fresh (w.at c) then w.moveTo c .mirroring else (w.moveTo c .lost).lossDecide e c

/-- CLEAR CHANNEL (R103, R83, R106). -/
def Works.clearChannel (e : Env) (c : Chan) (w : Works) : Works :=
  ((w.moveTo c .mirroring).mod c fun x =>
    { x with
      armed := (e.entry c).armed, tally := none, standbyStamp := none, seen := false, age := 255,
      prec := (e.entry c).prec, active := .primary, dualSeen := false, table := [] }).clearMirror c

end Sys2Proof.Machine
end

