-- ==== Sys2Proof/Machine/Claims.lean ====
section
/-! DEFINITION. The claim unit (spec 06): the claim table, the bid window, the YIELDED judgement, the claim set. -/

namespace Sys2Proof.Machine

/-! ## The claim table (R104 to R110) -/

/-- A claim is written to a table (R107, R108): none when a full table keeps it out. -/
def writeClaim (r : Rival) (table : List Rival) : Option (List Rival) :=
  if table.any fun x => decide (x.station = r.station) then
    some (table.map fun x => if x.station = r.station then r else x)
  else if table.length < 4 then some (table ++ [r])
  else
    match worstRival table with
    | some worst =>
      if r.better worst then some ((table.filter fun x => decide (x.station ≠ worst.station)) ++ [r]) else none
    | none => none

/-- A rival HOLD is heard: it ends a bid window (R115), and is compared with the part's own HOLD on air (R119). -/
def Works.holdHeard (e : Env) (c : Chan) (r : Rival) (w : Works) : Works :=
  match (w.at c).state with
  | .bidding => w.yieldBid e c r.station .hold
  | .cueing | .onAir | .returning =>
    if betterClaim .hold r.prec r.station .hold (w.at c).prec e.own then w.yieldAir e c r else w
  | _ => w

/-- A BID or HOLD is written, and a HOLD written is heard (R107, R108). -/
def Works.writeRival (e : Env) (c : Chan) (r : Rival) (w : Works) : Works :=
  match writeClaim r (w.at c).table with
  | none => w.count fun n => { n with claimTableFull := bump n.claimTableFull }
  | some table =>
    let w1 := w.mod c fun x => { x with table := table }
    match r.kind with
    | .hold => w1.holdHeard e c r
    | .bid => w1

/-- A CLAIM entry is taken for a channel from a station (R104, R107 to R109). -/
def Works.claimEntry (e : Env) (c : Chan) (station : Nat) (x : ClaimEntry) (w : Works) : Works :=
  if 15 < x.prec then w.count fun n => { n with claimRange := bump n.claimRange }
  else
    match x.claim with
    | .bid => w.writeRival e c { station := station, kind := .bid, prec := x.prec, age := 0 }
    | .hold => w.writeRival e c { station := station, kind := .hold, prec := x.prec, age := 0 }
    | .handback _ _ => w.writeRival e c { station := station, kind := .hold, prec := x.prec, age := 0 }
    | .release => w.mod c fun y => { y with table := y.table.filter fun r => decide (r.station ≠ station) }

/-- An entry ages by one and expires at claim_expiry (R110). -/
def Rival.aged (expiry : Nat) (r : Rival) : Option Rival :=
  if expiry ≤ r.age + 1 then none else some { r with age := r.age + 1 }

/-- A channel's table ages (R110). -/
def Works.claimAge (e : Env) (c : Chan) (w : Works) : Works :=
  w.mod c fun x => { x with table := x.table.filterMap (Rival.aged e.cfg.claimExpiry) }

/-- An entry of the channel's table expires at the boundary (R110). -/
def Env.expiryDue (e : Env) (x : Context) : Bool := x.table.any fun r => decide (e.cfg.claimExpiry ≤ r.age + 1)

/-! ## The bid window (R116, R98) -/

/-- The context prepared for air (R98). -/
def Context.prepared (x : Context) : Context :=
  { x with
    active := .primary, cur := none, anchor := none, handback := .absent, bidCount := 0,
    prim := x.prim.map (fun r => { r with pending := none }), alt := x.alt.map (fun r => { r with pending := none }) }

/-- The window is won: CUEING, and a TAKEOVER request (R116, R98). -/
def Works.winBid (e : Env) (c : Chan) (w : Works) : Works :=
  ((((w.notice e .bidWon (some c) (BitVec.ofNat 32 (w.at c).prec)).moveTo c .cueing).mod c
    Context.prepared).placeJoin e c .takeover e.ahead none false)

/-- The window is decided (R116). -/
def Works.decideBid (e : Env) (c : Chan) (w : Works) : Works :=
  let x := w.at c
  match bestRival x.table with
  | none => w.winBid e c
  | some b =>
    if betterClaim .bid x.prec e.own b.kind b.prec b.station then w.winBid e c else w.yieldBid e c b.station .bid

/-- A window is decided at the boundary (R116): the channel was in BIDDING before it, and its counter reaches
bid_window. -/
def Env.bidDue (e : Env) (x : Context) : Bool :=
  decide (x.state = .bidding) && !x.bidNew && decide (e.cfg.bidWindow ≤ x.bidCount + 1)

/-- The bid counter of a channel advances, and its window is decided when it reaches bid_window (R116). -/
def Works.bidBoundary (e : Env) (c : Chan) (w : Works) : Works :=
  let x := w.at c
  if e.bidDue x then w.decideBid e c
  else if decide (x.state = .bidding) && !x.bidNew then w.mod c fun y => { y with bidCount := y.bidCount + 1 }
  else w

/-! ## FORCE TAKE and YIELDED (R117, R118) -/

/-- FORCE TAKE (R117). -/
def Works.forceTake (e : Env) (c : Chan) (w : Works) : Works :=
  match (w.at c).state with
  | .mirroring | .suspect | .lost | .yielded => w.enterBidding e c true
  | .bidding => w.mod c fun x => { x with prec := 0 }
  | _ => w

/-- The YIELDED judgement (R118). -/
def Works.yieldedBoundary (e : Env) (c : Chan) (w : Works) : Works :=
  let x := w.at c
  if x.state ≠ .yielded then w
  else if x.table.any fun r => betterClaim r.kind r.prec r.station .bid x.prec e.own then w
  else if e.fresh x then w.moveTo c .mirroring
  else w.lossDecide e c

/-! ## The claim set (R112, R113) -/

/-- The entry of a channel in the claim set, and whether it is a plain RELEASE (R113). -/
def Env.claimOf (e : Env) (c : Chan) (x : Context) : Option ClaimEntry :=
  let bus := (e.entry c).bus
  match x.state with
  | .bidding => some { bus := bus, claim := .bid, prec := x.prec }
  | .cueing | .onAir => some { bus := bus, claim := .hold, prec := x.prec }
  | .returning =>
    match x.handback with
    | .agreed _ _ hPeer successor _ => some { bus := bus, claim := .handback hPeer successor, prec := x.prec }
    | _ => none
  | _ => if 0 < x.release then some { bus := bus, claim := .release, prec := (e.entry c).prec } else none

/-- The release count once the claim set is built (R113). -/
def Context.released (x : Context) : Context :=
  if x.state.claiming then x else { x with release := x.release - 1 }

/-- The messages of a claim set: at most eight entries in each (R113). -/
def claimMessages (entries : List ClaimEntry) : List OutMsg :=
  if entries.isEmpty then []
  else if entries.length ≤ 8 then [OutMsg.claim entries]
  else [OutMsg.claim (entries.take 8), OutMsg.claim (entries.drop 8)]

/-- The entries of the claim set, in order of local channel (R113). -/
def Works.claimEntries (e : Env) (w : Works) : List ClaimEntry :=
  (List.finRange 16).filterMap fun c => e.claimOf c (w.at c)

/-- The claim set is built and placed (R113, R23). -/
def Works.claimSet (e : Env) (w : Works) : Works :=
  (w.eachChannel fun c w => w.mod c Context.released).placeClaims e (claimMessages (w.claimEntries e))

end Sys2Proof.Machine
end

