-- ==== Sys2Proof/Machine/Directives.lean ====
section
/-! DEFINITION. Directives (spec 10 section 10.1): the six checks, and the effect of each kind on its channel. -/

namespace Sys2Proof.Machine

/-! ## Checks 1 to 5 (R173, R174) -/

/-- The control-station entry of a sender: the earliest that carries its id; an id of 0 matches none (R173). -/
def Config.controlOf (cfg : Config) (sender : Nat) : Option (Fin 4) :=
  (List.finRange 4).find? fun i => decide (cfg.control[i].id ≠ 0) && decide (cfg.control[i].id = sender)

/-- A kind is in a permission set: bit code − 1 (R174, 12 section 12.6). -/
def ControlEntry.permits (x : ControlEntry) (k : DirKind) : Bool := x.perm.getLsbD (k.code - 1)

/-- A local channel is in a channel mask (R174, 12 section 12.6). -/
def ControlEntry.covers (x : ControlEntry) (c : Chan) : Bool := x.mask.getLsbD c.val

/-- What the checks make of a directive. -/
inductive DirVerdict where
  /-- Check 1 fails: counted. -/
  | unknownSender
  /-- A repeat, or a broadcast for a channel the part does not cover: nothing. -/
  | ignored
  /-- Refused with a reason, for a channel or for none. -/
  | refused (chan : Option Chan) (reason : Nat)
  /-- Taken from a control-station entry, for a channel. -/
  | taken (entry : Fin 4) (chan : Chan)
  /-- A RETIME taken from a control-station entry. -/
  | takenTime (entry : Fin 4)
  deriving DecidableEq, Repr

/-- Checks 1 to 3, and what follows them (R173, R174). -/
def Works.checkSender (e : Env) (sender : Nat) (d : Directive) (next : Fin 4 → DirVerdict) (chan : Option Chan)
    (w : Works) : DirVerdict :=
  match Config.controlOf e.cfg sender with
  | none => .unknownSender
  | some i =>
    if w.lastNumbers[i] = some d.number then .ignored
    else if !ControlEntry.permits e.cfg.control[i] d.kind then .refused chan 1
    else next i

/-- The six checks of a directive that names a channel; the sixth is given (R173 to R175). -/
def Works.checkChannel (e : Env) (sender : Nat) (d : Directive) (sixth : Env → Chan → Works → Option Nat) (w : Works) :
    DirVerdict :=
  w.checkSender e sender d (fun i =>
    match Config.localOf e.cfg d.bus with
    | none => if d.target = e.own then .refused none 2 else .ignored
    | some c =>
      if !ControlEntry.covers e.cfg.control[i] c then .refused (some c) 1
      else
        match sixth e c w with
        | some reason => .refused (some c) reason
        | none => .taken i c) (Config.localOf e.cfg d.bus)

/-- The checks of a RETIME (R174, R175): no channel is engaged. -/
def Works.checkRetime (e : Env) (sender : Nat) (d : Directive) (w : Works) : DirVerdict :=
  w.checkSender e sender d (fun i => if w.engaged then .refused none 3 else .takenTime i) none

/-! ## Check 6 for each kind (R175, R165) -/

/-- ARM and DISARM are taken in every mapped state. -/
def Works.armCheck (_e : Env) (_c : Chan) (_w : Works) : Option Nat := none

/-- FORCE TAKE: WRONG_STATE, then ISOLATED. -/
def Works.forceTakeCheck (e : Env) (c : Chan) (w : Works) : Option Nat :=
  match (w.at c).state with
  | .mirroring | .suspect | .lost | .yielded | .bidding => if e.isolated then some 4 else none
  | _ => some 3

/-- HAND BACK (R165): WRONG_STATE, then ORIGIN_ABSENT. -/
def Works.handBackCheck (e : Env) (c : Chan) (w : Works) : Option Nat :=
  let x := w.at c
  if decide (x.state ≠ .onAir) || x.isHeld || decide (x.handback ≠ .absent) || w.outstanding c JoinKind.endsRequest then
    some 3
  else if !e.fresh x then some 5
  else none

/-- ON_AIR, or RETURNING with the handback SET or POSTPONING. -/
def Context.steerable (x : Context) : Bool :=
  match x.state, x.handback with
  | .onAir, _ => true
  | .returning, .agreed .set _ _ _ _ => true
  | .returning, .agreed .postponing _ _ _ _ => true
  | _, _ => false

/-- HOLD: WRONG_STATE. -/
def Works.holdCheck (_e : Env) (c : Chan) (w : Works) : Option Nat :=
  let x := w.at c
  if x.steerable && !x.isHeld then none else some 3

/-- RESUME: WRONG_STATE. -/
def Works.resumeCheck (_e : Env) (c : Chan) (w : Works) : Option Nat :=
  let x := w.at c
  if decide (x.state = .onAir) && x.isHeld && !w.switchOutstanding c then none else some 3

/-- The channel holds a deferred READY list with at least one event. -/
def Context.deferredEvent (x : Context) : Bool :=
  match x.mirror.other with
  | .ready _ events true => !events.isEmpty
  | _ => false

/-- The current event has a successor, judged from the lists alone, or is FILLER (R175). -/
def Context.hasSuccessor (x : Context) : Bool :=
  match x.cur with
  | none => false
  | some ev =>
    match ev.place with
    | .filler => true
    | .at i => decide (i + 1 < x.mirror.live.length) || x.deferredEvent
    | .beforeZero => !x.mirror.live.isEmpty || x.deferredEvent

/-- SKIP: WRONG_STATE, then NO_SUCCESSOR. -/
def Works.skipCheck (_e : Env) (c : Chan) (w : Works) : Option Nat :=
  let x := w.at c
  if !x.steerable || w.switchOutstanding c then some 3
  else if !x.hasSuccessor then some 7
  else none

/-- RETRY: WRONG_STATE. -/
def Works.retryCheck (_e : Env) (c : Chan) (w : Works) : Option Nat :=
  if (w.at c).state = .fault then none else some 3

/-- CLEAR CHANNEL: WRONG_STATE. -/
def Works.clearCheck (_e : Env) (c : Chan) (w : Works) : Option Nat :=
  match (w.at c).state with
  | .mirroring | .suspect | .lost | .yielded | .fault => none
  | _ => some 3

/-! ## Effects on air (R155, R156, R165) -/

/-- HAND BACK taken in hand (R165). -/
def Works.handBack (e : Env) (sender : Nat) (number : Byte) (c : Chan) (w : Works) : Works :=
  (w.mod c fun x => { x with handback := .requested sender number }).placeBoundary e c

/-- A HOLD or SKIP taken in RETURNING first aborts the handback (R171). -/
def Works.abortIfReturning (e : Env) (reason : Nat) (c : Chan) (w : Works) : Works :=
  if (w.at c).state = .returning then w.abortHandback e c reason else w

/-- A pending TAKE is withdrawn by a HOLD (R155): it keeps its take countdown. -/
def PortRec.withdraw (r : PortRec) : PortRec :=
  match r.pending with
  | none => r
  | some t => { r with pending := none, withdrawn := some t }

/-- The CANCEL for the pending TAKE, which stays as it is. -/
def Works.cueCancel (e : Env) (c : Chan) (w : Works) : Works :=
  match (w.at c).activeRec with
  | none => w
  | some r =>
    match r.pending with
    | none => w
    | some t => w.placeCue e (t.cancel r)

/-- HOLD (R155, R171). -/
def Works.hold (e : Env) (c : Chan) (w : Works) : Works :=
  let w1 := (w.abortIfReturning e 3 c).mod c fun x =>
    { x with cur := x.cur.map fun ev => { ev with held := true, endAt := none } }
  (w1.cueCancel e c).mod c fun x => x.modRec x.active PortRec.withdraw

/-- RESUME and SKIP (R156), after any abort. -/
def Works.impose (e : Env) (kind : JoinKind) (c : Chan) (w : Works) : Works :=
  ((w.cancelPending e c).mod c fun x => x.modRec x.active fun r => { r with withdrawn := none }).requestImposed e c kind
    false

/-- RESUME (R156). -/
def Works.resume (e : Env) (c : Chan) (w : Works) : Works := w.impose e .resume c

/-- SKIP (R156, R171). -/
def Works.skip (e : Env) (c : Chan) (w : Works) : Works := (w.abortIfReturning e 4 c).impose e .skip c

/-! ## The fate of a directive (R176 to R178) -/

/-- A directive's number is recorded as its sender's last (R176, R178). -/
def Works.record (i : Fin 4) (number : Byte) (w : Works) : Works :=
  { w with lastNumbers := w.lastNumbers.set i.val (some number) i.isLt }

/-- A directive that names a channel meets the unit (R172 to R177): `effect` is what it does, and `noticed` says that
DIRECTIVE_TAKEN is made at once (HAND BACK is the exception of R176). -/
def Works.directive (e : Env) (sender : Nat) (d : Directive) (sixth : Env → Chan → Works → Option Nat)
    (effect : Chan → Works → Works) (noticed : Bool) (w : Works) : Works :=
  match w.checkChannel e sender d sixth with
  | .unknownSender => w.count fun n => { n with unknownController := bump n.unknownController }
  | .refused chan reason => w.notice e .directiveRefused chan (directiveParam sender d.number d.kind reason)
  | .taken i c =>
    let w1 := effect c (w.record i d.number)
    if noticed then w1.notice e .directiveTaken (some c) (directiveParam sender d.number d.kind 0) else w1
  | _ => w

/-- A RETIME passes the checks (R175). -/
def Works.retimePasses (e : Env) (sender : Nat) (d : Directive) (w : Works) : Bool :=
  match w.checkRetime e sender d with
  | .takenTime _ => true
  | _ => false

/-- What a RETIME does to the directive unit (R173 to R177). -/
def Works.retime (e : Env) (sender : Nat) (d : Directive) (w : Works) : Works :=
  match w.checkRetime e sender d with
  | .unknownSender => w.count fun n => { n with unknownController := bump n.unknownController }
  | .refused chan reason => w.notice e .directiveRefused chan (directiveParam sender d.number d.kind reason)
  | .takenTime i => (w.record i d.number).notice e .directiveTaken none (directiveParam sender d.number d.kind 0)
  | _ => w

end Sys2Proof.Machine
end

