-- ==== Sys2Proof/Machine/Report.lean ====
section
/-! DEFINITION. The REPORT (spec 10 section 10.3, 12 section 12.5) and the AS-RUN carousel (spec 09 section 9.3). -/

namespace Sys2Proof.Machine

/-! ## REPORT (R180 to R182, R191) -/

/-- A 16-bit counter as two bytes. -/
def halfBytes (h : Half) : List Byte := beBytes 2 h.toNat

/-- A free byte of a REPORT (log 9): what stands at an offset of a half built in a frame. -/
def unstated (now : Frame) (half offset : Nat) : Byte := Config.unstatedByte now (256 * half + offset)

/-- A channel section at an offset of a half (12 section 12.5). The bytes of an absent live revision are free
(log 9). -/
def Context.sectionBytes (now : Frame) (half offset : Nat) (x : Context) : List Byte :=
  beBytes 1 x.state.code ++ beBytes 1 x.mirror.status.code ++
    (match x.mirror.liveRev with
    | some r => halfBytes r
    | none => [unstated now half (offset + 2), unstated now half (offset + 3)]) ++
    beBytes 1 (flagBit x.armed 0 + flagBit x.isHeld 1 + flagBit (decide (x.active = .alternate)) 2 +
      flagBit x.poolShort 3 + flagBit x.dualSeen 4 + flagBit x.mirror.liveRev.isSome 5)

/-- The eight channel sections of a half, from a first channel on. -/
def Works.sections (now : Frame) (half offset first : Nat) (w : Works) : List Byte :=
  (List.range 8).flatMap fun i =>
    if h : first + i < 16 then (w.at ⟨first + i, h⟩).sectionBytes now half (offset + 5 * i) else []

/-- The six counters of a lane, in the order of 12 section 12.5. -/
def LaneIf.counterBytes (x : LaneIf) : List Byte :=
  halfBytes x.checkError ++ halfBytes x.truncated ++ halfBytes x.framingLost ++ halfBytes x.overrun ++
    halfBytes x.unknownKind ++ halfBytes x.lengthError

/-- The six counters of the dispatcher, in the order of 12 section 12.5. -/
def Dispatcher.counterBytes (d : Dispatcher) : List Byte :=
  halfBytes d.badSender ++ halfBytes d.malformed ++ halfBytes d.cueIgnored ++ halfBytes d.notTargeted ++
    halfBytes d.foreignTally ++ halfBytes d.foreignSegment

/-- The configuration state and its byte (R184, 12 section 12.5). No REPORT is built in RESET or LOADING. -/
def LoadState.bytes : LoadState → List Byte
  | .good n => beBytes 1 1 ++ beBytes 1 n
  | .fault cause => beBytes 1 2 ++ beBytes 1 cause.code
  | _ => [0, 0]

/-- The role summary (R51). -/
def roleSummary (lossFrames : Nat) (peers : List Peer) : List Byte :=
  beBytes 1 (roleCount lossFrames peers Roles.origin) ++ beBytes 1 (roleCount lossFrames peers Roles.recovery) ++
    beBytes 1 (roleCount lossFrames peers Roles.server) ++ beBytes 1 (roleCount lossFrames peers Roles.control) ++
    beBytes 1 (roleCount lossFrames peers Roles.time)

/-- The counters of the transmitter (12 section 12.5). -/
def Transmitter.counterBytes (t : Transmitter) : List Byte :=
  halfBytes t.urgentDropped ++ halfBytes t.routineDiscarded ++ halfBytes t.bulkNotBuilt ++ halfBytes t.busySkipA ++
    halfBytes t.busySkipB

/-- REPORT half 0 (R181, 12 section 12.5). -/
def State.reportHalf0 (s : State) : List Byte :=
  [0] ++
    beBytes 1 (flagBit s.isolated 0 + flagBit s.clk.refLost 1 + flagBit s.clk.loaded 2 + flagBit s.clk.loadPending 3) ++
    s.load.bytes ++ beBytes 1 (s.laneA.state.code + 16 * s.laneB.state.code) ++ s.laneA.counterBytes ++
    s.laneB.counterBytes ++ s.disp.counterBytes ++ halfBytes s.clk.refGlitch ++ halfBytes s.clk.foreignMark ++
    roleSummary s.cfg.lossFrames s.peers ++ beBytes 2 s.works.tx.account ++ s.works.tx.counterBytes ++
    beBytes 2 s.works.freeSlots ++ halfBytes s.works.counters.segmentRange ++ halfBytes s.works.counters.tallySanity ++
    halfBytes s.works.counters.tallyStale ++ halfBytes s.works.counters.claimRange ++
    halfBytes s.works.counters.claimTableFull ++ halfBytes s.works.counters.foreignStatus ++
    halfBytes s.works.counters.unknownController ++ s.works.sections s.clk.count 0 78 0 ++ List.replicate 42 0

/-- A notice as 10 bytes (12 section 12.5). -/
def Notice.bytes (n : Notice) : List Byte :=
  beBytes 1 n.kind.code ++ beBytes 1 (match n.chan with | some c => c.val | none => 255) ++ beBytes 4 n.param.toNat ++
    beBytes 4 n.frame.toNat

/-- A notice place of half 1: an empty place is marked by its kind byte, and its other bytes are free (log 9). -/
def Works.noticePlace (now : Frame) (w : Works) (i : Nat) : List Byte :=
  match w.notices.ring[i]? with
  | some n => n.bytes
  | none => 0 :: (List.range 9).map fun j => unstated now 1 (41 + 10 * i + 1 + j)

/-- The byte of a control-station entry's last number; an absent number's byte is free (log 9). -/
def Works.numberByte (now : Frame) (w : Works) (i : Fin 4) : Byte :=
  match w.lastNumbers[i] with
  | some n => n
  | none => unstated now 1 (83 + i.val)

/-- REPORT half 1 (R182, 12 section 12.5). -/
def Works.reportHalf1 (now : Frame) (w : Works) : List Byte :=
  [1] ++ w.sections now 1 1 8 ++ (List.range 4).flatMap (w.noticePlace now) ++ halfBytes w.notices.count ++
    (List.finRange 4).map (w.numberByte now) ++
    beBytes 1 (((List.finRange 4).map fun i => flagBit w.lastNumbers[i].isSome i.val).sum) ++ List.replicate 72 0

/-- The part is in CONFIG_FAULT (R189). -/
def State.inFault (s : State) : Bool :=
  match s.load with
  | .fault _ => true
  | _ => false

/-- The half built next: in CONFIG_FAULT always half 0 (R180). -/
def State.nextReport (s : State) : List Byte :=
  if s.inFault ∨ s.works.nextHalf = 0 then s.reportHalf0 else s.works.reportHalf1 s.clk.count

/-- The next half changes, but not in CONFIG_FAULT (R180). -/
def State.turnHalf (s : State) : Nat := if s.inFault then s.works.nextHalf else 1 - s.works.nextHalf

/-- A REPORT is due at the boundary (R180). -/
def State.reportDue (s : State) : Bool := decide (s.cfg.reportPeriod ≤ s.works.reportCount + 1)

/-- A REPORT is built and placed (R180). -/
def State.buildReport (s : State) : State :=
  let half := s.turnHalf
  s.onWorks fun w => { w.placeReport s.boundaryEnv s.nextReport with reportCount := 0, nextHalf := half }

/-- The report period count advances (R180). -/
def State.reportBoundary (s : State) : State :=
  if s.reportDue then s.buildReport else s.onWorks fun w => { w with reportCount := w.reportCount + 1 }

/-! ## The carousel (R162, R163) -/

/-- The record at a place of the walk: the ring records, oldest to newest, then the 16 open slots (R163). -/
def Works.carouselItem (w : Works) (i : Nat) : Option AsRunRec :=
  if i < w.store.ring.length then w.store.ring[i]?
  else if h : i - w.store.ring.length < 16 then (w.at ⟨i - w.store.ring.length, h⟩).openRec
  else none

/-- The place of the walk that the cursor names; the start is place 0. -/
def AsRunStore.place (s : AsRunStore) : Nat :=
  match s.cursor with
  | .ring k => k
  | .slot j => s.ring.length + j

/-- The cursor that names the item following a place; the item following open slot 15 is the start (R163, log 18). -/
def AsRunStore.cursorAfter (s : AsRunStore) (i : Nat) : Cursor :=
  if i + 1 < s.ring.length then .ring (i + 1)
  else if i + 1 - s.ring.length < 16 then .slot (i + 1 - s.ring.length)
  else .ring 0

/-- The records found from one place of the walk up to another, each with its place. -/
def Works.carouselSpan (w : Works) (first stop : Nat) : List (Nat × AsRunRec) :=
  (List.range' first (stop - first)).filterMap fun i => (w.carouselItem i).map fun r => (i, r)

/-- The records a build carries (R163): up to four from the cursor to open slot 15, or, when there is none, from the
start on (log 18). -/
def Works.carouselPick (w : Works) : List (Nat × AsRunRec) :=
  let p := w.store.place
  let ahead := w.carouselSpan p (w.store.ring.length + 16)
  if ahead.isEmpty then (w.carouselSpan 0 p).take 4 else ahead.take 4

/-- At least one record exists (R162). -/
def Works.anyRecord (w : Works) : Bool :=
  !w.store.ring.isEmpty || (List.finRange 16).any fun c => (w.at c).openRec.isSome

/-- The store changes. -/
def Works.modStore (w : Works) (f : AsRunStore → AsRunStore) : Works := { w with store := f w.store }

/-- An AS-RUN is built: its records, the cursor past them, and its placement (R163, R26). -/
def Works.buildAsRun (e : Env) (w : Works) : Works :=
  let picked := w.carouselPick
  (w.modStore fun s =>
    { s with cursor := match picked.getLast? with | some p => s.cursorAfter p.1 | none => s.cursor }).placeAsRun e
    (picked.map Prod.snd)

/-- A due build (R162, R26). -/
def Works.dueAsRun (e : Env) (w : Works) : Works :=
  let w1 := w.modStore fun s => { s with period := 0 }
  if !w1.anyRecord then w1
  else if w1.tx.bulkRoom then w1.buildAsRun e
  else { w1 with tx := { w1.tx with bulkNotBuilt := bump w1.tx.bulkNotBuilt } }

/-- A build is due at the boundary (R162). -/
def Env.asrunDue (e : Env) (w : Works) : Bool := decide (e.cfg.asrunPeriod ≤ w.store.period + 1)

/-- The as-run period count advances (R162). -/
def Works.asrunBoundary (e : Env) (w : Works) : Works :=
  if e.asrunDue w then w.dueAsRun e else w.modStore fun s => { s with period := s.period + 1 }

end Sys2Proof.Machine
end

