-- ==== Sys2Proof/Machine/Boundary.lean ====
section
/-! DEFINITION. A frame boundary (R36): the pieces of work of the blocks, the order in which they are done, and the
pieces left to commands of their own (log 3). -/

namespace Sys2Proof.Machine

/-! ## The lane interfaces (R18 to R20) -/

/-- The state judged for a lane (R19). -/
def LaneIf.judged (quietFrames : Nat) (x : LaneIf) : LaneState :=
  if 3 ≤ x.echoRun.toNat then .echoFault
  else if quietFrames ≤ x.quietCount.toNat then .quiet
  else .up

/-- A lane's state is judged; a change is noticed (R19). -/
def State.judgeLane (l : Lane) (s : State) : State :=
  let old := (s.lane l).state
  let new := (s.lane l).judged s.cfg.laneQuietFrames
  if new = old then s
  else
    (s.modLane l fun x => { x with state := new }).onWorks fun w =>
      w.notice s.boundaryEnv .laneState none (paramBytes (laneCode l) old.code new.code 0)

/-- The part is isolated by silence (R20). -/
def State.silence (s : State) : Bool :=
  decide (s.cfg.isolationFrames ≤ s.laneA.quietCount.toNat) && decide (s.cfg.isolationFrames ≤ s.laneB.quietCount.toNat)

/-- The part is isolated by its echoes (R20). -/
def State.echoFaults (s : State) : Bool := decide (s.laneA.state = .echoFault) && decide (s.laneB.state = .echoFault)

/-- The cause code of ISOLATED (R20). -/
def State.isolationCause (s : State) : Nat := (if s.silence then 1 else 0) + (if s.echoFaults then 2 else 0)

/-- The isolated flag is set, with its reaction (R20, R96). -/
def State.becomeIsolated (s : State) : State :=
  let s1 := { s with isolated := true }
  s1.onWorks fun w =>
    (w.notice s1.boundaryEnv .isolated none (BitVec.ofNat 32 s.isolationCause)).isolate s1.boundaryEnv

/-- The isolated flag is cleared, with its reaction: REJOINED stands before the notices of the channels that decide
again (R20, R96, log 37). -/
def State.becomeRejoined (s : State) : State :=
  let s1 := { s with isolated := false }
  s1.onWorks fun w => (w.notice s1.boundaryEnv .rejoined none 0).rejoin s1.boundaryEnv

/-- The isolation judgement (R20). -/
def State.judgeIsolation (s : State) : State :=
  if s.silence || s.echoFaults then (if s.isolated then s else s.becomeIsolated)
  else if s.isolated then s.becomeRejoined
  else s

/-- The quiet counts advance (R18). -/
def State.advanceQuiet (s : State) : State :=
  { s with laneA := { s.laneA with quietCount := bump s.laneA.quietCount },
           laneB := { s.laneB with quietCount := bump s.laneB.quietCount } }

/-! ## Handback at a boundary (R168, R169) -/

/-- The READY check falls at this boundary (R168). -/
def Env.checkDue (e : Env) (x : Context) : Bool :=
  match x.state, x.handback with
  | .returning, .agreed .set h _ _ _ => decide (e.now = h - 1)
  | _, _ => false

/-- The handback completes at this boundary (R169). -/
def Env.doneDue (e : Env) (x : Context) : Bool :=
  match x.state, x.handback with
  | .returning, .agreed .settled h _ _ _ => decide (e.now = h)
  | _, _ => false

/-- The handback work of a channel at a boundary. -/
def Works.handbackBoundary (e : Env) (c : Chan) (w : Works) : Works :=
  let x := w.at c
  if e.checkDue x then w.readyCheck e c
  else if e.doneDue x then
    match x.handback with
    | .agreed _ h hPeer _ _ => w.completeHandback e c h hPeer
    | _ => w
  else w

/-! ## The pieces of work -/

/-- The work of the blocks behind the dispatcher, other than the REPORT. -/
def State.atWorks (s : State) (f : Env → Works → Works) : State := s.onWorks (f s.boundaryEnv)

/-- A piece of work is done. -/
def runWork (k : Work) (s : State) : State :=
  match k with
  | .timebase => s.loadBoundary
  | .laneJudge l => s.judgeLane l
  | .isolation => s.judgeIsolation.advanceQuiet
  | .peers => { s with peers := s.peers.map Peer.tickOver }
  | .account => s.onWorks fun w => { w with tx := w.tx.decay s.cfg }
  | .busy l => s.onWorks fun w => { w with tx := w.tx.busyBoundary s.cfg l }
  | .watch c => s.atWorks fun e w => w.watch e c
  | .handback c => s.atWorks fun e w => w.handbackBoundary e c
  | .claimAge c => s.atWorks fun e w => w.claimAge e c
  | .bid c => s.atWorks fun e w => w.bidBoundary e c
  | .yielded c => s.atWorks fun e w => w.yieldedBoundary e c
  | .claimSet => s.atWorks fun e w => w.claimSet e
  | .cue c => s.atWorks fun e w => w.cueBoundary e c
  | .follow c => s.atWorks fun e w => w.followJudge e c
  | .report => s.reportBoundary
  | .asrun => s.atWorks fun e w => w.asrunBoundary e

/-- All the work of a boundary, in the order in which it is done when nothing is left to a command (log 3). The account
falls before the busy counts advance, lane A's before lane B's, so a message picked on the way counts the boundary on the
lanes whose busy work follows the pick (log 36). -/
def allWork : List Work :=
  [Work.timebase, Work.laneJudge .a, Work.laneJudge .b, Work.isolation, Work.peers, Work.account, Work.busy .a,
    Work.busy .b] ++ (List.finRange 16).map Work.watch ++ (List.finRange 16).map Work.handback ++
    (List.finRange 16).map Work.claimAge ++ (List.finRange 16).map Work.bid ++ (List.finRange 16).map Work.yielded ++
    [Work.claimSet] ++ (List.finRange 16).map Work.cue ++ (List.finRange 16).map Work.follow ++
    [Work.report, Work.asrun]

/-- The first piece of work follows the second, where both are to be done (R20, R111). -/
def waitsFor (k j : Work) : Bool :=
  match k, j with
  | .isolation, .laneJudge _ => true
  | .bid _, .claimAge _ => true
  | .yielded _, .claimAge _ => true
  | .yielded _, .bid _ => true
  | .claimSet, .claimAge _ => true
  | .claimSet, .bid _ => true
  | .claimSet, .yielded _ => true
  | _, _ => false

/-- A piece of work is held back: it is left to a command, or it follows one that is. -/
def heldBack (left : List Work) (k : Work) : Bool := left.contains k || left.any fun j => waitsFor k j

/-- Pieces of work are done one after the other. -/
def runAll (ks : List Work) (s : State) : State := ks.foldl (fun s k => runWork k s) s

/-- No channel has entered BIDDING at the boundary that now begins (R111). -/
def Works.newBoundary (w : Works) : Works := w.eachChannel fun c w => w.mod c fun x => { x with bidNew := false }

/-- A frame boundary, its count already advanced: the work not held back is done, and the rest is outstanding. -/
def State.boundary (left : List Work) (s : State) : State :=
  { runAll (allWork.filter fun k => !heldBack left k) (s.onWorks Works.newBoundary) with
    due := allWork.filter (heldBack left) }

/-- The outstanding work of the last boundary is done (log 3). -/
def State.settle (s : State) : State := { runAll s.due s with due := [] }

/-- The outstanding work that a piece of work follows is done. -/
def State.prepare (k : Work) (s : State) : State :=
  { runAll (s.due.filter (waitsFor k)) s with due := s.due.filter fun j => !waitsFor k j }

/-- A command that is one piece of a boundary's work: it takes place when the work is outstanding and, once the work
that it follows is done, its condition holds; otherwise nothing happens (logs 1, 3). -/
def State.slice (k : Work) (cond : State → Bool) (s : State) : State :=
  if s.due.contains k then
    let s1 := s.prepare k
    if cond s1 then { runWork k s1 with due := s1.due.erase k } else s
  else s

end Sys2Proof.Machine
end

