-- ==== Sys2Proof/Machine/Line.lean ====
section
/-! DEFINITION. The lane interfaces on their lines (spec 01 sections 1.2 and 1.4, 02 section 2.3): collected messages,
loss of framing, and the copies of the part's own messages. -/

namespace Sys2Proof.Machine

/-- The clock is read after dt crystal periods (log 2). -/
def State.pass (s : State) (dt : Nat) : State := { s with clk := s.clk.advance dt }

/-! ## Receiving (R3 to R8) -/

/-- A message that passed R4 is offered to the receive queue (R7). -/
def LaneIf.offer (m : RxMsg) (x : LaneIf) : LaneIf :=
  if x.queue.length < 8 then { x with queue := x.queue ++ [m] } else { x with overrun := bump x.overrun }

/-- Framing is lost once (R6). -/
def LaneIf.lose (mode : RxMode) (x : LaneIf) : LaneIf := { x with framingLost := bump x.framingLost, mode := mode }

/-- More bytes than 12 plus the stated length were collected, so that a data byte followed them (R6). -/
def tooLong (bytes : List Byte) : Bool := decide (4 ≤ bytes.length ∧ 12 + fieldAt bytes 3 1 < bytes.length)

/-- A data byte or an end delimiter arrives in HUNTING: one framing lost for each run (R6). -/
def LaneIf.stray (x : LaneIf) : LaneIf :=
  match x.mode with
  | .hunting false => x.lose (.hunting true)
  | _ => x

/-- A collected message is judged (R4), and the receiver returns to HUNTING. A data byte beyond 12 plus the stated
length loses framing, and the symbols from there to the end delimiter, which arrive in HUNTING, are a run of strays
(R6). -/
def LaneIf.judge (bytes : List Byte) (arrival : Tick) (x : LaneIf) : LaneIf :=
  if tooLong bytes then (x.lose (.hunting false)).stray
  else
    let y := { x with mode := .hunting false }
    match judgeReceived bytes with
    | .truncated => { y with truncated := bump y.truncated }
    | .checkError => { y with checkError := bump y.checkError }
    | .unknownKind => { y with unknownKind := bump y.unknownKind }
    | .lengthError => { y with lengthError := bump y.lengthError }
    | .good sender kind serial stamp payload =>
      y.offer { sender := sender, kind := kind, serial := serial, stamp := stamp, payload := payload, arrival := arrival }

/-- What of a message has arrived, at a tick (R3, R4, log 28). -/
def LaneIf.receive (tick : Tick) (part : RxPart) (x : LaneIf) : LaneIf :=
  match part, x.mode with
  | .opening, .hunting _ => { x with mode := .receiving tick }
  | .opening, .receiving _ => x.lose (.receiving tick)
  | .closing bytes, .receiving arrival => x.judge bytes arrival
  | .closing _, .hunting _ => x.stray
  | .whole bytes, .hunting _ => x.judge bytes tick
  | .whole bytes, .receiving _ => (x.lose (.hunting false)).judge bytes tick
  | _, _ => x

/-- Framing is lost, at a tick (R6). -/
def LaneIf.unframe (tick : Tick) (cause : FramingCause) (x : LaneIf) : LaneIf :=
  match cause, x.mode with
  | .stray, _ => x.stray
  | .badSymbol, .receiving _ => x.lose (.hunting false)
  | .restart, .receiving _ => x.lose (.receiving tick)
  | .overlong, .receiving _ => x.lose (.hunting false)
  | _, _ => x

/-- MESSAGE_RECEIVED. -/
def State.messageReceived (l : Lane) (dt : Nat) (part : RxPart) (s : State) : State :=
  let s1 := s.pass dt
  s1.modLane l (LaneIf.receive s1.clk.tick part)

/-- FRAMING_LOST. -/
def State.loseFraming (l : Lane) (dt : Nat) (cause : FramingCause) (s : State) : State :=
  let s1 := s.pass dt
  s1.modLane l (LaneIf.unframe s1.clk.tick cause)

/-! ## Sending (R3, R17, R29, R30) -/

/-- The receiver is in HUNTING. -/
def LaneIf.hunts (x : LaneIf) : Bool :=
  match x.mode with
  | .hunting _ => true
  | _ => false

/-- The receiver is in ECHO. -/
def LaneIf.echoes (x : LaneIf) : Bool :=
  match x.mode with
  | .echo => true
  | _ => false

/-- The message in flight whose copy waits on a lane. -/
def Transmitter.waitingOn (t : Transmitter) (l : Lane) : Option TxFlight :=
  t.flight.bind fun f => match f.copy l with | .waiting _ => some f | _ => none

/-- The message in flight whose copy is being sent on a lane. -/
def Transmitter.sendingOn (t : Transmitter) (l : Lane) : Option TxFlight :=
  t.flight.bind fun f => match f.copy l with | .sending _ => some f | _ => none

/-- A lane begins its copy (R29, R3): the stamp is the tick at which its first byte leaves (logs 1, 30). -/
def State.copyBegin (l : Lane) (dt : Nat) (s : State) : State :=
  let s1 := s.pass dt
  match s1.works.tx.waitingOn l with
  | none => s
  | some f =>
    if (s1.lane l).hunts then
      (s1.modLane l fun x => { x with mode := .echo }).onWorks fun w =>
        { w with tx := { w.tx with flight := some (f.setCopy l
            (.sending (copyBytes s1.own f.serial s1.clk.tick f.msg))) } }
    else s

/-- The outcomes of an echo (R17). -/
inductive Echo where
  | good
  | mismatch
  | absent
  deriving DecidableEq, Repr

/-- The symbols of a copy, from the start delimiter through the end delimiter (R1). -/
def copySymbols (bytes : List Byte) : List Symbol := .start :: bytes.map Symbol.data ++ [.stop]

/-- The judgement of R17: the symbols read back against those sent. A symbol that differs is a mismatch, whether or not
others are missing (log 42). -/
def judgeEcho (sent readBack : List Symbol) : Echo :=
  if readBack = sent then .good
  else if (sent.zip readBack).any (fun p => p.1 != p.2) || decide (sent.length < readBack.length) then .mismatch
  else .absent

/-- The echo-failure run after a judged echo (R17). -/
def LaneIf.echoed (echo : Echo) (x : LaneIf) : LaneIf :=
  { x with
    mode := .hunting false
    echoRun := match echo with | .good => 0 | .mismatch => bump x.echoRun | .absent => bump x.echoRun }

/-- The bytes of a copy that is being sent. -/
def Copy.bytes : Copy → List Byte
  | .sending bytes => bytes
  | _ => []

/-- The end delimiter of a lane's copy has left, and the symbols read back from the line are compared with those sent
(R17, R3, R30). -/
def State.copyEnd (l : Lane) (readBack : List Symbol) (s : State) : State :=
  match s.works.tx.sendingOn l with
  | none => s
  | some f =>
    if (s.lane l).echoes then
      (s.modLane l (LaneIf.echoed (judgeEcho (copySymbols (f.copy l).bytes) readBack))).onWorks fun w =>
        { w with tx := w.tx.copyDone s.cfg f l .sent }
    else s

/-- A lane's copy is abandoned at the boundary (R29). -/
def State.abandonDue (l : Lane) (s : State) : Bool :=
  match s.works.tx.flight with
  | none => false
  | some f =>
    match f.copy l with
    | .waiting n => decide (2 ≤ n + 1)
    | _ => false

end Sys2Proof.Machine
end

