-- ==== Sys2Proof/Machine/Monitor.lean ====
section
/-! DEFINITION. The events of the reference monitor (spec 03 section 3.2), each with the boundary it makes, and the
passing of time when no command waits (log 2). -/

namespace Sys2Proof.Machine

/-- A notice of the monitor is made, with the frame the boundary left (log 21). -/
def State.monitorNotice (kind : NoticeKind) (param : BitVec 32) (s : State) : State :=
  s.onWorks fun w => w.notice s.env kind none param

/-- The clock changes. -/
def State.withClk (s : State) (t : Timebase) : State := { s with clk := t }

/-- A pulse in LOCKED (R37). -/
def State.lockedPulse (left : List Work) (t : Timebase) (s : State) : State :=
  if t.glitch then s.withClk { t with refGlitch := bump t.refGlitch } else (s.withClk t.accept).boundary left

/-- A pulse in FREE_RUN (R39). -/
def State.freePulse (left : List Work) (t : Timebase) (s : State) : State :=
  if 512 ≤ t.phase then
    ((s.withClk (t.roll 0).lock).boundary left).monitorNotice .refRestored (BitVec.ofInt 32 (1024 - (t.phase : Int)))
  else (s.withClk t.lock).monitorNotice .refRestored (BitVec.ofInt 32 (-(t.phase : Int)))

/-- A REF pulse, dt crystal periods after the clock was last read (R37, R39). -/
def State.refPulse (dt : Nat) (left : List Work) (s : State) : State :=
  match s.clk.monitor with
  | .locked => s.lockedPulse left (s.clk.advance dt)
  | .freeRun => s.freePulse left (s.clk.advance dt)

/-- The reference is lost (R38). -/
def State.refLost (left : List Work) (s : State) : State :=
  match s.clk.monitor with
  | .locked => ((s.withClk s.clk.lose).boundary left).monitorNotice .refLost 0
  | .freeRun => s

/-- The measured period is complete in FREE_RUN (R39). -/
def State.freeRunBoundary (left : List Work) (s : State) : State :=
  match s.clk.monitor with
  | .freeRun => (s.withClk (s.clk.roll 0)).boundary left
  | .locked => s

/-- One crystal period passes; at the deadline the monitor acts by itself (log 2). -/
def State.crystal (s : State) : State :=
  let s1 := s.withClk (s.clk.advance 1)
  if s1.clk.expired then
    match s1.clk.monitor with
    | .locked => s1.refLost []
    | .freeRun => s1.freeRunBoundary []
  else s1

/-- What the part does when no command waits (logs 2, 3): outstanding boundary work is finished; otherwise a part that
works lets one crystal period pass, and one that is held stays as it is. -/
def State.idle (s : State) : State :=
  if s.due ≠ [] then s.settle else if s.running then s.crystal else s

end Sys2Proof.Machine
end

