-- ==== Sys2Proof/Machine/Receive.lean ====
section
/-! DEFINITION. The receive dispatcher (spec 01 section 1.3): the sender check, duplicate suppression, the update of
the peer record, decoding and routing. -/

namespace Sys2Proof.Machine

/-- The dispatcher's counters change. -/
def State.dispatch (s : State) (f : Dispatcher → Dispatcher) : State := { s with disp := f s.disp }

/-- A message is malformed (R13). -/
def State.malformed (s : State) : State := s.dispatch fun d => { d with malformed := bump d.malformed }

/-- The sender check (R10, log 8): 0, 63 and above, and the part's own id. -/
def State.badSender (s : State) (sender : Nat) : Bool :=
  decide (sender = 0) || decide (63 ≤ sender) || decide (sender = s.own)

/-- The oldest entry leaves a lane's queue (R7, R9). -/
def State.popRx (s : State) (l : Lane) : State := s.modLane l fun x => { x with queue := x.queue.drop 1 }

/-- A lane's quiet count is refreshed (R18). -/
def State.refreshLane (s : State) (l : Lane) : State := s.modLane l fun x => { x with quietCount := 0 }

/-- A suppressed message: the other lane's copy (R11). -/
def State.suppress (s : State) (l : Lane) (sender : Nat) : State :=
  { s.refreshLane l with peers := modPeer s.peers sender fun p => p.heardOn l }

/-- The step of a restarted estimator is noticed and passed to the cue unit (R55, R145). -/
def Works.stepped (e : Env) (station : Nat) (step : Option Int) (w : Works) : Works :=
  match step with
  | none => w
  | some d => (w.notice e .clockStep none (paramStep station d)).clockStep e station

/-- A SAT flag set from clear is noticed (R56). -/
def Works.saturated (e : Env) (station : Nat) (set : Bool) (w : Works) : Works :=
  if set then w.notice e .estimateSaturated none (BitVec.ofNat 32 station) else w

/-- The sample of an accepted message (R52 to R56). -/
def State.sample (s : State) (p : Peer) (m : RxMsg) : Sampled :=
  let sm := formSample s.cfg.linkDelay m.arrival m.stamp
  p.est.take s.cfg sm.1 sm.2

/-- An accepted message updates its sender's record and meets the estimator (R12). -/
def State.acceptMsg (s : State) (l : Lane) (p : Peer) (m : RxMsg) : State :=
  let r := s.sample p m
  let s1 :=
    { s.refreshLane l with peers := modPeer s.peers p.station fun q => { q.accept l m with est := r.est } }
  s1.onWorks fun w => (w.saturated s1.env p.station r.satSet).stepped s1.env p.station r.step

/-- The dispatcher takes the oldest entry of a lane's queue, if it is one that the command names, and handles it by
R10 to R13; an accepted entry is routed by the last step (R9, log 12). -/
def State.takeRx (l : Lane) (names : RxMsg → Bool) (route : Nat → RxMsg → State → State) (s : State) : State :=
  match (s.lane l).queue with
  | [] => s
  | m :: _ =>
    if names m then
      let s1 := s.popRx l
      let sender := m.sender.toNat
      if s1.badSender sender then s1.dispatch fun d => { d with badSender := bump d.badSender }
      else
        match findPeer s1.peers sender with
        | none => s1
        | some p => if p.repeats m then s1.suppress l sender else route sender m (s1.acceptMsg l p m)
    else s

/-- A decoded payload is routed, or the message is malformed (R13). -/
def State.decoded {α : Type} (s : State) (x : Option α) (f : α → State) : State :=
  match x with
  | none => s.malformed
  | some a => f a

/-! ## Routing by kind (R14, R15) -/

/-- A block behind the dispatcher takes something. -/
def State.hand (s : State) (f : Env → Works → Works) : State := s.onWorks (f s.env)

/-- A TALLY entry is admitted or skipped (R15). -/
def State.tallyEntry (sender : Nat) (stamp : Tick) (s : State) (t : TallyEntry) : State :=
  match Config.localOf s.cfg t.bus with
  | none => s
  | some c =>
    if s.cfg.map[c].origin = sender then s.hand fun e w => w.mainEntry e c t stamp
    else if s.cfg.map[c].standby = sender then s.hand fun e w => w.standbyEntry e c t stamp
    else s.dispatch fun d => { d with foreignTally := bump d.foreignTally }

/-- A TALLY is routed. -/
def State.routeTally (sender : Nat) (m : RxMsg) (s : State) : State :=
  s.decoded (readTally m.payload) fun ts => ts.foldl (State.tallyEntry sender m.stamp) s

/-- A SEGMENT is admitted or skipped (R15), and reaches the mirror. -/
def State.routeSegment (sender : Nat) (m : RxMsg) (s : State) : State :=
  s.decoded (readSegment m.payload) fun seg =>
    match Config.localOf s.cfg seg.bus with
    | none => s
    | some c =>
      if s.cfg.map[c].origin = sender ∨ s.cfg.map[c].standby = sender then s.hand fun e w => w.takeSegment e c seg
      else s.dispatch fun d => { d with foreignSegment := bump d.foreignSegment }

/-- A CLAIM entry reaches the claim unit when its bus channel is mapped (R14). -/
def State.claimEntry (sender : Nat) (s : State) (x : ClaimEntry) : State :=
  match Config.localOf s.cfg x.bus with
  | none => s
  | some c => s.hand fun e w => w.claimEntry e c sender x

/-- A CLAIM is routed. -/
def State.routeClaim (sender : Nat) (m : RxMsg) (s : State) : State :=
  s.decoded (readClaim m.payload) fun xs => xs.foldl (State.claimEntry sender) s

/-- A CUE is ignored (R14). -/
def State.routeCue (m : RxMsg) (s : State) : State :=
  if cueWellFormed m.payload then s.dispatch fun d => { d with cueIgnored := bump d.cueIgnored } else s.malformed

/-- A PORT STATUS reaches the cue unit (R14). -/
def State.routePortStatus (sender : Nat) (m : RxMsg) (s : State) : State :=
  s.decoded (readPortStatus m.payload) fun ps => s.hand fun e w => w.takePortStatus e sender ps

/-- A TIME MARK reaches the timebase (R14). -/
def State.routeTimeMark (sender : Nat) (m : RxMsg) (s : State) : State :=
  s.decoded (readTimeMark m.payload) (s.takeMark sender m.arrival)

/-- A REPORT is not routed (R14). -/
def State.routeReport (m : RxMsg) (s : State) : State := if reportWellFormed m.payload then s else s.malformed

/-- An AS-RUN is not routed (R14). -/
def State.routeAsRun (m : RxMsg) (s : State) : State := if asRunWellFormed m.payload then s else s.malformed

/-- A directive is targeted at the part: its target is 63 or the part's own id (R14). A target of 0 is none (R190), so
it is not targeted at a part whose straps read 0, which names no station (R183, log 27). -/
def State.isTarget (s : State) (target : Nat) : Bool :=
  decide (target = 63) || (decide (target ≠ 0) && decide (target = s.own))

/-- A DIRECTIVE whose target is the part's own id or 63 reaches the directive unit (R14). -/
def State.routeDirective (unit : Directive → State → State) (m : RxMsg) (s : State) : State :=
  s.decoded (readDirective m.payload) fun d =>
    if s.isTarget d.target then unit d s
    else s.dispatch fun x => { x with notTargeted := bump x.notTargeted }

/-- An entry is of a kind. -/
def RxMsg.isKind (k : MsgKind) (m : RxMsg) : Bool := decide (m.kind = k)

/-- An entry is a DIRECTIVE of a kind, or a malformed one (log 12). -/
def RxMsg.isDirective (k : DirKind) (m : RxMsg) : Bool :=
  decide (m.kind = .directive) &&
    match readDirective m.payload with
    | none => true
    | some d => decide (d.kind = k)

/-- A directive command: the dispatcher takes the entry, and the unit checks it and applies its effect (R172). -/
def State.takeDirective (l : Lane) (k : DirKind) (unit : Nat → Directive → State → State) (s : State) : State :=
  s.takeRx l (RxMsg.isDirective k) fun sender m => State.routeDirective (unit sender) m

/-- The directive unit meets a directive that names a channel. -/
def State.direct (sixth : Env → Chan → Works → Option Nat) (effect : Env → Nat → Directive → Chan → Works → Works)
    (noticed : Bool) (sender : Nat) (d : Directive) (s : State) : State :=
  s.hand fun e w => w.directive e sender d sixth (effect e sender d) noticed

/-- The directive unit meets a RETIME (R46, R176). -/
def State.directRetime (sender : Nat) (d : Directive) (s : State) : State :=
  let clk := if s.works.retimePasses s.env sender d then s.clk.retime else s.clk
  { (s.hand fun e w => w.retime e sender d) with clk := clk }

end Sys2Proof.Machine
end

