-- ==== Sys2Proof/Machine/StartUp.lean ====
section
/-! DEFINITION. The configuration image and start-up (spec 11, 12 section 12.6). -/

namespace Sys2Proof.Machine

/-! ## Reading the image (12 section 12.6) -/

/-- A raw control-station entry at an offset. -/
def readControl (image : List Byte) (o : Nat) : ControlEntry :=
  { id := fieldAt image o 1, perm := BitVec.ofNat 16 (fieldAt image (o + 1) 2),
    mask := BitVec.ofNat 16 (fieldAt image (o + 3) 2) }

/-- A bit of a flag byte of the image. -/
def imageFlag (image : List Byte) (o bit : Nat) : Bool := (BitVec.ofNat 8 (fieldAt image o 1)).getLsbD bit

/-- A raw channel-map entry at an offset. -/
def readMapEntry (image : List Byte) (o : Nat) : MapEntry :=
  { enabled := imageFlag image o 0, armed := imageFlag image o 1, bus := BitVec.ofNat 8 (fieldAt image (o + 1) 1),
    origin := fieldAt image (o + 2) 1, standby := fieldAt image (o + 3) 1, prec := fieldAt image (o + 4) 1,
    primary := (fieldAt image (o + 5) 1, fieldAt image (o + 6) 1),
    alternate := if imageFlag image o 2 then some (fieldAt image (o + 7) 1, fieldAt image (o + 8) 1) else none,
    filler := BitVec.ofNat 32 (fieldAt image (o + 9) 4) }

/-- The configuration as the image spells it, before correction (log 31). -/
def readImage (image : List Byte) : Config :=
  { linkDelay := fieldAt image 0 2, gain := fieldAt image 2 1, outlierLimit := fieldAt image 3 2,
    suspectFrames := fieldAt image 5 1, lossFrames := fieldAt image 6 1, isolationFrames := fieldAt image 7 1,
    laneQuietFrames := fieldAt image 8 1, claimExpiry := fieldAt image 9 1, bidWindow := fieldAt image 10 1,
    preroll := fieldAt image 11 1, confirmFrames := fieldAt image 12 1, handbackLead := fieldAt image 13 1,
    reportPeriod := fieldAt image 14 1, asrunPeriod := fieldAt image 15 1, ratio := fieldAt image 16 1,
    decrement := fieldAt image 17 2, limit := fieldAt image 19 2, clip := fieldAt image 21 2,
    timeStation := fieldAt image 23 1, control := Vector.ofFn fun i : Fin 4 => readControl image (24 + 5 * i.val),
    map := Vector.ofFn fun i : Fin 16 => readMapEntry image (44 + 13 * i.val) }

/-- The CRC over the bytes that precede the image check agrees with it (R185). -/
def imageGood (image : List Byte) : Bool := decide ((crc16 (image.take 252)).toNat = fieldAt image 252 2)

/-! ## Correction (R186, R187) -/

/-- A number held to a range (R186). -/
def clampNat (lo hi x : Nat) : Nat := if x < lo then lo else if hi < x then hi else x

/-- A control-station entry corrected: an entry with id 0 has no effect, and bits 10 to 15 of the permission set are
not read (R186, 12 section 12.6). -/
def clampControl (x : ControlEntry) : ControlEntry :=
  if x.id = 0 then { id := 0, perm := 0, mask := 0 }
  else { x with id := clampNat 0 62 x.id, perm := x.perm &&& 0x3FF }

/-- A server and port corrected (R186). -/
def clampPort (p : Nat × Nat) : Nat × Nat := (clampNat 1 62 p.1, clampNat 0 15 p.2)

/-- A channel-map entry corrected: one that is not enabled has no effect (R186). -/
def clampMap (x : MapEntry) : MapEntry :=
  if x.enabled then
    { x with origin := clampNat 0 62 x.origin, standby := clampNat 0 62 x.standby, prec := clampNat 1 15 x.prec,
             primary := clampPort x.primary, alternate := x.alternate.map clampPort }
  else MapEntry.blank

/-- The first pass of R186. -/
def clampConfig (r : Config) : Config :=
  { linkDelay := clampNat 0 1023 r.linkDelay, gain := clampNat 0 7 r.gain,
    outlierLimit := clampNat 1 4095 r.outlierLimit, suspectFrames := clampNat 1 50 r.suspectFrames,
    lossFrames := clampNat 2 250 r.lossFrames, isolationFrames := clampNat 1 50 r.isolationFrames,
    laneQuietFrames := clampNat 1 50 r.laneQuietFrames, claimExpiry := clampNat 2 16 r.claimExpiry,
    bidWindow := clampNat 2 32 r.bidWindow, preroll := clampNat 2 30 r.preroll,
    confirmFrames := clampNat 1 8 r.confirmFrames, handbackLead := clampNat 3 250 r.handbackLead,
    reportPeriod := clampNat 1 50 r.reportPeriod, asrunPeriod := clampNat 1 50 r.asrunPeriod,
    ratio := clampNat 1 15 r.ratio, decrement := clampNat 0 65535 r.decrement, limit := clampNat 0 65535 r.limit,
    clip := clampNat 0 65535 r.clip, timeStation := clampNat 0 62 r.timeStation,
    control := r.control.map clampControl, map := r.map.map clampMap }

/-- The second pass of R186: four relations. -/
def relateConfig (r : Config) : Config :=
  { r with
    lossFrames := if r.lossFrames ≤ r.suspectFrames then r.suspectFrames + 1 else r.lossFrames
    bidWindow := if r.bidWindow < r.claimExpiry then r.claimExpiry else r.bidWindow
    limit := if r.clip < r.limit then r.clip else r.limit
    handbackLead := if r.handbackLead ≤ r.preroll then r.preroll + 1 else r.handbackLead }

/-- An enabled entry of an earlier channel names the same bus channel (R187). -/
def duplicateOf (map : Vector MapEntry 16) (c : Chan) : Bool :=
  map[c].enabled && (List.finRange 16).any fun k => decide (k < c) && map[k].enabled && decide (map[k].bus = map[c].bus)

/-- A channel-map entry after the corrections of R187. -/
def correctMap (map : Vector MapEntry 16) (c : Chan) : MapEntry :=
  if duplicateOf map c then MapEntry.blank
  else if map[c].enabled ∧ map[c].alternate = some map[c].primary then { map[c] with alternate := none }
  else map[c]

/-- The channel map after the corrections of R187. -/
def mapConfig (r : Config) : Config := { r with map := Vector.ofFn (correctMap r.map) }

/-- The numbers of a configuration that the two passes may replace, the entries apart. -/
def Config.scalars (r : Config) : List Nat :=
  [r.linkDelay, r.gain, r.outlierLimit, r.suspectFrames, r.lossFrames, r.isolationFrames, r.laneQuietFrames,
    r.claimExpiry, r.bidWindow, r.preroll, r.confirmFrames, r.handbackLead, r.reportPeriod, r.asrunPeriod, r.ratio,
    r.decrement, r.limit, r.clip, r.timeStation]

/-- The numbers of a channel-map entry that the first pass may replace; none when it is not enabled. -/
def mapScalars (x : MapEntry) : List Nat :=
  if x.enabled then
    [x.origin, x.standby, x.prec, x.primary.1, x.primary.2] ++
      (match x.alternate with | some p => [p.1, p.2] | none => [])
  else []

/-- Every number that a pass may replace. -/
def allScalars (r : Config) : List Nat :=
  Config.scalars r ++ r.control.toList.map ControlEntry.id ++ r.map.toList.flatMap mapScalars

/-- How many fields either pass replaced: their values before, between and after the two passes (R186). -/
def replaced (xs ys zs : List Nat) : Nat :=
  ((xs.zip (ys.zip zs)).filter fun p => p.1 != p.2.1 || p.2.1 != p.2.2).length

/-- How many entries R187 disables, and how many alternates it removes. -/
def mapCorrections (r : Config) : Nat :=
  ((List.finRange 16).filter fun c =>
    duplicateOf r.map c || (r.map[c].enabled && decide (r.map[c].alternate = some r.map[c].primary))).length

/-- The corrections of R186 and R187, and the correction count, held at 255. -/
def correctImage (raw : Config) : Config × Nat :=
  let first := clampConfig raw
  let second := relateConfig first
  (mapConfig second,
    min 255 (replaced (allScalars raw) (allScalars first) (allScalars second) + mapCorrections second))

/-! ## Beginning work (R188, R189, R21, R33, R40, R158) -/

/-- A port record as it is built (R140). -/
def newPort (p : Nat × Nat) : PortRec :=
  { server := p.1, port := p.2, pending := none, onAirTag := 0, withdrawn := none, silent := 255 }

/-- A channel context as it is installed (R84, R85, R121, R140). -/
def installed (x : MapEntry) : Context :=
  if x.enabled then
    { Context.reset with
      state := .mirroring, armed := x.armed, prec := x.prec, prim := some (newPort x.primary),
      alt := x.alternate.map newPort }
  else Context.reset

/-- A lane interface as it begins (R21). -/
def LaneIf.begun (x : LaneIf) : LaneIf :=
  { x with mode := .hunting false, echoRun := 0, quietCount := 0, state := .up }

/-- Every block begins together, with a configuration and a load state (R188). -/
def State.start (cfg : Config) (load : LoadState) (s : State) : State :=
  { s with
    load := load, cfg := cfg, clk := Timebase.reset, laneA := s.laneA.begun, laneB := s.laneB.begun,
    isolated := false, works := { Works.reset with ctx := cfg.map.map installed }, due := [] }

/-- The part enters CONFIG_FAULT (R189). -/
def State.configFault (cause : LoadFault) (s : State) : State :=
  let s1 := s.start Config.default (.fault cause)
  s1.onWorks fun w => w.notice s1.env .configFault none (BitVec.ofNat 32 cause.code)

/-- An image read from a ready memory ends the load (R185, R188). -/
def State.loadImage (image : List Byte) (s : State) : State :=
  if imageGood image then
    let r := correctImage (readImage image)
    s.start r.1 (.good r.2)
  else s.configFault .checkFailed

/-- The straps are read (R183). -/
def State.readStraps (straps : BitVec 6) (s : State) : State :=
  let s1 := { s with own := straps.toNat, peers := peerTable straps.toNat }
  if straps = 0 ∨ straps = 63 then s1.configFault .strapInvalid else { s1 with load := .loading }

end Sys2Proof.Machine
end

