-- ==== Sys2Proof/Machine/Commands.lean ====
section
/-! DEFINITION. The meaning of every command, one definition for each row of spec/opcode_table.json. No command stops
the part: each answers a next state (log 33). -/

namespace Sys2Proof.Machine

/-- A part that works finishes the outstanding work of the last boundary and takes the command; a part in RESET or
LOADING is deaf to it (R184, log 3). -/
def State.whenRunning (f : State → State) (s : State) : State := if s.running then f s.settle else s

/-- The condition of a command that is a boundary's work for one channel. -/
def onChannel (f : Env → Context → Bool) (c : Chan) (s : State) : Bool := f s.boundaryEnv (s.works.at c)

/-- The boundary finds a port fault of a cause for the channel (R146). -/
def faultIs (cause : PortFault) (e : Env) (x : Context) : Bool := decide (e.boundaryFault x = some cause)

/-- A withdrawn TAKE of a channel on air is forgotten at the boundary (R146). -/
def Context.withdrawnDue (x : Context) : Bool :=
  let ends (r : Option PortRec) : Bool := r.any fun q => q.withdrawn.any fun t => decide (t.takeCount - 1 = 0)
  x.state.air && (ends x.prim || ends x.alt)

/-- RESET_ASSERT (R184): every block takes its reset values. -/
def execResetAssert (s : State) : Host.Outcome State Fault Refusal :=
  .next { State.reset with pending := s.pending }

/-- RESET_RELEASE (R183): the straps are read, when the reset pin was asserted. -/
def execResetRelease (straps : BitVec 6) (s : State) : Host.Outcome State Fault Refusal :=
  .next (if s.load = .reset then s.readStraps straps else s)

/-- CONFIGURATION_LOAD (R185 to R188): the image read while LOADING is checked, corrected and installed. -/
def execConfigurationLoad (image : List Byte) (s : State) : Host.Outcome State Fault Refusal :=
  .next (if s.load = .loading then s.loadImage image else s)

/-- NO_MEMORY (R185, R189): the memory has not answered while LOADING (log 5). -/
def execNoMemory (s : State) : Host.Outcome State Fault Refusal :=
  .next (if s.load = .loading then s.configFault .noMemory else s)

/-- REF_PULSE (R37, R39). -/
def execRefPulse (dt : Nat) (left : List Work) (s : State) : Host.Outcome State Fault Refusal :=
  .next (s.whenRunning (State.refPulse dt left))

/-- REF_LOST (R38). -/
def execRefLost (left : List Work) (s : State) : Host.Outcome State Fault Refusal :=
  .next (s.whenRunning (State.refLost left))

/-- FREE_RUN_BOUNDARY (R39). -/
def execFreeRunBoundary (left : List Work) (s : State) : Host.Outcome State Fault Refusal :=
  .next (s.whenRunning (State.freeRunBoundary left))

/-- MESSAGE_RECEIVED (R3 to R5, R7). -/
def execMessageReceived (l : Lane) (dt : Nat) (part : RxPart) (s : State) : Host.Outcome State Fault Refusal :=
  .next (s.whenRunning (State.messageReceived l dt part))

/-- FRAMING_LOST (R6). -/
def execFramingLost (l : Lane) (dt : Nat) (cause : FramingCause) (s : State) : Host.Outcome State Fault Refusal :=
  .next (s.whenRunning (State.loseFraming l dt cause))

/-- RECEIVE_TALLY (R9 to R15, R86 to R89). -/
def execReceiveTally (l : Lane) (s : State) : Host.Outcome State Fault Refusal :=
  .next (s.whenRunning (State.takeRx l (RxMsg.isKind .tally) State.routeTally))

/-- RECEIVE_SEGMENT (R9 to R15, R63 to R71). -/
def execReceiveSegment (l : Lane) (s : State) : Host.Outcome State Fault Refusal :=
  .next (s.whenRunning (State.takeRx l (RxMsg.isKind .segment) State.routeSegment))

/-- RECEIVE_CLAIM (R9 to R15, R104 to R109). -/
def execReceiveClaim (l : Lane) (s : State) : Host.Outcome State Fault Refusal :=
  .next (s.whenRunning (State.takeRx l (RxMsg.isKind .claim) State.routeClaim))

/-- RECEIVE_CUE (R9 to R15, R14). -/
def execReceiveCue (l : Lane) (s : State) : Host.Outcome State Fault Refusal :=
  .next (s.whenRunning (State.takeRx l (RxMsg.isKind .cue) (fun _ m => State.routeCue m)))

/-- RECEIVE_PORT_STATUS (R9 to R15, R141). -/
def execReceivePortStatus (l : Lane) (s : State) : Host.Outcome State Fault Refusal :=
  .next (s.whenRunning (State.takeRx l (RxMsg.isKind .portStatus) State.routePortStatus))

/-- RECEIVE_TIME_MARK (R9 to R15, R41, R42, R45). -/
def execReceiveTimeMark (l : Lane) (s : State) : Host.Outcome State Fault Refusal :=
  .next (s.whenRunning (State.takeRx l (RxMsg.isKind .timeMark) State.routeTimeMark))

/-- RECEIVE_REPORT (R9 to R15, R14). -/
def execReceiveReport (l : Lane) (s : State) : Host.Outcome State Fault Refusal :=
  .next (s.whenRunning (State.takeRx l (RxMsg.isKind .report) (fun _ m => State.routeReport m)))

/-- RECEIVE_AS_RUN (R9 to R15, R14). -/
def execReceiveAsRun (l : Lane) (s : State) : Host.Outcome State Fault Refusal :=
  .next (s.whenRunning (State.takeRx l (RxMsg.isKind .asRun) (fun _ m => State.routeAsRun m)))

/-- ARM (R172 to R177, R97). -/
def execArm (l : Lane) (s : State) : Host.Outcome State Fault Refusal :=
  .next (s.whenRunning (State.takeDirective l .arm
    (State.direct Works.armCheck (fun e _ _ c w => w.arm e c) true)))

/-- DISARM (R172 to R177, R97). -/
def execDisarm (l : Lane) (s : State) : Host.Outcome State Fault Refusal :=
  .next (s.whenRunning (State.takeDirective l .disarm
    (State.direct Works.armCheck (fun e _ _ c w => w.disarm e c) true)))

/-- FORCE_TAKE (R172 to R177, R117). -/
def execForceTake (l : Lane) (s : State) : Host.Outcome State Fault Refusal :=
  .next (s.whenRunning (State.takeDirective l .forceTake
    (State.direct Works.forceTakeCheck (fun e _ _ c w => w.forceTake e c) true)))

/-- HAND_BACK (R172 to R177, R165). -/
def execHandBack (l : Lane) (s : State) : Host.Outcome State Fault Refusal :=
  .next (s.whenRunning (State.takeDirective l .handBack
    (State.direct Works.handBackCheck (fun e sender d c w => w.handBack e sender d.number c) false)))

/-- HOLD (R172 to R177, R155). -/
def execHold (l : Lane) (s : State) : Host.Outcome State Fault Refusal :=
  .next (s.whenRunning (State.takeDirective l .hold
    (State.direct Works.holdCheck (fun e _ _ c w => w.hold e c) true)))

/-- RESUME (R172 to R177, R156). -/
def execResume (l : Lane) (s : State) : Host.Outcome State Fault Refusal :=
  .next (s.whenRunning (State.takeDirective l .resume
    (State.direct Works.resumeCheck (fun e _ _ c w => w.resume e c) true)))

/-- SKIP (R172 to R177, R156). -/
def execSkip (l : Lane) (s : State) : Host.Outcome State Fault Refusal :=
  .next (s.whenRunning (State.takeDirective l .skip
    (State.direct Works.skipCheck (fun e _ _ c w => w.skip e c) true)))

/-- RETRY (R172 to R177, R102). -/
def execRetry (l : Lane) (s : State) : Host.Outcome State Fault Refusal :=
  .next (s.whenRunning (State.takeDirective l .retry
    (State.direct Works.retryCheck (fun e _ _ c w => w.retry e c) true)))

/-- CLEAR_CHANNEL (R172 to R177, R103, R83). -/
def execClearChannel (l : Lane) (s : State) : Host.Outcome State Fault Refusal :=
  .next (s.whenRunning (State.takeDirective l .clearChannel
    (State.direct Works.clearCheck (fun e _ _ c w => w.clearChannel e c) true)))

/-- RETIME (R172 to R177, R46). -/
def execRetime (l : Lane) (s : State) : Host.Outcome State Fault Refusal :=
  .next (s.whenRunning (State.takeDirective l .retime State.directRetime))

/-- COPY_BEGIN (R29, R3). -/
def execCopyBegin (l : Lane) (dt : Nat) (s : State) : Host.Outcome State Fault Refusal :=
  .next (s.whenRunning (State.copyBegin l dt))

/-- COPY_END (R17, R30, R31). -/
def execCopyEnd (l : Lane) (readBack : List Symbol) (s : State) : Host.Outcome State Fault Refusal :=
  .next (s.whenRunning (State.copyEnd l readBack))

/-- COPY_ABANDONED (R29, R30): a boundary's busy count of a waiting copy reaches 2. -/
def execCopyAbandoned (l : Lane) (s : State) : Host.Outcome State Fault Refusal :=
  .next (s.slice (.busy l) (State.abandonDue l))

/-- JOIN_COMPLETE (R124, R123, log 29). -/
def execJoinComplete (s : State) : Host.Outcome State Fault Refusal :=
  .next (s.whenRunning fun s => s.hand Works.joinComplete)

/-- ORIGIN_SUSPECT (R90, R91). -/
def execOriginSuspect (c : Chan) (s : State) : Host.Outcome State Fault Refusal :=
  .next (s.slice (.watch c) (onChannel Env.suspectDue c))

/-- ORIGIN_LOST (R90, R92, R93). -/
def execOriginLost (c : Chan) (s : State) : Host.Outcome State Fault Refusal :=
  .next (s.slice (.watch c) (onChannel Env.lossDue c))

/-- CLAIM_EXPIRY (R110). -/
def execClaimExpiry (c : Chan) (s : State) : Host.Outcome State Fault Refusal :=
  .next (s.slice (.claimAge c) (onChannel Env.expiryDue c))

/-- BID_WINDOW_DECIDED (R116, R98). -/
def execBidWindowDecided (c : Chan) (s : State) : Host.Outcome State Fault Refusal :=
  .next (s.slice (.bid c) (onChannel Env.bidDue c))

/-- LANE_QUIET (R19). -/
def execLaneQuiet (l : Lane) (s : State) : Host.Outcome State Fault Refusal :=
  .next (s.slice (.laneJudge l) fun s =>
    decide ((s.lane l).judged s.cfg.laneQuietFrames = .quiet) && decide ((s.lane l).state ≠ .quiet))

/-- ISOLATED (R20, R96). -/
def execIsolated (s : State) : Host.Outcome State Fault Refusal :=
  .next (s.slice .isolation fun s => (s.silence || s.echoFaults) && !s.isolated)

/-- SERVER_SILENT (R146, R148). -/
def execServerSilent (c : Chan) (s : State) : Host.Outcome State Fault Refusal :=
  .next (s.slice (.cue c) (onChannel (faultIs .serverSilent) c))

/-- ARM_TIMEOUT (R146, R148). -/
def execArmTimeout (c : Chan) (s : State) : Host.Outcome State Fault Refusal :=
  .next (s.slice (.cue c) (onChannel (faultIs .armTimeout) c))

/-- TAKE_TIMEOUT (R146, R148). -/
def execTakeTimeout (c : Chan) (s : State) : Host.Outcome State Fault Refusal :=
  .next (s.slice (.cue c) (onChannel (faultIs .takeTimeout) c))

/-- WITHDRAWN_TAKE_EXPIRY (R146). -/
def execWithdrawnTakeExpiry (c : Chan) (s : State) : Host.Outcome State Fault Refusal :=
  .next (s.slice (.cue c) (onChannel (fun _ x => x.withdrawnDue) c))

/-- FOLLOW_DUE (R154, R78). -/
def execFollowDue (c : Chan) (s : State) : Host.Outcome State Fault Refusal :=
  .next (s.slice (.follow c) fun s => (s.works.followDue s.boundaryEnv c).isSome)

/-- READY_CHECK (R168, R170). -/
def execReadyCheck (c : Chan) (s : State) : Host.Outcome State Fault Refusal :=
  .next (s.slice (.handback c) (onChannel Env.checkDue c))

/-- HANDBACK_DONE (R169). -/
def execHandbackDone (c : Chan) (s : State) : Host.Outcome State Fault Refusal :=
  .next (s.slice (.handback c) (onChannel Env.doneDue c))

/-- TIME_LOADED (R43, R44). -/
def execTimeLoaded (s : State) : Host.Outcome State Fault Refusal :=
  .next (s.slice .timebase State.loadDue)

/-- REPORT_BUILD (R180 to R182). -/
def execReportBuild (s : State) : Host.Outcome State Fault Refusal :=
  .next (s.slice .report State.reportDue)

/-- ASRUN_BUILD (R162, R163, R26). -/
def execAsrunBuild (s : State) : Host.Outcome State Fault Refusal :=
  .next (s.slice .asrun fun s => s.boundaryEnv.asrunDue s.works && s.works.anyRecord)

end Sys2Proof.Machine
end

