-- ==== Sys2Proof/Machine/Dispatch.lean ====
section
/-! DEFINITION. The dispatch of a command to its meaning, one arm for each constructor. -/

namespace Sys2Proof.Machine

/-- A command's effect on everything but the queue. -/
def exec (i : Instr) (s : State) : Host.Outcome State Fault Refusal :=
  match i with
  | .resetAssert => Sys2Proof.Machine.execResetAssert s
  | .resetRelease straps => Sys2Proof.Machine.execResetRelease straps s
  | .configurationLoad image => Sys2Proof.Machine.execConfigurationLoad image s
  | .noMemory => Sys2Proof.Machine.execNoMemory s
  | .refPulse dt left => Sys2Proof.Machine.execRefPulse dt left s
  | .refLost left => Sys2Proof.Machine.execRefLost left s
  | .freeRunBoundary left => Sys2Proof.Machine.execFreeRunBoundary left s
  | .messageReceived l dt part => Sys2Proof.Machine.execMessageReceived l dt part s
  | .framingLost l dt cause => Sys2Proof.Machine.execFramingLost l dt cause s
  | .receiveTally l => Sys2Proof.Machine.execReceiveTally l s
  | .receiveSegment l => Sys2Proof.Machine.execReceiveSegment l s
  | .receiveClaim l => Sys2Proof.Machine.execReceiveClaim l s
  | .receiveCue l => Sys2Proof.Machine.execReceiveCue l s
  | .receivePortStatus l => Sys2Proof.Machine.execReceivePortStatus l s
  | .receiveTimeMark l => Sys2Proof.Machine.execReceiveTimeMark l s
  | .receiveReport l => Sys2Proof.Machine.execReceiveReport l s
  | .receiveAsRun l => Sys2Proof.Machine.execReceiveAsRun l s
  | .arm l => Sys2Proof.Machine.execArm l s
  | .disarm l => Sys2Proof.Machine.execDisarm l s
  | .forceTake l => Sys2Proof.Machine.execForceTake l s
  | .handBack l => Sys2Proof.Machine.execHandBack l s
  | .hold l => Sys2Proof.Machine.execHold l s
  | .resume l => Sys2Proof.Machine.execResume l s
  | .skip l => Sys2Proof.Machine.execSkip l s
  | .retry l => Sys2Proof.Machine.execRetry l s
  | .clearChannel l => Sys2Proof.Machine.execClearChannel l s
  | .retime l => Sys2Proof.Machine.execRetime l s
  | .copyBegin l dt => Sys2Proof.Machine.execCopyBegin l dt s
  | .copyEnd l readBack => Sys2Proof.Machine.execCopyEnd l readBack s
  | .copyAbandoned l => Sys2Proof.Machine.execCopyAbandoned l s
  | .joinComplete => Sys2Proof.Machine.execJoinComplete s
  | .originSuspect c => Sys2Proof.Machine.execOriginSuspect c s
  | .originLost c => Sys2Proof.Machine.execOriginLost c s
  | .claimExpiry c => Sys2Proof.Machine.execClaimExpiry c s
  | .bidWindowDecided c => Sys2Proof.Machine.execBidWindowDecided c s
  | .laneQuiet l => Sys2Proof.Machine.execLaneQuiet l s
  | .isolated => Sys2Proof.Machine.execIsolated s
  | .serverSilent c => Sys2Proof.Machine.execServerSilent c s
  | .armTimeout c => Sys2Proof.Machine.execArmTimeout c s
  | .takeTimeout c => Sys2Proof.Machine.execTakeTimeout c s
  | .withdrawnTakeExpiry c => Sys2Proof.Machine.execWithdrawnTakeExpiry c s
  | .followDue c => Sys2Proof.Machine.execFollowDue c s
  | .readyCheck c => Sys2Proof.Machine.execReadyCheck c s
  | .handbackDone c => Sys2Proof.Machine.execHandbackDone c s
  | .timeLoaded => Sys2Proof.Machine.execTimeLoaded s
  | .reportBuild => Sys2Proof.Machine.execReportBuild s
  | .asrunBuild => Sys2Proof.Machine.execAsrunBuild s

end Sys2Proof.Machine
end

