-- ==== Sys2Proof/Safety.lean ====
section
/-! DEFINITION. The terms that the statements use: when a command finds its event, what a frame says, what a safe state
is. -/

namespace Sys2Proof.Machine

/-! ## When a command finds its event -/

/-- The part works, and no work of the last boundary is outstanding. -/
def State.Ready (s : State) : Prop := s.running = true ∧ s.due = []

/-- A piece of the last boundary's work is outstanding, and nothing that it follows is. -/
def State.Outstanding (s : State) (k : Work) : Prop := k ∈ s.due ∧ ∀ j ∈ s.due, waitsFor k j = false

/-- The oldest entry of a lane's queue is a message that the dispatcher accepts (R10 to R12), from the station of a
peer record. -/
def State.Accepts (s : State) (l : Lane) (m : RxMsg) (p : Peer) : Prop :=
  s.Ready ∧ (s.lane l).queue.head? = some m ∧ s.badSender m.sender.toNat = false ∧
    findPeer s.peers m.sender.toNat = some p ∧ p.repeats m = false

/-- The part once the message is accepted and the peer table and the cue unit have acted on its header (R12). -/
def State.heard (s : State) (l : Lane) (p : Peer) (m : RxMsg) : State := (s.popRx l).acceptMsg l p m

/-- The command with which the dispatcher takes a message of a kind; a DIRECTIVE has one for each directive kind. -/
def receiveCommand (l : Lane) : MsgKind → Option Instr
  | .tally => some (.receiveTally l)
  | .segment => some (.receiveSegment l)
  | .claim => some (.receiveClaim l)
  | .cue => some (.receiveCue l)
  | .portStatus => some (.receivePortStatus l)
  | .timeMark => some (.receiveTimeMark l)
  | .report => some (.receiveReport l)
  | .asRun => some (.receiveAsRun l)
  | .directive => none

/-- The command with which the dispatcher takes a DIRECTIVE of a kind. -/
def directiveCommand (l : Lane) : DirKind → Instr
  | .arm => .arm l
  | .disarm => .disarm l
  | .forceTake => .forceTake l
  | .handBack => .handBack l
  | .hold => .hold l
  | .resume => .resume l
  | .skip => .skip l
  | .retry => .retry l
  | .clearChannel => .clearChannel l
  | .retime => .retime l

/-- An accepted message is a directive that reaches the directive unit (R14); a target of 0 is none (log 27). -/
def State.Directs (s : State) (l : Lane) (m : RxMsg) (p : Peer) (d : Directive) : Prop :=
  s.Accepts l m p ∧ m.kind = .directive ∧ readDirective m.payload = some d ∧
    ((d.target ≠ 0 ∧ d.target = s.own) ∨ d.target = 63)

/-- The directive passes checks 1 to 5 for a channel, from a control-station entry (R173, R174). -/
def State.Passes (s : State) (l : Lane) (m : RxMsg) (p : Peer) (d : Directive) (i : Fin 4) (c : Chan) : Prop :=
  s.Directs l m p d ∧ Config.controlOf s.cfg m.sender.toNat = some i ∧ s.works.lastNumbers[i] ≠ some d.number ∧
    ControlEntry.permits s.cfg.control[i] d.kind = true ∧ Config.localOf s.cfg d.bus = some c ∧
    ControlEntry.covers s.cfg.control[i] c = true

/-- A command takes a message of a lane's queue (R9). -/
def Takes (l : Lane) (m : RxMsg) (i : Instr) : Prop :=
  receiveCommand l m.kind = some i ∨ ∃ k, RxMsg.isDirective k m = true ∧ i = directiveCommand l k

/-- The layout of its kind cannot produce a message's payload (R13). -/
def RxMsg.Malformed (m : RxMsg) : Prop :=
  match m.kind with
  | .tally => readTally m.payload = none
  | .segment => readSegment m.payload = none
  | .claim => readClaim m.payload = none
  | .cue => cueWellFormed m.payload = false
  | .portStatus => readPortStatus m.payload = none
  | .directive => readDirective m.payload = none
  | .timeMark => readTimeMark m.payload = none
  | .report => reportWellFormed m.payload = false
  | .asRun => asRunWellFormed m.payload = false

/-- The bytes of a message between its delimiters (R1, R2): header, payload and check. -/
def messageBytes (sender : Byte) (kind : MsgKind) (serial : Byte) (stamp : Tick) (payload : List Byte) : List Byte :=
  let body :=
    [sender, BitVec.ofNat 8 kind.code, serial, BitVec.ofNat 8 payload.length] ++ beBytes 6 stamp.toNat ++ payload
  body ++ beBytes 2 (crc16 body).toNat

/-- The state in which a main-origin entry leaves a channel (R89). -/
def returnedState : ChState → ChState
  | .suspect | .lost | .bidding | .yielded => .mirroring
  | st => st

/-- The mirror status that a reference gives (R82), the other list deciding whether the live revision is withdrawn
(R62). -/
def statusAgainst (m : Mirror) (rev digest : Half) : MirrorStatus :=
  match m.liveRev with
  | none => .empty
  | some v =>
    if m.other.rev = some v then .behind
    else if 0 < (rev - v).toInt then .behind
    else if rev = v ∧ digest = m.digest then .current
    else .mismatch

/-- A SEGMENT of an origin of a channel is accepted, with numbers that R63 admits. -/
def State.Collects (s : State) (l : Lane) (m : RxMsg) (p : Peer) (g : SegmentMsg) (c : Chan) : Prop :=
  s.Accepts l m p ∧ m.kind = .segment ∧ readSegment m.payload = some g ∧ Config.localOf s.cfg g.bus = some c ∧
    (s.cfg.map[c].origin = m.sender.toNat ∨ s.cfg.map[c].standby = m.sender.toNat) ∧ g.index < g.total ∧ g.total ≤ 32

/-! ## Frames -/

/-- Outside the blocks behind the dispatcher nothing changed, the outstanding work apart. -/
def State.SameOutside (s t : State) : Prop :=
  t.load = s.load ∧ t.own = s.own ∧ t.cfg = s.cfg ∧ t.clk = s.clk ∧ t.laneA = s.laneA ∧ t.laneB = s.laneB ∧
    t.isolated = s.isolated ∧ t.disp = s.disp ∧ t.peers = s.peers ∧ t.pending = s.pending

/-- A boundary has been made, no time load pending (R36): its work is done but for what is left to commands, each
peer's counts have advanced once (R49), and the receivers, the dispatcher and the configuration are as they were. -/
def State.BoundaryMade (s t : State) (left : List Work) : Prop :=
  t.load = s.load ∧ t.own = s.own ∧ t.cfg = s.cfg ∧ t.disp = s.disp ∧ t.pending = s.pending ∧
    (∀ l, (t.lane l).queue = (s.lane l).queue ∧ (t.lane l).mode = (s.lane l).mode) ∧
    t.due = allWork.filter (heldBack left) ∧
    t.peers =
      if Work.peers ∈ left then s.peers
      else s.peers.map fun p =>
        { p with since := bump p.since, heardA := bump p.heardA, heardB := bump p.heardB }

/-- The part has entered CONFIG_FAULT with a cause, from a state, as R189 lays down: nothing of the image is installed,
the parameters have the values of its table, every block has started as by R188, and the notice is made. -/
def State.EntersFault (s t : State) (cause : LoadFault) : Prop :=
  t.load = .fault cause ∧ t.disp = s.disp ∧ t.pending = s.pending ∧ t.due = [] ∧ t.isolated = false ∧
    (t.cfg.linkDelay = 0 ∧ t.cfg.gain = 3 ∧ t.cfg.outlierLimit = 64 ∧ t.cfg.laneQuietFrames = 3 ∧
      t.cfg.isolationFrames = 5 ∧ t.cfg.lossFrames = 10 ∧ t.cfg.reportPeriod = 5 ∧ t.cfg.ratio = 1 ∧
      t.cfg.decrement = 600 ∧ t.cfg.limit = 900 ∧ t.cfg.clip = 2000 ∧ t.cfg.timeStation = 0) ∧
    (∀ sender, Config.controlOf t.cfg sender = none) ∧ (∀ bus, Config.localOf t.cfg bus = none) ∧
    (∀ c, (t.works.at c).state = .unmapped ∧ (t.works.at c).table = [] ∧ (t.works.at c).prim = none ∧
      (t.works.at c).alt = none ∧ (t.works.at c).mirror.live = []) ∧
    (∀ l, t.lane l = { s.lane l with mode := .hunting false, echoRun := 0, quietCount := 0, state := .up }) ∧
    (t.clk.count = 0 ∧ t.clk.phase = 0 ∧ t.clk.monitor = .freeRun ∧ t.clk.refLost = true ∧ t.clk.loaded = false ∧
      t.clk.loadPending = false ∧ t.clk.period = 1000000) ∧
    t.works.notices.ring = [{ kind := .configFault, chan := none, param := BitVec.ofNat 32 cause.code, frame := 0 }]

/-- A corrected configuration lies in the ranges of 11 section 11.2 and keeps the relations of R186 and R187. -/
def Corrected (r : Config) : Prop :=
  (r.linkDelay ≤ 1023 ∧ r.gain ≤ 7 ∧ 1 ≤ r.outlierLimit ∧ r.outlierLimit ≤ 4095 ∧ 1 ≤ r.suspectFrames ∧
      r.suspectFrames ≤ 50 ∧ 2 ≤ r.lossFrames ∧ r.lossFrames ≤ 250 ∧ 1 ≤ r.isolationFrames ∧
      r.isolationFrames ≤ 50 ∧ 1 ≤ r.laneQuietFrames ∧ r.laneQuietFrames ≤ 50 ∧ 2 ≤ r.claimExpiry ∧
      r.claimExpiry ≤ 16 ∧ 2 ≤ r.bidWindow ∧ r.bidWindow ≤ 32 ∧ 2 ≤ r.preroll ∧ r.preroll ≤ 30 ∧
      1 ≤ r.confirmFrames ∧ r.confirmFrames ≤ 8 ∧ r.handbackLead ≤ 250 ∧ 1 ≤ r.reportPeriod ∧
      r.reportPeriod ≤ 50 ∧ 1 ≤ r.asrunPeriod ∧ r.asrunPeriod ≤ 50 ∧ 1 ≤ r.ratio ∧ r.ratio ≤ 15 ∧
      r.decrement ≤ 65535 ∧ r.clip ≤ 65535 ∧ r.timeStation ≤ 62) ∧
    (r.suspectFrames < r.lossFrames ∧ r.claimExpiry ≤ r.bidWindow ∧ r.limit ≤ r.clip ∧ r.preroll < r.handbackLead) ∧
    (∀ i : Fin 4, r.control[i].id ≤ 62) ∧
    (∀ c : Chan, r.map[c].enabled = true →
      r.map[c].origin ≤ 62 ∧ r.map[c].standby ≤ 62 ∧ 1 ≤ r.map[c].prec ∧ r.map[c].prec ≤ 15 ∧
        1 ≤ r.map[c].primary.1 ∧ r.map[c].primary.1 ≤ 62 ∧ r.map[c].primary.2 ≤ 15 ∧
        r.map[c].alternate ≠ some r.map[c].primary ∧
        ∀ p, r.map[c].alternate = some p → 1 ≤ p.1 ∧ p.1 ≤ 62 ∧ p.2 ≤ 15) ∧
    (∀ c d : Chan, r.map[c].enabled = true → r.map[d].enabled = true → r.map[c].bus = r.map[d].bus → c = d)

/-- No other channel's context changed. -/
def Works.OthersKept (c : Chan) (w v : Works) : Prop := ∀ d : Chan, d ≠ c → v.at d = w.at d

/-- Nothing but contexts and notices changed. -/
def Works.OnlyContexts (w v : Works) : Prop :=
  v.join = w.join ∧ v.tx = w.tx ∧ v.store = w.store ∧ v.tag = w.tag ∧ v.counters = w.counters ∧
    v.lastNumbers = w.lastNumbers ∧ v.reportCount = w.reportCount ∧ v.nextHalf = w.nextHalf

/-- Nothing but notices changed. -/
def Works.OnlyNotices (v w : Works) : Prop := v = { w with notices := v.notices }

/-- A notice stands as the newest of the ring (R179). -/
def Works.Newest (w : Works) (kind : NoticeKind) (chan : Option Chan) (param : BitVec 32) (frame : Frame) : Prop :=
  w.notices.ring.head? = some { kind := kind, chan := chan, param := param, frame := frame }

/-- The notices are those of another state with one more made (R179). -/
def Works.OneNotice (w v : Works) (kind : NoticeKind) (chan : Option Chan) (param : BitVec 32) (frame : Frame) : Prop :=
  v.notices.ring = ({ kind := kind, chan := chan, param := param, frame := frame } :: w.notices.ring).take 32 ∧
    v.notices.count = w.notices.count + 1

/-- A request stands in the queue of the join engine, or its computation is in flight. -/
def Works.Requested (w : Works) (c : Chan) (kind : JoinKind) (take : Frame) (curEnd : Option Frame)
    (gen : Half) : Prop :=
  ∃ r : JoinReq, (w.queuedJoin c = some r ∨ w.flyingJoin c = some r) ∧ r.kind = kind ∧ r.take = take ∧
    r.curEnd = curEnd ∧ r.gen = gen

/-- The transmitter once cues are placed one after the other (R24). -/
def Works.sends (w : Works) (e : Env) (cues : List Cue) : Transmitter :=
  (cues.foldl (fun v c => v.placeCue e c) w).tx

/-- The TAKE that R143 places on a port now, under the tag counter's value. -/
def State.newTake (s : State) (r : PortRec) (source : JoinKind) (takeLocal : Frame) (ev : CurEvent) : Take :=
  let arm := max 1 (frameDiff (takeLocal - 1) s.clk.count).toNat
  { tag := s.works.tag, source := source, takeLocal := takeLocal, k := convertFrame (s.env.estimate r.server) takeLocal
    outcome := ev, seen := false, armCount := arm
    takeCount := max (arm + 1) (frameDiff (takeLocal + BitVec.ofNat 32 s.cfg.confirmFrames) s.clk.count).toNat }

/-- The tag that the counter gives after one (R139). -/
def tagAfter (t : Half) : Half := if t = 0xFFFF then 1 else t + 1

/-- The CUE that announces a TAKE on a port (R138, R143). -/
def takeCue (r : PortRec) (t : Take) : Cue :=
  { server := r.server, port := r.port, tag := t.tag
    body := .take t.outcome.event t.outcome.clip t.outcome.entry t.k (t.outcome.endAt.map fun f => f - t.takeLocal) }

/-- The CANCEL of a TAKE on a port (R138). -/
def cancelCue (r : PortRec) (t : Take) : Cue := { server := r.server, port := r.port, tag := t.tag, body := .cancel }

/-- The STOP of a port at a local frame, its server's estimate given (R138, R137). -/
def stopCue (estimate : Option Int) (r : PortRec) (stopLocal : Frame) : Cue :=
  { server := r.server, port := r.port, tag := r.onAirTag, body := .stop (convertFrame estimate stopLocal) }

/-- The closing cues of a stretch of air on its active port (R157): a CANCEL for a pending TAKE, then a STOP. -/
def endingCues (estimate : Option Int) (r : PortRec) (stopLocal : Frame) : List Cue :=
  (r.pending.toList.map fun t => cancelCue r t) ++ [stopCue estimate r stopLocal]

/-- A channel has left air (R99): the air fields are absent, the precedence is the configured one, two plain RELEASEs
are to be sent (R112) and no port record holds a TAKE or an on-air tag (R157). -/
def Context.OffAir (prec : Nat) (x : Context) : Prop :=
  x.cur = none ∧ x.anchor = none ∧ x.handback = .absent ∧ x.openRec = none ∧ x.prec = prec ∧ x.release = 2 ∧
    (∀ r, x.prim = some r ∨ x.alt = some r → r.pending = none ∧ r.onAirTag = 0 ∧ r.withdrawn = none)

/-- Five bytes of a REPORT half are the section of a channel (R181, R191); an absent live revision is only marked as
such (log 9). -/
def SectionAt (payload : List Byte) (o : Nat) (x : Context) : Prop :=
  fieldAt payload o 1 = x.state.code ∧ fieldAt payload (o + 1) 1 = x.mirror.status.code ∧
    (∀ v, x.mirror.liveRev = some v → fieldAt payload (o + 2) 2 = v.toNat) ∧
    fieldAt payload (o + 4) 1 =
      x.armed.toNat + 2 * x.isHeld.toNat + 4 * (decide (x.active = .alternate)).toNat + 8 * x.poolShort.toNat +
        16 * x.dualSeen.toNat + 32 * x.mirror.liveRev.isSome.toNat

/-! ## Commits (R73 to R76) -/

/-- The mirror after a commit of a revision, no reference being known (R74, R80, R82). -/
def Mirror.committed (y : Mirror) (rev : Half) (events : List EventRec) : Mirror :=
  { y with live := events, liveRev := some rev, digest := crc16 (events.flatMap EventRec.bytes), other := .absent
           rejected := none, short := none, rebuilt := if y.liveRev = some rev then some rev else none
           status := .current }

/-- What an off-air commit leaves of a channel (R74, R94), no reference being known: the new list and one notice. A
channel in LOST whose bid conditions then hold decides again, to YIELDED, or to BIDDING with the notice of that. -/
def State.CommitsOffAir (s1 : State) (c : Chan) (x : Context) (rev : Half) (events : List EventRec) (t : State) : Prop :=
  ∃ y : Context, y = { x with poolShort := false, mirror := x.mirror.committed rev events } ∧ s1.SameOutside t ∧
    t.due = s1.due ∧ s1.works.OthersKept c t.works ∧ s1.works.OnlyContexts t.works ∧
    (x.state ≠ .lost ∨ x.armed = false ∨ s1.isolated = true ∨ events = [] →
      t.works.at c = y ∧
        s1.works.OneNotice t.works .revisionCommitted (some c) (rev ++ BitVec.ofNat 16 events.length) s1.clk.count) ∧
    (x.state = .lost → x.armed = true → s1.isolated = false → events ≠ [] →
      ((∃ r ∈ x.table, r.kind = .hold) →
        t.works.at c = { y with state := .yielded } ∧
          s1.works.OneNotice t.works .revisionCommitted (some c) (rev ++ BitVec.ofNat 16 events.length)
            s1.clk.count) ∧
      ((∀ r ∈ x.table, r.kind = .bid) →
        t.works.at c =
            { y with state := .bidding, release := 0, bidCount := 0, bidNew := false, prec := s1.cfg.map[c].prec } ∧
          t.works.notices.ring =
            ({ kind := .bidStart, chan := some c, param := BitVec.ofNat 32 s1.cfg.map[c].prec
               frame := s1.clk.count } ::
              { kind := .revisionCommitted, chan := some c, param := rev ++ BitVec.ofNat 16 events.length
                frame := s1.clk.count } :: s1.works.notices.ring).take 32))

/-- The end that the span rule gives an event from its start (R126): its natural end, or the earlier of that and the
start of a FIXED successor. -/
def ruledEnd (anchor start : Frame) (r : EventRec) (after : List EventRec) : Option Frame :=
  let nat := if r.duration = 0 then none else some (start + r.duration.setWidth 32)
  match after with
  | [] => nat
  | q :: _ =>
    if q.mode = .fixed ∧ (r.duration = 0 ∨ frameDiff (q.startFrame + anchor) start < r.duration.toNat) then
      some (q.startFrame + anchor)
    else nat

/-- The end of the current event after a commit on air (R75), from the end by the span rule and now + P. -/
def endAfterCommit (ahead : Frame) (x : Context) (held : Bool) (ruled : Option Frame) : Option Frame :=
  if held = true then none
  else
    ruled.map fun f =>
      if 0 ≤ frameDiff f (ahead + 1) then f
      else
        match x.state, x.pending with
        | .cueing, some t => if 0 < frameDiff (t.takeLocal + 1) ahead then t.takeLocal + 1 else ahead
        | _, _ => ahead

/-- The current event brought onto a new list (R75, R76): a list event that the list holds is re-pointed, and FILLER
that is not held ends at the first FIXED start at least now + P + 1. -/
def ToldBy (ahead : Frame) (x : Context) (events : List EventRec) (ev new : CurEvent) : Prop :=
  (ev.place ≠ .filler → ∃ before r after, events = before ++ r :: after ∧ r.event = ev.event ∧
    (∀ q ∈ before, q.event ≠ ev.event) ∧
    new =
      { ev with
        place := .at before.length
        endAt := endAfterCommit ahead x ev.held (ruledEnd (x.anchor.getD 0) ev.start r after)
        natEnd := if r.duration = 0 then none else some (ev.start + r.duration.setWidth 32) }) ∧
  (ev.place = .filler → ev.held = true → new = ev) ∧
  (ev.place = .filler → ev.held = false → ∀ e,
    e = ((events.filter fun r => decide (r.mode = .fixed)).map fun r => r.startFrame + x.anchor.getD 0).find?
      (fun f => decide (0 ≤ frameDiff f (ahead + 1))) →
    new = { ev with endAt := e, natEnd := e })

/-! ## The walk of the join engine (R127, R128) -/

/-- Where a span ends. -/
def Span.stop : Span → Option Int
  | .event _ _ _ _ _ x => x
  | .gap _ x => some x
  | .tail _ _ => none

/-- Spans follow one another from a frame without a hole, none is empty, and an open one is the last. -/
def tiles (from_ : Int) : List Span → Prop
  | [] => True
  | s :: rest =>
    s.start = from_ ∧
      match s.stop with
      | none => rest = []
      | some x => from_ < x ∧ tiles x rest

/-- What a walk gives at a distance (R130's table): the event whose span contains it, FILLER to the end of a gap, or
FILLER, open, with SCHEDULE_EXHAUSTED beyond the last event. The local frame of the walk's first frame is `base`. -/
def WalkGives (clip : Ident) (base take : Frame) (anchor : Option Frame) (d : Int) (spans : List Span)
    (result : JoinResult) : Prop :=
  (∀ i r sched air nat stop, Span.event i r sched air nat stop ∈ spans → air ≤ d → (∀ x, stop = some x → d < x) →
    result =
      { outcome := .take
          { place := .at i, event := r.event, clip := r.clip, entry := BitVec.ofInt 32 (d - sched)
            start := frameAt base sched, endAt := stop.map (frameAt base), natEnd := nat.map (frameAt base)
            held := false }
        anchor := anchor, due := [] }) ∧
  (∀ start x, Span.gap start x ∈ spans → start ≤ d → d < x →
    result =
      { outcome := .take
          { place := .filler, event := 0, clip := clip, entry := 0, start := take, endAt := some (frameAt base x)
            natEnd := some (frameAt base x), held := false }
        anchor := anchor, due := [] }) ∧
  ∀ start last, Span.tail start last ∈ spans → start ≤ d →
    result =
      { outcome := .take
          { place := .filler, event := 0, clip := clip, entry := 0, start := take, endAt := none, natEnd := none
            held := false }
        anchor := anchor, due := [(.scheduleExhausted, last)] }

/-- The events that follow the current event in the list of a computation (R126, R128): those after its index, all when
it precedes index 0, and for FILLER those from the first FIXED start at or later than its end. -/
def JoinFlight.Follows (f : JoinFlight) (cur : CurEvent) (endAt : Frame) (rest : List (Nat × EventRec)) : Prop :=
  (∀ i, cur.place = .at i → rest = (indexed f.list).drop (i + 1)) ∧
    (cur.place = .beforeZero → rest = indexed f.list) ∧
    (cur.place = .filler → ∃ before, indexed f.list = before ++ rest ∧
      (∀ p ∈ before, p.2.mode = .fixed → frameDiff (p.2.startFrame + f.anchor.getD 0) endAt < 0) ∧
      ∀ p tail, rest = p :: tail →
        p.2.mode = .fixed ∧ 0 ≤ frameDiff (p.2.startFrame + f.anchor.getD 0) endAt)

/-! ## Bounds that every step keeps -/

/-- An estimator lies within the bounds of R52 and R56 whenever it is valid. -/
def Estimator.Bounded (x : Estimator) : Prop := x.valid = true → -sampleBound ≤ x.e ∧ x.e ≤ sampleBound

/-- The receive queues within their capacity (R7), every valid estimate within its bounds (R56), a measured period that
is not 0 (R37), and a phase that began at or below 512 (R36, R38). -/
def State.Sound (s : State) : Prop :=
  s.laneA.queue.length ≤ 8 ∧ s.laneB.queue.length ≤ 8 ∧ (∀ p ∈ s.peers, p.est.Bounded) ∧ 0 < s.clk.period ∧
    s.clk.base ≤ 512

/-- A claim table within the bounds of R106: at most four entries, one for a station, none from the part itself. -/
def TableSound (own : Nat) (table : List Rival) : Prop :=
  table.length ≤ 4 ∧ (table.map Rival.station).Nodup ∧ ∀ r ∈ table, r.station ≠ own

/-- The claim tables within the bounds of R106, and empty until the load has ended. -/
def State.TablesSound (s : State) : Prop :=
  (∀ c, TableSound s.own (s.works.at c).table) ∧ (s.running = false → ∀ c, (s.works.at c).table = [])

/-- The account between 0 and clip (R31), the three transmit queues within their capacities, the message in flight
counted (R22), the notice ring and the as-run ring within theirs (R179, R160), a write position of the ring (R160), a
cue tag that is not 0 (R139), and a half to be built next that is 0 or 1 (R180). -/
def State.Stocked (s : State) : Prop :=
  s.works.tx.account ≤ s.cfg.clip ∧ s.works.tx.urgent.length + s.works.tx.flying .urgent ≤ 16 ∧
    s.works.tx.routine.length + s.works.tx.flying .routine ≤ 4 ∧
    s.works.tx.bulk.length + s.works.tx.flying .bulk ≤ 2 ∧ s.works.notices.ring.length ≤ 32 ∧
    s.works.store.ring.length ≤ 512 ∧ s.works.store.writePos < 512 ∧ s.works.tag ≠ 0 ∧ s.works.nextHalf ≤ 1

/-- The lists of all channels fit the event pool (R60). -/
def State.Pooled (s : State) : Prop := s.works.usedSlots ≤ 4096

end Sys2Proof.Machine
end

