-- ==== Sys2Proof/Certificates/Slice0/Obligations.lean ====
section
/-! DEFINITION. The statements for the provers, chapter by chapter of the data book. A statement about a command says
that it answers a next state, what that state holds, and what is as it was. -/

section

open Sys2Proof Sys2Proof.Machine

/-! ## Reset, loading and CONFIG_FAULT (11) -/

/-- R184, R47, R40: RESET_ASSERT, in any state, gives every block its reset values, the measured period its nominal
1,000,000 crystal periods among them, and the part is deaf. What the loader
installs later (own id, configuration, the size of the peer table: logs 6, 7) is not spoken of; the precedence 15 and
the clear armed flag of a context that holds no map entry are log 6's. -/
def Obligations.ResetAssertGivesResetValues : Prop :=
  ∀ s : State, ∃ t, exec .resetAssert s = .next t ∧ t.pending = s.pending ∧ t.load = .reset ∧ t.running = false ∧
    t.due = [] ∧
    (t.clk.count = 0 ∧ t.clk.phase = 0 ∧ t.clk.monitor = .freeRun ∧ t.clk.refLost = true ∧ t.clk.loaded = false ∧
      t.clk.loadPending = false ∧ t.clk.pendingValue = 0 ∧ t.clk.lastSlip = 0 ∧ t.clk.refGlitch = 0 ∧
      t.clk.foreignMark = 0 ∧ t.clk.period = 1000000) ∧
    (∀ l, (t.lane l).mode = .held ∧ (t.lane l).queue = [] ∧ (t.lane l).checkError = 0 ∧ (t.lane l).truncated = 0 ∧
      (t.lane l).framingLost = 0 ∧ (t.lane l).overrun = 0 ∧ (t.lane l).unknownKind = 0 ∧ (t.lane l).lengthError = 0 ∧
      (t.lane l).echoRun = 0 ∧ (t.lane l).quietCount = 0 ∧ (t.lane l).state = .up) ∧
    t.isolated = false ∧
    (t.disp.badSender = 0 ∧ t.disp.malformed = 0 ∧ t.disp.cueIgnored = 0 ∧ t.disp.notTargeted = 0 ∧
      t.disp.foreignTally = 0 ∧ t.disp.foreignSegment = 0) ∧
    (∀ p ∈ t.peers, p.present = false ∧
      p.roles = { origin := false, recovery := false, server := false, control := false, time := false } ∧
      p.lastSerial = none ∧ p.since = 0 ∧ p.heardA = 255 ∧ p.heardB = 255 ∧ p.est.valid = false ∧ p.est.e = 0 ∧
      p.est.run = 0 ∧ p.est.sat = false) ∧
    (∀ c, (t.works.at c).state = .unmapped ∧ (t.works.at c).armed = false ∧ (t.works.at c).tally = none ∧
      (t.works.at c).standbyStamp = none ∧ (t.works.at c).seen = false ∧ (t.works.at c).age = 255 ∧
      (t.works.at c).prec = 15 ∧ (t.works.at c).anchor = none ∧ (t.works.at c).cur = none ∧
      (t.works.at c).active = .primary ∧ (t.works.at c).gen = 0 ∧ (t.works.at c).handback = .absent ∧
      (t.works.at c).openRec = none ∧ (t.works.at c).poolShort = false ∧ (t.works.at c).dualSeen = false ∧
      (t.works.at c).table = [] ∧ (t.works.at c).release = 0 ∧ (t.works.at c).prim = none ∧
      (t.works.at c).alt = none ∧ (t.works.at c).waitReq = none ∧ (t.works.at c).followOwed = false) ∧
    (∀ c, (t.works.at c).mirror.live = [] ∧ (t.works.at c).mirror.liveRev = none ∧
      (t.works.at c).mirror.digest = 0xFFFF ∧ (t.works.at c).mirror.other = .absent ∧
      (t.works.at c).mirror.reference = none ∧ (t.works.at c).mirror.status = .empty ∧
      (t.works.at c).mirror.rejected = none ∧ (t.works.at c).mirror.short = none ∧
      (t.works.at c).mirror.rebuilt = none ∧ (t.works.at c).mirror.clearWaits = false) ∧
    (t.works.join.queue = [] ∧ t.works.join.flight = none) ∧
    (t.works.tx.flight = none ∧ t.works.tx.serial = 0 ∧ t.works.tx.account = 0 ∧ t.works.tx.urgent = [] ∧
      t.works.tx.routine = [] ∧ t.works.tx.bulk = [] ∧ t.works.tx.urgentDropped = 0 ∧
      t.works.tx.routineDiscarded = 0 ∧ t.works.tx.bulkNotBuilt = 0 ∧ t.works.tx.busySkipA = 0 ∧
      t.works.tx.busySkipB = 0) ∧
    (t.works.store.ring = [] ∧ t.works.store.writePos = 0 ∧ t.works.store.closing = 0 ∧ t.works.store.period = 0 ∧
      t.works.store.cursor = .ring 0) ∧
    (t.works.counters.segmentRange = 0 ∧ t.works.counters.tallySanity = 0 ∧ t.works.counters.tallyStale = 0 ∧
      t.works.counters.claimRange = 0 ∧ t.works.counters.claimTableFull = 0 ∧ t.works.counters.foreignStatus = 0 ∧
      t.works.counters.unknownController = 0) ∧
    t.works.tag = 1 ∧ (t.works.notices.ring = [] ∧ t.works.notices.count = 0) ∧
    (∀ i : Fin 4, t.works.lastNumbers[i] = none) ∧ t.works.reportCount = 0 ∧ t.works.nextHalf = 0

/-- R183, R185, R188, R189, R85, R140: RESET_RELEASE reads the straps when the reset pin was asserted; a valid value
starts the load, 0 and 63 lead to CONFIG_FAULT. An image whose CRC-16 over its first 252 bytes agrees with its image
check is corrected and installed: every enabled channel begins in MIRRORING with its port records, every other in
UNMAPPED, and the blocks begin together. One that does not, or a memory that does not answer, leads to CONFIG_FAULT.
(That RESET_RELEASE in any other load state changes nothing is the model's choice: log 1.) -/
def Obligations.StrapsAndImageDecideTheLoad : Prop :=
  (∀ (s : State) (straps : BitVec 6),
     (s.load = .reset → 1 ≤ straps.toNat → straps.toNat ≤ 62 →
       ∃ t, exec (.resetRelease straps) s = .next t ∧
         t = { s with load := .loading, own := straps.toNat, peers := t.peers } ∧ t.peers.length = 61 ∧
         ∀ n, (∃ p ∈ t.peers, p.station = n) ↔ 1 ≤ n ∧ n ≤ 62 ∧ n ≠ straps.toNat) ∧
     (s.load = .reset → straps.toNat = 0 ∨ straps.toNat = 63 →
       ∃ t, exec (.resetRelease straps) s = .next t ∧ s.EntersFault t .strapInvalid ∧ t.own = straps.toNat ∧
         t.peers.length = 62 ∧ ∀ n, (∃ p ∈ t.peers, p.station = n) ↔ 1 ≤ n ∧ n ≤ 62) ∧
     (s.load ≠ .reset → exec (.resetRelease straps) s = .next s)) ∧
  (∀ s : State, s.load = .loading →
     (∀ image : List Byte, (crc16 (image.take 252)).toNat ≠ fieldAt image 252 2 →
       ∃ t, exec (.configurationLoad image) s = .next t ∧ s.EntersFault t .checkFailed ∧ t.own = s.own ∧
         t.peers = s.peers) ∧
     (∃ t, exec .noMemory s = .next t ∧ s.EntersFault t .noMemory ∧ t.own = s.own ∧ t.peers = s.peers) ∧
     ∀ image : List Byte, (crc16 (image.take 252)).toNat = fieldAt image 252 2 →
       ∃ t, exec (.configurationLoad image) s = .next t ∧
         t.cfg = (correctImage (readImage image)).1 ∧ t.load = .good (correctImage (readImage image)).2 ∧
         t.own = s.own ∧ t.peers = s.peers ∧ t.disp = s.disp ∧ t.pending = s.pending ∧ t.due = [] ∧ t.isolated = false ∧
         (∀ c : Chan, t.cfg.map[c].enabled = true →
           (t.works.at c).state = .mirroring ∧ (t.works.at c).armed = t.cfg.map[c].armed ∧
             (t.works.at c).prec = t.cfg.map[c].prec ∧ (t.works.at c).seen = false ∧ (t.works.at c).age = 255 ∧
             (t.works.at c).prim =
               some { server := t.cfg.map[c].primary.1, port := t.cfg.map[c].primary.2, pending := none, onAirTag := 0,
                      withdrawn := none, silent := 255 } ∧
             ((t.works.at c).alt.map fun r => (r.server, r.port)) = t.cfg.map[c].alternate) ∧
         (∀ c : Chan, t.cfg.map[c].enabled = false →
           (t.works.at c).state = .unmapped ∧ (t.works.at c).prim = none ∧ (t.works.at c).alt = none) ∧
         (∀ c, (t.works.at c).table = [] ∧ (t.works.at c).mirror.live = []) ∧
         (∀ l, t.lane l = { s.lane l with mode := .hunting false, echoRun := 0, quietCount := 0, state := .up }) ∧
         (t.clk.count = 0 ∧ t.clk.phase = 0 ∧ t.clk.monitor = .freeRun ∧ t.clk.refLost = true ∧ t.clk.loaded = false ∧
           t.clk.period = 1000000) ∧
         t.works.tag = 1 ∧ t.works.tx.account = 0 ∧ t.works.notices.ring = [])

/-- R186, R187, R190: how the 254 bytes of the image are read, and how what they spell is corrected. Each field takes
the nearer bound of its range, then the four relations hold, each by its own correction; of enabled entries with one
bus channel the first stays, and an alternate equal to its primary goes. So the result lies in its ranges and keeps
the relations. The count is the number of fields whose value changed, of entries disabled and of alternates removed,
at most 255; and a configuration that needs no correction keeps every field that is read, with count 0. -/
def Obligations.CorrectedImageIsSoundAndStable : Prop :=
  (∀ c : Config, Corrected (correctImage c).1 ∧ (correctImage c).2 ≤ 255 ∧
    correctImage (correctImage c).1 = ((correctImage c).1, 0)) ∧
  (∀ c : Config, Corrected c →
    (correctImage c).2 = 0 ∧
      (correctImage c).1 = { c with control := (correctImage c).1.control, map := (correctImage c).1.map } ∧
      (∀ i : Fin 4, (correctImage c).1.control[i].id = c.control[i].id ∧
        (c.control[i].id ≠ 0 →
          (correctImage c).1.control[i] = { c.control[i] with perm := c.control[i].perm &&& 0x3FF })) ∧
      ∀ ch : Chan, (correctImage c).1.map[ch].enabled = c.map[ch].enabled ∧
        (c.map[ch].enabled = true → (correctImage c).1.map[ch] = c.map[ch])) ∧
  (∀ c r : Config, r = (correctImage c).1 →
    (r.linkDelay = min 1023 c.linkDelay ∧ r.gain = min 7 c.gain ∧ r.outlierLimit = max 1 (min 4095 c.outlierLimit) ∧
      r.suspectFrames = max 1 (min 50 c.suspectFrames) ∧
      r.lossFrames = max (r.suspectFrames + 1) (max 2 (min 250 c.lossFrames)) ∧
      r.isolationFrames = max 1 (min 50 c.isolationFrames) ∧ r.laneQuietFrames = max 1 (min 50 c.laneQuietFrames) ∧
      r.claimExpiry = max 2 (min 16 c.claimExpiry) ∧ r.bidWindow = max r.claimExpiry (max 2 (min 32 c.bidWindow)) ∧
      r.preroll = max 2 (min 30 c.preroll) ∧ r.confirmFrames = max 1 (min 8 c.confirmFrames) ∧
      r.handbackLead = max (r.preroll + 1) (max 3 (min 250 c.handbackLead)) ∧
      r.reportPeriod = max 1 (min 50 c.reportPeriod) ∧ r.asrunPeriod = max 1 (min 50 c.asrunPeriod) ∧
      r.ratio = max 1 (min 15 c.ratio) ∧ r.decrement = min 65535 c.decrement ∧ r.clip = min 65535 c.clip ∧
      r.limit = min r.clip c.limit ∧ r.timeStation = min 62 c.timeStation) ∧
    (∀ i : Fin 4, r.control[i].id = min 62 c.control[i].id ∧
      (c.control[i].id ≠ 0 →
        r.control[i].perm = c.control[i].perm &&& 0x3FF ∧ r.control[i].mask = c.control[i].mask)) ∧
    ∀ (ch : Chan) (x : MapEntry) (port : Nat × Nat → Nat × Nat), x = c.map[ch] →
      (∀ p, port p = (max 1 (min 62 p.1), min 15 p.2)) →
      (r.map[ch].enabled = true ↔
        x.enabled = true ∧ ∀ k : Chan, k < ch → c.map[k].enabled = true → c.map[k].bus ≠ x.bus) ∧
      (r.map[ch].enabled = true →
        r.map[ch] =
          { x with
            origin := min 62 x.origin, standby := min 62 x.standby, prec := max 1 (min 15 x.prec)
            primary := port x.primary
            alternate := if x.alternate.map port = some (port x.primary) then none else x.alternate.map port })) ∧
  (∀ c second r : Config, second = relateConfig (clampConfig c) → r = (correctImage c).1 →
    (correctImage c).2 =
      min 255
        ((((allScalars c).zip (allScalars second)).filter fun p => p.1 != p.2).length +
          ((List.finRange 16).filter fun ch => second.map[ch].enabled && !r.map[ch].enabled).length +
          ((List.finRange 16).filter fun ch =>
            r.map[ch].enabled && decide (second.map[ch].alternate ≠ r.map[ch].alternate)).length)) ∧
  ∀ (image : List Byte) (b : Nat → Nat) (r : Config), image.length = 254 → (∀ k, b k = (image.getD k 0).toNat) →
    r = readImage image →
    (r.linkDelay = 256 * b 0 + b 1 ∧ r.gain = b 2 ∧ r.outlierLimit = 256 * b 3 + b 4 ∧ r.suspectFrames = b 5 ∧
      r.lossFrames = b 6 ∧ r.isolationFrames = b 7 ∧ r.laneQuietFrames = b 8 ∧ r.claimExpiry = b 9 ∧
      r.bidWindow = b 10 ∧ r.preroll = b 11 ∧ r.confirmFrames = b 12 ∧ r.handbackLead = b 13 ∧
      r.reportPeriod = b 14 ∧ r.asrunPeriod = b 15 ∧ r.ratio = b 16 ∧ r.decrement = 256 * b 17 + b 18 ∧
      r.limit = 256 * b 19 + b 20 ∧ r.clip = 256 * b 21 + b 22 ∧ r.timeStation = b 23) ∧
    (∀ (i : Fin 4) (o : Nat), o = 24 + 5 * i.val →
      r.control[i].id = b o ∧ r.control[i].perm.toNat = 256 * b (o + 1) + b (o + 2) ∧
        r.control[i].mask.toNat = 256 * b (o + 3) + b (o + 4)) ∧
    ∀ (ch : Chan) (o : Nat), o = 44 + 13 * ch.val →
      (r.map[ch].enabled = (b o).testBit 0 ∧ r.map[ch].armed = (b o).testBit 1 ∧ r.map[ch].bus.toNat = b (o + 1) ∧
        r.map[ch].origin = b (o + 2) ∧ r.map[ch].standby = b (o + 3) ∧ r.map[ch].prec = b (o + 4) ∧
        r.map[ch].primary = (b (o + 5), b (o + 6)) ∧
        r.map[ch].alternate = (if (b o).testBit 2 = true then some (b (o + 7), b (o + 8)) else none) ∧
        r.map[ch].filler.toNat =
          16777216 * b (o + 9) + 65536 * b (o + 10) + 256 * b (o + 11) + b (o + 12))

/-! ## Reference and boundaries (03) -/

/-- R37: in LOCKED a REF pulse is judged by its interval. Less than half a measured period: a glitch, which is counted
and changes nothing but the time that has passed. Half a period or more, and not beyond one and a half: a boundary at
once, count plus one, phase 0, the measured period the interval. (A time load pending at that boundary is judged by
R43: `TimeLoadIsMade`.) -/
def Obligations.LockedPulseIsJudged : Prop :=
  ∀ (s : State) (dt : Nat) (left : List Work), s.Ready → s.clk.monitor = .locked →
    (2 * (s.clk.elapsed + dt) < s.clk.period →
      exec (.refPulse dt left) s =
        .next { s with clk := { s.clk with elapsed := s.clk.elapsed + dt, refGlitch := bump s.clk.refGlitch } }) ∧
    (s.clk.loadPending = false → s.clk.period ≤ 2 * (s.clk.elapsed + dt) →
      2 * (s.clk.elapsed + dt) ≤ 3 * s.clk.period →
      ∃ t, exec (.refPulse dt left) s = .next t ∧ s.BoundaryMade t left ∧
        t.clk = { s.clk with count := s.clk.count + 1, base := 0, elapsed := 0, period := s.clk.elapsed + dt })

/-- R38, R39: a pulse in FREE_RUN locks the monitor and clears REF_LOST, the measured period as it was. At a phase of
512 or more it makes a boundary; below 512 it restarts the frame and makes none. REF_RESTORED gives the signed step.
REF_LOST in LOCKED makes a boundary whose phase begins at 512, and FREE_RUN_BOUNDARY in FREE_RUN one whose phase
begins at 0; neither changes the measured period. (That REF_RESTORED and REF_LOST are the newest notices after the
work of their boundary is the model's reading: log 21. That REF_LOST and FREE_RUN_BOUNDARY make their boundary
whatever time has been counted is the model's choice: log 2.) -/
def Obligations.FreeRunPulsesAndBoundaries : Prop :=
  (∀ (s : State) (dt phase : Nat) (left : List Work), s.Ready → s.clk.monitor = .freeRun → s.clk.loadPending = false →
     (s.clk.advance dt).phase = phase →
     (512 ≤ phase →
       ∃ t, exec (.refPulse dt left) s = .next t ∧ s.BoundaryMade t left ∧
         t.clk =
           { s.clk with count := s.clk.count + 1, base := 0, elapsed := 0, monitor := .locked, refLost := false } ∧
         t.works.Newest .refRestored none (BitVec.ofInt 32 (1024 - phase)) (s.clk.count + 1)) ∧
     (phase < 512 →
       ∃ t, exec (.refPulse dt left) s = .next t ∧
         t = { s with clk := { s.clk with base := 0, elapsed := 0, monitor := .locked, refLost := false }
                      works := t.works } ∧
         t.works.OnlyNotices s.works ∧
         s.works.OneNotice t.works .refRestored none (BitVec.ofInt 32 (-phase)) s.clk.count)) ∧
  (∀ (s : State) (left : List Work), s.Ready → s.clk.loadPending = false →
     (s.clk.monitor = .locked →
       ∃ t, exec (.refLost left) s = .next t ∧ s.BoundaryMade t left ∧
         t.clk =
           { s.clk with count := s.clk.count + 1, base := 512, elapsed := 0, monitor := .freeRun, refLost := true } ∧
         t.works.Newest .refLost none 0 (s.clk.count + 1)) ∧
     (s.clk.monitor = .freeRun →
       ∃ t, exec (.freeRunBoundary left) s = .next t ∧ s.BoundaryMade t left ∧
         t.clk = { s.clk with count := s.clk.count + 1, base := 0, elapsed := 0 }))

/-- R43, R44, R56: a pending time load is made at the boundary when no channel is engaged: the count takes V, the
phase begins at 0, arrival ticks and valid estimates move by the same shift, an estimate held at a bound sets its SAT
flag, and TIME_LOADED stands in the ring before one ESTIMATE_SATURATED for each station whose SAT flag was clear. (At
a boundary that also lost the reference the phase begins at 0 too: the model's reading, log 20. The order of several
ESTIMATE_SATURATED, which the data book leaves open and the model takes by station: log 37, is not spoken of.) -/
def Obligations.TimeLoadIsMade : Prop :=
  ∀ (s : State), s.Outstanding .timebase → s.clk.loadPending = true →
    (∀ c, (s.works.at c).state ≠ .bidding ∧ (s.works.at c).state ≠ .cueing ∧ (s.works.at c).state ≠ .onAir ∧
      (s.works.at c).state ≠ .returning) →
    ∃ t, exec .timeLoaded s = .next t ∧
      t.clk = { s.clk with count := s.clk.pendingValue, base := 0, elapsed := 0, loaded := true, loadPending := false,
                           lastSlip := 0 } ∧
      t.peers = s.peers.map (fun p =>
        { p with est :=
            if p.est.valid then
              { p.est with
                e := max (-sampleBound) (min sampleBound (p.est.e + frameDiff s.clk.pendingValue s.clk.count * 1024))
                sat := p.est.sat ||
                  decide (sampleBound < (p.est.e + frameDiff s.clk.pendingValue s.clk.count * 1024).natAbs) }
            else p.est }) ∧
      (∀ l, t.lane l =
        { s.lane l with
          queue := (s.lane l).queue.map fun m =>
            { m with arrival := m.arrival + BitVec.ofInt 42 (frameDiff s.clk.pendingValue s.clk.count * 1024) }
          mode := match (s.lane l).mode with
            | .receiving a => .receiving (a + BitVec.ofInt 42 (frameDiff s.clk.pendingValue s.clk.count * 1024))
            | x => x }) ∧
      t.load = s.load ∧ t.own = s.own ∧ t.cfg = s.cfg ∧ t.disp = s.disp ∧ t.isolated = s.isolated ∧
      t.pending = s.pending ∧ t.due = s.due.erase .timebase ∧ t.works.OnlyNotices s.works ∧
      ∀ ids : List Nat,
        ids = (s.peers.filter fun p => p.est.valid && !p.est.sat && decide
          (2147483647 < (p.est.e + frameDiff s.clk.pendingValue s.clk.count * 1024).natAbs)).map Peer.station →
        t.works.notices.count = s.works.notices.count + 1 + BitVec.ofNat 16 ids.length ∧
          ∃ order : List Nat, order.Perm ids ∧
            t.works.notices.ring =
              ((order.map fun id =>
                  ({ kind := .estimateSaturated, chan := none, param := BitVec.ofNat 32 id
                     frame := s.clk.pendingValue } : Notice)) ++
                { kind := .timeLoaded, chan := none, param := s.clk.pendingValue - s.clk.count,
                  frame := s.clk.pendingValue } :: s.works.notices.ring).take 32

/-- R31, R36, and the model's order of work (log 3): the boundary of an accepted REF pulse, and of FREE_RUN_BOUNDARY,
does every piece of work that is not left to a command and follows none that is, in the order of the list of all work,
and leaves the rest outstanding. The account then falls by decrement, at most to 0, and the pick is made. Work still
outstanding is finished before any command that is no piece of a boundary's work. (That FREE_RUN_BOUNDARY makes its
boundary whatever time has been counted is the model's choice: log 2.) -/
def Obligations.BoundaryDoesItsWork : Prop :=
  (∀ (s u : State) (left : List Work) (dt : Nat) (i : Instr), s.Ready →
    u = { s with works := { s.works with ctx := s.works.ctx.map fun x => { x with bidNew := false } } } →
    (∀ k, k ∈ allWork.filter (heldBack left) ↔ k ∈ left ∨ ∃ j ∈ left, waitsFor k j = true) ∧
    (∀ (clk : Timebase) (done : State),
      done = runAll (allWork.filter fun k => !heldBack left k) { u with clk := clk } →
      (s.clk.monitor = .locked → s.clk.period ≤ 2 * (s.clk.elapsed + dt) →
        2 * (s.clk.elapsed + dt) ≤ 3 * s.clk.period → i = .refPulse dt left →
        clk = { s.clk with count := s.clk.count + 1, base := 0, elapsed := 0, period := s.clk.elapsed + dt } →
        exec i s = .next { done with due := allWork.filter (heldBack left) }) ∧
      (s.clk.monitor = .freeRun → i = .freeRunBoundary left →
        clk = { s.clk with count := s.clk.count + 1, base := 0, elapsed := 0 } →
        exec i s = .next { done with due := allWork.filter (heldBack left) }))) ∧
  (∀ s : State,
    runWork .account s =
      { s with works := { s.works with
        tx := { s.works.tx with account := s.works.tx.account - s.cfg.decrement }.pick s.cfg } }) ∧
  ∀ (s : State) (i : Instr), s.running = true →
    ((∃ l k, receiveCommand l k = some i) ∨ (∃ l k, i = directiveCommand l k) ∨ (∃ dt left, i = .refPulse dt left) ∨
      (∃ left, i = .refLost left ∨ i = .freeRunBoundary left) ∨ (∃ l dt part, i = .messageReceived l dt part) ∨
      (∃ l dt cause, i = .framingLost l dt cause) ∨ (∃ l dt, i = .copyBegin l dt) ∨ (∃ l back, i = .copyEnd l back) ∨
      i = .joinComplete) →
    exec i s = exec i { runAll s.due s with due := [] }

/-! ## Lines and copies (01, 02) -/

/-- R1 to R7: a message of any kind whose payload is no larger than its kind's largest, its bytes collected in
RECEIVING, joins a queue of fewer than 8 entries as the newest, with the arrival tick already taken; a full queue
drops it and counts an overrun. A start delimiter in HUNTING takes the arrival tick; in RECEIVING it counts one
framing lost and starts again. A message that arrives whole does what its start delimiter and then its end do. A
collected message that fails a check of R4 is discarded and counted under the first it fails. Framing is lost by the
four causes of R6: a data byte beyond 12 plus the stated length loses it once, and the run of stray symbols that then
ends with the end delimiter once more; a run of stray symbols in HUNTING counts once, at its first symbol. (The parts
of a message that MESSAGE_RECEIVED names are the model's: log 28.) -/
def Obligations.MessagesAreQueuedOrDiscarded : Prop :=
  (∀ (s : State) (l : Lane) (dt : Nat) (sender : Byte) (kind : MsgKind) (serial : Byte) (stamp arrival : Tick)
     (payload : List Byte),
     s.Ready → (s.lane l).mode = .receiving arrival → payload.length ≤ kind.largest →
     ((s.lane l).queue.length < 8 →
       exec (.messageReceived l dt (.closing (messageBytes sender kind serial stamp payload))) s =
         .next ((s.pass dt).modLane l fun x =>
           { x with
             mode := .hunting false
             queue := x.queue ++
               [{ sender := sender, kind := kind, serial := serial, stamp := stamp, payload := payload,
                  arrival := arrival }] })) ∧
     (8 ≤ (s.lane l).queue.length →
       exec (.messageReceived l dt (.closing (messageBytes sender kind serial stamp payload))) s =
         .next ((s.pass dt).modLane l fun x => { x with mode := .hunting false, overrun := bump x.overrun }))) ∧
  (∀ (s : State) (l : Lane) (dt : Nat), s.Ready →
     (∀ run, (s.lane l).mode = .hunting run →
       exec (.messageReceived l dt .opening) s =
         .next ((s.pass dt).modLane l fun x => { x with mode := .receiving (s.pass dt).clk.tick })) ∧
     (∀ (bytes : List Byte) (u : State), exec (.messageReceived l dt .opening) s = .next u →
       exec (.messageReceived l dt (.whole bytes)) s = exec (.messageReceived l 0 (.closing bytes)) u) ∧
     (∀ (arrival : Tick) (bytes : List Byte), (s.lane l).mode = .receiving arrival →
       (4 ≤ bytes.length → 12 + fieldAt bytes 3 1 < bytes.length →
         exec (.messageReceived l dt (.closing bytes)) s =
           .next ((s.pass dt).modLane l fun x =>
             { x with framingLost := bump (bump x.framingLost), mode := .hunting true })) ∧
       (bytes.length < 4 ∨ bytes.length < 12 + fieldAt bytes 3 1 →
         exec (.messageReceived l dt (.closing bytes)) s =
           .next ((s.pass dt).modLane l fun x => { x with mode := .hunting false, truncated := bump x.truncated })) ∧
       (bytes.length = 12 + fieldAt bytes 3 1 →
         (crc16 (bytes.take (10 + fieldAt bytes 3 1))).toNat ≠ fieldAt bytes (10 + fieldAt bytes 3 1) 2 →
         exec (.messageReceived l dt (.closing bytes)) s =
           .next ((s.pass dt).modLane l fun x => { x with mode := .hunting false, checkError := bump x.checkError })) ∧
       (bytes.length = 12 + fieldAt bytes 3 1 →
         (crc16 (bytes.take (10 + fieldAt bytes 3 1))).toNat = fieldAt bytes (10 + fieldAt bytes 3 1) 2 →
         (MsgKind.ofCode (fieldAt bytes 1 1) = none →
           exec (.messageReceived l dt (.closing bytes)) s =
             .next ((s.pass dt).modLane l fun x =>
               { x with mode := .hunting false, unknownKind := bump x.unknownKind })) ∧
         ∀ k, MsgKind.ofCode (fieldAt bytes 1 1) = some k → k.largest < fieldAt bytes 3 1 →
           exec (.messageReceived l dt (.closing bytes)) s =
             .next ((s.pass dt).modLane l fun x =>
               { x with mode := .hunting false, lengthError := bump x.lengthError }))) ∧
     ((s.lane l).mode = .hunting false →
       exec (.framingLost l dt .stray) s =
         .next ((s.pass dt).modLane l fun x =>
           { x with framingLost := bump x.framingLost, mode := .hunting true })) ∧
     ((s.lane l).mode = .hunting true → exec (.framingLost l dt .stray) s = .next (s.pass dt)) ∧
     (∀ (arrival : Tick) (cause : FramingCause), (s.lane l).mode = .receiving arrival →
       cause = .badSymbol ∨ cause = .overlong →
       exec (.framingLost l dt cause) s =
         .next ((s.pass dt).modLane l fun x =>
           { x with framingLost := bump x.framingLost, mode := .hunting false })) ∧
     (∀ (arrival : Tick) (i : Instr), (s.lane l).mode = .receiving arrival →
       i = .framingLost l dt .restart ∨ i = .messageReceived l dt .opening →
       exec i s =
         .next ((s.pass dt).modLane l fun x =>
           { x with framingLost := bump x.framingLost, mode := .receiving (s.pass dt).clk.tick })))

/-- R3, R17, R27 to R32: the pick. With a message in flight nothing is picked. Otherwise the oldest URGENT message is
picked whatever the account, then the oldest ROUTINE one at or below limit, then the oldest BULK one at or below limit
div 2; the message takes the serial counter's value, which advances by one. A lane whose copy waits begins it when its
receiver hunts: the receiver enters ECHO, and the copy carries the local tick time and the check computed over it. At
its end the symbols read back are judged against those sent: equal is Good and makes the echo-failure run 0; a
beginning of them only is Absent, any other Mismatch, and both raise the run. (That a differing symbol makes a
mismatch even when others are missing is the model's reading: log 42.) A message is complete when both copies are
over, and is charged once, if a copy was sent. At the boundary at which its busy count reaches 2 a waiting copy is
abandoned and counted. -/
def Obligations.MessagesArePickedAndSent : Prop :=
  (∀ (cfg : Config) (t : Transmitter),
     (t.flight ≠ none → t.pick cfg = t) ∧
     (t.flight = none →
       (∀ m rest, t.urgent = m :: rest →
         t.pick cfg =
           { t with urgent := rest, serial := t.serial + 1
                    flight := some { cls := .urgent, msg := m, serial := t.serial, copyA := .waiting 0,
                                     copyB := .waiting 0 } }) ∧
       (∀ m rest, t.urgent = [] → t.routine = m :: rest → t.account ≤ cfg.limit →
         t.pick cfg =
           { t with routine := rest, serial := t.serial + 1
                    flight := some { cls := .routine, msg := m, serial := t.serial, copyA := .waiting 0,
                                     copyB := .waiting 0 } }) ∧
       (∀ m rest, t.urgent = [] → (t.routine = [] ∨ cfg.limit < t.account) → t.bulk = m :: rest →
         t.account ≤ cfg.limit / 2 →
         t.pick cfg =
           { t with bulk := rest, serial := t.serial + 1
                    flight := some { cls := .bulk, msg := m, serial := t.serial, copyA := .waiting 0,
                                     copyB := .waiting 0 } }) ∧
       (t.urgent = [] → (t.routine = [] ∨ cfg.limit < t.account) → (t.bulk = [] ∨ cfg.limit / 2 < t.account) →
         t.pick cfg = t))) ∧
  (∀ (s : State) (l : Lane) (dt busy : Nat) (f : TxFlight) (run : Bool), s.Ready → s.works.tx.flight = some f →
     f.copy l = .waiting busy → (s.lane l).mode = .hunting run →
     exec (.copyBegin l dt) s =
       .next (((s.pass dt).modLane l fun x => { x with mode := .echo }).onWorks fun w =>
         { w with tx := { w.tx with flight := some (f.setCopy l
             (.sending (messageBytes (BitVec.ofNat 8 s.own) f.msg.kind f.serial (s.clk.advance dt).tick
               f.msg.payload))) } })) ∧
  (∀ (s : State) (l : Lane) (readBack sent : List Symbol) (f : TxFlight) (bytes : List Byte), s.Ready →
     s.works.tx.flight = some f → f.copy l = .sending bytes → (s.lane l).mode = .echo →
     sent = Symbol.start :: bytes.map Symbol.data ++ [Symbol.stop] →
     (judgeEcho sent readBack = .good ↔ readBack = sent) ∧
     (judgeEcho sent readBack = .absent ↔ readBack <+: sent ∧ readBack ≠ sent) ∧
     ∃ (t : State) (run : Byte), exec (.copyEnd l readBack) s = .next t ∧
       t = { (s.modLane l fun x => { x with mode := .hunting false, echoRun := run }) with
             works := { s.works with tx := t.works.tx } } ∧
       (readBack = sent → run = 0) ∧ (readBack ≠ sent → run = bump (s.lane l).echoRun) ∧
       (∀ k, k ≠ l → (f.copy k = .sent ∨ f.copy k = .abandoned) →
         t.works.tx =
           { s.works.tx with
             flight := none
             account := min s.cfg.clip (s.works.tx.account + (12 + f.msg.payload.length) * s.cfg.ratio) }.pick s.cfg) ∧
       (∀ k, k ≠ l → f.copy k ≠ .sent → f.copy k ≠ .abandoned →
         t.works.tx = { s.works.tx with flight := some (f.setCopy l .sent) })) ∧
  (∀ (s : State) (l k : Lane) (f : TxFlight), s.Outstanding (.busy l) → s.works.tx.flight = some f →
     f.copy l = .waiting 1 → k ≠ l →
     ∃ t, exec (.copyAbandoned l) s = .next t ∧
       t = { s with works := { s.works with tx := t.works.tx }, due := s.due.erase (.busy l) } ∧
       (∀ skipped : Transmitter,
         skipped = (match l with
           | .a => { s.works.tx with busySkipA := bump s.works.tx.busySkipA }
           | .b => { s.works.tx with busySkipB := bump s.works.tx.busySkipB }) →
         (f.copy k = .abandoned → t.works.tx = { skipped with flight := none }.pick s.cfg) ∧
         (f.copy k = .sent →
           t.works.tx =
             { skipped with
               flight := none
               account :=
                 min s.cfg.clip (s.works.tx.account + (12 + f.msg.payload.length) * s.cfg.ratio) }.pick s.cfg) ∧
         (f.copy k ≠ .abandoned → f.copy k ≠ .sent →
           t.works.tx = { skipped with flight := some (f.setCopy l .abandoned) })))

/-- R23, R24, R32, R113: the claim set of a boundary holds the entry of the table of R113 for each channel, in order
of local channel, in no message, one, or two of which the first holds eight; a release count outside the claiming
states falls by one. It takes the place of the oldest unsent CLAIM, all of which go; the messages that do not fit are
dropped, the last first, counted and noticed. A CUE takes the place of an unsent CUE for the same server and port,
joins a queue with room as the newest, and is otherwise dropped, counted and noticed with its server and port. (A
channel in RETURNING without an agreed handback, which no run reaches, sends nothing. That the bytes of a shorter
parameter stand left-aligned in its 32 bits is the model's choice: log 10.) -/
def Obligations.UrgentPlacementsAreMade : Prop :=
  (∀ (s : State) (entry : Chan → Option ClaimEntry) (entries : List ClaimEntry) (msgs others : List OutMsg)
    (place dropped : Nat) (drop : Notice),
    (∀ (c : Chan) (x : Context) (send : WireClaim → Nat → ClaimEntry), x = s.works.at c →
      (∀ claim prec, send claim prec = { bus := s.cfg.map[c].bus, claim := claim, prec := prec }) →
      (x.state = .bidding → entry c = some (send .bid x.prec)) ∧
      (x.state = .cueing ∨ x.state = .onAir → entry c = some (send .hold x.prec)) ∧
      (∀ ph h hPeer succ n, x.state = .returning → x.handback = .agreed ph h hPeer succ n →
        entry c = some (send (.handback hPeer succ) x.prec)) ∧
      (x.state = .returning → (∀ ph h hPeer succ n, x.handback ≠ .agreed ph h hPeer succ n) → entry c = none) ∧
      (x.state ∉ [.bidding, .cueing, .onAir, .returning] → 0 < x.release →
        entry c = some (send .release s.cfg.map[c].prec)) ∧
      (x.state ∉ [.bidding, .cueing, .onAir, .returning] → x.release = 0 → entry c = none)) →
    entries = (List.finRange 16).filterMap entry →
    msgs = (if entries = [] then [] else if entries.length ≤ 8 then [.claim entries]
      else [.claim (entries.take 8), .claim (entries.drop 8)]) →
    others = s.works.tx.urgent.filter (fun q => !q.isClaim) →
    place = (s.works.tx.urgent.takeWhile fun q => !q.isClaim).length →
    dropped = msgs.length - (16 - (others.length + s.works.tx.flying .urgent)) →
    s.works.notices.ring.length ≤ 32 →
    drop = { kind := .txDrop, chan := none, param := paramBytes 3 0 0 0, frame := s.clk.count } →
    ∃ t, runWork .claimSet s = t ∧
      t = { s with works := { s.works with ctx := t.works.ctx, tx := t.works.tx, notices := t.works.notices } } ∧
      (∀ (c : Chan) (x : Context), x = s.works.at c →
        t.works.at c =
          if x.state ∈ [.bidding, .cueing, .onAir, .returning] then x else { x with release := x.release - 1 }) ∧
      t.works.tx =
        { s.works.tx with
          urgent := others.take place ++ msgs.take (msgs.length - dropped) ++ others.drop place
          urgentDropped := (List.replicate dropped ()).foldl (fun n _ => bump n) s.works.tx.urgentDropped }.pick s.cfg ∧
      t.works.notices.ring = (List.replicate dropped drop ++ s.works.notices.ring).take 32 ∧
      t.works.notices.count = s.works.notices.count + BitVec.ofNat 16 dropped) ∧
  ∀ (e : Env) (w : Works) (q : Cue),
    (∀ before old after, w.tx.urgent = before ++ old :: after → old.isCueTo q.server q.port = true →
      (∀ m ∈ before, m.isCueTo q.server q.port = false) →
      w.placeCue e q = { w with tx := { w.tx with urgent := before ++ OutMsg.cue q :: after }.pick e.cfg }) ∧
    ((∀ m ∈ w.tx.urgent, m.isCueTo q.server q.port = false) →
      (w.tx.urgent.length + w.tx.flying .urgent < 16 →
        w.placeCue e q = { w with tx := { w.tx with urgent := w.tx.urgent ++ [OutMsg.cue q] }.pick e.cfg }) ∧
      (16 ≤ w.tx.urgent.length + w.tx.flying .urgent →
        w.placeCue e q =
          { w with
            tx := { w.tx with urgentDropped := bump w.tx.urgentDropped }
            notices :=
              { ring :=
                  ({ kind := .txDrop, chan := none, param := paramBytes 4 q.server q.port 0, frame := e.now } ::
                    w.notices.ring).take 32
                count := w.notices.count + 1 } }))

/-! ## The dispatcher (01, 03) -/

/-- R10, R11, R13: a message whose sender is 0, 63 or the part's own id is ignored and counted, whatever its kind; the
other lane's copy of an accepted message is suppressed, and refreshes its sender's last-heard count and the lane's
quiet count only. An accepted message of any kind whose payload its layout cannot produce is counted as malformed;
what R12 did stands, and nothing else changes. (Senders of 64 and more are not spoken of: log 8. Which code bytes make
a REPORT, AS-RUN or CUE malformed is the model's choice, log 11, and so is that any directive command takes a
malformed DIRECTIVE, log 12.) -/
def Obligations.BadMessagesAreDropped : Prop :=
  (∀ (s : State) (l : Lane) (m : RxMsg) (rest : List RxMsg) (i : Instr), s.Ready → (s.lane l).queue = m :: rest →
     Takes l m i →
     (m.sender.toNat = 0 ∨ m.sender.toNat = 63 ∨ m.sender.toNat = s.own →
       exec i s =
         .next { (s.modLane l fun x => { x with queue := rest }) with
                 disp := { s.disp with badSender := bump s.disp.badSender } }) ∧
     (∀ p : Peer, 1 ≤ m.sender.toNat → m.sender.toNat ≤ 62 → m.sender.toNat ≠ s.own →
       findPeer s.peers m.sender.toNat = some p → p.lastSerial = some m.serial → p.since.toNat ≤ 2 →
       exec i s =
         .next { (s.modLane l fun x => { x with queue := rest, quietCount := 0 }) with
                 peers := s.peers.map fun q =>
                   if q.station = m.sender.toNat then
                     match l with
                     | .a => { q with heardA := 0 }
                     | .b => { q with heardB := 0 }
                   else q })) ∧
  (∀ (s s1 : State) (l : Lane) (m : RxMsg) (p : Peer) (i : Instr), s.Accepts l m p → Takes l m i → m.Malformed →
     s1 = s.heard l p m →
     exec i s = .next { s1 with disp := { s1.disp with malformed := bump s1.disp.malformed } })

/-- R12, R14, R18, R50: an accepted message leaves its queue, refreshes the lane's quiet count, and updates its
sender's record: present, serial, counts, one role flag, and the estimator by its sample. A well-formed REPORT or
AS-RUN (log 11) does no more, and a CUE is counted as ignored besides. -/
def Obligations.AcceptedHeaderIsTaken : Prop :=
  ∀ (s s1 : State) (l : Lane) (m : RxMsg) (p : Peer), s.Accepts l m p → s1 = s.heard l p m →
    (s1.lane l = { s.lane l with queue := (s.lane l).queue.tail, quietCount := 0 } ∧
      (∀ k, k ≠ l → s1.lane k = s.lane k) ∧ s1.load = s.load ∧ s1.own = s.own ∧ s1.cfg = s.cfg ∧ s1.clk = s.clk ∧
      s1.isolated = s.isolated ∧ s1.disp = s.disp ∧ s1.due = s.due ∧ s1.pending = s.pending ∧
      s1.works.join = s.works.join ∧ s1.works.store = s.works.store ∧ s1.works.counters = s.works.counters ∧
      s1.works.lastNumbers = s.works.lastNumbers ∧
      (∀ c, (s1.works.at c).state = (s.works.at c).state ∧ (s1.works.at c).cur = (s.works.at c).cur ∧
        (s1.works.at c).mirror = (s.works.at c).mirror ∧ (s1.works.at c).table = (s.works.at c).table) ∧
      s1.peers = s.peers.map fun q =>
        if q.station = p.station then
          { station := q.station, present := true, lastSerial := some m.serial, since := 0
            heardA := if l = .a then 0 else q.heardA
            heardB := if l = .b then 0 else q.heardB
            roles :=
              { origin := q.roles.origin || decide (m.kind = .tally ∨ m.kind = .segment)
                recovery := q.roles.recovery ||
                  decide (m.kind = .claim ∨ m.kind = .cue ∨ m.kind = .report ∨ m.kind = .asRun)
                server := q.roles.server || decide (m.kind = .portStatus)
                control := q.roles.control || decide (m.kind = .directive)
                time := q.roles.time || decide (m.kind = .timeMark) }
            est := (p.est.take s.cfg (formSample s.cfg.linkDelay m.arrival m.stamp).1
              (formSample s.cfg.linkDelay m.arrival m.stamp).2).est }
        else q) ∧
    (m.kind = .report → reportWellFormed m.payload = true → exec (.receiveReport l) s = .next s1) ∧
    (m.kind = .asRun → asRunWellFormed m.payload = true → exec (.receiveAsRun l) s = .next s1) ∧
    (m.kind = .cue → cueWellFormed m.payload = true →
      exec (.receiveCue l) s = .next { s1 with disp := { s1.disp with cueIgnored := bump s1.disp.cueIgnored } })

/-- R52 to R56: a sample within outlier_limit of a valid estimate is an inlier. The estimate moves by d ÷ 2^g, rounded
to the nearest with ties to the even one, so it stays between its old value and the sample and within the bounds of
R52; with g 0 it becomes the sample, and with g 7 a difference of 64 ticks or less moves it by at most one. The
outlier run becomes 0, and the SAT flag is set if the sample is marked saturated. The first sample starts the
estimator. An outlier changes the run alone; the fourth in a row restarts the estimator at the sample, its SAT flag
that of the sample. An accepted message brings its sample, its difference less link_delay held to the bounds; a SAT
flag set from clear makes ESTIMATE_SATURATED, and a restart makes CLOCK_STEP with the step held to 24 bits and passes
the station to the cue unit. -/
def Obligations.SamplesMoveTheEstimate : Prop :=
  (∀ (cfg : Config) (x : Estimator) (sample step : Int) (marked : Bool), x.valid = true →
     (sample - x.e).natAbs ≤ cfg.outlierLimit → step = (x.take cfg sample marked).est.e - x.e →
     (x.take cfg sample marked).step = none ∧ (x.take cfg sample marked).satSet = (marked && !x.sat) ∧
       (x.take cfg sample marked).est =
         { valid := true, e := x.e + step, run := 0, sat := x.sat || marked } ∧
       2 * (step * 2 ^ cfg.gain - (sample - x.e)).natAbs ≤ 2 ^ cfg.gain ∧
       (2 * (step * 2 ^ cfg.gain - (sample - x.e)).natAbs = 2 ^ cfg.gain → step % 2 = 0) ∧
       min x.e sample ≤ x.e + step ∧ x.e + step ≤ max x.e sample ∧ (cfg.gain = 0 → x.e + step = sample) ∧
       (cfg.gain = 7 → (sample - x.e).natAbs ≤ 64 → step.natAbs ≤ 1) ∧
       (x.Bounded → sample.natAbs ≤ 2147483647 → (x.take cfg sample marked).est.Bounded)) ∧
  (∀ (cfg : Config) (x : Estimator) (sample : Int) (marked : Bool),
    (x.valid = false →
      x.take cfg sample marked =
        { est := { valid := true, e := sample, run := 0, sat := x.sat || marked }, satSet := marked && !x.sat
          step := none }) ∧
    (x.valid = true → cfg.outlierLimit < (sample - x.e).natAbs →
      (x.run < 3 →
        x.take cfg sample marked = { est := { x with run := x.run + 1 }, satSet := false, step := none }) ∧
      (3 ≤ x.run →
        x.take cfg sample marked =
          { est := { valid := true, e := sample, run := 0, sat := marked }, satSet := marked && !x.sat
            step := some (max (-8388607) (min 8388607 (sample - x.e))) }))) ∧
  ∀ (s s1 : State) (l : Lane) (m : RxMsg) (p : Peer) (d : Int) (r : Sampled), s.Accepts l m p → s1 = s.heard l p m →
    d = max (-2147483647) (min 2147483647 (tickDiff m.arrival m.stamp - s.cfg.linkDelay)) →
    r = p.est.take s.cfg d (decide (2147483647 < (tickDiff m.arrival m.stamp - s.cfg.linkDelay).natAbs)) →
    (r.satSet = false → r.step = none → s1.works = s.works) ∧
    (r.satSet = true → r.step = none → s1.works.OnlyNotices s.works ∧
      s.works.OneNotice s1.works .estimateSaturated none (BitVec.ofNat 32 p.station) s.clk.count) ∧
    (∀ step, r.satSet = false → r.step = some step →
      s1.works =
        Works.clockStep s1.env p.station
          { s.works with
            notices :=
              { ring :=
                  ({ kind := .clockStep, chan := none, param := BitVec.ofNat 8 p.station ++ BitVec.ofInt 24 step,
                     frame := s.clk.count } :: s.works.notices.ring).take 32
                count := s.works.notices.count + 1 } })

/-- R14, R15, R63, R86: a TALLY entry or a SEGMENT for an unmapped bus channel is skipped without count, one from a
station that is neither origin is counted as foreign, an entry on air with event id 0 fails the sanity rule, a SEGMENT
with an impossible index or total is counted, and a DIRECTIVE whose target is neither the part nor 63 is counted as
not targeted; none of them changes anything else. (That a target of 0 is not the part, even with straps of 0, is the
model's reading: log 27.) -/
def Obligations.UnusableContentIsSkipped : Prop :=
  ∀ (s s1 : State) (l : Lane) (m : RxMsg) (p : Peer), s.Accepts l m p → s1 = s.heard l p m →
    (∀ e : TallyEntry, m.kind = .tally → readTally m.payload = some [e] →
      (Config.localOf s.cfg e.bus = none → exec (.receiveTally l) s = .next s1) ∧
      ∀ c, Config.localOf s.cfg e.bus = some c →
        (s.cfg.map[c].origin ≠ m.sender.toNat → s.cfg.map[c].standby ≠ m.sender.toNat →
          exec (.receiveTally l) s =
            .next { s1 with disp := { s1.disp with foreignTally := bump s1.disp.foreignTally } }) ∧
        (s.cfg.map[c].origin = m.sender.toNat ∨ s.cfg.map[c].standby = m.sender.toNat →
          e.phase = .playing ∨ e.phase = .holding → e.event = 0 →
          exec (.receiveTally l) s =
            .next { s1 with works := { s1.works with counters :=
              { s1.works.counters with tallySanity := bump s1.works.counters.tallySanity } } })) ∧
    (∀ g : SegmentMsg, m.kind = .segment → readSegment m.payload = some g →
      (Config.localOf s.cfg g.bus = none → exec (.receiveSegment l) s = .next s1) ∧
      ∀ c, Config.localOf s.cfg g.bus = some c →
        (s.cfg.map[c].origin ≠ m.sender.toNat → s.cfg.map[c].standby ≠ m.sender.toNat →
          exec (.receiveSegment l) s =
            .next { s1 with disp := { s1.disp with foreignSegment := bump s1.disp.foreignSegment } }) ∧
        (s.cfg.map[c].origin = m.sender.toNat ∨ s.cfg.map[c].standby = m.sender.toNat →
          g.total = 0 ∨ 32 < g.total ∨ g.total ≤ g.index →
          exec (.receiveSegment l) s =
            .next { s1 with works := { s1.works with counters :=
              { s1.works.counters with segmentRange := bump s1.works.counters.segmentRange } } })) ∧
    ∀ d : Directive, m.kind = .directive → readDirective m.payload = some d → d.target ≠ 63 →
      (d.target ≠ s.own ∨ d.target = 0) →
      exec (directiveCommand l d.kind) s =
        .next { s1 with disp := { s1.disp with notTargeted := bump s1.disp.notTargeted } }

/-- R14, R15, R88, R107, R141: each entry of a TALLY, a CLAIM or a PORT STATUS acts as that entry alone would, one
after the other in the order of the message, each on the state that the entry before it left. -/
def Obligations.EveryEntryActsInOrder : Prop :=
  ∀ (s s1 : State) (l : Lane) (m : RxMsg) (p : Peer), s.Accepts l m p → s1 = s.heard l p m →
    (∀ es, m.kind = .tally → readTally m.payload = some es →
      exec (.receiveTally l) s = .next (es.foldl (State.tallyEntry m.sender.toNat m.stamp) s1)) ∧
    (∀ es, m.kind = .claim → readClaim m.payload = some es →
      exec (.receiveClaim l) s = .next (es.foldl (State.claimEntry m.sender.toNat) s1)) ∧
    (∀ es, m.kind = .portStatus → readPortStatus m.payload = some es →
      (∃ c side r, (s1.works.at c).portRec side = some r ∧ r.server = m.sender.toNat) →
      exec (.receivePortStatus l) s =
        .next (s1.onWorks fun w => es.foldl (fun v e => v.takePortStatus s1.env m.sender.toNat [e]) w))

/-! ## Channel watch (05) -/

/-- R86 to R89, R101: a sane main-origin entry sets origin seen, makes the tally age 0 and returns a channel in
SUSPECT, LOST, BIDDING or YIELDED to MIRRORING. A current entry replaces the tally whole, with the fields its phase
carries; a stale one is counted and not stored. On air the channel keeps its state: in ON_AIR, and in RETURNING with a
stamp frame before H peer, a PLAYING or HOLDING entry sets DUAL_AIR_SEEN, and makes DUAL_AIR only when it was clear;
in RETURNING with a stamp frame at or after H peer it does neither. -/
def Obligations.MainTallyIsTaken : Prop :=
  ∀ (s s1 : State) (l : Lane) (m : RxMsg) (p : Peer) (e : TallyEntry) (c : Chan) (x : Context), s.Accepts l m p →
    s1 = s.heard l p m → m.kind = .tally → readTally m.payload = some [e] → Config.localOf s.cfg e.bus = some c →
    s.cfg.map[c].origin = m.sender.toNat → (e.phase = .playing ∨ e.phase = .holding → e.event ≠ 0) →
    x = s1.works.at c →
    ∃ t, exec (.receiveTally l) s = .next t ∧ s1.SameOutside t ∧ t.due = s1.due ∧ s1.works.OthersKept c t.works ∧
      t.works.join = s1.works.join ∧ t.works.tx = s1.works.tx ∧ t.works.store = s1.works.store ∧
      t.works.tag = s1.works.tag ∧ t.works.lastNumbers = s1.works.lastNumbers ∧
      (t.works.at c).state = returnedState x.state ∧ (t.works.at c).seen = true ∧ (t.works.at c).age = 0 ∧
      (t.works.at c).cur = x.cur ∧ (t.works.at c).table = x.table ∧ (t.works.at c).armed = x.armed ∧
      (x.state = .bidding → (t.works.at c).prec = s.cfg.map[c].prec ∧ (t.works.at c).release = 2) ∧
      ((∀ o, x.tally = some o → ¬(-4096 ≤ tickDiff m.stamp o.stamp ∧ tickDiff m.stamp o.stamp < 0)) →
        t.works.counters = s1.works.counters ∧
        (t.works.at c).tally =
          some { rev := e.rev, digest := e.digest, phase := e.phase
                 event := if e.phase = .playing ∨ e.phase = .holding then some (e.event, e.offset) else none
                 readyFrame := if e.phase = .ready then e.readyFrame else none
                 stamp := m.stamp }) ∧
      (∀ o, x.tally = some o → -4096 ≤ tickDiff m.stamp o.stamp → tickDiff m.stamp o.stamp < 0 →
        t.works.counters = { s1.works.counters with tallyStale := bump s1.works.counters.tallyStale } ∧
        (t.works.at c).tally = x.tally ∧ (t.works.at c).mirror = x.mirror ∧
        (x.state = .lost ∨ x.state = .bidding ∨ x.state = .yielded →
          s1.works.OneNotice t.works .originReturned (some c) (BitVec.ofNat 32 x.state.code) s1.clk.count) ∧
        (x.state = .mirroring ∨ x.state = .suspect ∨ x.state = .cueing ∨ x.state = .fault →
          t.works.notices = s1.works.notices)) ∧
      (x.state = .onAir → e.phase = .playing ∨ e.phase = .holding →
        (t.works.at c).dualSeen = true ∧
        (x.dualSeen = false → s1.works.OneNotice t.works .dualAir (some c) e.event s1.clk.count) ∧
        (x.dualSeen = true → t.works.notices = s1.works.notices)) ∧
      ∀ ph h hPeer succ n, x.state = .returning → x.handback = .agreed ph h hPeer succ n →
        e.phase = .playing ∨ e.phase = .holding →
        (frameDiff (BitVec.ofNat 32 (m.stamp.toNat / 1024)) hPeer < 0 →
          (t.works.at c).dualSeen = true ∧
          (x.dualSeen = false → s1.works.OneNotice t.works .dualAir (some c) e.event s1.clk.count) ∧
          (x.dualSeen = true → t.works.notices = s1.works.notices)) ∧
        (0 ≤ frameDiff (BitVec.ofNat 32 (m.stamp.toNat / 1024)) hPeer →
          (t.works.at c).dualSeen = x.dualSeen ∧ t.works.notices = s1.works.notices)

/-- R90 to R93, R114: the judgements of the boundary. A channel in MIRRORING that has seen its origin and whose tally
age is suspect_frames or more enters SUSPECT, with ORIGIN_SUSPECT. A channel in SUSPECT whose tally age is loss_frames
or more makes the loss decision: LOST with the code of the first bid condition that fails, YIELDED when a rival HOLD
stands, or BIDDING at the configured precedence with a fresh window; ORIGIN_LOST gives the outcome. The tally age then
advances. (That the bytes of a shorter parameter stand left-aligned in its 32 bits, and that
ORIGIN_LOST is made before BID_START, are the model's choices: logs 10, 37.) -/
def Obligations.SuspectAndLossAreJudged : Prop :=
  ∀ (s : State) (c : Chan) (x : Context), s.Outstanding (.watch c) → x = s.works.at c →
    (x.state = .mirroring → x.seen = true → s.cfg.suspectFrames ≤ x.age.toNat →
      ∃ t, exec (.originSuspect c) s = .next t ∧ s.SameOutside t ∧ t.due = s.due.erase (.watch c) ∧
        s.works.OthersKept c t.works ∧ s.works.OnlyContexts t.works ∧
        t.works.at c = { x with state := .suspect, age := bump x.age } ∧
        s.works.OneNotice t.works .originSuspect (some c) 0 s.clk.count) ∧
    (x.state = .suspect → s.cfg.lossFrames ≤ x.age.toNat →
      ∃ t, exec (.originLost c) s = .next t ∧ s.SameOutside t ∧ t.due = s.due.erase (.watch c) ∧
        s.works.OthersKept c t.works ∧ s.works.OnlyContexts t.works ∧
        (∀ code, ((x.armed = false ∧ code = 1) ∨ (x.armed = true ∧ s.isolated = true ∧ code = 2) ∨
            (x.armed = true ∧ s.isolated = false ∧ x.mirror.live = [] ∧ code = 3) ∨
            (x.armed = true ∧ s.isolated = false ∧ x.mirror.live ≠ [] ∧ x.mirror.status = .mismatch ∧ code = 4)) →
          t.works.at c = { x with state := .lost, age := bump x.age } ∧
          s.works.OneNotice t.works .originLost (some c) (paramBytes 3 code 0 0) s.clk.count) ∧
        (x.armed = true → s.isolated = false → x.mirror.live ≠ [] → x.mirror.status ≠ .mismatch →
          ((∃ r ∈ x.table, r.kind = .hold) →
            t.works.at c = { x with state := .yielded, age := bump x.age } ∧
            s.works.OneNotice t.works .originLost (some c) (paramBytes 2 0 0 0) s.clk.count) ∧
          ((∀ r ∈ x.table, r.kind = .bid) →
            t.works.at c =
              { x with state := .bidding, age := bump x.age, bidCount := 0, bidNew := true, release := 0
                       prec := s.cfg.map[c].prec } ∧
            t.works.notices.ring =
              ({ kind := .bidStart, chan := some c, param := BitVec.ofNat 32 s.cfg.map[c].prec
                 frame := s.clk.count } ::
                { kind := .originLost, chan := some c, param := paramBytes 1 0 0 0, frame := s.clk.count } ::
                s.works.notices.ring).take 32)))

/-- R18 to R20, R94, R96: at a boundary a lane is judged ECHO_FAULT from an echo-failure run of 3, else QUIET from a
quiet count of lane_quiet_frames, else UP; a change is noticed with the old and the new state. The part becomes
isolated by silence or by two ECHO_FAULT lanes, with the cause in ISOLATED, and every channel in BIDDING goes to LOST;
when neither holds it rejoins, with REJOINED, and every channel in LOST makes its loss decision again. The quiet
counts then advance. (REJOINED before the notices of those decisions is the model's order: log 37. That the bytes of a
shorter parameter stand left-aligned in its 32 bits is the model's choice: log 10.) -/
def Obligations.LanesAndIsolationAreJudged : Prop :=
  ∀ (s : State) (silence echoes : Prop),
    (silence ↔ s.cfg.isolationFrames ≤ s.laneA.quietCount.toNat ∧ s.cfg.isolationFrames ≤ s.laneB.quietCount.toNat) →
    (echoes ↔ s.laneA.state = .echoFault ∧ s.laneB.state = .echoFault) →
    (∀ l : Lane, s.Outstanding (.laneJudge l) → (s.lane l).echoRun.toNat < 3 →
      s.cfg.laneQuietFrames ≤ (s.lane l).quietCount.toNat → (s.lane l).state ≠ .quiet →
      ∃ t, exec (.laneQuiet l) s = .next t ∧
        t = { (s.modLane l fun x => { x with state := .quiet }) with
              works := t.works, due := s.due.erase (.laneJudge l) } ∧
        t.works.OnlyNotices s.works ∧
        s.works.OneNotice t.works .laneState none
          (paramBytes (match l with | .a => 0 | .b => 1) (s.lane l).state.code 1 0) s.clk.count) ∧
    (∀ (l : Lane) (new : LaneState),
      new = (if 3 ≤ (s.lane l).echoRun.toNat then .echoFault
        else if s.cfg.laneQuietFrames ≤ (s.lane l).quietCount.toNat then .quiet else .up) →
      (new = (s.lane l).state → runWork (.laneJudge l) s = s) ∧
      (new ≠ (s.lane l).state →
        ∃ t, runWork (.laneJudge l) s = t ∧
          t = { (s.modLane l fun x => { x with state := new }) with works := t.works } ∧
          t.works.OnlyNotices s.works ∧
          s.works.OneNotice t.works .laneState none
            (paramBytes (match l with | .a => 0 | .b => 1) (s.lane l).state.code new.code 0) s.clk.count)) ∧
    (s.Outstanding .isolation → s.isolated = false → silence ∨ echoes →
      ∃ (t : State) (cause : Nat), exec .isolated s = .next t ∧
        t = { s with isolated := true, works := t.works, due := s.due.erase .isolation
                     laneA := { s.laneA with quietCount := bump s.laneA.quietCount }
                     laneB := { s.laneB with quietCount := bump s.laneB.quietCount } } ∧
        s.works.OnlyContexts t.works ∧
        (silence → ¬echoes → cause = 1) ∧ (echoes → ¬silence → cause = 2) ∧ (silence → echoes → cause = 3) ∧
        s.works.OneNotice t.works .isolated none (BitVec.ofNat 32 cause) s.clk.count ∧
        (∀ c, (s.works.at c).state ≠ .bidding → t.works.at c = s.works.at c) ∧
        (∀ c, (s.works.at c).state = .bidding →
          t.works.at c =
            { s.works.at c with state := .lost, release := 2, prec := s.cfg.map[c].prec, bidCount := 0 })) ∧
    ((s.isolated = true ∧ (silence ∨ echoes) ∨ s.isolated = false ∧ ¬silence ∧ ¬echoes) →
      runWork .isolation s =
        { s with laneA := { s.laneA with quietCount := bump s.laneA.quietCount }
                 laneB := { s.laneB with quietCount := bump s.laneB.quietCount } }) ∧
    (s.isolated = true → ¬silence → ¬echoes →
      ∃ (t : State) (starts : List Notice), runWork .isolation s = t ∧
        t = { s with isolated := false, works := t.works
                     laneA := { s.laneA with quietCount := bump s.laneA.quietCount }
                     laneB := { s.laneB with quietCount := bump s.laneB.quietCount } } ∧
        s.works.OnlyContexts t.works ∧ (∀ n ∈ starts, n.kind = .bidStart) ∧
        t.works.notices.ring =
          (starts ++ { kind := .rejoined, chan := none, param := 0, frame := s.clk.count } ::
            s.works.notices.ring).take 32 ∧
        ((∀ c, (s.works.at c).state ≠ .lost) → starts = []) ∧
        ∀ (c : Chan) (x : Context), x = s.works.at c →
          (x.state ≠ .lost ∨ x.armed = false ∨ x.mirror.live = [] ∨ x.mirror.status = .mismatch →
            t.works.at c = x) ∧
          (x.state = .lost → x.armed = true → x.mirror.live ≠ [] → x.mirror.status ≠ .mismatch →
            ((∃ r ∈ x.table, r.kind = .hold) → t.works.at c = { x with state := .yielded }) ∧
            ((∀ r ∈ x.table, r.kind = .bid) →
              t.works.at c =
                { x with state := .bidding, release := 0, bidCount := 0, bidNew := true
                         prec := s.cfg.map[c].prec })))

/-! ## The schedule mirror (04) -/

/-- R59, R60, R63 to R66, R70, R73, R74, R80, R82, R94: on a channel with no live revision, no other list and no remembered
revision, a segment of a revision of more than one segment starts a BUILDING list that holds it, when the pool has the
slots; a further segment joins the list. Off air, or in CUEING without a current event, with no join in flight on the
channel, a complete revision whose events pass validation, of one segment or of several in the order of their index,
becomes the live list at once: its revision, its digest, no other list, POOL_SHORT clear, the mirror status CURRENT
while no reference is known, and REVISION_COMMITTED with revision and event count. A channel in LOST whose bid
conditions then hold decides again. (That REVISION_COMMITTED is made before BID_START is the model's choice: log 37.) -/
def Obligations.SegmentsAreCollectedAndCommitted : Prop :=
  (∀ (s s1 : State) (l : Lane) (m : RxMsg) (p : Peer) (g : SegmentMsg) (c : Chan) (x : Context), s.Accepts l m p →
     s1 = s.heard l p m → m.kind = .segment → readSegment m.payload = some g → Config.localOf s.cfg g.bus = some c →
     (s.cfg.map[c].origin = m.sender.toNat ∨ s.cfg.map[c].standby = m.sender.toNat) → x = s1.works.at c →
     x.mirror.other = .absent → x.mirror.liveRev = none → x.mirror.rejected = none → x.mirror.short = none →
     s1.works.usedSlots + g.events.length ≤ 4096 →
     (1 < g.total → g.total ≤ 32 → g.index < g.total → (g.index + 1 < g.total → g.events.length = 8) →
       ∃ t, exec (.receiveSegment l) s = .next t ∧ t = { s1 with works := { s1.works with ctx := t.works.ctx } } ∧
         s1.works.OthersKept c t.works ∧
         t.works.at c = { x with mirror := { x.mirror with other := .building g.rev g.total [(g.index, g.events)] } }) ∧
     (x.mirror.reference = none → x.cur = none →
       x.state ∈ [.mirroring, .suspect, .lost, .bidding, .yielded, .cueing, .fault] →
       (∀ f, s1.works.join.flight = some f → f.req.chan ≠ c) → g.total = 1 → g.index = 0 → validate g.events = none →
       ∃ t, exec (.receiveSegment l) s = .next t ∧ s1.CommitsOffAir c x g.rev g.events t)) ∧
  ∀ (s s1 : State) (l : Lane) (m : RxMsg) (p : Peer) (g : SegmentMsg) (c : Chan) (x : Context)
    (segs : List (Nat × List EventRec)), s.Collects l m p g c → s1 = s.heard l p m → x = s1.works.at c →
    x.mirror.other = .building g.rev g.total segs → x.mirror.rejected = none → (∀ q ∈ segs, q.1 ≠ g.index) →
    (g.index + 1 < g.total → g.events.length = 8) → s1.works.usedSlots + g.events.length ≤ 4096 →
    ((∃ i, i < g.total ∧ i ≠ g.index ∧ ∀ q ∈ segs, q.1 ≠ i) →
      ∃ t, exec (.receiveSegment l) s = .next t ∧ t = { s1 with works := { s1.works with ctx := t.works.ctx } } ∧
        s1.works.OthersKept c t.works ∧
        t.works.at c =
          { x with mirror :=
            { x.mirror with other := .building g.rev g.total (segs ++ [(g.index, g.events)]) } }) ∧
    (∀ (part : Nat → List EventRec) (events : List EventRec), (segs.map Prod.fst).Nodup →
      (∀ i, i < g.total → i ≠ g.index → (i, part i) ∈ segs) → part g.index = g.events →
      events = (List.range g.total).flatMap part → validate events = none → x.cur = none →
      x.state ∈ [.mirroring, .suspect, .lost, .bidding, .yielded, .cueing, .fault] → x.mirror.reference = none →
      x.mirror.liveRev ≠ some g.rev → (∀ f, s1.works.join.flight = some f → f.req.chan ≠ c) →
      ∃ t, exec (.receiveSegment l) s = .next t ∧ s1.CommitsOffAir c x g.rev events t)

/-- R81, R82, R88, R94: a current entry of the authoritative origin, the main one in MIRRORING and SUSPECT and the
standby one in every other state, replaces the reference, and the status is judged: BEHIND while the live revision is
withdrawn or older than the reference, CURRENT when revision and digest agree, else MISMATCH, whose entry makes
DIGEST_MISMATCH. A change makes a channel in LOST decide again. A standby entry sets the standby stamp and touches
nothing else of the channel; a stale one is counted. The standby entry of the other authority leaves the mirror. -/
def Obligations.ReferencesSetTheStatus : Prop :=
  ∀ (s s1 : State) (l : Lane) (m : RxMsg) (p : Peer) (e : TallyEntry) (c : Chan) (x : Context) (st : MirrorStatus),
    s.Accepts l m p → s1 = s.heard l p m → m.kind = .tally → readTally m.payload = some [e] →
    Config.localOf s.cfg e.bus = some c → (e.phase = .playing ∨ e.phase = .holding → e.event ≠ 0) →
    x = s1.works.at c → st = statusAgainst x.mirror e.rev e.digest →
    (s.cfg.map[c].origin = m.sender.toNat →
      (∀ o, x.tally = some o → ¬(-4096 ≤ tickDiff m.stamp o.stamp ∧ tickDiff m.stamp o.stamp < 0)) →
      ∃ t, exec (.receiveTally l) s = .next t ∧
        (x.state ∈ [.mirroring, .suspect, .lost, .bidding, .yielded] →
          (t.works.at c).mirror = { x.mirror with reference := some (e.rev, e.digest), status := st } ∧
          (st = .mismatch → x.mirror.status ≠ .mismatch →
            t.works.Newest .digestMismatch (some c) (e.rev ++ x.mirror.digest) s1.clk.count)) ∧
        (x.state ∈ [.cueing, .onAir, .returning, .fault] → (t.works.at c).mirror = x.mirror)) ∧
    (s.cfg.map[c].origin ≠ m.sender.toNat → s.cfg.map[c].standby = m.sender.toNat →
      (∀ h, x.standbyStamp = some h → -4096 ≤ tickDiff m.stamp h → tickDiff m.stamp h < 0 →
        exec (.receiveTally l) s =
          .next { s1 with works := { s1.works with counters :=
            { s1.works.counters with tallyStale := bump s1.works.counters.tallyStale } } }) ∧
      ((∀ h, x.standbyStamp = some h → ¬(-4096 ≤ tickDiff m.stamp h ∧ tickDiff m.stamp h < 0)) →
        ∃ t, exec (.receiveTally l) s = .next t ∧ t = { s1 with works := t.works } ∧ s1.works.OthersKept c t.works ∧
          s1.works.OnlyContexts t.works ∧
          (x.state ∈ [.mirroring, .suspect] →
            t.works.at c = { x with standbyStamp := some m.stamp } ∧ t.works.notices = s1.works.notices) ∧
          (x.state ∈ [.bidding, .yielded, .cueing, .onAir, .returning, .fault] ∨
              (x.state = .lost ∧ (st = x.mirror.status ∨ x.armed = false ∨ s.isolated = true ∨ x.mirror.live = [] ∨
                st = .mismatch)) →
            t.works.at c =
              { x with
                standbyStamp := some m.stamp
                mirror := { x.mirror with reference := some (e.rev, e.digest), status := st } } ∧
            (st = .mismatch → x.mirror.status ≠ .mismatch →
              s1.works.OneNotice t.works .digestMismatch (some c) (e.rev ++ x.mirror.digest) s1.clk.count) ∧
            (st ≠ .mismatch ∨ x.mirror.status = .mismatch → t.works.notices = s1.works.notices)) ∧
          (x.state = .lost → st ≠ x.mirror.status → x.armed = true → s.isolated = false → x.mirror.live ≠ [] →
            st ≠ .mismatch → (∀ r ∈ x.table, r.kind = .bid) →
            t.works.at c =
              { x with
                standbyStamp := some m.stamp, state := .bidding, release := 0, bidCount := 0, bidNew := false
                prec := s.cfg.map[c].prec
                mirror := { x.mirror with reference := some (e.rev, e.digest), status := st } } ∧
            s1.works.OneNotice t.works .bidStart (some c) (BitVec.ofNat 32 s.cfg.map[c].prec) s1.clk.count)))

/-- R65 to R69: a segment of a newer revision than the other list's discards that list and starts its own; one of an
older is ignored. With no other list, a newer revision than the live one starts a list, the live revision itself
starts a rebuild in MISMATCH, once, and withdraws the live list, and any other is ignored. After a collection given up
for want of slots only its own index 0, with room for all its segments, or a newer revision starts again. A segment
that finds too few free slots gives the collection up, with POOL_SHORT. -/
def Obligations.RevisionsGiveWay : Prop :=
  ∀ (s s1 : State) (l : Lane) (m : RxMsg) (p : Peer) (g : SegmentMsg) (c : Chan) (x : Context) (y : Mirror)
    (free : Nat) (Starts : Mirror → Prop),
    s.Collects l m p g c → s1 = s.heard l p m → x = s1.works.at c → y = x.mirror → x.state ≠ .lost →
    y.rejected = none → 1 < g.total → (g.index + 1 < g.total → g.events.length = 8) →
    free = 4096 - s1.works.usedSlots →
    (∀ z, Starts z ↔ ∃ t, exec (.receiveSegment l) s = .next t ∧
      t = { s1 with works := { s1.works with ctx := t.works.ctx } } ∧ s1.works.OthersKept c t.works ∧
      t.works.at c = { x with mirror := z }) →
    (∀ old, y.other.rev = some old → 0 < (g.rev - old).toInt → y.liveRev ≠ some g.rev →
      g.events.length ≤ free + y.other.slots → s1.works.usedSlots ≤ 4096 →
      (y.liveRev ≠ some old →
        Starts { y with other := .building g.rev g.total [(g.index, g.events)], short := none, rebuilt := none }) ∧
      (y.liveRev = some old → ∀ r d st, y.reference = some (r, d) →
        st = statusAgainst { y with other := .absent } r d → st ≠ .mismatch →
        Starts { y with other := .building g.rev g.total [(g.index, g.events)], short := none, rebuilt := none
                        status := st })) ∧
    (∀ old, y.other.rev = some old → (g.rev - old).toInt < 0 → exec (.receiveSegment l) s = .next s1) ∧
    (y.other = .absent → y.short = none → g.events.length ≤ free →
      (∀ v, y.liveRev = some v → 0 < (g.rev - v).toInt →
        Starts { y with other := .building g.rev g.total [(g.index, g.events)] }) ∧
      (y.liveRev = some g.rev → y.status = .mismatch → y.rebuilt ≠ some g.rev → y.reference ≠ none →
        Starts { y with other := .building g.rev g.total [(g.index, g.events)], status := .behind }) ∧
      (∀ v, y.liveRev = some v → (g.rev - v).toInt < 0 ∨
          (g.rev = v ∧ (y.status ≠ .mismatch ∨ y.rebuilt = some v)) →
        exec (.receiveSegment l) s = .next s1)) ∧
    (∀ h, y.other = .absent → y.short = some h →
      (g.rev = h → g.index ≠ 0 ∨ free < g.total * 8 → exec (.receiveSegment l) s = .next s1) ∧
      (g.rev = h → g.index = 0 → g.total * 8 ≤ free → (∀ v, y.liveRev = some v → 0 < (g.rev - v).toInt) →
        Starts { y with other := .building g.rev g.total [(g.index, g.events)], short := none }) ∧
      (0 < (g.rev - h).toInt → y.liveRev ≠ some g.rev → g.events.length ≤ free →
        Starts { y with other := .building g.rev g.total [(g.index, g.events)], short := none }) ∧
      ((g.rev - h).toInt < 0 → exec (.receiveSegment l) s = .next s1)) ∧
    (∀ segs, y.other = .building g.rev g.total segs → (∀ q ∈ segs, q.1 ≠ g.index) → free < g.events.length →
      y.liveRev ≠ some g.rev →
      ∃ t, exec (.receiveSegment l) s = .next t ∧ t = { s1 with works := t.works } ∧ s1.works.OthersKept c t.works ∧
        s1.works.OnlyContexts t.works ∧
        t.works.at c = { x with poolShort := true, mirror := { y with other := .absent, short := some g.rev } } ∧
        (s1.works.usedSlots ≤ 4096 →
          s1.works.OneNotice t.works .poolShort (some c)
            (g.rev ++ BitVec.ofNat 16 (free + y.other.slots)) s1.clk.count))

/-- R63, R64, R70, R71: a segment of a rejected revision, or one already received, changes nothing. A revision is
rejected, with its reason, for a total that disagrees (1), a segment not full before the last (2), an event id of 0
(3), a repeated id (4), FIXED starts not in order (5) or an OPEN event before a FOLLOW (6): its list goes, its number
is remembered, and REVISION_REJECTED is made. The checks 3 to 6 are made in that order. -/
def Obligations.RevisionsAreRejected : Prop :=
  (∀ (s s1 : State) (l : Lane) (m : RxMsg) (p : Peer) (g : SegmentMsg) (c : Chan) (x : Context) (reason : Nat),
    s.Collects l m p g c → s1 = s.heard l p m → x = s1.works.at c →
    (x.mirror.rejected = some g.rev → exec (.receiveSegment l) s = .next s1) ∧
    (∀ total segs, x.mirror.other = .building g.rev total segs → x.mirror.rejected = none →
      (∃ q ∈ segs, q.1 = g.index) → exec (.receiveSegment l) s = .next s1) ∧
    (((∃ total segs, x.mirror.other = .building g.rev total segs ∧ (∀ q ∈ segs, q.1 ≠ g.index) ∧
          ((g.total ≠ total ∧ reason = 1) ∨
            (g.total = total ∧ g.index + 1 < total ∧ g.events.length ≠ 8 ∧ reason = 2))) ∨
        (x.mirror.other = .absent ∧ x.mirror.short = none ∧
          (∀ v, x.mirror.liveRev = some v → 0 < (g.rev - v).toInt) ∧
          ((g.index + 1 < g.total ∧ g.events.length ≠ 8 ∧ reason = 2) ∨
            (g.total = 1 ∧ s1.works.usedSlots + g.events.length ≤ 4096 ∧ validate g.events = some reason)))) →
      x.mirror.rejected ≠ some g.rev → x.mirror.liveRev ≠ some g.rev →
      ∃ t, exec (.receiveSegment l) s = .next t ∧ t = { s1 with works := t.works } ∧ s1.works.OthersKept c t.works ∧
        s1.works.OnlyContexts t.works ∧
        t.works.at c = { x with mirror := { x.mirror with other := .absent, rejected := some g.rev } } ∧
        s1.works.OneNotice t.works .revisionRejected (some c) (g.rev ++ BitVec.ofNat 16 reason) s1.clk.count)) ∧
  ∀ (events : List EventRec) (ZeroId Repeats FixedOrder OpenFollow : Prop),
    (ZeroId ↔ ∃ r ∈ events, r.event = 0) → (Repeats ↔ ¬(events.map EventRec.event).Nodup) →
    (FixedOrder ↔ ∃ before r between q after, events = before ++ r :: between ++ q :: after ∧ r.mode = .fixed ∧
      q.mode = .fixed ∧ (∀ y ∈ between, y.mode = .follow) ∧
      ¬(1 ≤ frameDiff q.startFrame r.startFrame ∧ frameDiff q.startFrame r.startFrame ≤ 2147483647)) →
    (OpenFollow ↔ ∃ before r q after, events = before ++ r :: q :: after ∧ r.duration = 0 ∧ q.mode = .follow) →
    (validate events = some 3 ↔ ZeroId) ∧ (validate events = some 4 ↔ ¬ZeroId ∧ Repeats) ∧
      (validate events = some 5 ↔ ¬ZeroId ∧ ¬Repeats ∧ FixedOrder) ∧
      (validate events = some 6 ↔ ¬ZeroId ∧ ¬Repeats ∧ ¬FixedOrder ∧ OpenFollow) ∧
      (validate events = none ↔ ¬ZeroId ∧ ¬Repeats ∧ ¬FixedOrder ∧ ¬OpenFollow)

/-- R75 to R77: a complete valid revision that holds the current event, or meets FILLER, is committed on air: the
event keeps its start and takes its place, natural end and end from the new list, FILLER ends at the first FIXED start
at least now + P + 1. An end earlier than that becomes now + P, in CUEING the frame after the take when that is later.
With a successor cue pending a FOLLOW is requested from the new end, or owed while a request of the channel is queued.
A revision without the current event is deferred. (That RESUME and SKIP cues count as successor cues, that an absent
anchor reads as 0, and that no FOLLOW is placed for an open end or while SETTLED: logs 14, 19. That a pending REJOIN
counts as the takeover does, and now + P with no TAKE pending: log 38. That the commit places no FOLLOW with no cue
pending, and that the natural end of FILLER is its new end: logs 43, 44.) -/
def Obligations.OnAirCommitsAreMade : Prop :=
  ∀ (s s1 : State) (l : Lane) (m : RxMsg) (p : Peer) (g : SegmentMsg) (c : Chan) (x : Context) (ev : CurEvent)
    (ahead : Frame), s.Collects l m p g c → s1 = s.heard l p m → x = s1.works.at c →
    x.state = .cueing ∨ x.state = .onAir ∨ x.state = .returning → x.cur = some ev → x.mirror.other = .absent →
    x.mirror.rejected = none → x.mirror.short = none → (∀ v, x.mirror.liveRev = some v → 0 < (g.rev - v).toInt) →
    x.mirror.reference = none → g.total = 1 → s1.works.usedSlots + g.events.length ≤ 4096 →
    validate g.events = none → (∀ f, s1.works.join.flight = some f → f.req.chan ≠ c) →
    ahead = s1.clk.count + BitVec.ofNat 32 s.cfg.preroll →
    (∀ new : CurEvent, ToldBy ahead x g.events ev new →
      ∃ t, exec (.receiveSegment l) s = .next t ∧ t = { s1 with works := t.works } ∧ s1.works.OthersKept c t.works ∧
        t.works.tx = s1.works.tx ∧ t.works.store = s1.works.store ∧
        s1.works.OneNotice t.works .revisionCommitted (some c) (g.rev ++ BitVec.ofNat 16 g.events.length)
          s1.clk.count ∧
        ((x.state = .cueing ∨ new.endAt = none ∨ x.settled = true ∨ x.pending = none ∨
            (∃ t, x.pending = some t ∧ (t.source = .takeover ∨ t.source = .rejoin))) →
          t.works.join = s1.works.join ∧
          t.works.at c =
            { x with poolShort := false, cur := some new, mirror := x.mirror.committed g.rev g.events }) ∧
        (∀ f u, x.state ≠ .cueing → new.endAt = some f → x.settled = false → x.pending = some u →
          u.source = .follow ∨ u.source = .resume ∨ u.source = .skip →
          ((∀ j ∈ s1.works.join.queue, j.chan ≠ c) →
            t.works.at c =
              { x with poolShort := false, cur := some new, gen := x.gen + 1
                       mirror := x.mirror.committed g.rev g.events } ∧
            t.works.Requested c .follow f (some f) (x.gen + 1)) ∧
          ((∃ j ∈ s1.works.join.queue, j.chan = c) →
            t.works.join = s1.works.join ∧
            t.works.at c =
              { x with poolShort := false, cur := some new, followOwed := true
                       mirror := x.mirror.committed g.rev g.events }))) ∧
    (ev.place ≠ .filler → (∀ r ∈ g.events, r.event ≠ ev.event) →
      ∃ t, exec (.receiveSegment l) s = .next t ∧ t = { s1 with works := t.works } ∧ s1.works.OthersKept c t.works ∧
        s1.works.OnlyContexts t.works ∧
        t.works.at c = { x with mirror := { x.mirror with other := .ready g.rev g.events true } } ∧
        s1.works.OneNotice t.works .revisionDeferred (some c) (g.rev.setWidth 32) s1.clk.count)

/-- R77 to R79, R133: a deferred list is committed before a FOLLOW, RESUME or SKIP request is placed, the current
event then preceding index 0 (FILLER stays FILLER: log 15); with a join in flight on the channel the request waits
with it and is placed after the delivery (log 13). A channel that leaves air at the end of a handback commits the list
it holds. -/
def Obligations.DeferredListsAreCommitted : Prop :=
  ∀ (s : State) (c : Chan) (rev : Half) (events : List EventRec) (committed : Context → Context),
    (∀ y : Context, committed y =
      { y with
        poolShort := false, mirror := y.mirror.committed rev events
        cur := y.cur.map fun ev => if ev.place = .filler then ev else { ev with place := .beforeZero } }) →
    (∀ (x : Context) (f : Frame) (ev : CurEvent), s.Outstanding (.follow c) → x = s.works.at c → x.state = .onAir →
      x.cur = some ev → ev.endAt = some f → 0 ≤ frameDiff (s.clk.count + BitVec.ofNat 32 s.cfg.preroll) f →
      x.pending = none → x.settled = false → x.waitReq = none → x.mirror.other = .ready rev events true →
      x.mirror.reference = none → (∀ j ∈ s.works.join.queue, j.chan ≠ c) →
      (∀ g, s.works.join.flight = some g → g.req.chan ≠ c) →
      ∃ t, exec (.followDue c) s = .next t ∧ s.SameOutside t ∧ t.due = s.due.erase (.follow c) ∧
        s.works.OthersKept c t.works ∧ t.works.tx = s.works.tx ∧ t.works.store = s.works.store ∧
        t.works.at c = { committed x with gen := x.gen + 1 } ∧
        t.works.Requested c .follow f (some f) (x.gen + 1) ∧
        s.works.OneNotice t.works .revisionCommitted (some c) (rev ++ BitVec.ofNat 16 events.length) s.clk.count) ∧
    (∀ (s1 : State) (l : Lane) (m : RxMsg) (p : Peer) (d : Directive) (i : Fin 4) (x : Context) (ev : CurEvent)
      (r : PortRec) (kind : JoinKind), s.Passes l m p d i c → s1 = s.heard l p m → x = s1.works.at c →
      x.state = .onAir → x.handback = .absent → x.cur = some ev → x.active = .primary → x.prim = some r →
      x.mirror.other = .ready rev events true → x.mirror.reference = none → x.waitReq = none →
      (∀ j ∈ s1.works.join.queue, j.chan ≠ c) →
      ((d.kind = .resume ∧ kind = .resume ∧ ev.held = true) ∨
        (d.kind = .skip ∧ kind = .skip ∧ (events ≠ [] ∨ ev.place = .filler))) →
      ((∀ f, s1.works.join.flight = some f → f.req.chan ≠ c) →
        ∃ t, exec (directiveCommand l d.kind) s = .next t ∧ s1.SameOutside t ∧ s1.works.OthersKept c t.works ∧
          t.works.at c =
            { committed x with gen := x.gen + 1, prim := some { r with pending := none, withdrawn := none } } ∧
          t.works.Requested c kind (s1.clk.count + BitVec.ofNat 32 s.cfg.preroll)
            (some (s1.clk.count + BitVec.ofNat 32 s.cfg.preroll)) (x.gen + 1)) ∧
      (∀ f, s1.works.join.flight = some f → f.req.chan = c → f.req.atSwitch = false →
        ∃ t, exec (directiveCommand l d.kind) s = .next t ∧ s1.SameOutside t ∧ s1.works.OthersKept c t.works ∧
          t.works.join = s1.works.join ∧
          t.works.at c =
            { x with
              waitReq := some { kind := kind, atSwitch := false }
              prim := some { r with pending := none, withdrawn := none } })) ∧
    (∀ (f : JoinFlight) (x : Context) (q : WaitReq), s.Ready → s.works.join.flight = some f → f.req.chan = c →
      x = s.works.at c → f.req.gen ≠ x.gen → x.state = .onAir → x.handback = .absent → x.waitReq = some q →
      x.mirror.other = .ready rev events true → x.mirror.reference = none → x.mirror.clearWaits = false →
      x.followOwed = false → (∀ j ∈ s.works.join.queue, j.chan ≠ c) →
      ∃ t, exec .joinComplete s = .next t ∧ s.SameOutside t ∧ s.works.OthersKept c t.works ∧
        t.works.at c = { committed x with waitReq := none, gen := x.gen + 1 } ∧
        t.works.Requested c q.kind (s.clk.count + BitVec.ofNat 32 s.cfg.preroll)
          (some (s.clk.count + BitVec.ofNat 32 s.cfg.preroll)) (x.gen + 1)) ∧
    (∀ (x : Context) (h hPeer : Frame) (succ : Ident) (n : Nat), s.Outstanding (.handback c) → x = s.works.at c →
      x.state = .returning → x.handback = .agreed .settled h hPeer succ n → s.clk.count = h →
      (x.mirror.other = .ready rev events true ∨ x.mirror.other = .ready rev events false) →
      x.mirror.reference = none → (∀ g, s.works.join.flight = some g → g.req.chan ≠ c) →
      ∃ t, exec (.handbackDone c) s = .next t ∧ (t.works.at c).mirror = x.mirror.committed rev events ∧
        (t.works.at c).poolShort = false)

/-! ## Claims (06) -/

/-- R104, R107, R109, R110, R115, R14: a CLAIM entry of an unmapped bus channel is skipped; one with a precedence
above 15 is counted; a plain RELEASE removes its station's entry; a BID replaces its station's entry in place or joins
a table of fewer than 4, and changes nothing else. A HOLD, or a handback RELEASE entered as one, heard in BIDDING ends
the window at once, whatever its precedence: YIELDED, the configured precedence, two RELEASEs to send, and
BID_YIELDED. At the boundary every entry of a claim table ages by one, and one whose age then reaches claim_expiry is
removed; nothing else of the part changes, and no notice is made. (That the bytes of a shorter parameter stand
left-aligned in its 32 bits is the model's choice: log 10.) -/
def Obligations.ClaimTablesAreKept : Prop :=
  (∀ (s s1 : State) (l : Lane) (m : RxMsg) (p : Peer) (y : ClaimEntry), s.Accepts l m p → s1 = s.heard l p m →
     m.kind = .claim → readClaim m.payload = some [y] →
     (Config.localOf s.cfg y.bus = none → exec (.receiveClaim l) s = .next s1) ∧
     (∀ c, Config.localOf s.cfg y.bus = some c →
       (15 < y.prec →
         exec (.receiveClaim l) s =
           .next { s1 with works := { s1.works with counters :=
             { s1.works.counters with claimRange := bump s1.works.counters.claimRange } } }) ∧
       ∀ table : List Rival, y.prec ≤ 15 →
         (y.claim = .release ∧
             table = (s1.works.at c).table.filter (fun r => decide (r.station ≠ m.sender.toNat)) ∨
           y.claim = .bid ∧ (∃ r ∈ (s1.works.at c).table, r.station = m.sender.toNat) ∧
             table = (s1.works.at c).table.map (fun r =>
               if r.station = m.sender.toNat then
                 { station := m.sender.toNat, kind := .bid, prec := y.prec, age := 0 }
               else r) ∨
           y.claim = .bid ∧ (∀ r ∈ (s1.works.at c).table, r.station ≠ m.sender.toNat) ∧
             (s1.works.at c).table.length < 4 ∧
             table = (s1.works.at c).table ++
               [{ station := m.sender.toNat, kind := .bid, prec := y.prec, age := 0 }]) →
         ∃ t, exec (.receiveClaim l) s = .next t ∧ t = { s1 with works := { s1.works with ctx := t.works.ctx } } ∧
           s1.works.OthersKept c t.works ∧ t.works.at c = { s1.works.at c with table := table }) ∧
     ∀ (c : Chan) (x : Context), Config.localOf s.cfg y.bus = some c → y.prec ≤ 15 →
       (y.claim = .hold ∨ ∃ h ev, y.claim = .handback h ev) → x = s1.works.at c → x.state = .bidding →
       (∀ r ∈ x.table, r.station ≠ m.sender.toNat) → x.table.length < 4 →
       ∃ t, exec (.receiveClaim l) s = .next t ∧ s1.SameOutside t ∧ t.due = s1.due ∧ s1.works.OthersKept c t.works ∧
         s1.works.OnlyContexts t.works ∧
         t.works.at c =
           { x with
             state := .yielded, release := 2, prec := s.cfg.map[c].prec, bidCount := 0
             table := x.table ++ [{ station := m.sender.toNat, kind := .hold, prec := y.prec, age := 0 }] } ∧
         s1.works.OneNotice t.works .bidYielded (some c) (paramBytes m.sender.toNat 2 0 0) s1.clk.count) ∧
  (∀ (s : State) (c : Chan), s.Outstanding (.claimAge c) →
     (∃ r ∈ (s.works.at c).table, s.cfg.claimExpiry ≤ r.age + 1) →
     ∃ t, exec (.claimExpiry c) s = .next t ∧
       t = { s with works := { s.works with ctx := t.works.ctx }, due := s.due.erase (.claimAge c) } ∧
       s.works.OthersKept c t.works ∧
       t.works.at c = { s.works.at c with table := (t.works.at c).table } ∧
       (t.works.at c).table.length ≤ (s.works.at c).table.length ∧
       ∀ r : Rival, r ∈ (t.works.at c).table ↔
         ∃ q ∈ (s.works.at c).table, q.age + 1 < s.cfg.claimExpiry ∧ r = { q with age := q.age + 1 })

/-- R119, R120, R99, R157: on air, a rival HOLD better than the part's own takes the channel to YIELDED: the
generation is raised, a CANCEL for the pending TAKE and a STOP at now + 1 are placed, the open record is closed
YIELDED at now + 1, the air fields become absent and both ports are cleared. A HOLD that is not better only stands in
the table. (That the bytes of a shorter parameter stand left-aligned in its 32 bits is the model's choice: log 10.) -/
def Obligations.BetterHoldTakesAir : Prop :=
  ∀ (s s1 : State) (l : Lane) (m : RxMsg) (p : Peer) (y : ClaimEntry) (c : Chan) (x : Context), s.Accepts l m p →
    s1 = s.heard l p m → m.kind = .claim → readClaim m.payload = some [y] → Config.localOf s.cfg y.bus = some c →
    y.prec ≤ 15 → (y.claim = .hold ∨ ∃ h ev, y.claim = .handback h ev) → x = s1.works.at c →
    x.state = .cueing ∨ x.state = .onAir ∨ x.state = .returning → (∀ r ∈ x.table, r.station ≠ m.sender.toNat) →
    x.table.length < 4 →
    (y.prec < x.prec ∨ (y.prec = x.prec ∧ m.sender.toNat < s.own) →
      ∃ t, exec (.receiveClaim l) s = .next t ∧ s1.SameOutside t ∧ t.due = s1.due ∧ s1.works.OthersKept c t.works ∧
        t.works.join = s1.works.join ∧ (t.works.at c).state = .yielded ∧
        (t.works.at c).OffAir s.cfg.map[c].prec ∧ (t.works.at c).gen = x.gen + 1 ∧
        (t.works.at c).active = x.active ∧ (t.works.at c).dualSeen = x.dualSeen ∧
        (∀ r, x.openRec = some r →
          t.works.store =
            s1.works.store.append { r with endAt := some (s1.clk.count + 1), status := some .yielded }) ∧
        (x.openRec = none → t.works.store = s1.works.store) ∧
        (∀ r, x.portRec x.active = some r →
          t.works.tx =
            s1.works.sends s1.env (endingCues (s1.env.estimate r.server) r (s1.clk.count + 1))) ∧
        (x.openRec = none → x.handback = .absent → x.mirror.other = .absent →
          s1.works.tx.urgent.length + s1.works.tx.flying .urgent ≤ 14 →
          s1.works.OneNotice t.works .claimLost (some c) (paramBytes m.sender.toNat y.prec 0 0) s1.clk.count)) ∧
    (x.prec < y.prec ∨ (y.prec = x.prec ∧ s.own < m.sender.toNat) →
      ∃ t, exec (.receiveClaim l) s = .next t ∧ t = { s1 with works := { s1.works with ctx := t.works.ctx } } ∧
        s1.works.OthersKept c t.works ∧
        t.works.at c =
          { x with table := x.table ++ [{ station := m.sender.toNat, kind := .hold, prec := y.prec, age := 0 }] })

/-- R116, R98, R118: at the boundary at which the bid counter reaches bid_window the window is decided. Against an
empty table, or one whose every entry the own BID is better than, the channel enters CUEING, prepared for air, with
BID_WON and a TAKEOVER request at now + P; when some entry is better it yields to the best one, with BID_YIELDED. A
channel in YIELDED stays there while an entry of its table is better than its own BID; otherwise it enters MIRRORING
when the main-origin tally is fresh, and else makes the loss decision, with no ORIGIN_LOST. (That the bytes of a
shorter parameter stand left-aligned in its 32 bits is the model's choice: log 10.) -/
def Obligations.BidsAndYieldsAreDecided : Prop :=
  (∀ (s : State) (c : Chan) (x : Context), s.Outstanding (.bid c) → x = s.works.at c → x.state = .bidding →
     x.bidNew = false → s.cfg.bidWindow ≤ x.bidCount + 1 →
     ((∀ r ∈ x.table, r.kind = .bid ∧ (x.prec < r.prec ∨ (x.prec = r.prec ∧ s.own < r.station))) →
       ∃ t, exec (.bidWindowDecided c) s = .next t ∧ s.SameOutside t ∧ t.due = s.due.erase (.bid c) ∧
         s.works.OthersKept c t.works ∧ t.works.tx = s.works.tx ∧ t.works.store = s.works.store ∧
         t.works.at c =
           { x with
             state := .cueing, active := .primary, cur := none, anchor := none, handback := .absent, bidCount := 0
             gen := x.gen + 1
             prim := x.prim.map fun r => { r with pending := none }
             alt := x.alt.map fun r => { r with pending := none } } ∧
         t.works.Requested c .takeover (s.clk.count + BitVec.ofNat 32 s.cfg.preroll) none (x.gen + 1) ∧
         s.works.OneNotice t.works .bidWon (some c) (BitVec.ofNat 32 x.prec) s.clk.count) ∧
     (∀ b ∈ x.table, b.kind = .bid → b.prec < x.prec ∨ (b.prec = x.prec ∧ b.station < s.own) →
       (∀ r ∈ x.table, r ≠ b → b.better r = true) →
       ∃ t, exec (.bidWindowDecided c) s = .next t ∧ s.SameOutside t ∧ t.due = s.due.erase (.bid c) ∧
         s.works.OthersKept c t.works ∧ s.works.OnlyContexts t.works ∧
         t.works.at c = { x with state := .yielded, release := 2, prec := s.cfg.map[c].prec, bidCount := 0 } ∧
         s.works.OneNotice t.works .bidYielded (some c) (paramBytes b.station 1 0 0) s.clk.count)) ∧
  (∀ (s : State) (c : Chan) (x : Context), x = s.works.at c →
     (x.state ≠ .yielded → runWork (.yielded c) s = s) ∧
     (x.state = .yielded →
       (∃ r ∈ x.table, r.kind = .hold ∨ r.prec < x.prec ∨ (r.prec = x.prec ∧ r.station < s.own)) →
       runWork (.yielded c) s = s) ∧
     (x.state = .yielded →
       (∀ r ∈ x.table, r.kind = .bid ∧ (x.prec < r.prec ∨ (x.prec = r.prec ∧ s.own ≤ r.station))) →
       ∃ t, runWork (.yielded c) s = t ∧ t = { s with works := t.works } ∧ s.works.OthersKept c t.works ∧
         s.works.OnlyContexts t.works ∧
         (x.seen = true → x.age.toNat < s.cfg.suspectFrames →
           t.works.at c = { x with state := .mirroring } ∧ t.works.notices = s.works.notices) ∧
         (x.seen = false ∨ s.cfg.suspectFrames ≤ x.age.toNat →
           (x.armed = false ∨ s.isolated = true ∨ x.mirror.live = [] ∨ x.mirror.status = .mismatch →
             t.works.at c = { x with state := .lost } ∧ t.works.notices = s.works.notices) ∧
           (x.armed = true → s.isolated = false → x.mirror.live ≠ [] → x.mirror.status ≠ .mismatch →
             t.works.at c =
               { x with state := .bidding, release := 0, bidCount := 0, bidNew := true, prec := s.cfg.map[c].prec } ∧
             s.works.OneNotice t.works .bidStart (some c) (BitVec.ofNat 32 s.cfg.map[c].prec) s.clk.count))))

/-! ## The timebase's marks (03) -/

/-- R41, R42, R45: a mark not from the time station is counted as foreign. One from it, taken while the loaded flag is
clear, sets the load-pending flag and V to M + 1; taken while it is set, it is compared, and a slip that is not 0 and
differs from the last slip is noticed. The count, the phase and the flags of a loaded clock do not change. -/
def Obligations.TimeMarkIsTaken : Prop :=
  ∀ (s s1 : State) (l : Lane) (m : RxMsg) (p : Peer) (mark : Frame), s.Accepts l m p → s1 = s.heard l p m →
    m.kind = .timeMark → readTimeMark m.payload = some mark →
    (s.cfg.timeStation = 0 ∨ m.sender.toNat ≠ s.cfg.timeStation →
      exec (.receiveTimeMark l) s =
        .next { s1 with clk := { s1.clk with foreignMark := bump s1.clk.foreignMark } }) ∧
    (s.cfg.timeStation ≠ 0 → m.sender.toNat = s.cfg.timeStation →
      (s1.clk.loaded = false →
        exec (.receiveTimeMark l) s =
          .next { s1 with clk := { s1.clk with loadPending := true, pendingValue := mark + 1 } }) ∧
      (s1.clk.loaded = true →
        ∀ slip : Frame, slip = BitVec.ofNat 32 (m.arrival.toNat / 1024) - mark →
          (slip = 0 ∨ slip = s1.clk.lastSlip →
            exec (.receiveTimeMark l) s = .next { s1 with clk := { s1.clk with lastSlip := slip } }) ∧
          (slip ≠ 0 → slip ≠ s1.clk.lastSlip →
            ∃ t, exec (.receiveTimeMark l) s = .next t ∧
              t = { s1 with clk := { s1.clk with lastSlip := slip }, works := t.works } ∧
              t.works.OnlyNotices s1.works ∧
              s1.works.OneNotice t.works .timeSlip none slip s1.clk.count)))

/-! ## Cueing and on-air continuity (08) -/

/-- R141, R152, R153: in CUEING, a PLAYING report of the pending tag of a TAKEOVER confirms the take: the channel
enters ON_AIR with DUAL_AIR_SEEN clear, the port's on-air tag becomes the TAKE's, the TAKE ceases to be pending, an
as-run record opens at the take local, the current event stands, and TAKE_CONFIRMED names it. A PORT STATUS from a
station that is the server of no port record is counted. -/
def Obligations.PlayingReportConfirmsTake : Prop :=
  ∀ (s s1 : State) (l : Lane) (m : RxMsg) (p : Peer), s.Accepts l m p → s1 = s.heard l p m → m.kind = .portStatus →
    (∀ es, readPortStatus m.payload = some es →
      (∀ c r, (s1.works.at c).prim = some r ∨ (s1.works.at c).alt = some r → r.server ≠ m.sender.toNat) →
      exec (.receivePortStatus l) s =
        .next { s1 with works := { s1.works with counters :=
          { s1.works.counters with foreignStatus := bump s1.works.counters.foreignStatus } } }) ∧
    (∀ (e : PortEntry) (c : Chan) (x : Context) (r : PortRec) (t : Take), readPortStatus m.payload = some [e] →
      x = s1.works.at c → x.state = .cueing → x.openRec = none → x.prim = some r → x.active = .primary →
      r.server = m.sender.toNat → r.port = e.port → r.pending = some t → r.withdrawn = none → t.source = .takeover →
      e.state = .playing → e.playingTag = t.tag →
      (∀ d q, ((s1.works.at d).prim = some q ∧ d ≠ c) ∨ (s1.works.at d).alt = some q →
        ¬(q.server = m.sender.toNat ∧ q.port = e.port)) →
      (∀ ev f, x.cur = some ev → ev.endAt = some f →
        later f (s1.clk.count + BitVec.ofNat 32 s.cfg.preroll) = true) →
      ∃ u, exec (.receivePortStatus l) s = .next u ∧ s1.SameOutside u ∧ u.due = s1.due ∧
        s1.works.OthersKept c u.works ∧ s1.works.OnlyContexts u.works ∧
        u.works.at c =
          { x with
            state := .onAir, dualSeen := false
            prim := some { r with pending := none, onAirTag := t.tag, silent := 0 }
            openRec :=
              some { chan := c, bus := s.cfg.map[c].bus, event := t.outcome.event, clip := t.outcome.clip
                     entry := t.outcome.entry, start := t.takeLocal, endAt := none, status := none
                     server := r.server, port := r.port, tag := t.tag, closing := none } } ∧
        s1.works.OneNotice u.works .takeConfirmed (some c) t.outcome.event s1.clk.count)

/-- R141, R147 to R150, R153, R155: in ON_AIR and RETURNING a PLAYING report of the pending tag, or of the withdrawn
tag while the event is held, confirms the take: the open record is closed at the take local, COMPLETE, SHORTENED or
EXTENDED by the natural end on its own port and FAULTED on another in ON_AIR, the successor becomes the current event,
not held, and a record is opened. (A REJOIN leaves the event in place: log 35. RETURNING on another port is not spoken
of: log 23.) A FAULT report of the active port that carries the pending tag, its on-air tag or no tag is a port fault
with cause 4: a port switch with an alternate, FAULT without; with other tags it only clears the silent count. (That
the bytes of a shorter parameter stand left-aligned in its 32 bits is the model's choice: log 10.) -/
def Obligations.PortReportsTurnTheRecord : Prop :=
  ∀ (s s1 : State) (l : Lane) (m : RxMsg) (p : Peer) (e : PortEntry) (c : Chan) (x : Context) (r : PortRec)
    (ahead : Frame), s.Accepts l m p → s1 = s.heard l p m → m.kind = .portStatus →
    readPortStatus m.payload = some [e] → x = s1.works.at c → x.portRec x.active = some r →
    r.server = m.sender.toNat → r.port = e.port →
    (∀ d side q, (s1.works.at d).portRec side = some q → q.server = m.sender.toNat → q.port = e.port →
      d = c ∧ side = x.active) →
    ahead = s1.clk.count + BitVec.ofNat 32 s.cfg.preroll →
    (∀ (u : Take) (o : AsRunRec) (ev new : CurEvent) (status : AsRunStatus),
      x.state = .onAir ∨ x.state = .returning → x.openRec = some o → x.cur = some ev →
      (r.pending = some u ∧ r.withdrawn = none) ∨
        (r.pending = none ∧ r.withdrawn = some u ∧ ev.held = true ∧ u.source ≠ .takeover ∧ u.source ≠ .rejoin) →
      e.state = .playing → e.playingTag = u.tag →
      new = (if u.source = .takeover ∨ u.source = .rejoin then ev else { u.outcome with held := false }) →
      (∀ f, new.endAt = some f → later f ahead = true) →
      (o.server = r.server → o.port = r.port →
        status =
          match ev.natEnd with
          | none => .complete
          | some n =>
            if u.takeLocal = n then .complete else if 0 < frameDiff n u.takeLocal then .shortened else .extended) →
      (o.server ≠ r.server ∨ o.port ≠ r.port → x.state = .onAir ∧ status = .faulted) →
      ∃ t, exec (.receivePortStatus l) s = .next t ∧ t = { s1 with works := t.works } ∧
        s1.works.OthersKept c t.works ∧
        t.works =
          { s1.works with
            ctx := t.works.ctx, notices := t.works.notices
            store := s1.works.store.append { o with endAt := some u.takeLocal, status := some status } } ∧
        t.works.at c =
          { x.modRec x.active (fun q =>
              { q with pending := none, withdrawn := none, onAirTag := u.tag, silent := 0 }) with
            cur := some new
            openRec :=
              some { chan := c, bus := s.cfg.map[c].bus, event := u.outcome.event, clip := u.outcome.clip
                     entry := u.outcome.entry, start := u.takeLocal, endAt := none, status := none
                     server := r.server, port := r.port, tag := u.tag, closing := none } } ∧
        t.works.Newest .takeConfirmed (some c) u.outcome.event s1.clk.count) ∧
    (∀ Ours : Prop, e.state = .fault → x.state = .cueing ∨ x.state = .onAir →
      (Ours ↔ (∃ u, r.pending = some u ∧ (e.armedTag = u.tag ∨ e.playingTag = u.tag)) ∨
        (r.onAirTag ≠ 0 ∧ (e.armedTag = r.onAirTag ∨ e.playingTag = r.onAirTag)) ∨
        (e.armedTag = 0 ∧ e.playingTag = 0)) →
      (¬Ours →
        exec (.receivePortStatus l) s =
          .next { s1 with works := s1.works.mod c fun y => y.modRec x.active fun q => { q with silent := 0 } }) ∧
      (Ours → x.active = .alternate ∨ x.alt = none →
        ∃ t, exec (.receivePortStatus l) s = .next t ∧ t = { s1 with works := t.works } ∧
          s1.works.OthersKept c t.works ∧ t.works.join = s1.works.join ∧ (t.works.at c).state = .fault ∧
          (t.works.at c).OffAir s.cfg.map[c].prec ∧ (t.works.at c).gen = x.gen + 1 ∧
          t.works.tx = s1.works.sends s1.env (endingCues (s1.env.estimate r.server) r (s1.clk.count + 1)) ∧
          (x.openRec = none → t.works.store = s1.works.store) ∧
          (∀ o, x.openRec = some o →
            t.works.store =
              s1.works.store.append { o with endAt := some (s1.clk.count + 1), status := some .faulted }) ∧
          (x.openRec = none → x.handback = .absent → x.mirror.other = .absent →
            s1.works.tx.urgent.length + s1.works.tx.flying .urgent ≤ 14 →
            s1.works.OneNotice t.works .channelFault (some c)
              (paramBytes 4 (match x.active with | .primary => 0 | .alternate => 1) 0 0) s1.clk.count)) ∧
      (∀ q ev, Ours → x.active = .primary → x.alt = some q → x.cur = some ev → x.waitReq = none →
        (∀ j ∈ s1.works.join.queue, j.chan ≠ c) → (∀ f, s1.works.join.flight = some f → f.req.chan ≠ c) →
        (∀ a b, x.handback ≠ .requested a b) → s1.works.tx.urgent.length + s1.works.tx.flying .urgent < 16 →
        ∃ t, exec (.receivePortStatus l) s = .next t ∧ t = { s1 with works := t.works } ∧
          s1.works.OthersKept c t.works ∧ t.works.store = s1.works.store ∧
          t.works.tx = s1.works.sends s1.env [stopCue (s1.env.estimate r.server) r ahead] ∧
          t.works.at c =
            { x with
              active := .alternate, gen := x.gen + 1
              prim := some { r with pending := none, onAirTag := 0, withdrawn := none, silent := 0 } } ∧
          t.works.Requested c .rejoin ahead none (x.gen + 1) ∧
          s1.works.OneNotice t.works .portSwitch (some c) 4 s1.clk.count))

/-- R146, R148, R149: a port fault found at the boundary on the primary port of a channel with an alternate switches
the port: PORT_SWITCH with the first cause found, a STOP for the primary at now + P, the primary's TAKE and tags
cleared, the alternate active, the open record as it was. A channel with a current event has a REJOIN placed at now +
P, or the RESUME or SKIP that is queued, or else in flight, placed again at now + P; one without has no request. In
RETURNING the handback is aborted first, with reason 5, and the channel is in ON_AIR; otherwise the state stays. The
silent counts then advance. (The one notice is stated for a channel with no other list, since a deferred one may be
committed before a SKIP or RESUME is placed again. When both a RESUME and a SKIP are outstanding the newest is placed again: log 41.) -/
def Obligations.PortFaultSwitchesPort : Prop :=
  ∀ (s : State) (c : Chan) (x y : Context) (r q : PortRec) (i : Instr) (code : Nat) (ahead : Frame),
    s.Outstanding (.cue c) → x = s.works.at c → x.active = .primary → x.prim = some r → x.alt = some q →
    q.pending = none → q.withdrawn = none → (∀ a b, x.handback ≠ .requested a b) →
    s.works.tx.urgent.length + s.works.tx.flying .urgent < 16 →
    ahead = s.clk.count + BitVec.ofNat 32 s.cfg.preroll →
    y =
      { x with
        active := .alternate
        prim := some { r with pending := none, onAirTag := 0, withdrawn := none, silent := bump r.silent }
        alt := some { q with silent := bump q.silent } } →
    ((i = .serverSilent c ∧ code = 1 ∧ s.cfg.lossFrames ≤ r.silent.toNat) ∨
      (i = .armTimeout c ∧ code = 2 ∧ r.silent.toNat < s.cfg.lossFrames ∧
        ∃ t, r.pending = some t ∧ t.armCount ≤ 1 ∧ t.seen = false) ∨
      (i = .takeTimeout c ∧ code = 3 ∧ r.silent.toNat < s.cfg.lossFrames ∧
        ∃ t, r.pending = some t ∧ ¬(t.armCount ≤ 1 ∧ t.seen = false) ∧ t.takeCount ≤ 1)) →
    x.state = .cueing ∨ x.state = .onAir ∨ x.state = .returning →
    ∃ u, exec i s = .next u ∧ s.SameOutside u ∧ u.due = s.due.erase (.cue c) ∧ s.works.OthersKept c u.works ∧
      u.works.store = s.works.store ∧
      u.works.tx = s.works.sends s.boundaryEnv [stopCue (s.boundaryEnv.estimate r.server) r ahead] ∧
      (x.state ≠ .returning → x.mirror.other = .absent →
        s.works.OneNotice u.works .portSwitch (some c) (BitVec.ofNat 32 code) s.clk.count) ∧
      (x.state ≠ .returning → x.cur = none → u.works.join = s.works.join ∧ u.works.at c = y) ∧
      (∀ ev, x.cur = some ev → x.waitReq = none → (∀ j ∈ s.works.join.queue, j.chan ≠ c) →
        (∀ f, s.works.join.flight = some f → f.req.chan ≠ c) →
        u.works.Requested c .rejoin ahead none (x.gen + 1) ∧
        (x.state ≠ .returning → u.works.at c = { y with gen := x.gen + 1 }) ∧
        (x.state = .returning →
          u.works.at c = { y with gen := x.gen + 1, state := .onAir, handback := .absent, dualSeen := false } ∧
          u.works.notices.ring =
            ({ kind := .portSwitch, chan := some c, param := BitVec.ofNat 32 code, frame := s.clk.count } ::
              { kind := .handbackAborted, chan := some c, param := 5, frame := s.clk.count } ::
              s.works.notices.ring).take 32)) ∧
      ∀ ev (kind : JoinKind), x.state ≠ .returning → x.cur = some ev → x.waitReq = none → x.mirror.other = .absent →
        kind = .resume ∨ kind = .skip →
        (∃ j, s.works.queuedJoin c = some j ∧ j.kind = kind) ∨
          ((∀ j ∈ s.works.join.queue, j.chan ≠ c) ∧
            ∃ f, s.works.join.flight = some f ∧ f.req.chan = c ∧ f.req.kind = kind) →
        u.works.Requested c kind ahead (some ahead) (x.gen + 1) ∧ u.works.at c = { y with gen := x.gen + 1 }

/-- R146, R148, R150, R99, R157: a port fault found at the boundary with no alternate, or on the alternate port, takes
a channel in CUEING or ON_AIR to FAULT: a CANCEL for the pending TAKE and a STOP at now + 1 are placed, the open
record is closed FAULTED at now + 1, the channel leaves air, and two RELEASEs are to be sent. (That the bytes of a
shorter parameter stand left-aligned in its 32 bits is the model's choice: log 10.) -/
def Obligations.PortFaultFaultsChannel : Prop :=
  ∀ (s : State) (c : Chan) (x : Context) (r : PortRec) (i : Instr) (code : Nat),
    s.Outstanding (.cue c) → x = s.works.at c → (x.state = .cueing ∨ x.state = .onAir) →
    ((x.active = .primary ∧ x.prim = some r ∧ x.alt = none) ∨ (x.active = .alternate ∧ x.alt = some r)) →
    ((i = .serverSilent c ∧ code = 1 ∧ s.cfg.lossFrames ≤ r.silent.toNat) ∨
      (i = .armTimeout c ∧ code = 2 ∧ r.silent.toNat < s.cfg.lossFrames ∧
        ∃ t, r.pending = some t ∧ t.armCount ≤ 1 ∧ t.seen = false) ∨
      (i = .takeTimeout c ∧ code = 3 ∧ r.silent.toNat < s.cfg.lossFrames ∧
        ∃ t, r.pending = some t ∧ ¬(t.armCount ≤ 1 ∧ t.seen = false) ∧ t.takeCount ≤ 1)) →
    ∃ u, exec i s = .next u ∧ s.SameOutside u ∧ u.due = s.due.erase (.cue c) ∧ s.works.OthersKept c u.works ∧
      u.works.join = s.works.join ∧ (u.works.at c).state = .fault ∧ (u.works.at c).OffAir s.cfg.map[c].prec ∧
      (u.works.at c).gen = x.gen + 1 ∧ (u.works.at c).active = x.active ∧
      (∀ o, x.openRec = some o →
        u.works.store = s.works.store.append { o with endAt := some (s.clk.count + 1), status := some .faulted }) ∧
      (x.openRec = none → u.works.store = s.works.store) ∧
      u.works.tx =
        s.works.sends s.boundaryEnv (endingCues (s.boundaryEnv.estimate r.server) r (s.clk.count + 1)) ∧
      (x.openRec = none → x.handback = .absent → x.mirror.other = .absent →
        s.works.tx.urgent.length + s.works.tx.flying .urgent ≤ 14 →
        s.works.OneNotice u.works .channelFault (some c)
          (paramBytes code (match x.active with | .primary => 0 | .alternate => 1) 0 0) s.clk.count)

/-- R142, R144 to R146: with no port fault found, a withdrawn TAKE of a channel on air whose take countdown is lowered
to 0 at the boundary is forgotten without confirmation, the silent count advances, and no notice is made. A pending
TAKE not yet seen armed is placed again at the boundary with the same tag, K and content, its countdowns lowered; one
seen armed is not. After a CLOCK_STEP of its server a pending TAKE is converted again: with the same K it stands, with
another it is placed under a new tag, its seen-armed flag clear and its countdowns kept. (One TAKE of the server is
spoken of: the order of several is log 37's.) -/
def Obligations.StandingCuesAreKept : Prop :=
  (∀ (s : State) (c : Chan) (x : Context) (r : PortRec) (t : Take), s.Outstanding (.cue c) → x = s.works.at c →
     x.state = .onAir → x.active = .primary → x.prim = some r → r.silent.toNat < s.cfg.lossFrames →
     r.pending = none → r.withdrawn = some t → t.takeCount ≤ 1 → x.alt = none →
     exec (.withdrawnTakeExpiry c) s =
       .next { s with
               due := s.due.erase (.cue c)
               works := s.works.mod c fun y =>
                 { y with prim := some { r with withdrawn := none, silent := bump r.silent } } }) ∧
  ((∀ (s : State) (c : Chan) (x : Context) (r : PortRec) (u : Take) (w : Works), x = s.works.at c →
     x.state = .cueing ∨ x.state = .onAir ∨ x.state = .returning → x.active = .primary → x.prim = some r →
     x.alt = none → r.silent.toNat < s.cfg.lossFrames → r.withdrawn = none → r.pending = some u → 2 ≤ u.takeCount →
     w = s.works.mod c (fun y =>
       { y with
         prim := some
           { r with silent := bump r.silent
                    pending := some { u with armCount := u.armCount - 1, takeCount := u.takeCount - 1 } } }) →
     (u.seen = false → 2 ≤ u.armCount →
       runWork (.cue c) s = { s with works := w.placeCue s.boundaryEnv (takeCue r u) }) ∧
     (u.seen = true → runWork (.cue c) s = { s with works := w })) ∧
   ∀ (e : Env) (w : Works) (station : Nat),
     ((∀ d side q, (w.at d).portRec side = some q → q.server = station → q.pending = none) →
       w.clockStep e station = w) ∧
     ∀ (c : Chan) (side : PortSel) (r : PortRec) (u v : Take), (w.at c).portRec side = some r → r.server = station →
       r.pending = some u →
       (∀ d side2 q, (w.at d).portRec side2 = some q → q.server = station → q.pending ≠ none → d = c ∧ side2 = side) →
       v = { u with tag := w.tag, k := convertFrame (e.estimate station) u.takeLocal, seen := false } →
       (v.k = u.k → w.clockStep e station = w) ∧
       (v.k ≠ u.k →
         w.clockStep e station =
           ({ w with tag := tagAfter w.tag }.placeCue e (takeCue r v)).mod c fun y =>
             y.modRec side fun q => { q with pending := some v }))

/-! ## The join engine (07) -/

/-- R154, R122 to R124, R100: in ON_AIR, at the boundary, a FOLLOW request is due when the current event's end is at
or before now + P, no TAKE is pending, and no request of the channel is outstanding: it is placed with take frame and
current end both the end, and raises the generation. A completed computation whose generation is not the channel's is
discarded without effect on any context, store or notice; the engine begins the oldest queued request, if there is
one. -/
def Obligations.RequestsAndStaleResults : Prop :=
  (∀ (s : State) (c : Chan) (x : Context) (ev : CurEvent) (f : Frame), s.Outstanding (.follow c) → x = s.works.at c →
     x.state = .onAir → x.cur = some ev → ev.endAt = some f →
     0 ≤ frameDiff (s.clk.count + BitVec.ofNat 32 s.cfg.preroll) f → x.pending = none →
     x.settled = false → x.waitReq = none → x.mirror.other = .absent →
     (∀ j ∈ s.works.join.queue, j.chan ≠ c) → (∀ g, s.works.join.flight = some g → g.req.chan ≠ c) →
     ∃ t, exec (.followDue c) s = .next t ∧ s.SameOutside t ∧ t.due = s.due.erase (.follow c) ∧
       s.works.OthersKept c t.works ∧ t.works.tx = s.works.tx ∧ t.works.store = s.works.store ∧
       t.works.notices = s.works.notices ∧ t.works.at c = { x with gen := x.gen + 1 } ∧
       t.works.Requested c .follow f (some f) (x.gen + 1)) ∧
  (∀ (s : State) (f : JoinFlight) (c : Chan) (x : Context), s.Ready → s.works.join.flight = some f → f.req.chan = c →
     x = s.works.at c → f.req.gen ≠ x.gen → x.mirror.other = .absent → x.mirror.clearWaits = false →
     x.waitReq = none → x.followOwed = false → (x.state ≠ .onAir ∧ x.state ≠ .returning) →
     ∃ t, exec .joinComplete s = .next t ∧ t = { s with works := { s.works with join := t.works.join } } ∧
       (s.works.join.queue = [] → t.works.join = { queue := [], flight := none }) ∧
       ∀ r rest, s.works.join.queue = r :: rest →
         t.works.join.queue = rest ∧
           ∃ g, t.works.join.flight = some g ∧ g.req = r ∧ g.list = (s.works.at r.chan).mirror.live ∧
             g.cur = (s.works.at r.chan).cur ∧ g.anchor = (s.works.at r.chan).anchor ∧
             g.tally = (s.works.at r.chan).tally ∧ g.estimate = s.env.estimate s.cfg.map[r.chan].origin)

/-- R124, R132, R143, R139, R137, R57: a TAKEOVER result of the channel's generation, delivered in CUEING, becomes the current
event with its anchor, and a TAKE is placed on the active port under the next tag: K by the server's estimate,
seen-armed clear, the arm countdown at least 1 and the take countdown at least one more. A local frame on another clock
is its ticks less the estimate, modulo 2^42, divided by 1024 and rounded to the nearest frame, a tie to the even one;
an estimator that is not valid is taken as 0. -/
def Obligations.TakeoverIsDelivered : Prop :=
  (∀ (s : State) (f : JoinFlight) (c : Chan) (x : Context) (r : PortRec) (ev : CurEvent), s.Ready →
     s.works.join.flight = some f → f.req.chan = c → f.req.kind = .takeover → x = s.works.at c →
     x.state = .cueing → f.req.gen = x.gen → x.active = .primary → x.prim = some r → r.pending = none →
     x.mirror.other = .absent → x.mirror.clearWaits = false → x.waitReq = none → x.followOwed = false →
     (f.takeover s.cfg.map[c].filler).outcome = .take ev → (f.takeover s.cfg.map[c].filler).due = [] →
     s.works.tx.urgent.length + s.works.tx.flying .urgent < 16 →
     (∀ u ∈ s.works.tx.urgent, u.isCueTo r.server r.port = false) →
     ∃ t take, exec .joinComplete s = .next t ∧ s.SameOutside t ∧ t.due = s.due ∧ s.works.OthersKept c t.works ∧
       t.works.store = s.works.store ∧ t.works.notices = s.works.notices ∧
       t.works.tag = (if s.works.tag = 0xFFFF then 1 else s.works.tag + 1) ∧
       t.works.at c =
         { x with
           cur := some ev, anchor := some (f.req.take - f.originFrame)
           prim := some { r with pending := some take, withdrawn := none } } ∧
       take.tag = s.works.tag ∧ take.source = .takeover ∧ take.takeLocal = f.req.take ∧ take.outcome = ev ∧
       take.seen = false ∧ take.k = convertFrame (s.env.estimate r.server) f.req.take ∧
       take.armCount = max 1 (frameDiff (f.req.take - 1) s.clk.count).toNat ∧
       take.takeCount =
         max (take.armCount + 1)
           (frameDiff (f.req.take + BitVec.ofNat 32 s.cfg.confirmFrames) s.clk.count).toNat ∧
       t.works.tx =
         { s.works.tx with
           urgent := s.works.tx.urgent ++
             [OutMsg.cue
               { server := r.server, port := r.port, tag := s.works.tag,
                 body := .take ev.event ev.clip ev.entry take.k (ev.endAt.map fun e => e - f.req.take) }] }.pick
           s.cfg) ∧
  (∀ (estimate : Option Int) (local_ : Frame) (ticks k : Int),
     ticks = ((local_.toNat : Int) * 1024 - estimate.getD 0) % 2 ^ 42 →
     (ticks - 1024 * k).natAbs < 512 ∨ (ticks - 1024 * k).natAbs = 512 ∧ k % 2 = 0 →
     convertFrame estimate local_ = BitVec.ofInt 32 k ∧ convertFrame none local_ = local_) ∧
  ∀ (e : Env) (station : Nat) (p : Peer), findPeer e.peers station = some p →
    e.estimate station = if p.est.valid = true then some p.est.e else none

/-- R124, R134, R135, R143, R154: a FOLLOW, RESUME, SKIP or REJOIN result of the channel's generation makes its
notices due. RESUME and SKIP set the current event's end to T and clear its held flag, REJOIN replaces the current
event, or re-takes it when it is held at delivery, with its end, natural end and held flag, and FOLLOW leaves it; the pending TAKE is cancelled and the result placed as a TAKE under the next tag. A FOLLOW
whose pending TAKE announces the same event, clip, entry, take local and play length only rewrites its outcome, and
one for another end than the current one, or while SETTLED (R168), is set aside without a cue. (The natural end of a
re-taken FILLER, and the re-take of an event held since its recorded end passed, are the model's choices: logs 45, 46.) -/
def Obligations.ImposedAndRejoinAreDelivered : Prop :=
  ∀ (s : State) (f : JoinFlight) (c : Chan) (x : Context) (r : PortRec) (cur ev : CurEvent)
    (due : List (NoticeKind × BitVec 32)) (take : Take), s.Ready → s.works.join.flight = some f → f.req.chan = c →
    x = s.works.at c → f.req.gen = x.gen → x.active = .primary → x.prim = some r → x.cur = some cur →
    x.mirror.other = .absent → x.mirror.clearWaits = false → x.waitReq = none → x.followOwed = false →
    (∀ j ∈ s.works.join.queue, j.chan ≠ c) → s.works.tx.urgent.length + s.works.tx.flying .urgent ≤ 14 →
    (f.req.kind ≠ .rejoin ∨ cur.held = false →
      f.result s.cfg.map[c].filler = { outcome := .take ev, anchor := none, due := due }) →
    (f.req.kind = .rejoin → cur.held = true → due = [] ∧
      ev =
        if cur.place = .filler then
          { cur with event := 0, clip := s.cfg.map[c].filler, entry := 0, start := f.req.take }
        else { cur with entry := f.req.take - cur.start }) → due.length ≤ 1 →
    (f.req.kind = .follow → cur.held = false) → take = s.newTake r f.req.kind f.req.take ev →
    s.works.notices.ring.length ≤ 32 →
    ∃ t, exec .joinComplete s = .next t ∧ t = { s with works := t.works } ∧ s.works.OthersKept c t.works ∧
      t.works.store = s.works.store ∧ t.works.counters = s.works.counters ∧
      t.works.notices.ring =
        ((due.map fun n => ({ kind := n.1, chan := some c, param := n.2, frame := s.clk.count } : Notice)) ++
          s.works.notices.ring).take 32 ∧
      (∀ new, (f.req.kind = .resume ∨ f.req.kind = .skip) ∧
            new = some { cur with endAt := some f.req.take, held := false } ∨
          f.req.kind = .rejoin ∧ new = some ev ∨
          f.req.kind = .follow ∧ cur.endAt = some f.req.take ∧ x.settled = false ∧ new = some cur ∧
            (∀ u, r.pending = some u →
              ¬(u.outcome.event = ev.event ∧ u.outcome.clip = ev.clip ∧ u.outcome.entry = ev.entry ∧
                u.takeLocal = f.req.take ∧
                (u.outcome.endAt.map fun e => e - u.takeLocal) = ev.endAt.map fun e => e - f.req.take)) →
        t.works.at c = { x with cur := new, prim := some { r with pending := some take, withdrawn := none } } ∧
        t.works.tag = tagAfter s.works.tag ∧
        t.works.tx =
          s.works.sends s.env ((r.pending.toList.map fun u => cancelCue r u) ++ [takeCue r take])) ∧
      (∀ u, f.req.kind = .follow → cur.endAt = some f.req.take → x.settled = false →
        r.pending = some u → u.outcome.event = ev.event → u.outcome.clip = ev.clip → u.outcome.entry = ev.entry →
        u.takeLocal = f.req.take →
        (u.outcome.endAt.map fun e => e - u.takeLocal) = (ev.endAt.map fun e => e - f.req.take) →
        t.works.at c = { x with prim := some { r with pending := some { u with outcome := ev } } } ∧
        t.works.tag = s.works.tag ∧ t.works.tx = s.works.tx) ∧
      (f.req.kind = .follow → x.settled = true ∨ cur.endAt ≠ some f.req.take →
        x.settled = true ∨ r.pending ≠ none →
        t.works.at c = x ∧ t.works.tag = s.works.tag ∧ t.works.tx = s.works.tx)

/-- R126 to R128, R133 to R135: what a FOLLOW, RESUME or SKIP gives for an event, or FILLER to its end: the next event
of the list, from its FOLLOW start or with the late entry of a FIXED start that has passed; FILLER to a FIXED start
that is still to come; FILLER, open, with SCHEDULE_EXHAUSTED when the list has ended. A SKIP of FILLER, held or not,
pulls the first FIXED event at or later than T forward to T, or gives FILLER, open. A REJOIN within the span of the
current event re-takes it. (How late starts are measured is log 16's reading; the id 0 after FILLER is log 17's choice;
the FIXED start that a SKIP of FILLER passes over between the recorded end and T is log 32's, and the natural end of a
re-taken FILLER log 45's.) -/
def Obligations.SuccessorsAreFound : Prop :=
  ∀ (f : JoinFlight) (clip : Ident) (cur : CurEvent) (a t : Frame) (filler : Option Frame → Bool → CurEvent),
    f.cur = some cur → a = f.anchor.getD 0 → t = f.req.take →
    (∀ stop held, filler stop held =
      { place := .filler, event := 0, clip := clip, entry := 0, start := t, endAt := stop, natEnd := stop
        held := held }) →
    (∀ (before after : List EventRec), f.list = before ++ after →
        (f.req.kind = .follow ∨ f.req.kind = .resume ∨ f.req.kind = .skip) ∧
            (cur.place = .beforeZero ∧ before = [] ∨ cur.place = .at (before.length - 1) ∧ before ≠ []) ∨
          (f.req.kind = .follow ∨ f.req.kind = .resume) ∧ cur.place = .filler ∧
            (∀ n ∈ before, n.mode = .fixed → frameDiff (n.startFrame + a) t < 0) ∧
            (∀ q rest, after = q :: rest → q.mode = .fixed ∧ 0 ≤ frameDiff (q.startFrame + a) t) →
        (after = [] →
          f.result clip =
            { outcome := .take (filler none false), anchor := none, due := [(.scheduleExhausted, cur.event)] }) ∧
        ∀ (q : EventRec) (rest : List EventRec) (begin : Frame), after = q :: rest →
          (0 < frameDiff (q.startFrame + a) t → q.mode = .fixed →
            f.result clip =
              { outcome := .take (filler (some (q.startFrame + a)) false), anchor := none, due := [] }) ∧
          (q.mode = .follow ∧ begin = t ∨ q.mode = .fixed ∧ begin = q.startFrame + a ∧ frameDiff begin t ≤ 0 →
            (q.duration ≠ 0 → 0 < frameDiff begin t + q.duration.toNat) →
            (∀ n tail, rest = n :: tail → n.mode = .fixed → 0 < frameDiff (n.startFrame + a) t) →
            ∀ nat stop : Option Frame,
              nat = (if q.duration = 0 then none else some (begin + q.duration.setWidth 32)) →
              stop =
                (match rest with
                | [] => nat
                | n :: _ =>
                  if n.mode = .fixed ∧ (q.duration = 0 ∨
                      frameDiff (n.startFrame + a) t < frameDiff begin t + q.duration.toNat) then
                    some (n.startFrame + a)
                  else nat) →
              f.result clip =
                { outcome := .take
                    { place := .at before.length, event := q.event, clip := q.clip, entry := t - begin, start := begin
                      endAt := stop, natEnd := nat, held := false }
                  anchor := none, due := [] })) ∧
    (f.req.kind = .skip → cur.place = .filler →
      ((∀ n ∈ f.list, n.mode = .fixed → frameDiff (n.startFrame + a) t < 0) →
        f.result clip = { outcome := .take (filler none false), anchor := none, due := [] }) ∧
      ∀ (before : List EventRec) (q : EventRec) (rest : List EventRec),
        f.list = before ++ q :: rest → q.mode = .fixed → 0 ≤ frameDiff (q.startFrame + a) t →
        (∀ n ∈ before, n.mode = .fixed → frameDiff (n.startFrame + a) t < 0) →
        (∀ n tail, rest = n :: tail → n.mode = .fixed → 0 < frameDiff (n.startFrame + a) t) →
        f.result clip =
          { outcome := .take
              { place := .at before.length, event := q.event, clip := q.clip, entry := 0, start := t
                endAt := ruledEnd a t q rest, held := false
                natEnd := if q.duration = 0 then none else some (t + q.duration.setWidth 32) }
            anchor := none, due := [] }) ∧
    (f.req.kind = .rejoin →
      (∀ g, cur.endAt = some g → frameDiff t (cur.start + cur.entry) < frameDiff g (cur.start + cur.entry)) →
      f.result clip =
        { outcome :=
            .take (if cur.place = .filler then { filler cur.endAt cur.held with natEnd := cur.natEnd } else { cur with entry := t - cur.start })
          anchor := none, due := [] })

/-- R125, R129 to R131: what a TAKEOVER gives. J is the origin's frame of the take, or the tally's stamp frame when
that is later, and the anchor is the take less J. An empty list gives FILLER, open, with SCHEDULE_EXHAUSTED. A tally
that names no event of the list gives the rescue: FILLER to the first FIXED start later than J, or open, with
TALLY_EVENT_UNKNOWN. The tallied event begins at the stamp frame less its offset; in HOLDING it is joined held with its
end open, in PLAYING within the end of R126, and beyond that end the walk gives the span that contains J. R135: so does
a REJOIN at or beyond the current event's end. R136: a BOUNDARY finds the first air start of a list event at or later
than its take frame, or NO BOUNDARY. (Which frame distances are measured from is log 16's reading; the rescue for a J
earlier than the tallied event's begin is log 40's choice.) -/
def Obligations.TakeoversAndBoundariesAreFound : Prop :=
  (∀ (f : JoinFlight) (clip : Ident) (k j a : Frame) (filler : Option Frame → CurEvent),
     k = convertFrame f.estimate f.req.take →
     (∀ t, f.tally = some t →
       j = if 0 < frameDiff (BitVec.ofNat 32 (t.stamp.toNat / 1024)) k then BitVec.ofNat 32 (t.stamp.toNat / 1024)
         else k) →
     (f.tally = none → j = k) → a = f.req.take - j →
     (∀ stop, filler stop =
       { place := .filler, event := 0, clip := clip, entry := 0, start := f.req.take, endAt := stop, natEnd := stop
         held := false }) →
     f.originFrame = j ∧
     (f.list = [] →
       f.takeover clip = { outcome := .take (filler none), anchor := some a, due := [(.scheduleExhausted, 0)] }) ∧
     (∀ (id : Ident) (stop : Option Frame), f.list ≠ [] →
       (id = 0 ∧ (∀ t, f.tally = some t → t.phase = .standby ∨ t.phase = .ready ∨ t.event = none)) ∨
         (∃ t q, f.tally = some t ∧ (t.phase = .playing ∨ t.phase = .holding) ∧ t.event = some (id, q) ∧
           ((∀ n ∈ f.list, n.event ≠ id) ∨
             frameDiff j (BitVec.ofNat 32 (t.stamp.toNat / 1024) - q) < 0)) →
       ((∀ n ∈ f.list, n.mode = .fixed → frameDiff n.startFrame j ≤ 0) ∧ stop = none) ∨
         (∃ before n after, f.list = before ++ n :: after ∧ n.mode = .fixed ∧ 0 < frameDiff n.startFrame j ∧
           (∀ q ∈ before, q.mode = .fixed → frameDiff q.startFrame j ≤ 0) ∧ stop = some (n.startFrame + a)) →
       f.takeover clip =
         { outcome := .take (filler stop), anchor := some a, due := [(.tallyEventUnknown, id)] }) ∧
     ∀ (t : OriginTally) (q b : Frame) (before : List EventRec) (r : EventRec) (after : List EventRec) (d : Int)
       (nat stop : Option Int) (joined : Option Frame → Bool → CurEvent), f.tally = some t →
       t.event = some (r.event, q) → f.list = before ++ r :: after → (∀ n ∈ before, n.event ≠ r.event) →
       b = BitVec.ofNat 32 (t.stamp.toNat / 1024) - q → d = frameDiff j b → 0 ≤ d →
       nat = (if r.duration = 0 then none else some (r.duration.toNat : Int)) →
       stop =
         (match after with
         | [] => nat
         | n :: _ =>
           if n.mode = .fixed ∧ (r.duration = 0 ∨ frameDiff n.startFrame b < r.duration.toNat) then
             some (frameDiff n.startFrame b)
           else nat) →
       (∀ x held, joined x held =
         { place := .at before.length, event := r.event, clip := r.clip, entry := j - b, start := b + a, endAt := x
           natEnd := nat.map (frameAt (b + a)), held := held }) →
       (t.phase = .holding →
         f.takeover clip = { outcome := .take (joined none true), anchor := some a, due := [] }) ∧
       (t.phase = .playing →
         ((∀ x, stop = some x → d < x) →
           f.takeover clip =
             { outcome := .take (joined (stop.map (frameAt (b + a))) false), anchor := some a, due := [] }) ∧
         ∀ x, stop = some x → x ≤ d →
           WalkGives clip (b + a) f.req.take (some a) d
             (spansFrom (fun n => frameDiff n.startFrame b) (max 0 x) r.event
               ((indexed f.list).drop (before.length + 1)))
             (f.takeover clip))) ∧
  ∀ (f : JoinFlight) (clip : Ident) (cur : CurEvent) (base : Frame) (d : Int), f.cur = some cur →
    base = cur.start + cur.entry → d = frameDiff f.req.take base →
    (cur.endAt = none → f.boundary = { outcome := .noBoundary, anchor := none, due := [] }) ∧
    ∀ (x : Frame) (rest : List (Nat × EventRec)) (spans : List Span), cur.endAt = some x → f.Follows cur x rest →
      spans =
        spansFrom (fun n => frameDiff (n.startFrame + f.anchor.getD 0) base) (frameDiff x base) cur.event rest →
      (f.req.kind = .rejoin → frameDiff x base ≤ d →
        WalkGives clip base f.req.take none d spans (f.result clip)) ∧
      (∀ before i r sched air nat stop after, spans = before ++ Span.event i r sched air nat stop :: after → d ≤ air →
        (∀ i r sched air nat stop, Span.event i r sched air nat stop ∈ before → air < d) →
        f.boundary = { outcome := .found (frameAt base air) r.event, anchor := none, due := [] }) ∧
      ((∀ i r sched air nat stop, Span.event i r sched air nat stop ∈ spans → air < d) →
        f.boundary = { outcome := .noBoundary, anchor := none, due := [] })

/-! ## Handback and as-run (09) -/

/-- R166, R170, R171: a BOUNDARY result delivered to a REQUESTED handback. FOUND, with the event not held, the tally
fresh and H − 1 later than now, sets it: RETURNING, SET with H local, H peer and the successor, no postponement;
HANDBACK_SET and then DIRECTIVE_TAKEN are made. A held event refuses it with reason 3, a tally that is not fresh with
5, any other result with 6: the handback is absent and the channel stays in ON_AIR. Delivered to a POSTPONING
handback, FOUND with H − 1 later than now sets it again, with the count it has and HANDBACK_POSTPONED; any other
result aborts it with reason 2. -/
def Obligations.BoundaryResultsAreJudged : Prop :=
  (∀ (s : State) (f : JoinFlight) (c : Chan) (x : Context) (ev : CurEvent) (sender : Nat) (number : Byte)
     (h e : Frame) (succ : Ident), s.Ready → s.works.join.flight = some f → f.req.chan = c →
     f.req.kind = .boundary → x = s.works.at c → x.state = .onAir → f.req.gen = x.gen → x.cur = some ev →
     ev.held = false → ev.endAt = some e → later e (s.clk.count + BitVec.ofNat 32 s.cfg.preroll) = true →
     x.handback = .requested sender number → x.seen = true → x.age.toNat < s.cfg.suspectFrames →
     x.mirror.other = .absent → x.mirror.clearWaits = false → x.waitReq = none → x.followOwed = false →
     f.boundary.outcome = .found h succ → later (h - 1) s.clk.count = true →
     ∃ t, exec .joinComplete s = .next t ∧ s.SameOutside t ∧ t.due = s.due ∧ s.works.OthersKept c t.works ∧
       t.works.tx = s.works.tx ∧ t.works.store = s.works.store ∧
       t.works.at c =
         { x with state := .returning, handback := .agreed .set h (h - x.anchor.getD 0) succ 0 } ∧
       t.works.notices.ring =
         ({ kind := .directiveTaken, chan := some c, param := paramBytes sender number.toNat 4 0,
            frame := s.clk.count } ::
           { kind := .handbackSet, chan := some c, param := h - x.anchor.getD 0, frame := s.clk.count } ::
           s.works.notices.ring).take 32) ∧
  (∀ (s : State) (f : JoinFlight) (c : Chan) (x : Context) (ev : CurEvent) (Found : Frame → Ident → Prop), s.Ready →
     s.works.join.flight = some f → f.req.chan = c → f.req.kind = .boundary → x = s.works.at c → f.req.gen = x.gen →
     x.cur = some ev → (∀ e, ev.endAt = some e → later e (s.clk.count + BitVec.ofNat 32 s.cfg.preroll) = true) →
     x.mirror.other = .absent → x.mirror.clearWaits = false → x.waitReq = none → x.followOwed = false →
     (∀ h succ, Found h succ ↔ f.boundary.outcome = .found h succ ∧ later (h - 1) s.clk.count = true) →
     (∀ (sender : Nat) (number : Byte) (reason : Nat), x.handback = .requested sender number → x.state = .onAir →
       (ev.held = true ∧ reason = 3) ∨
         (ev.held = false ∧ (x.seen = false ∨ s.cfg.suspectFrames ≤ x.age.toNat) ∧ reason = 5) ∨
         (ev.held = false ∧ x.seen = true ∧ x.age.toNat < s.cfg.suspectFrames ∧ (∀ h succ, ¬Found h succ) ∧
           reason = 6) →
       ∃ t, exec .joinComplete s = .next t ∧ t = { s with works := t.works } ∧ s.works.OthersKept c t.works ∧
         t.works.tx = s.works.tx ∧ t.works.store = s.works.store ∧
         t.works.at c = { x with handback := .absent } ∧
         s.works.OneNotice t.works .directiveRefused (some c) (paramBytes sender number.toNat 4 reason) s.clk.count) ∧
     ∀ (h0 hPeer0 : Frame) (succ0 : Ident) (n : Nat), x.state = .returning →
       x.handback = .agreed .postponing h0 hPeer0 succ0 n →
       ∃ t, exec .joinComplete s = .next t ∧ t = { s with works := t.works } ∧ s.works.OthersKept c t.works ∧
         t.works.tx = s.works.tx ∧ t.works.store = s.works.store ∧
         (∀ h hPeer succ, Found h succ → hPeer = h - x.anchor.getD 0 →
           t.works.at c = { x with handback := .agreed .set h hPeer succ n } ∧
           s.works.OneNotice t.works .handbackPostponed (some c) (BitVec.ofNat 2 n ++ hPeer.setWidth 30)
             s.clk.count) ∧
         ((∀ h succ, ¬Found h succ) →
           t.works.at c = { x with state := .onAir, handback := .absent, dualSeen := false } ∧
           s.works.OneNotice t.works .handbackAborted (some c) 2 s.clk.count))

/-- R168 to R171, R99, R138: the READY check at the boundary that begins H − 1. With a fresh READY tally whose ready
frame is H peer the handback is SETTLED, the pending TAKE is cancelled and ceases to be pending, and a STOP at H is
placed. Otherwise, below three postponements, it is POSTPONING with one more and a BOUNDARY request at now +
handback_lead; at three it is aborted with reason 1. At the boundary that begins H a SETTLED handback completes: the
open record is closed HANDED_BACK at H and appended, the channel enters MIRRORING off air with two RELEASEs to send,
no cue is placed, and HANDBACK_DONE carries H peer. -/
def Obligations.ReadyCheckAndCompletion : Prop :=
  (∀ (s : State) (c : Chan) (x : Context) (h hPeer : Frame) (succ : Ident) (n : Nat), s.Outstanding (.handback c) →
     x = s.works.at c → x.state = .returning → x.handback = .agreed .set h hPeer succ n → s.clk.count = h - 1 →
     ((∃ o, x.tally = some o ∧ o.phase = .ready ∧ o.readyFrame = some hPeer) → x.seen = true →
       x.age.toNat < s.cfg.suspectFrames →
       ∃ t, exec (.readyCheck c) s = .next t ∧ s.SameOutside t ∧ t.due = s.due.erase (.handback c) ∧
         s.works.OthersKept c t.works ∧ t.works.join = s.works.join ∧ t.works.store = s.works.store ∧
         (t.works.at c).state = .returning ∧ (t.works.at c).handback = .agreed .settled h hPeer succ n ∧
         (t.works.at c).pending = none ∧ (t.works.at c).cur = x.cur ∧ (t.works.at c).openRec = x.openRec ∧
         (t.works.at c).gen = x.gen ∧
         ∀ r, x.portRec x.active = some r →
           t.works.tx = s.works.sends s.boundaryEnv (endingCues (s.boundaryEnv.estimate r.server) r h)) ∧
     ((∀ o, x.tally = some o → o.phase ≠ .ready ∨ o.readyFrame ≠ some hPeer) ∨ x.seen = false ∨
         s.cfg.suspectFrames ≤ x.age.toNat →
       (n < 3 →
         ∃ t, exec (.readyCheck c) s = .next t ∧ s.SameOutside t ∧ t.due = s.due.erase (.handback c) ∧
           s.works.OthersKept c t.works ∧ t.works.tx = s.works.tx ∧ t.works.store = s.works.store ∧
           t.works.notices = s.works.notices ∧
           t.works.at c = { x with handback := .agreed .postponing h hPeer succ (n + 1), gen := x.gen + 1 } ∧
           t.works.Requested c .boundary (s.clk.count + BitVec.ofNat 32 s.cfg.handbackLead) none (x.gen + 1)) ∧
       (3 ≤ n →
         ∃ t, exec (.readyCheck c) s = .next t ∧ s.SameOutside t ∧ t.due = s.due.erase (.handback c) ∧
           s.works.OthersKept c t.works ∧ s.works.OnlyContexts t.works ∧
           t.works.at c = { x with state := .onAir, handback := .absent, dualSeen := false } ∧
           s.works.OneNotice t.works .handbackAborted (some c) 1 s.clk.count))) ∧
  (∀ (s : State) (c : Chan) (x : Context) (h hPeer : Frame) (succ : Ident) (n : Nat), s.Outstanding (.handback c) →
     x = s.works.at c → x.state = .returning → x.handback = .agreed .settled h hPeer succ n → s.clk.count = h →
     ∃ t, exec (.handbackDone c) s = .next t ∧ s.SameOutside t ∧ t.due = s.due.erase (.handback c) ∧
       s.works.OthersKept c t.works ∧ t.works.join = s.works.join ∧ t.works.tx = s.works.tx ∧
       (t.works.at c).state = .mirroring ∧ (t.works.at c).OffAir s.cfg.map[c].prec ∧
       (t.works.at c).gen = x.gen + 1 ∧
       (∀ o, x.openRec = some o →
         t.works.store = s.works.store.append { o with endAt := some h, status := some .handedBack }) ∧
       (x.openRec = none → t.works.store = s.works.store) ∧
       t.works.Newest .handbackDone (some c) hPeer s.clk.count)

/-- R160, R161: appending to the as-run store. From an empty ring, n records leave the write position at n modulo 512;
an append that brings it to 256 makes ASRUN_HALF, one that brings it to 0 ASRUN_WRAP, each with no channel and the
closing number of the record just appended, whether or not a record was discarded; any other makes no notice. -/
def Obligations.AsRunRingIsNoticed : Prop :=
  (∀ rs : List AsRunRec,
    (rs.foldl (fun st r => AsRunStore.append r st) Works.reset.store).writePos = rs.length % 512 ∧
      (rs.foldl (fun st r => AsRunStore.append r st) Works.reset.store).ring.length = min rs.length 512 ∧
      (rs.foldl (fun st r => AsRunStore.append r st) Works.reset.store).closing = BitVec.ofNat 16 rs.length) ∧
  ∀ (e : Env) (w : Works) (r : AsRunRec), w.store.writePos < 512 → w.store.ring.length ≤ 512 →
    (w.appendRecord e r).store.ring.getLast? = some { r with closing := some w.store.closing } ∧
      (w.store.writePos = 255 →
        w.OneNotice (w.appendRecord e r) .asrunHalf none (w.store.closing.setWidth 32) e.now) ∧
      (w.store.writePos = 511 →
        w.OneNotice (w.appendRecord e r) .asrunWrap none (w.store.closing.setWidth 32) e.now) ∧
      (w.store.writePos ≠ 255 → w.store.writePos ≠ 511 → (w.appendRecord e r).notices = w.notices)

/-- R162, R163, R26: at the boundary at which the period count reaches asrun_period, with a record in the ring or open
and room in BULK, an AS-RUN of one to four records is placed, each from the ring or an open slot, in the order of the
walk; the cursor then names the item after the last of them. From a ring cursor with four records to go these are the
four. With no room it is counted and the cursor stays. (That the walk goes on from the start only when there is
nothing up to open slot 15, and begins there after it, is log 18's reading.) -/
def Obligations.AsRunIsBuilt : Prop :=
  ∀ (s : State) (picked : List (Nat × AsRunRec)), s.Outstanding .asrun →
    s.cfg.asrunPeriod ≤ s.works.store.period + 1 →
    (s.works.store.ring ≠ [] ∨ ∃ c, (s.works.at c).openRec ≠ none) → picked = s.works.carouselPick →
    (s.works.tx.bulk.length + s.works.tx.flying .bulk < 2 →
      1 ≤ picked.length ∧ picked.length ≤ 4 ∧
      (∀ q ∈ picked,
        s.works.store.ring[q.1]? = some q.2 ∨
          ∃ c : Chan, q.1 = s.works.store.ring.length + c.val ∧ (s.works.at c).openRec = some q.2) ∧
      (picked.map Prod.fst).Pairwise (· < ·) ∧
      ∃ t last, exec .asrunBuild s = .next t ∧ s.SameOutside t ∧ t.due = s.due.erase .asrun ∧
        picked.getLast? = some last ∧
        t.works =
          { s.works with
            store := { s.works.store with period := 0, cursor := s.works.store.cursorAfter last.1 }
            tx := { s.works.tx with
              bulk := s.works.tx.bulk ++ [OutMsg.asRun (picked.map Prod.snd)] }.pick s.cfg }) ∧
    (∀ k, s.works.store.cursor = .ring k → k + 4 ≤ s.works.store.ring.length →
      picked.map Prod.snd = (s.works.store.ring.drop k).take 4 ∧ (picked.getLast?.map Prod.fst) = some (k + 3) ∧
        (k + 4 < s.works.store.ring.length → s.works.store.cursorAfter (k + 3) = .ring (k + 4)) ∧
        (k + 4 = s.works.store.ring.length → s.works.store.cursorAfter (k + 3) = .slot 0)) ∧
    (2 ≤ s.works.tx.bulk.length + s.works.tx.flying .bulk →
      exec .asrunBuild s =
        .next { s with
                due := s.due.erase .asrun
                works := { s.works with
                  store := { s.works.store with period := 0 }
                  tx := { s.works.tx with bulkNotBuilt := bump s.works.tx.bulkNotBuilt } } })

/-! ## Directives and reports (10) -/

/-- R173, R174, R177: checks 1 to 5 of a directive. A sender that matches no control-station entry is counted; a
repeat of its last number is ignored; a kind outside its permission set is refused NOT_PERMITTED; an unmapped bus
channel is refused UNKNOWN_CHANNEL to the part alone and ignored as a broadcast; a channel outside the mask is refused
NOT_PERMITTED. RETIME skips checks 4 and 5. None of these changes anything else. (A refusal at check 3 names the
mapped channel, if there is one: log 26.) -/
def Obligations.DirectiveChecksOneToFive : Prop :=
  ∀ (s s1 : State) (l : Lane) (m : RxMsg) (p : Peer) (d : Directive), s.Directs l m p d → s1 = s.heard l p m →
    ((∀ j : Fin 4, s.cfg.control[j].id = 0 ∨ s.cfg.control[j].id ≠ m.sender.toNat) →
      exec (directiveCommand l d.kind) s =
        .next { s1 with works := { s1.works with counters :=
          { s1.works.counters with unknownController := bump s1.works.counters.unknownController } } }) ∧
    ∀ i : Fin 4, s.cfg.control[i].id ≠ 0 → s.cfg.control[i].id = m.sender.toNat →
      (∀ j : Fin 4, j < i → s.cfg.control[j].id ≠ m.sender.toNat) →
      (s.works.lastNumbers[i] = some d.number → exec (directiveCommand l d.kind) s = .next s1) ∧
      (s.works.lastNumbers[i] ≠ some d.number →
        (s.cfg.control[i].perm.getLsbD (d.kind.code - 1) = false →
          exec (directiveCommand l d.kind) s =
            .next (s1.onWorks fun w => w.notice s1.env .directiveRefused
              (if d.kind = .retime then none else Config.localOf s.cfg d.bus)
              (paramBytes m.sender.toNat d.number.toNat d.kind.code 1))) ∧
        (s.cfg.control[i].perm.getLsbD (d.kind.code - 1) = true → d.kind ≠ .retime →
          (Config.localOf s.cfg d.bus = none → d.target = s.own →
            exec (directiveCommand l d.kind) s =
              .next (s1.onWorks fun w => w.notice s1.env .directiveRefused none
                (paramBytes m.sender.toNat d.number.toNat d.kind.code 2))) ∧
          (Config.localOf s.cfg d.bus = none → d.target ≠ s.own →
            exec (directiveCommand l d.kind) s = .next s1) ∧
          ∀ c, Config.localOf s.cfg d.bus = some c → s.cfg.control[i].mask.getLsbD c.val = false →
            exec (directiveCommand l d.kind) s =
              .next (s1.onWorks fun w => w.notice s1.env .directiveRefused (some c)
                (paramBytes m.sender.toNat d.number.toNat d.kind.code 1))))

/-- R175, R165, R177: the sixth check. A directive of each kind is refused in the states in which it is not taken,
with the first reason that applies: so are a HAND BACK while a RESUME, SKIP or REJOIN of the channel is outstanding, a
RESUME or SKIP while a request placed at a port switch is, a HOLD or SKIP in RETURNING once SETTLED, and a SKIP
without a successor; the refusal is noticed and changes nothing else, its number not recorded. (A request that waits
with a deferred commit counts as outstanding: log 13.) -/
def Obligations.SixthCheckRefuses : Prop :=
  ∀ (s s1 : State) (l : Lane) (m : RxMsg) (p : Peer) (d : Directive) (i : Fin 4) (c : Chan) (x : Context)
    (reason : Nat), s.Passes l m p d i c → s1 = s.heard l p m → x = s1.works.at c →
    ((d.kind = .forceTake ∧ x.state ∉ [.mirroring, .suspect, .lost, .yielded, .bidding] ∧ reason = 3) ∨
      (d.kind = .forceTake ∧ x.state ∈ [.mirroring, .suspect, .lost, .yielded, .bidding] ∧ s.isolated = true ∧
        reason = 4) ∨
      (d.kind = .handBack ∧ (x.state ≠ .onAir ∨ x.isHeld = true ∨ x.handback ≠ .absent) ∧ reason = 3) ∨
      (d.kind = .handBack ∧
        ((∃ j : JoinReq, (s1.works.queuedJoin c = some j ∨ s1.works.flyingJoin c = some j) ∧
            (j.kind = .resume ∨ j.kind = .skip ∨ j.kind = .rejoin)) ∨
          ∃ q, x.waitReq = some q ∧ (q.kind = .resume ∨ q.kind = .skip)) ∧ reason = 3) ∨
      (d.kind = .handBack ∧ x.state = .onAir ∧ x.isHeld = false ∧ x.handback = .absent ∧
        s1.works.outstanding c JoinKind.endsRequest = false ∧ (x.seen = false ∨ s.cfg.suspectFrames ≤ x.age.toNat) ∧
        reason = 5) ∨
      (d.kind = .hold ∧ (x.state ∉ [.onAir, .returning] ∨ x.isHeld = true) ∧ reason = 3) ∨
      (d.kind = .resume ∧ (x.state ≠ .onAir ∨ x.isHeld = false) ∧ reason = 3) ∨
      (d.kind = .skip ∧ x.state ∉ [.onAir, .returning] ∧ reason = 3) ∨
      ((d.kind = .resume ∨ d.kind = .skip) ∧
        ((∃ j : JoinReq, (s1.works.queuedJoin c = some j ∨ s1.works.flyingJoin c = some j) ∧ j.atSwitch = true) ∨
          ∃ q, x.waitReq = some q ∧ q.atSwitch = true) ∧ reason = 3) ∨
      ((d.kind = .hold ∨ d.kind = .skip) ∧ x.state = .returning ∧ x.settled = true ∧ reason = 3) ∨
      (d.kind = .skip ∧ x.state = .onAir ∧ s1.works.switchOutstanding c = false ∧
        (∃ ev, x.cur = some ev ∧
          ((∃ k, ev.place = .at k ∧ x.mirror.live.length ≤ k + 1) ∨
            (ev.place = .beforeZero ∧ x.mirror.live = []))) ∧
        (∀ rev events, x.mirror.other = .ready rev events true → events = []) ∧
        reason = 7) ∨
      (d.kind = .retry ∧ x.state ≠ .fault ∧ reason = 3) ∨
      (d.kind = .clearChannel ∧ x.state ∉ [.mirroring, .suspect, .lost, .yielded, .fault] ∧ reason = 3)) →
    exec (directiveCommand l d.kind) s =
      .next (s1.onWorks fun w => w.notice s1.env .directiveRefused (some c)
        (paramBytes m.sender.toNat d.number.toNat d.kind.code reason))

/-- R97, R94, R117, R114, R115, R176: ARM sets the armed flag and, in LOST, makes the loss decision again; DISARM
clears it and takes a channel in BIDDING to LOST. Both record the number and make DIRECTIVE_TAKEN last. FORCE TAKE,
the part not isolated, enters BIDDING at precedence 0 from MIRRORING, SUSPECT, LOST or YIELDED, with BID_START before
DIRECTIVE_TAKEN; a live rival HOLD yields it at once. In BIDDING own precedence becomes 0 and the window goes on. (Of
several rival HOLDs, not spoken of here, the best is named: log 22. That the bytes of a shorter parameter stand
left-aligned in its 32 bits is the model's choice: log 10.) -/
def Obligations.ArmingAndForceAreTaken : Prop :=
  (∀ (s s1 : State) (l : Lane) (m : RxMsg) (p : Peer) (d : Directive) (i : Fin 4) (c : Chan) (x : Context),
     s.Passes l m p d i c → s1 = s.heard l p m → x = s1.works.at c → (d.kind = .arm ∨ d.kind = .disarm) →
     ∃ t, exec (directiveCommand l d.kind) s = .next t ∧ s1.SameOutside t ∧ t.due = s1.due ∧
       s1.works.OthersKept c t.works ∧ t.works.join = s1.works.join ∧ t.works.tx = s1.works.tx ∧
       t.works.store = s1.works.store ∧ t.works.counters = s1.works.counters ∧
       t.works.lastNumbers = s1.works.lastNumbers.set i (some d.number) ∧
       t.works.Newest .directiveTaken (some c) (paramBytes m.sender.toNat d.number.toNat d.kind.code 0)
         s1.clk.count ∧
       (d.kind = .arm →
         (x.state ≠ .lost → t.works.at c = { x with armed := true }) ∧
         (x.state = .lost → (s.isolated = true ∨ x.mirror.live = [] ∨ x.mirror.status = .mismatch) →
           t.works.at c = { x with armed := true }) ∧
         (x.state = .lost → s.isolated = false → x.mirror.live ≠ [] → x.mirror.status ≠ .mismatch →
           ((∃ r ∈ x.table, r.kind = .hold) → t.works.at c = { x with armed := true, state := .yielded }) ∧
           ((∀ r ∈ x.table, r.kind = .bid) →
             t.works.at c =
               { x with armed := true, state := .bidding, release := 0, bidCount := 0, bidNew := false
                        prec := s.cfg.map[c].prec }))) ∧
       (d.kind = .disarm →
         (x.state ≠ .bidding → t.works.at c = { x with armed := false }) ∧
         (x.state = .bidding →
           t.works.at c =
             { x with armed := false, state := .lost, release := 2, bidCount := 0, prec := s.cfg.map[c].prec }))) ∧
  (∀ (s s1 : State) (l : Lane) (m : RxMsg) (p : Peer) (d : Directive) (i : Fin 4) (c : Chan) (x : Context)
     (taken start : Notice), s.Passes l m p d i c → s1 = s.heard l p m → x = s1.works.at c → d.kind = .forceTake →
     s.isolated = false →
     taken = { kind := .directiveTaken, chan := some c, frame := s1.clk.count
               param := paramBytes m.sender.toNat d.number.toNat 3 0 } →
     start = { kind := .bidStart, chan := some c, param := 0, frame := s1.clk.count } →
     (x.state ∈ [.mirroring, .suspect, .lost, .yielded] →
       ((∀ r ∈ x.table, r.kind = .bid) →
         ∃ t, exec (.forceTake l) s = .next t ∧ s1.SameOutside t ∧ s1.works.OthersKept c t.works ∧
           t.works.tx = s1.works.tx ∧ t.works.join = s1.works.join ∧
           t.works.lastNumbers = s1.works.lastNumbers.set i (some d.number) ∧
           t.works.at c = { x with state := .bidding, release := 0, bidCount := 0, bidNew := false, prec := 0 } ∧
           t.works.notices.ring = (taken :: start :: s1.works.notices.ring).take 32) ∧
       (∀ r, x.table.filter (fun q => decide (q.kind = .hold)) = [r] →
         ∃ t, exec (.forceTake l) s = .next t ∧ s1.SameOutside t ∧ s1.works.OthersKept c t.works ∧
           t.works.tx = s1.works.tx ∧ t.works.join = s1.works.join ∧
           (t.works.at c).state = .yielded ∧ (t.works.at c).prec = s.cfg.map[c].prec ∧ (t.works.at c).release = 2 ∧
           t.works.notices.ring =
             (taken ::
               { kind := .bidYielded, chan := some c, param := paramBytes r.station 2 0 0, frame := s1.clk.count } ::
               start :: s1.works.notices.ring).take 32)) ∧
     (x.state = .bidding →
       ∃ t, exec (.forceTake l) s = .next t ∧ s1.SameOutside t ∧ s1.works.OthersKept c t.works ∧
         t.works.tx = s1.works.tx ∧ t.works.join = s1.works.join ∧ t.works.at c = { x with prec := 0 } ∧
         t.works.notices.ring = (taken :: s1.works.notices.ring).take 32))

/-- R165, R178: a HAND BACK in ON_AIR with the event not held, no handback, no steering request outstanding and a
fresh main-origin tally is taken in hand: its number is recorded, the handback is REQUESTED, a BOUNDARY request is
placed at now + handback_lead, and no notice is made. -/
def Obligations.HandBackIsTakenInHand : Prop :=
  ∀ (s s1 : State) (l : Lane) (m : RxMsg) (p : Peer) (d : Directive) (i : Fin 4) (c : Chan) (x : Context),
    s.Passes l m p d i c → s1 = s.heard l p m → x = s1.works.at c → d.kind = .handBack → x.state = .onAir →
    x.isHeld = false → x.handback = .absent → x.waitReq = none →
    (∀ j ∈ s1.works.join.queue, j.chan = c → j.kind ≠ .resume ∧ j.kind ≠ .skip ∧ j.kind ≠ .rejoin) →
    (∀ f, s1.works.join.flight = some f → f.req.chan = c →
      f.req.kind ≠ .resume ∧ f.req.kind ≠ .skip ∧ f.req.kind ≠ .rejoin) →
    x.seen = true → x.age.toNat < s.cfg.suspectFrames →
    ∃ t, exec (.handBack l) s = .next t ∧ s1.SameOutside t ∧ t.due = s1.due ∧ s1.works.OthersKept c t.works ∧
      t.works.tx = s1.works.tx ∧ t.works.store = s1.works.store ∧ t.works.notices = s1.works.notices ∧
      t.works.lastNumbers = s1.works.lastNumbers.set i (some d.number) ∧
      t.works.at c = { x with handback := .requested m.sender.toNat d.number, gen := x.gen + 1 } ∧
      t.works.Requested c .boundary (s1.clk.count + BitVec.ofNat 32 s.cfg.handbackLead) none (x.gen + 1)

/-- R155, R156, R171: a HOLD makes the current event held with its end open, its natural end kept; a pending TAKE is
cancelled and becomes the withdrawn one with its countdown; the generation and the open record are unchanged. Taken in
RETURNING it first aborts the handback with reason 3. A RESUME of a held event, or a SKIP of an event with a
successor, in ON_AIR cancels the pending TAKE without keeping it, forgets a withdrawn one, and places its request with
take frame and current end now + P, which raises the generation; DIRECTIVE_TAKEN is made. A SKIP taken in RETURNING
first aborts the handback with reason 4. -/
def Obligations.HoldResumeAndSkipAreTaken : Prop :=
  (∀ (s s1 : State) (l : Lane) (m : RxMsg) (p : Peer) (d : Directive) (i : Fin 4) (c : Chan) (x y : Context)
     (ev : CurEvent) (r : PortRec) (taken : Notice) (aborted : List Notice), s.Passes l m p d i c →
     s1 = s.heard l p m → x = s1.works.at c → d.kind = .hold → x.cur = some ev → ev.held = false →
     x.active = .primary → x.prim = some r →
     (r.pending ≠ none → s1.works.tx.urgent.length + s1.works.tx.flying .urgent < 16) →
     taken = { kind := .directiveTaken, chan := some c, frame := s1.clk.count
               param := paramBytes m.sender.toNat d.number.toNat 5 0 } →
     (x.state = .onAir ∧ y = x ∧ aborted = [] ∨
       x.state = .returning ∧
         (∃ h hPeer succ n,
           x.handback = .agreed .set h hPeer succ n ∨ x.handback = .agreed .postponing h hPeer succ n) ∧
         y = { x with state := .onAir, handback := .absent, dualSeen := false } ∧
         aborted = [{ kind := .handbackAborted, chan := some c, param := 3, frame := s1.clk.count }]) →
     ∃ t, exec (.hold l) s = .next t ∧ s1.SameOutside t ∧ t.due = s1.due ∧ s1.works.OthersKept c t.works ∧
       t.works.join = s1.works.join ∧ t.works.store = s1.works.store ∧
       t.works.lastNumbers = s1.works.lastNumbers.set i (some d.number) ∧
       t.works.at c =
         { y with
           cur := some { ev with held := true, endAt := none }
           prim := some (match r.pending with
             | some u => { r with pending := none, withdrawn := some u }
             | none => r) } ∧
       t.works.notices.ring = (taken :: aborted ++ s1.works.notices.ring).take 32 ∧
       (r.pending = none → t.works.tx = s1.works.tx) ∧
       (∀ u, r.pending = some u → (∀ q ∈ s1.works.tx.urgent, q.isCueTo r.server r.port = false) →
         t.works.tx =
           { s1.works.tx with
             urgent := s1.works.tx.urgent ++
               [OutMsg.cue { server := r.server, port := r.port, tag := u.tag, body := .cancel }] }.pick s.cfg)) ∧
  (∀ (s s1 : State) (l : Lane) (m : RxMsg) (p : Peer) (d : Directive) (i : Fin 4) (c : Chan) (x y : Context)
     (ev : CurEvent) (r : PortRec) (kind : JoinKind) (taken : Notice) (aborted : List Notice),
     s.Passes l m p d i c → s1 = s.heard l p m → x = s1.works.at c → x.cur = some ev → x.active = .primary →
     x.prim = some r → x.mirror.other = .absent → x.waitReq = none →
     (∀ j ∈ s1.works.join.queue, j.chan = c → j.atSwitch = false) →
     (∀ f, s1.works.join.flight = some f → f.req.chan = c → f.req.atSwitch = false) →
     s1.works.tx.urgent.length + s1.works.tx.flying .urgent < 16 →
     ((d.kind = .resume ∧ kind = .resume ∧ ev.held = true) ∨
       (d.kind = .skip ∧ kind = .skip ∧
         (ev.place = .filler ∨ ev.place = .beforeZero ∧ x.mirror.live ≠ [] ∨
           ∃ k, ev.place = .at k ∧ k + 1 < x.mirror.live.length))) →
     taken = { kind := .directiveTaken, chan := some c, frame := s1.clk.count
               param := paramBytes m.sender.toNat d.number.toNat d.kind.code 0 } →
     (x.state = .onAir ∧ x.handback = .absent ∧ y = x ∧ aborted = [] ∨
       x.state = .returning ∧ d.kind = .skip ∧
         (∃ h hPeer succ n,
           x.handback = .agreed .set h hPeer succ n ∨ x.handback = .agreed .postponing h hPeer succ n) ∧
         y = { x with state := .onAir, handback := .absent, dualSeen := false } ∧
         aborted = [{ kind := .handbackAborted, chan := some c, param := 4, frame := s1.clk.count }]) →
     ∃ t, exec (directiveCommand l d.kind) s = .next t ∧ s1.SameOutside t ∧ t.due = s1.due ∧
       s1.works.OthersKept c t.works ∧ t.works.store = s1.works.store ∧
       t.works.lastNumbers = s1.works.lastNumbers.set i (some d.number) ∧
       t.works.at c =
         { y with gen := x.gen + 1, prim := some { r with pending := none, withdrawn := none } } ∧
       t.works.Requested c kind (s1.clk.count + BitVec.ofNat 32 s.cfg.preroll)
         (some (s1.clk.count + BitVec.ofNat 32 s.cfg.preroll)) (x.gen + 1) ∧
       t.works.notices.ring = (taken :: aborted ++ s1.works.notices.ring).take 32 ∧
       t.works.notices.count = s1.works.notices.count + 1 + BitVec.ofNat 16 aborted.length ∧
       (r.pending = none → t.works.tx = s1.works.tx) ∧
       (∀ u, r.pending = some u → (∀ q ∈ s1.works.tx.urgent, q.isCueTo r.server r.port = false) →
         t.works.tx =
           { s1.works.tx with
             urgent := s1.works.tx.urgent ++
               [OutMsg.cue { server := r.server, port := r.port, tag := u.tag, body := .cancel }] }.pick s.cfg))

/-- R102, R103, R83: a RETRY in FAULT enters MIRRORING when the main-origin tally is fresh, and otherwise makes the
loss decision. A CLEAR CHANNEL off air enters MIRRORING with the values of R103, an empty claim table and, with no
join in flight on the channel, a cleared mirror. -/
def Obligations.RetryAndClearAreTaken : Prop :=
  ∀ (s s1 : State) (l : Lane) (m : RxMsg) (p : Peer) (d : Directive) (i : Fin 4) (c : Chan) (x : Context),
    s.Passes l m p d i c → s1 = s.heard l p m → x = s1.works.at c →
    (d.kind = .retry → x.state = .fault →
      ∃ t, exec (.retry l) s = .next t ∧ s1.SameOutside t ∧ s1.works.OthersKept c t.works ∧
        t.works.tx = s1.works.tx ∧ t.works.join = s1.works.join ∧ t.works.store = s1.works.store ∧
        t.works.lastNumbers = s1.works.lastNumbers.set i (some d.number) ∧
        t.works.Newest .directiveTaken (some c) (paramBytes m.sender.toNat d.number.toNat 8 0) s1.clk.count ∧
        (x.seen = true → x.age.toNat < s.cfg.suspectFrames → t.works.at c = { x with state := .mirroring }) ∧
        (x.seen = false ∨ s.cfg.suspectFrames ≤ x.age.toNat →
          (x.armed = false ∨ s.isolated = true ∨ x.mirror.live = [] ∨ x.mirror.status = .mismatch →
            t.works.at c = { x with state := .lost }) ∧
          (x.armed = true → s.isolated = false → x.mirror.live ≠ [] → x.mirror.status ≠ .mismatch →
            ((∃ r ∈ x.table, r.kind = .hold) → t.works.at c = { x with state := .yielded }) ∧
            ((∀ r ∈ x.table, r.kind = .bid) →
              t.works.at c =
                { x with state := .bidding, release := 0, bidCount := 0, bidNew := false
                         prec := s.cfg.map[c].prec })))) ∧
    (d.kind = .clearChannel → x.state ∈ [.mirroring, .suspect, .lost, .yielded, .fault] →
      (∀ f, s1.works.join.flight = some f → f.req.chan ≠ c) →
      ∃ t, exec (.clearChannel l) s = .next t ∧ s1.SameOutside t ∧ s1.works.OthersKept c t.works ∧
        t.works.tx = s1.works.tx ∧ t.works.join = s1.works.join ∧ t.works.store = s1.works.store ∧
        t.works.lastNumbers = s1.works.lastNumbers.set i (some d.number) ∧
        s1.works.OneNotice t.works .directiveTaken (some c)
          (paramBytes m.sender.toNat d.number.toNat 9 0) s1.clk.count ∧
        t.works.at c =
          { x with
            state := .mirroring, armed := s.cfg.map[c].armed, tally := none, standbyStamp := none, seen := false
            age := 255, prec := s.cfg.map[c].prec, active := .primary, dualSeen := false, table := []
            poolShort := false
            mirror := { live := [], liveRev := none, digest := 0xFFFF, other := .absent, reference := none
                        status := .empty, rejected := none, short := none, rebuilt := none
                        clearWaits := false } })

/-- R46: RETIME clears the loaded and load-pending flags and sets the last slip to 0; the count and the phase go on;
it is refused WRONG_STATE while any channel is engaged. The next mark taken then sets a load pending by R42, and the
boundary makes that load only while no channel is engaged (R43), and otherwise lets it wait. -/
def Obligations.RetimeIsTaken : Prop :=
  ∀ (s s1 : State) (l : Lane) (m : RxMsg) (p : Peer) (d : Directive) (i : Fin 4), s.Directs l m p d →
    s1 = s.heard l p m → d.kind = .retime → Config.controlOf s.cfg m.sender.toNat = some i →
    s.works.lastNumbers[i] ≠ some d.number → ControlEntry.permits s.cfg.control[i] .retime = true →
    ((∀ c, (s.works.at c).state ∉ [.bidding, .cueing, .onAir, .returning]) →
      ∃ t, exec (.retime l) s = .next t ∧
        t = { s1 with clk := { s1.clk with loaded := false, loadPending := false, lastSlip := 0 }
                      works := { s1.works with lastNumbers := s1.works.lastNumbers.set i (some d.number)
                                               notices := t.works.notices } } ∧
        t.clk.phase = s1.clk.phase ∧
        s1.works.OneNotice t.works .directiveTaken none
          (paramBytes m.sender.toNat d.number.toNat 10 0) s1.clk.count ∧
        ∀ (k : Lane) (m2 : RxMsg) (q : Peer) (mark : Frame), t.Accepts k m2 q → m2.kind = .timeMark →
          readTimeMark m2.payload = some mark → s.cfg.timeStation ≠ 0 → m2.sender.toNat = s.cfg.timeStation →
          ∃ u, exec (.receiveTimeMark k) t = .next u ∧
            u.clk = { t.clk with loadPending := true, pendingValue := mark + 1 } ∧
            ∀ v : State, v.clk = u.clk →
              ((∃ c, (v.works.at c).state ∈ [.bidding, .cueing, .onAir, .returning]) →
                runWork .timebase v = { v with clk := { v.clk with pendingValue := mark + 2 } }) ∧
              ((∀ c, (v.works.at c).state ∉ [.bidding, .cueing, .onAir, .returning]) →
                (runWork .timebase v).clk.count = mark + 1 ∧ (runWork .timebase v).clk.loaded = true)) ∧
    (∀ c, (s.works.at c).state ∈ [.bidding, .cueing, .onAir, .returning] →
      exec (.retime l) s =
        .next (s1.onWorks fun w => w.notice s1.env .directiveRefused none
          (paramBytes m.sender.toNat d.number.toNat 10 3)))

/-- R180 to R182, R191, R25, R51: at the boundary at which the period count reaches report_period a REPORT of 160
bytes is built from the state as it stands and placed: half 0 or 1 by the next half, which then changes; in
CONFIG_FAULT always half 0, and it does not. A full ROUTINE queue loses its oldest unsent REPORT, which is counted.
Half 0 holds every group of the station section at its offset, channel sections 0 to 7 and fill of 0; half 1 channel
sections 8 to 15, the newest four notices, the notice count, the last directive numbers with their marks, and fill of
0. (The bytes of an absent item are not spoken of: they are free, log 9.) -/
def Obligations.ReportIsBuilt : Prop :=
  ∀ (s : State) (half : Nat) (payload : List Byte), s.works.nextHalf ≤ 1 →
    half = (match s.load with | .fault _ => 0 | _ => s.works.nextHalf) → payload = s.nextReport →
    (s.Outstanding .report → s.cfg.reportPeriod ≤ s.works.reportCount + 1 →
      ∃ t, exec .reportBuild s = .next t ∧ s.SameOutside t ∧ t.due = s.due.erase .report ∧
        t.works = { s.works with tx := t.works.tx, reportCount := 0, nextHalf := t.works.nextHalf } ∧
        t.works.nextHalf = (match s.load with | .fault _ => s.works.nextHalf | _ => 1 - s.works.nextHalf) ∧
        (s.works.tx.routine.length + s.works.tx.flying .routine < 4 →
          t.works.tx = { s.works.tx with routine := s.works.tx.routine ++ [OutMsg.report payload] }.pick s.cfg) ∧
        (4 ≤ s.works.tx.routine.length + s.works.tx.flying .routine →
          t.works.tx =
            { s.works.tx with
              routine := s.works.tx.routine.tail ++ [OutMsg.report payload]
              routineDiscarded := bump s.works.tx.routineDiscarded }.pick s.cfg)) ∧
    payload.length = 160 ∧ payload.head? = some (BitVec.ofNat 8 half) ∧
    (half = 0 →
      fieldAt payload 1 1 =
        s.isolated.toNat + 2 * s.clk.refLost.toNat + 4 * s.clk.loaded.toNat + 8 * s.clk.loadPending.toNat ∧
      (∀ n, s.load = .good n → fieldAt payload 2 1 = 1 ∧ fieldAt payload 3 1 = n % 256) ∧
      (∀ cause, s.load = .fault cause → fieldAt payload 2 1 = 2 ∧ fieldAt payload 3 1 = cause.code) ∧
      fieldAt payload 4 1 = s.laneA.state.code + 16 * s.laneB.state.code ∧
      (∀ (o : Nat) (l : LaneIf), (o, l) ∈ [(5, s.laneA), (17, s.laneB)] →
        fieldAt payload o 2 = l.checkError.toNat ∧ fieldAt payload (o + 2) 2 = l.truncated.toNat ∧
          fieldAt payload (o + 4) 2 = l.framingLost.toNat ∧ fieldAt payload (o + 6) 2 = l.overrun.toNat ∧
          fieldAt payload (o + 8) 2 = l.unknownKind.toNat ∧ fieldAt payload (o + 10) 2 = l.lengthError.toNat) ∧
      (∀ (o : Nat) (count : Half),
        (o, count) ∈
          [(29, s.disp.badSender), (31, s.disp.malformed), (33, s.disp.cueIgnored), (35, s.disp.notTargeted),
            (37, s.disp.foreignTally), (39, s.disp.foreignSegment), (41, s.clk.refGlitch), (43, s.clk.foreignMark),
            (52, s.works.tx.urgentDropped), (54, s.works.tx.routineDiscarded), (56, s.works.tx.bulkNotBuilt),
            (58, s.works.tx.busySkipA), (60, s.works.tx.busySkipB), (64, s.works.counters.segmentRange),
            (66, s.works.counters.tallySanity), (68, s.works.counters.tallyStale),
            (70, s.works.counters.claimRange), (72, s.works.counters.claimTableFull),
            (74, s.works.counters.foreignStatus), (76, s.works.counters.unknownController)] →
        fieldAt payload o 2 = count.toNat) ∧
      (∀ (o : Nat) (role : Roles → Bool),
        (o, role) ∈ [(45, Roles.origin), (46, Roles.recovery), (47, Roles.server), (48, Roles.control),
          (49, Roles.time)] →
        fieldAt payload o 1 =
          (s.peers.filter fun q =>
            q.present && decide (min q.heardA.toNat q.heardB.toNat < s.cfg.lossFrames) && role q.roles).length % 256) ∧
      fieldAt payload 50 2 = s.works.tx.account % 65536 ∧ fieldAt payload 62 2 = 4096 - s.works.usedSlots ∧
      (∀ c : Chan, c.val < 8 → SectionAt payload (78 + 5 * c.val) (s.works.at c)) ∧
      ∀ o, 118 ≤ o → o < 160 → payload[o]? = some 0) ∧
    (half = 1 →
      (∀ c : Chan, 8 ≤ c.val → SectionAt payload (5 * c.val - 39) (s.works.at c)) ∧
      (∀ i o, i < 4 → o = 41 + 10 * i →
        (∀ n, s.works.notices.ring[i]? = some n →
          fieldAt payload o 1 = n.kind.code ∧
            fieldAt payload (o + 1) 1 = (match n.chan with | some c => c.val | none => 255) ∧
            fieldAt payload (o + 2) 4 = n.param.toNat ∧ fieldAt payload (o + 6) 4 = n.frame.toNat) ∧
        (s.works.notices.ring[i]? = none → fieldAt payload o 1 = 0)) ∧
      fieldAt payload 81 2 = s.works.notices.count.toNat ∧
      (∀ (i : Fin 4) (n : Byte), s.works.lastNumbers[i] = some n → fieldAt payload (83 + i.val) 1 = n.toNat) ∧
      (∀ i : Fin 4, (fieldAt payload 87 1).testBit i.val = s.works.lastNumbers[i].isSome) ∧
      ∀ o, 88 ≤ o → o < 160 → payload[o]? = some 0)

/-! ## Walks and claims (07, 06) -/

/-- R126 to R128: the walk after an end, over any list and any FIXED starts, is a run of at least one span, which
follow one another from that end without a hole or an overlap; none is empty, the last is open and no other is, and
the events it airs are in list order. A FOLLOW event starts where the span before it ends, a FIXED one at its start or
late; each ends by R126, from its natural end and the start of a FIXED successor; a gap ends at a FIXED start. An
event that the walk passes over would have ended by R126 at or before its own air start, where the next span begins. -/
def Obligations.WalkTilesTheTime : Prop :=
  ∀ (fixedAt : EventRec → Int) (endAt : Int) (last : Ident) (events : List (Nat × EventRec)) (spans : List Span),
    spans = spansFrom fixedAt endAt last events →
    (∃ init z, spans = init ++ [z] ∧ z.stop = none) ∧ tiles endAt spans ∧
    (spans.filterMap fun x =>
      match x with
      | .event i r _ _ _ _ => some (i, r)
      | _ => none).Sublist events ∧
    (∀ i r sched air nat stop, Span.event i r sched air nat stop ∈ spans →
      ∃ before after, events = before ++ (i, r) :: after ∧ sched ≤ air ∧ (r.mode = .fixed → sched = fixedAt r) ∧
        (r.mode = .follow → sched = air) ∧ nat = r.length.map (sched + ·) ∧
        stop = spanEnd nat (nextFixed fixedAt after)) ∧
    (∀ start x, Span.gap start x ∈ spans →
      start < x ∧ ∃ i r, (i, r) ∈ events ∧ r.mode = .fixed ∧ x = fixedAt r) ∧
    ∀ before i r after, events.Nodup → events = before ++ (i, r) :: after →
      (∀ sched air nat stop, Span.event i r sched air nat stop ∉ spans) →
      ((∃ start id, Span.tail start id ∈ spans) ∨
        ∃ k q sched air nat stop, (k, q) ∈ after ∧ Span.event k q sched air nat stop ∈ spans) →
      ∃ e sched x z, (r.mode = .fixed → sched = fixedAt r) ∧ (r.mode = .follow → sched = e) ∧
        spanEnd (r.natEnd sched) (nextFixed fixedAt after) = some x ∧ x ≤ max e sched ∧ z ∈ spans ∧
        z.start = max e sched

/-- R105, R106 to R108: of two claims of different stations exactly one is better: a HOLD before a BID, then the lower
precedence, then the lower station; the order is transitive, and the best and the worst of a table are so against
every other station's entry. A BID or HOLD of a station without an entry that meets a full table removes the worst
entry when it is better than that one, a HOLD then being heard as any other, and is otherwise discarded and counted.
Every write keeps at most four entries, one for a station. -/
def Obligations.ClaimsAreRankedAndTheBestAreKept : Prop :=
  (∀ p1 s1 p2 s2, betterClaim .hold p1 s1 .bid p2 s2 = true) ∧
    (∀ k p1 s1 p2 s2, p1 < p2 → betterClaim k p1 s1 k p2 s2 = true) ∧
    (∀ k p s1 s2, s1 < s2 → betterClaim k p s1 k p s2 = true) ∧
    (∀ k1 p1 s1 k2 p2 s2, s1 ≠ s2 → betterClaim k1 p1 s1 k2 p2 s2 = !betterClaim k2 p2 s2 k1 p1 s1) ∧
    (∀ a b c : Rival, a.better b = true → b.better c = true → a.better c = true) ∧
    (∀ table b, bestRival table = some b → b ∈ table ∧ ∀ r ∈ table, r.station ≠ b.station → b.better r = true) ∧
    (∀ table b, worstRival table = some b → b ∈ table ∧ ∀ r ∈ table, r.station ≠ b.station → r.better b = true) ∧
  ∀ (e : Env) (c : Chan) (r worst : Rival) (w : Works) (table : List Rival), table = (w.at c).table →
    TableSound e.own table → r.station ≠ e.own →
    (∀ t, writeClaim r table = some t → TableSound e.own t ∧ r ∈ t) ∧
    (table.length = 4 → (∀ q ∈ table, q.station ≠ r.station) → worst ∈ table →
      (∀ q ∈ table, q.station ≠ worst.station → q.better worst = true) →
      (r.better worst = true →
        ∃ t, t.Perm (r :: table.erase worst) ∧
          (r.kind = .bid → w.writeRival e c r = w.mod c fun x => { x with table := t }) ∧
          (r.kind = .hold → w.writeRival e c r = (w.mod c fun x => { x with table := t }).holdHeard e c r)) ∧
      (r.better worst = false →
        w.writeRival e c r =
          { w with counters := { w.counters with claimTableFull := bump w.counters.claimTableFull } }))

/-! ## The whole part -/

/-- R1 to R5, R58, R190: what the part sends, a receiver reads back. A copy passes R4 and gives the sender, kind,
serial, stamp and payload it was built from; a CLAIM of one to eight entries decodes to them; and an event record that
was read gives back exactly the 16 bytes that arrived. CUE, AS-RUN and REPORT payloads, which no part decodes, are
shown to be well formed and of their length only (log 11): half 0 of a REPORT once the load has ended, half 1 when the
notices it carries have codes of their kinds. -/
def Obligations.SentMessagesAreReadBack : Prop :=
  (∀ (own : Nat) (serial : Byte) (stamp : Tick) (m : OutMsg), own < 256 → m.payload.length ≤ m.kind.largest →
      judgeReceived (copyBytes own serial stamp m) = .good (BitVec.ofNat 8 own) m.kind serial stamp m.payload) ∧
    (∀ entries : List ClaimEntry, 1 ≤ entries.length → entries.length ≤ 8 → (∀ x ∈ entries, x.prec < 256) →
      (OutMsg.claim entries).payload.length ≤ MsgKind.largest .claim ∧
        readClaim (OutMsg.claim entries).payload = some entries) ∧
    (∀ c : Cue, c.bytes.length ≤ MsgKind.largest .cue ∧ cueWellFormed c.bytes = true) ∧
    (∀ records : List AsRunRec, 1 ≤ records.length → records.length ≤ 4 →
      (OutMsg.asRun records).payload.length ≤ MsgKind.largest .asRun ∧
        asRunWellFormed (OutMsg.asRun records).payload = true) ∧
    (∀ s : State, (∃ n, s.load = .good n) ∨ (∃ cause, s.load = .fault cause) →
      s.reportHalf0.length = MsgKind.largest .report ∧ reportWellFormed s.reportHalf0 = true) ∧
    (∀ (w : Works) (now : Frame), (∀ n ∈ w.notices.ring.take 4, noticeWellFormed n.bytes 0 = true) →
      (w.reportHalf1 now).length = MsgKind.largest .report ∧ reportWellFormed (w.reportHalf1 now) = true) ∧
    ∀ (bs : List Byte) (r : EventRec), bs.length = 16 → readEvent bs = some r → r.bytes = bs

/-- The step takes the command at the front of the queue and runs it with the queue's rest. On an empty queue it
finishes the outstanding work of the last boundary; with none, a part in RESET or LOADING stays as it is, and a part
that works lets one crystal period pass, or, when one and a half measured periods in LOCKED (R38) or the rest of the
measured period in FREE_RUN (R39) are complete, makes the monitor's own event. (The queue and the idle step are the
model's: logs 2, 3, 4.) -/
def Obligations.StepRunsTheFrontCommand : Prop :=
  (∀ (i : Instr) (s : State) (rest : List Instr),
    step { s with pending := i :: rest } = exec i { s with pending := rest }) ∧
  ∀ s : State, s.pending = [] →
    (s.due ≠ [] → step s = .next { runAll s.due s with due := [] }) ∧
    (s.due = [] → s.running = false → step s = .next s) ∧
    (s.Ready → s.clk.monitor = .locked →
      (2 * (s.clk.elapsed + 1) < 3 * s.clk.period →
        step s = .next { s with clk := { s.clk with elapsed := s.clk.elapsed + 1 } }) ∧
      (3 * s.clk.period ≤ 2 * (s.clk.elapsed + 1) → step s = exec (.refLost []) s)) ∧
    (s.Ready → s.clk.monitor = .freeRun →
      (1024 * (s.clk.elapsed + 1) < (1024 - s.clk.base) * s.clk.period →
        step s = .next { s with clk := { s.clk with elapsed := s.clk.elapsed + 1 } }) ∧
      ((1024 - s.clk.base) * s.clk.period ≤ 1024 * (s.clk.elapsed + 1) →
        step s = exec (.freeRunBoundary []) s))

/-- Every command completes in every state, no command touches the queue, and a part in RESET or LOADING is deaf: the
receivers are held, REF pulses are not taken and no message is placed (R184; the queue is the model's: logs 4, 33). -/
def Obligations.EveryCommandCompletes : Prop :=
  (∀ (i : Instr) (s : State), ∃ t, exec i s = .next t ∧ t.pending = s.pending) ∧
    ∀ (i : Instr) (s : State), s.load = .reset ∨ s.load = .loading → s.due = [] → i ≠ .resetAssert → i ≠ .noMemory →
      (∀ n, i ≠ .resetRelease n) → (∀ image, i ≠ .configurationLoad image) → exec i s = .next s

/-- The invariants hold right after reset. -/
def Obligations.ResetMeetsTheInvariants : Prop :=
  State.reset.Sound ∧ State.reset.TablesSound ∧ State.reset.Stocked ∧ State.reset.Pooled

/-- R7, R56, R37, R36: every step keeps the receive queues within eight entries, every valid estimate within its
bounds, the measured period above 0 and the phase at which a frame begins at or below 512. -/
def Obligations.EveryStepKeepsSound : Prop :=
  ∀ s t : State, s.Sound → step s = .next t → t.Sound

/-- R106: every step keeps the claim tables: at most four entries, one for a station, never the part's own, and empty
until the load has ended. -/
def Obligations.EveryStepKeepsTables : Prop :=
  ∀ s t : State, s.TablesSound → step s = .next t → t.TablesSound

/-- R22, R31, R139, R160, R179, R180: every step keeps the account between 0 and clip, the transmit queues, the notice
ring and the as-run ring within their capacities, the write position in the ring, the cue tag from being 0, and the next
half of a REPORT at 0 or 1. -/
def Obligations.EveryStepKeepsStocks : Prop :=
  ∀ s t : State, s.Stocked → step s = .next t → t.Stocked

/-- R60: every step keeps the lists of all channels within the 4096 slots of the event pool. -/
def Obligations.EveryStepKeepsThePool : Prop :=
  ∀ s t : State, s.Pooled → step s = .next t → t.Pooled

end
end

