-- ==== Sys2Proof/Laws/State.lean ====
section
/-! SUPPORT. The small lemmas of the state updates: what each one writes and what it leaves, so that no later proof
unfolds a record update. -/

namespace Sys2Proof.Machine

/-! ## Updates of the whole state -/

@[simp] theorem State.onWorks_load (s : State) (f : Works → Works) : (s.onWorks f).load = s.load := rfl
@[simp] theorem State.onWorks_own (s : State) (f : Works → Works) : (s.onWorks f).own = s.own := rfl
@[simp] theorem State.onWorks_cfg (s : State) (f : Works → Works) : (s.onWorks f).cfg = s.cfg := rfl
@[simp] theorem State.onWorks_clk (s : State) (f : Works → Works) : (s.onWorks f).clk = s.clk := rfl
@[simp] theorem State.onWorks_laneA (s : State) (f : Works → Works) : (s.onWorks f).laneA = s.laneA := rfl
@[simp] theorem State.onWorks_laneB (s : State) (f : Works → Works) : (s.onWorks f).laneB = s.laneB := rfl
@[simp] theorem State.onWorks_isolated (s : State) (f : Works → Works) : (s.onWorks f).isolated = s.isolated := rfl
@[simp] theorem State.onWorks_disp (s : State) (f : Works → Works) : (s.onWorks f).disp = s.disp := rfl
@[simp] theorem State.onWorks_peers (s : State) (f : Works → Works) : (s.onWorks f).peers = s.peers := rfl
@[simp] theorem State.onWorks_works (s : State) (f : Works → Works) : (s.onWorks f).works = f s.works := rfl
@[simp] theorem State.onWorks_due (s : State) (f : Works → Works) : (s.onWorks f).due = s.due := rfl
@[simp] theorem State.onWorks_pending (s : State) (f : Works → Works) : (s.onWorks f).pending = s.pending := rfl

@[simp] theorem State.withClk_load (s : State) (t : Timebase) : (s.withClk t).load = s.load := rfl
@[simp] theorem State.withClk_own (s : State) (t : Timebase) : (s.withClk t).own = s.own := rfl
@[simp] theorem State.withClk_cfg (s : State) (t : Timebase) : (s.withClk t).cfg = s.cfg := rfl
@[simp] theorem State.withClk_clk (s : State) (t : Timebase) : (s.withClk t).clk = t := rfl
@[simp] theorem State.withClk_laneA (s : State) (t : Timebase) : (s.withClk t).laneA = s.laneA := rfl
@[simp] theorem State.withClk_laneB (s : State) (t : Timebase) : (s.withClk t).laneB = s.laneB := rfl
@[simp] theorem State.withClk_isolated (s : State) (t : Timebase) : (s.withClk t).isolated = s.isolated := rfl
@[simp] theorem State.withClk_disp (s : State) (t : Timebase) : (s.withClk t).disp = s.disp := rfl
@[simp] theorem State.withClk_peers (s : State) (t : Timebase) : (s.withClk t).peers = s.peers := rfl
@[simp] theorem State.withClk_works (s : State) (t : Timebase) : (s.withClk t).works = s.works := rfl
@[simp] theorem State.withClk_due (s : State) (t : Timebase) : (s.withClk t).due = s.due := rfl
@[simp] theorem State.withClk_pending (s : State) (t : Timebase) : (s.withClk t).pending = s.pending := rfl

@[simp] theorem State.dispatch_load (s : State) (f : Dispatcher → Dispatcher) : (s.dispatch f).load = s.load := rfl
@[simp] theorem State.dispatch_own (s : State) (f : Dispatcher → Dispatcher) : (s.dispatch f).own = s.own := rfl
@[simp] theorem State.dispatch_cfg (s : State) (f : Dispatcher → Dispatcher) : (s.dispatch f).cfg = s.cfg := rfl
@[simp] theorem State.dispatch_clk (s : State) (f : Dispatcher → Dispatcher) : (s.dispatch f).clk = s.clk := rfl
@[simp] theorem State.dispatch_laneA (s : State) (f : Dispatcher → Dispatcher) : (s.dispatch f).laneA = s.laneA := rfl
@[simp] theorem State.dispatch_laneB (s : State) (f : Dispatcher → Dispatcher) : (s.dispatch f).laneB = s.laneB := rfl
@[simp] theorem State.dispatch_isolated (s : State) (f : Dispatcher → Dispatcher) : (s.dispatch f).isolated = s.isolated := rfl
@[simp] theorem State.dispatch_disp (s : State) (f : Dispatcher → Dispatcher) : (s.dispatch f).disp = f s.disp := rfl
@[simp] theorem State.dispatch_peers (s : State) (f : Dispatcher → Dispatcher) : (s.dispatch f).peers = s.peers := rfl
@[simp] theorem State.dispatch_works (s : State) (f : Dispatcher → Dispatcher) : (s.dispatch f).works = s.works := rfl
@[simp] theorem State.dispatch_due (s : State) (f : Dispatcher → Dispatcher) : (s.dispatch f).due = s.due := rfl
@[simp] theorem State.dispatch_pending (s : State) (f : Dispatcher → Dispatcher) : (s.dispatch f).pending = s.pending := rfl

@[simp] theorem State.hand_load (s : State) (f : Env → Works → Works) : (s.hand f).load = s.load := rfl
@[simp] theorem State.hand_own (s : State) (f : Env → Works → Works) : (s.hand f).own = s.own := rfl
@[simp] theorem State.hand_cfg (s : State) (f : Env → Works → Works) : (s.hand f).cfg = s.cfg := rfl
@[simp] theorem State.hand_clk (s : State) (f : Env → Works → Works) : (s.hand f).clk = s.clk := rfl
@[simp] theorem State.hand_laneA (s : State) (f : Env → Works → Works) : (s.hand f).laneA = s.laneA := rfl
@[simp] theorem State.hand_laneB (s : State) (f : Env → Works → Works) : (s.hand f).laneB = s.laneB := rfl
@[simp] theorem State.hand_isolated (s : State) (f : Env → Works → Works) : (s.hand f).isolated = s.isolated := rfl
@[simp] theorem State.hand_disp (s : State) (f : Env → Works → Works) : (s.hand f).disp = s.disp := rfl
@[simp] theorem State.hand_peers (s : State) (f : Env → Works → Works) : (s.hand f).peers = s.peers := rfl
@[simp] theorem State.hand_works (s : State) (f : Env → Works → Works) : (s.hand f).works = f s.env s.works := rfl
@[simp] theorem State.hand_due (s : State) (f : Env → Works → Works) : (s.hand f).due = s.due := rfl
@[simp] theorem State.hand_pending (s : State) (f : Env → Works → Works) : (s.hand f).pending = s.pending := rfl

@[simp] theorem State.atWorks_load (s : State) (f : Env → Works → Works) : (s.atWorks f).load = s.load := rfl
@[simp] theorem State.atWorks_own (s : State) (f : Env → Works → Works) : (s.atWorks f).own = s.own := rfl
@[simp] theorem State.atWorks_cfg (s : State) (f : Env → Works → Works) : (s.atWorks f).cfg = s.cfg := rfl
@[simp] theorem State.atWorks_clk (s : State) (f : Env → Works → Works) : (s.atWorks f).clk = s.clk := rfl
@[simp] theorem State.atWorks_laneA (s : State) (f : Env → Works → Works) : (s.atWorks f).laneA = s.laneA := rfl
@[simp] theorem State.atWorks_laneB (s : State) (f : Env → Works → Works) : (s.atWorks f).laneB = s.laneB := rfl
@[simp] theorem State.atWorks_isolated (s : State) (f : Env → Works → Works) : (s.atWorks f).isolated = s.isolated := rfl
@[simp] theorem State.atWorks_disp (s : State) (f : Env → Works → Works) : (s.atWorks f).disp = s.disp := rfl
@[simp] theorem State.atWorks_peers (s : State) (f : Env → Works → Works) : (s.atWorks f).peers = s.peers := rfl
@[simp] theorem State.atWorks_works (s : State) (f : Env → Works → Works) : (s.atWorks f).works = f s.boundaryEnv s.works := rfl
@[simp] theorem State.atWorks_due (s : State) (f : Env → Works → Works) : (s.atWorks f).due = s.due := rfl
@[simp] theorem State.atWorks_pending (s : State) (f : Env → Works → Works) : (s.atWorks f).pending = s.pending := rfl

@[simp] theorem State.pass_load (s : State) (dt : Nat) : (s.pass dt).load = s.load := rfl
@[simp] theorem State.pass_own (s : State) (dt : Nat) : (s.pass dt).own = s.own := rfl
@[simp] theorem State.pass_cfg (s : State) (dt : Nat) : (s.pass dt).cfg = s.cfg := rfl
@[simp] theorem State.pass_clk (s : State) (dt : Nat) : (s.pass dt).clk = s.clk.advance dt := rfl
@[simp] theorem State.pass_laneA (s : State) (dt : Nat) : (s.pass dt).laneA = s.laneA := rfl
@[simp] theorem State.pass_laneB (s : State) (dt : Nat) : (s.pass dt).laneB = s.laneB := rfl
@[simp] theorem State.pass_isolated (s : State) (dt : Nat) : (s.pass dt).isolated = s.isolated := rfl
@[simp] theorem State.pass_disp (s : State) (dt : Nat) : (s.pass dt).disp = s.disp := rfl
@[simp] theorem State.pass_peers (s : State) (dt : Nat) : (s.pass dt).peers = s.peers := rfl
@[simp] theorem State.pass_works (s : State) (dt : Nat) : (s.pass dt).works = s.works := rfl
@[simp] theorem State.pass_due (s : State) (dt : Nat) : (s.pass dt).due = s.due := rfl
@[simp] theorem State.pass_pending (s : State) (dt : Nat) : (s.pass dt).pending = s.pending := rfl

@[simp] theorem State.settle_due (s : State) : s.settle.due = [] := rfl

/-! ## Lanes -/

@[simp] theorem State.modLane_load (s : State) (l : Lane) (f : LaneIf → LaneIf) : (s.modLane l f).load = s.load := by
  cases l <;> rfl
@[simp] theorem State.modLane_own (s : State) (l : Lane) (f : LaneIf → LaneIf) : (s.modLane l f).own = s.own := by
  cases l <;> rfl
@[simp] theorem State.modLane_cfg (s : State) (l : Lane) (f : LaneIf → LaneIf) : (s.modLane l f).cfg = s.cfg := by
  cases l <;> rfl
@[simp] theorem State.modLane_clk (s : State) (l : Lane) (f : LaneIf → LaneIf) : (s.modLane l f).clk = s.clk := by
  cases l <;> rfl
@[simp] theorem State.modLane_isolated (s : State) (l : Lane) (f : LaneIf → LaneIf) : (s.modLane l f).isolated = s.isolated := by
  cases l <;> rfl
@[simp] theorem State.modLane_disp (s : State) (l : Lane) (f : LaneIf → LaneIf) : (s.modLane l f).disp = s.disp := by
  cases l <;> rfl
@[simp] theorem State.modLane_peers (s : State) (l : Lane) (f : LaneIf → LaneIf) : (s.modLane l f).peers = s.peers := by
  cases l <;> rfl
@[simp] theorem State.modLane_works (s : State) (l : Lane) (f : LaneIf → LaneIf) : (s.modLane l f).works = s.works := by
  cases l <;> rfl
@[simp] theorem State.modLane_due (s : State) (l : Lane) (f : LaneIf → LaneIf) : (s.modLane l f).due = s.due := by
  cases l <;> rfl
@[simp] theorem State.modLane_pending (s : State) (l : Lane) (f : LaneIf → LaneIf) : (s.modLane l f).pending = s.pending := by
  cases l <;> rfl

@[simp] theorem State.modLane_lane (s : State) (l : Lane) (f : LaneIf → LaneIf) : (s.modLane l f).lane l = f (s.lane l) := by
  cases l <;> rfl

theorem State.modLane_lane_other (s : State) {l k : Lane} (f : LaneIf → LaneIf) (h : k ≠ l) :
    (s.modLane l f).lane k = s.lane k := by
  cases l <;> cases k <;> first | rfl | exact absurd rfl h

@[simp] theorem State.onWorks_lane (s : State) (f : Works → Works) (l : Lane) : (s.onWorks f).lane l = s.lane l := by
  cases l <;> rfl

@[simp] theorem State.dispatch_lane (s : State) (f : Dispatcher → Dispatcher) (l : Lane) :
    (s.dispatch f).lane l = s.lane l := by
  cases l <;> rfl

@[simp] theorem State.withClk_lane (s : State) (t : Timebase) (l : Lane) : (s.withClk t).lane l = s.lane l := by
  cases l <;> rfl

@[simp] theorem State.pass_lane (s : State) (dt : Nat) (l : Lane) : (s.pass dt).lane l = s.lane l := by
  cases l <;> rfl

@[simp] theorem State.hand_lane (s : State) (f : Env → Works → Works) (l : Lane) : (s.hand f).lane l = s.lane l := by
  cases l <;> rfl

/-! ## The environment -/

@[simp] theorem State.env_cfg (s : State) : s.env.cfg = s.cfg := rfl
@[simp] theorem State.boundaryEnv_cfg (s : State) : s.boundaryEnv.cfg = s.cfg := rfl
@[simp] theorem State.env_own (s : State) : s.env.own = s.own := rfl
@[simp] theorem State.boundaryEnv_own (s : State) : s.boundaryEnv.own = s.own := rfl
@[simp] theorem State.env_now (s : State) : s.env.now = s.clk.count := rfl
@[simp] theorem State.boundaryEnv_now (s : State) : s.boundaryEnv.now = s.clk.count := rfl
@[simp] theorem State.env_isolated (s : State) : s.env.isolated = s.isolated := rfl
@[simp] theorem State.boundaryEnv_isolated (s : State) : s.boundaryEnv.isolated = s.isolated := rfl
@[simp] theorem State.env_peers (s : State) : s.env.peers = s.peers := rfl
@[simp] theorem State.boundaryEnv_peers (s : State) : s.boundaryEnv.peers = s.peers := rfl
@[simp] theorem State.env_handover (s : State) : s.env.handover = false := rfl
@[simp] theorem State.boundaryEnv_handover (s : State) : s.boundaryEnv.handover = false := rfl
@[simp] theorem State.env_boundary (s : State) : s.env.boundary = false := rfl
@[simp] theorem State.boundaryEnv_boundary (s : State) : s.boundaryEnv.boundary = true := rfl
@[simp] theorem State.onWorks_env (s : State) (f : Works → Works) : (s.onWorks f).env = s.env := rfl
@[simp] theorem State.onWorks_boundaryEnv (s : State) (f : Works → Works) : (s.onWorks f).boundaryEnv = s.boundaryEnv := rfl
@[simp] theorem State.dispatch_env (s : State) (f : Dispatcher → Dispatcher) : (s.dispatch f).env = s.env := rfl
@[simp] theorem State.onWorks_running (s : State) (f : Works → Works) : (s.onWorks f).running = s.running := rfl
@[simp] theorem State.dispatch_running (s : State) (f : Dispatcher → Dispatcher) : (s.dispatch f).running = s.running := rfl
@[simp] theorem State.withClk_running (s : State) (t : Timebase) : (s.withClk t).running = s.running := rfl

/-! ## The blocks behind the dispatcher -/

@[simp] theorem Works.notice_ctx (w : Works) (e : Env) (k : NoticeKind) (c : Option Chan) (n : BitVec 32) :
    (w.notice e k c n).ctx = w.ctx := rfl
@[simp] theorem Works.notice_join (w : Works) (e : Env) (k : NoticeKind) (c : Option Chan) (n : BitVec 32) :
    (w.notice e k c n).join = w.join := rfl
@[simp] theorem Works.notice_tx (w : Works) (e : Env) (k : NoticeKind) (c : Option Chan) (n : BitVec 32) :
    (w.notice e k c n).tx = w.tx := rfl
@[simp] theorem Works.notice_store (w : Works) (e : Env) (k : NoticeKind) (c : Option Chan) (n : BitVec 32) :
    (w.notice e k c n).store = w.store := rfl
@[simp] theorem Works.notice_tag (w : Works) (e : Env) (k : NoticeKind) (c : Option Chan) (n : BitVec 32) :
    (w.notice e k c n).tag = w.tag := rfl
@[simp] theorem Works.notice_counters (w : Works) (e : Env) (k : NoticeKind) (c : Option Chan) (n : BitVec 32) :
    (w.notice e k c n).counters = w.counters := rfl
@[simp] theorem Works.notice_lastNumbers (w : Works) (e : Env) (k : NoticeKind) (c : Option Chan) (n : BitVec 32) :
    (w.notice e k c n).lastNumbers = w.lastNumbers := rfl
@[simp] theorem Works.notice_reportCount (w : Works) (e : Env) (k : NoticeKind) (c : Option Chan) (n : BitVec 32) :
    (w.notice e k c n).reportCount = w.reportCount := rfl
@[simp] theorem Works.notice_nextHalf (w : Works) (e : Env) (k : NoticeKind) (c : Option Chan) (n : BitVec 32) :
    (w.notice e k c n).nextHalf = w.nextHalf := rfl

@[simp] theorem Works.notice_ring (w : Works) (e : Env) (k : NoticeKind) (c : Option Chan) (n : BitVec 32) :
    (w.notice e k c n).notices.ring =
      ({ kind := k, chan := c, param := n, frame := e.now } :: w.notices.ring).take 32 := rfl

@[simp] theorem Works.notice_count (w : Works) (e : Env) (k : NoticeKind) (c : Option Chan) (n : BitVec 32) :
    (w.notice e k c n).notices.count = w.notices.count + 1 := rfl

@[simp] theorem Works.notice_at (w : Works) (e : Env) (k : NoticeKind) (c : Option Chan) (n : BitVec 32) (d : Chan) :
    (w.notice e k c n).at d = w.at d := rfl

@[simp] theorem Works.mod_join (w : Works) (c : Chan) (f : Context → Context) :
    (w.mod c f).join = w.join := rfl
@[simp] theorem Works.mod_tx (w : Works) (c : Chan) (f : Context → Context) :
    (w.mod c f).tx = w.tx := rfl
@[simp] theorem Works.mod_store (w : Works) (c : Chan) (f : Context → Context) :
    (w.mod c f).store = w.store := rfl
@[simp] theorem Works.mod_notices (w : Works) (c : Chan) (f : Context → Context) :
    (w.mod c f).notices = w.notices := rfl
@[simp] theorem Works.mod_tag (w : Works) (c : Chan) (f : Context → Context) :
    (w.mod c f).tag = w.tag := rfl
@[simp] theorem Works.mod_counters (w : Works) (c : Chan) (f : Context → Context) :
    (w.mod c f).counters = w.counters := rfl
@[simp] theorem Works.mod_lastNumbers (w : Works) (c : Chan) (f : Context → Context) :
    (w.mod c f).lastNumbers = w.lastNumbers := rfl
@[simp] theorem Works.mod_reportCount (w : Works) (c : Chan) (f : Context → Context) :
    (w.mod c f).reportCount = w.reportCount := rfl
@[simp] theorem Works.mod_nextHalf (w : Works) (c : Chan) (f : Context → Context) :
    (w.mod c f).nextHalf = w.nextHalf := rfl

@[simp] theorem Works.mod_at (w : Works) (c : Chan) (f : Context → Context) : (w.mod c f).at c = f (w.at c) := by
  simp [Works.mod, Works.at]

theorem Works.mod_at_other (w : Works) {c d : Chan} (f : Context → Context) (h : d ≠ c) :
    (w.mod c f).at d = w.at d := by
  have : c.val ≠ d.val := fun x => h (Fin.ext x.symm)
  simp [Works.mod, Works.at, this]

theorem Works.mod_at_eq (w : Works) (c d : Chan) (f : Context → Context) :
    (w.mod c f).at d = if d = c then f (w.at c) else w.at d := by
  by_cases h : d = c
  · subst h; simp
  · simp [h, Works.mod_at_other w f h]

@[simp] theorem Works.moveTo_join (w : Works) (c : Chan) (st : ChState) :
    (w.moveTo c st).join = w.join := rfl
@[simp] theorem Works.moveTo_tx (w : Works) (c : Chan) (st : ChState) :
    (w.moveTo c st).tx = w.tx := rfl
@[simp] theorem Works.moveTo_store (w : Works) (c : Chan) (st : ChState) :
    (w.moveTo c st).store = w.store := rfl
@[simp] theorem Works.moveTo_notices (w : Works) (c : Chan) (st : ChState) :
    (w.moveTo c st).notices = w.notices := rfl
@[simp] theorem Works.moveTo_tag (w : Works) (c : Chan) (st : ChState) :
    (w.moveTo c st).tag = w.tag := rfl
@[simp] theorem Works.moveTo_counters (w : Works) (c : Chan) (st : ChState) :
    (w.moveTo c st).counters = w.counters := rfl
@[simp] theorem Works.moveTo_lastNumbers (w : Works) (c : Chan) (st : ChState) :
    (w.moveTo c st).lastNumbers = w.lastNumbers := rfl
@[simp] theorem Works.moveTo_reportCount (w : Works) (c : Chan) (st : ChState) :
    (w.moveTo c st).reportCount = w.reportCount := rfl
@[simp] theorem Works.moveTo_nextHalf (w : Works) (c : Chan) (st : ChState) :
    (w.moveTo c st).nextHalf = w.nextHalf := rfl

@[simp] theorem Works.moveTo_at (w : Works) (c : Chan) (st : ChState) :
    (w.moveTo c st).at c =
      { w.at c with
        state := st
        release :=
          if (w.at c).state.claiming && !st.claiming then 2
          else if !(w.at c).state.claiming && st.claiming then 0
          else (w.at c).release } := by
  simp [Works.moveTo]

theorem Works.moveTo_at_other (w : Works) {c d : Chan} (st : ChState) (h : d ≠ c) :
    (w.moveTo c st).at d = w.at d := Works.mod_at_other w _ h

@[simp] theorem Works.count_ctx (w : Works) (f : BlockCounters → BlockCounters) :
    (w.count f).ctx = w.ctx := rfl
@[simp] theorem Works.count_join (w : Works) (f : BlockCounters → BlockCounters) :
    (w.count f).join = w.join := rfl
@[simp] theorem Works.count_tx (w : Works) (f : BlockCounters → BlockCounters) :
    (w.count f).tx = w.tx := rfl
@[simp] theorem Works.count_store (w : Works) (f : BlockCounters → BlockCounters) :
    (w.count f).store = w.store := rfl
@[simp] theorem Works.count_notices (w : Works) (f : BlockCounters → BlockCounters) :
    (w.count f).notices = w.notices := rfl
@[simp] theorem Works.count_tag (w : Works) (f : BlockCounters → BlockCounters) :
    (w.count f).tag = w.tag := rfl
@[simp] theorem Works.count_lastNumbers (w : Works) (f : BlockCounters → BlockCounters) :
    (w.count f).lastNumbers = w.lastNumbers := rfl
@[simp] theorem Works.count_reportCount (w : Works) (f : BlockCounters → BlockCounters) :
    (w.count f).reportCount = w.reportCount := rfl
@[simp] theorem Works.count_nextHalf (w : Works) (f : BlockCounters → BlockCounters) :
    (w.count f).nextHalf = w.nextHalf := rfl

@[simp] theorem Works.count_counters (w : Works) (f : BlockCounters → BlockCounters) :
    (w.count f).counters = f w.counters := rfl

@[simp] theorem Works.count_at (w : Works) (f : BlockCounters → BlockCounters) (d : Chan) :
    (w.count f).at d = w.at d := rfl

@[simp] theorem Works.record_ctx (w : Works) (i : Fin 4) (n : Byte) :
    (w.record i n).ctx = w.ctx := rfl
@[simp] theorem Works.record_join (w : Works) (i : Fin 4) (n : Byte) :
    (w.record i n).join = w.join := rfl
@[simp] theorem Works.record_tx (w : Works) (i : Fin 4) (n : Byte) :
    (w.record i n).tx = w.tx := rfl
@[simp] theorem Works.record_store (w : Works) (i : Fin 4) (n : Byte) :
    (w.record i n).store = w.store := rfl
@[simp] theorem Works.record_notices (w : Works) (i : Fin 4) (n : Byte) :
    (w.record i n).notices = w.notices := rfl
@[simp] theorem Works.record_tag (w : Works) (i : Fin 4) (n : Byte) :
    (w.record i n).tag = w.tag := rfl
@[simp] theorem Works.record_counters (w : Works) (i : Fin 4) (n : Byte) :
    (w.record i n).counters = w.counters := rfl
@[simp] theorem Works.record_reportCount (w : Works) (i : Fin 4) (n : Byte) :
    (w.record i n).reportCount = w.reportCount := rfl
@[simp] theorem Works.record_nextHalf (w : Works) (i : Fin 4) (n : Byte) :
    (w.record i n).nextHalf = w.nextHalf := rfl

@[simp] theorem Works.record_at (w : Works) (i : Fin 4) (n : Byte) (d : Chan) : (w.record i n).at d = w.at d := rfl

@[simp] theorem Works.record_number (w : Works) (i : Fin 4) (n : Byte) : (w.record i n).lastNumbers[i] = some n := by
  simp [Works.record]

theorem Works.record_number_other (w : Works) {i j : Fin 4} (n : Byte) (h : j ≠ i) :
    (w.record i n).lastNumbers[j] = w.lastNumbers[j] := by
  have : i.val ≠ j.val := fun x => h (Fin.ext x.symm)
  simp [Works.record, this]

@[simp] theorem Works.modMirror_join (w : Works) (c : Chan) (f : Mirror → Mirror) :
    (w.modMirror c f).join = w.join := rfl
@[simp] theorem Works.modMirror_tx (w : Works) (c : Chan) (f : Mirror → Mirror) :
    (w.modMirror c f).tx = w.tx := rfl
@[simp] theorem Works.modMirror_store (w : Works) (c : Chan) (f : Mirror → Mirror) :
    (w.modMirror c f).store = w.store := rfl
@[simp] theorem Works.modMirror_notices (w : Works) (c : Chan) (f : Mirror → Mirror) :
    (w.modMirror c f).notices = w.notices := rfl
@[simp] theorem Works.modMirror_tag (w : Works) (c : Chan) (f : Mirror → Mirror) :
    (w.modMirror c f).tag = w.tag := rfl
@[simp] theorem Works.modMirror_counters (w : Works) (c : Chan) (f : Mirror → Mirror) :
    (w.modMirror c f).counters = w.counters := rfl
@[simp] theorem Works.modMirror_lastNumbers (w : Works) (c : Chan) (f : Mirror → Mirror) :
    (w.modMirror c f).lastNumbers = w.lastNumbers := rfl
@[simp] theorem Works.modMirror_reportCount (w : Works) (c : Chan) (f : Mirror → Mirror) :
    (w.modMirror c f).reportCount = w.reportCount := rfl
@[simp] theorem Works.modMirror_nextHalf (w : Works) (c : Chan) (f : Mirror → Mirror) :
    (w.modMirror c f).nextHalf = w.nextHalf := rfl

@[simp] theorem Works.modMirror_at (w : Works) (c : Chan) (f : Mirror → Mirror) :
    (w.modMirror c f).at c = { w.at c with mirror := f (w.at c).mirror } := by
  simp [Works.modMirror]

theorem Works.modMirror_at_other (w : Works) {c d : Chan} (f : Mirror → Mirror) (h : d ≠ c) :
    (w.modMirror c f).at d = w.at d := Works.mod_at_other w _ h

end Sys2Proof.Machine
end

