-- ==== Sys2Proof/Laws/Boundary.lean ====
section
/-! SUPPORT. What a command can do before its own effect: the settling of a boundary's outstanding work, the slices of
a boundary, and the outcomes of the dispatcher. -/

namespace Sys2Proof.Machine

/-! ## Settling and the slices of a boundary -/

@[simp] theorem runAll_nil (s : State) : runAll [] s = s := rfl

@[simp] theorem runAll_cons (k : Work) (ks : List Work) (s : State) :
    runAll (k :: ks) s = runAll ks (runWork k s) := rfl

/-- A property that every piece of work keeps is kept by a list of them. -/
theorem runAll_keeps {P : State → Prop} {ks : List Work} (h : ∀ k ∈ ks, ∀ s, P s → P (runWork k s)) (s : State)
    (hs : P s) : P (runAll ks s) := by
  induction ks generalizing s with
  | nil => exact hs
  | cons k ks ih => exact ih (fun j hj => h j (by simp [hj])) _ (h k (by simp) s hs)

/-- A component that every piece of work keeps is kept by a list of them. -/
theorem runAll_component {α : Type} (f : State → α) {ks : List Work} (h : ∀ k ∈ ks, ∀ s, f (runWork k s) = f s)
    (s : State) : f (runAll ks s) = f s :=
  runAll_keeps (P := fun t => f t = f s) (fun k hk t ht => (h k hk t).trans ht) s rfl

theorem State.settle_of_done {s : State} (h : s.due = []) : s.settle = s := by
  cases s; simp_all [State.settle]

theorem State.Ready.settle {s : State} (h : s.Ready) : s.settle = s := State.settle_of_done h.2

/-- A part that works and has no outstanding work takes the command at once. -/
theorem State.Ready.whenRunning {s : State} (h : s.Ready) (f : State → State) : s.whenRunning f = f s := by
  simp [State.whenRunning, h.1, h.settle]

/-- A part in RESET or LOADING is deaf (R184). -/
theorem State.whenRunning_deaf {s : State} (h : s.running = false) (f : State → State) : s.whenRunning f = s := by
  simp [State.whenRunning, h]

theorem State.Outstanding.prepare {s : State} {k : Work} (h : s.Outstanding k) : s.prepare k = s := by
  have hw : ∀ j ∈ s.due, waitsFor k j = false := h.2
  have h1 : s.due.filter (waitsFor k) = [] := by
    rw [List.filter_eq_nil_iff]; intro j hj; simp [hw j hj]
  have h2 : (s.due.filter fun j => !waitsFor k j) = s.due := by
    rw [List.filter_eq_self]; intro j hj; simp [hw j hj]
  rw [State.prepare, h1, h2]
  rfl

/-- An outstanding piece of work whose condition holds is done, and is then no longer outstanding. -/
theorem State.Outstanding.slice {s : State} {k : Work} (h : s.Outstanding k) {cond : State → Bool}
    (hc : cond s = true) : s.slice k cond = { runWork k s with due := s.due.erase k } := by
  have hk : s.due.contains k = true := by simpa using h.1
  simp only [State.slice, hk, h.prepare, hc, if_true]

/-- A piece of work that is not outstanding, or whose condition fails, is no event. -/
theorem State.slice_idle {s : State} {k : Work} {cond : State → Bool} (h : k ∉ s.due ∨ cond (s.prepare k) = false) :
    s.slice k cond = s := by
  rcases h with h | h <;> simp [State.slice, h]

/-! ## The dispatcher (R10 to R12) -/

theorem State.takeRx_empty {s : State} {l : Lane} (h : (s.lane l).queue = []) (names : RxMsg → Bool)
    (route : Nat → RxMsg → State → State) : s.takeRx l names route = s := by
  simp [State.takeRx, h]

theorem State.takeRx_badSender {s : State} {l : Lane} {m : RxMsg} {rest : List RxMsg}
    (hq : (s.lane l).queue = m :: rest) {names : RxMsg → Bool} (hn : names m = true)
    (hb : s.badSender m.sender.toNat = true) (route : Nat → RxMsg → State → State) :
    s.takeRx l names route = (s.popRx l).dispatch fun d => { d with badSender := bump d.badSender } := by
  have : (s.popRx l).badSender m.sender.toNat = true := by simpa [State.popRx, State.badSender] using hb
  simp [State.takeRx, hq, hn, this]

@[simp] theorem State.popRx_peers (s : State) (l : Lane) : (s.popRx l).peers = s.peers := by simp [State.popRx]

@[simp] theorem State.popRx_badSender (s : State) (l : Lane) (n : Nat) : (s.popRx l).badSender n = s.badSender n := by
  simp [State.popRx, State.badSender]

theorem State.takeRx_repeat {s : State} {l : Lane} {m : RxMsg} {rest : List RxMsg}
    (hq : (s.lane l).queue = m :: rest) {names : RxMsg → Bool} (hn : names m = true)
    (hb : s.badSender m.sender.toNat = false) {p : Peer} (hp : findPeer s.peers m.sender.toNat = some p)
    (hr : p.repeats m = true) (route : Nat → RxMsg → State → State) :
    s.takeRx l names route = (s.popRx l).suppress l m.sender.toNat := by
  simp [State.takeRx, hq, hn, hb, hp, hr]

/-- An accepted message that the command names is routed, its header already taken (R12). -/
theorem State.Accepts.takeRx {s : State} {l : Lane} {m : RxMsg} {p : Peer} (h : s.Accepts l m p)
    {names : RxMsg → Bool} (hn : names m = true) (route : Nat → RxMsg → State → State) :
    s.takeRx l names route = route m.sender.toNat m (s.heard l p m) := by
  obtain ⟨-, hq, hb, hp, hr⟩ := h
  cases hl : (s.lane l).queue with
  | nil => simp [hl] at hq
  | cons m' rest =>
    obtain rfl : m' = m := by simpa [hl] using hq
    simp [State.takeRx, hl, hn, hb, hp, hr, State.heard]

/-- A directive that reaches the unit is handed to it (R14). -/
theorem State.Directs.takeDirective {s : State} {l : Lane} {m : RxMsg} {p : Peer} {d : Directive}
    (h : s.Directs l m p d) (hown : (s.heard l p m).own = s.own) (unit : Nat → Directive → State → State) :
    s.takeDirective l d.kind unit = unit m.sender.toNat d (s.heard l p m) := by
  obtain ⟨ha, hk, hd, ht⟩ := h
  have hn : RxMsg.isDirective d.kind m = true := by simp [RxMsg.isDirective, hk, hd]
  rw [State.takeDirective, ha.takeRx hn]
  have hi : (s.heard l p m).isTarget d.target = true := by simpa [State.isTarget, hown] using ht.symm
  simp [State.routeDirective, State.decoded, hd, hi]

end Sys2Proof.Machine
end

