-- ==== Sys2Proof/Laws/Codec.lean ====
section
/-! SUPPORT. Byte order (R190): the length of a number's bytes, and how a field is read back from a longer payload. -/

namespace Sys2Proof.Machine

@[simp] theorem beBytes_length (n x : Nat) : (beBytes n x).length = n := by
  induction n generalizing x with
  | zero => rfl
  | succ n ih => simp [beBytes, ih]

theorem beNat_append (xs ys : List Byte) : beNat (xs ++ ys) = beNat xs * 256 ^ ys.length + beNat ys := by
  have fold : ∀ (zs : List Byte) (k : Nat),
      zs.foldl (fun n b => n * 256 + b.toNat) k = k * 256 ^ zs.length + zs.foldl (fun n b => n * 256 + b.toNat) 0 := by
    intro zs
    induction zs with
    | nil => simp
    | cons z zs ih =>
      intro k
      simp only [List.foldl_cons, List.length_cons]
      rw [ih, ih (0 * 256 + z.toNat)]
      ring
  simp only [beNat, List.foldl_append]
  exact fold ys _

/-- The bytes of a number spell it back, modulo what n bytes hold. -/
theorem beNat_beBytes (n x : Nat) : beNat (beBytes n x) = x % 256 ^ n := by
  induction n generalizing x with
  | zero => simp [beBytes, beNat, Nat.mod_one]
  | succ n ih =>
    rw [beBytes, beNat_append, ih]
    simp only [List.length_singleton, pow_one, beNat, List.foldl_cons, List.foldl_nil, BitVec.toNat_ofNat]
    rw [show 256 ^ (n + 1) = 256 * 256 ^ n from pow_succ' 256 n, Nat.mod_mul]
    omega

theorem beNat_lt (bs : List Byte) : beNat bs < 256 ^ bs.length := by
  induction bs using List.reverseRecOn with
  | nil => simp [beNat]
  | append_singleton xs b ih =>
    rw [beNat_append]
    have := b.isLt
    simp only [List.length_append, List.length_singleton, beNat, List.foldl_cons, List.foldl_nil, pow_succ] at *
    omega

/-- The first field of a payload. -/
theorem fieldAt_zero {xs ys : List Byte} {n : Nat} (h : xs.length = n) : fieldAt (xs ++ ys) 0 n = beNat xs := by
  simp [fieldAt, List.take_left' h]

/-- A field behind a prefix is the field of the rest. -/
theorem fieldAt_append {xs ys : List Byte} {o n : Nat} (h : xs.length ≤ o) :
    fieldAt (xs ++ ys) o n = fieldAt ys (o - xs.length) n := by
  simp [fieldAt, List.drop_append, List.drop_eq_nil_of_le h]

/-- A field that lies within a prefix. -/
theorem fieldAt_left {xs ys : List Byte} {o n : Nat} (h : o + n ≤ xs.length) : fieldAt (xs ++ ys) o n = fieldAt xs o n := by
  simp only [fieldAt]
  rw [List.drop_append_of_le_length (by omega), List.take_append_of_le_length (by simp; omega)]

/-- An event record takes 16 bytes (R58). -/
@[simp] theorem EventRec.bytes_length (r : EventRec) : r.bytes.length = 16 := by simp [EventRec.bytes]

/-- An as-run record takes 32 bytes (R159). -/
@[simp] theorem AsRunRec.bytes_length (r : AsRunRec) : r.bytes.length = 32 := by simp [AsRunRec.bytes]

end Sys2Proof.Machine
end

