-- ==== Sys2Proof/Laws/Cues.lean ====
section
/-! SUPPORT. The frames of the cue unit and of the dispatcher's header: what placing cues leaves as it was, and what an
accepted message does before it is routed. -/

namespace Sys2Proof.Machine

/-! ## Cues change only the transmitter, the tag, the notices and the port records -/

/-- Nothing changed but the transmitter, the cue tag, the notices, and port records of contexts. -/
def Works.CuesOnly (w v : Works) : Prop :=
  v.join = w.join ∧ v.store = w.store ∧ v.counters = w.counters ∧ v.lastNumbers = w.lastNumbers ∧
    v.reportCount = w.reportCount ∧ v.nextHalf = w.nextHalf ∧
    ∀ c, v.at c = { w.at c with prim := (v.at c).prim, alt := (v.at c).alt }

theorem Works.CuesOnly.rfl (w : Works) : w.CuesOnly w := ⟨by rfl, by rfl, by rfl, by rfl, by rfl, by rfl, fun _ => by rfl⟩

theorem Works.CuesOnly.trans {u v w : Works} (h : u.CuesOnly v) (k : v.CuesOnly w) : u.CuesOnly w := by
  obtain ⟨a1, a2, a3, a4, a5, a6, a7⟩ := h
  obtain ⟨b1, b2, b3, b4, b5, b6, b7⟩ := k
  refine ⟨b1.trans a1, b2.trans a2, b3.trans a3, b4.trans a4, b5.trans a5, b6.trans a6, fun c => ?_⟩
  have h7 := b7 c
  rw [a7 c] at h7
  exact h7

theorem Works.placeCue_contexts (e : Env) (q : Cue) (w : Works) (c : Chan) : (w.placeCue e q).at c = w.at c := by
  unfold Works.placeCue
  dsimp only
  split
  · rfl
  · split <;> rfl

theorem Works.placeCue_cuesOnly (e : Env) (q : Cue) (w : Works) : w.CuesOnly (w.placeCue e q) := by
  refine ⟨?_, ?_, ?_, ?_, ?_, ?_, fun c => by rw [Works.placeCue_contexts]⟩
  all_goals
    unfold Works.placeCue
    dsimp only
    split
    · rfl
    · split <;> rfl

theorem Context.modRec_frame (x : Context) (p : PortSel) (f : PortRec → PortRec) :
    x.modRec p f = { x with prim := (x.modRec p f).prim, alt := (x.modRec p f).alt } := by
  cases p <;> rfl

theorem Works.mod_cuesOnly (w : Works) (c : Chan) {f : Context → Context}
    (h : f (w.at c) = { w.at c with prim := (f (w.at c)).prim, alt := (f (w.at c)).alt }) : w.CuesOnly (w.mod c f) := by
  refine ⟨rfl, rfl, rfl, rfl, rfl, rfl, fun d => ?_⟩
  rw [Works.mod_at_eq]
  split
  · subst d; exact h
  · rfl

theorem Works.cancelPending_cuesOnly (e : Env) (c : Chan) (w : Works) : w.CuesOnly (w.cancelPending e c) := by
  unfold Works.cancelPending
  split
  · exact .rfl w
  · split
    · exact .rfl w
    · exact (w.placeCue_cuesOnly e _).trans (Works.mod_cuesOnly _ _ (Context.modRec_frame _ _ _))

theorem Works.closingCues_cuesOnly (e : Env) (c : Chan) (f : Frame) (w : Works) : w.CuesOnly (w.closingCues e c f) := by
  unfold Works.closingCues
  dsimp only
  split
  · exact w.cancelPending_cuesOnly e c
  · exact (w.cancelPending_cuesOnly e c).trans (Works.placeCue_cuesOnly _ _ _)

theorem Works.withTag_cuesOnly (w : Works) (t : Half) : w.CuesOnly { w with tag := t } :=
  ⟨rfl, rfl, rfl, rfl, rfl, rfl, fun _ => rfl⟩

theorem Works.reconvert_cuesOnly (e : Env) (station : Nat) (c : Chan) (p : PortSel) (w : Works) :
    w.CuesOnly (w.reconvert e station c p) := by
  unfold Works.reconvert
  split
  · exact .rfl w
  · split
    · exact .rfl w
    · dsimp only
      split
      · exact (w.withTag_cuesOnly _).trans
          ((Works.placeCue_cuesOnly e _ _).trans (Works.mod_cuesOnly _ _ (Context.modRec_frame _ _ _)))
      · exact .rfl w

theorem foldl_keeps {α β : Type} {P : β → Prop} {f : β → α → β} (h : ∀ b a, P b → P (f b a)) (l : List α) {b : β}
    (hb : P b) : P (l.foldl f b) := by
  induction l generalizing b with
  | nil => exact hb
  | cons a l ih => exact ih (h b a hb)

theorem Works.clockStep_cuesOnly (e : Env) (station : Nat) (w : Works) : w.CuesOnly (w.clockStep e station) := by
  unfold Works.clockStep
  exact foldl_keeps (P := w.CuesOnly)
    (fun v c hv => (hv.trans (v.reconvert_cuesOnly e station c .primary)).trans
      (Works.reconvert_cuesOnly e station c .alternate _)) _ (.rfl w)

theorem Works.notice_cuesOnly (e : Env) (k : NoticeKind) (c : Option Chan) (n : BitVec 32) (w : Works) :
    w.CuesOnly (w.notice e k c n) := ⟨rfl, rfl, rfl, rfl, rfl, rfl, fun _ => rfl⟩

theorem Works.stepped_cuesOnly (e : Env) (station : Nat) (step : Option Int) (w : Works) :
    w.CuesOnly (w.stepped e station step) := by
  unfold Works.stepped
  split
  · exact .rfl w
  · exact (w.notice_cuesOnly _ _ _ _).trans (Works.clockStep_cuesOnly _ _ _)

theorem Works.saturated_cuesOnly (e : Env) (station : Nat) (set : Bool) (w : Works) :
    w.CuesOnly (w.saturated e station set) := by
  unfold Works.saturated
  split
  · exact w.notice_cuesOnly _ _ _ _
  · exact .rfl w

/-! ## The header of an accepted message (R12) -/

theorem State.heard_works (s : State) (l : Lane) (p : Peer) (m : RxMsg) : s.works.CuesOnly (s.heard l p m).works := by
  cases l <;> exact (Works.saturated_cuesOnly _ _ _ _).trans (Works.stepped_cuesOnly _ _ _ _)

section
variable (s : State) (l : Lane) (p : Peer) (m : RxMsg)

@[simp] theorem State.heard_load : (s.heard l p m).load = s.load := by cases l <;> rfl
@[simp] theorem State.heard_own : (s.heard l p m).own = s.own := by cases l <;> rfl
@[simp] theorem State.heard_cfg : (s.heard l p m).cfg = s.cfg := by cases l <;> rfl
@[simp] theorem State.heard_clk : (s.heard l p m).clk = s.clk := by cases l <;> rfl
@[simp] theorem State.heard_isolated : (s.heard l p m).isolated = s.isolated := by cases l <;> rfl
@[simp] theorem State.heard_disp : (s.heard l p m).disp = s.disp := by cases l <;> rfl
@[simp] theorem State.heard_due : (s.heard l p m).due = s.due := by cases l <;> rfl
@[simp] theorem State.heard_pending : (s.heard l p m).pending = s.pending := by cases l <;> rfl

@[simp] theorem State.heard_lane :
    (s.heard l p m).lane l = { s.lane l with queue := (s.lane l).queue.drop 1, quietCount := 0 } := by
  cases l <;> rfl

theorem State.heard_lane_other {k : Lane} (h : k ≠ l) : (s.heard l p m).lane k = s.lane k := by
  cases l <;> cases k <;> first | rfl | exact absurd rfl h

theorem State.heard_peers :
    (s.heard l p m).peers =
      modPeer s.peers p.station fun q => { q.accept l m with est := ((s.popRx l).sample p m).est } := by
  cases l <;> rfl

@[simp] theorem State.heard_join : (s.heard l p m).works.join = s.works.join := (s.heard_works l p m).1
@[simp] theorem State.heard_store : (s.heard l p m).works.store = s.works.store := (s.heard_works l p m).2.1
@[simp] theorem State.heard_counters : (s.heard l p m).works.counters = s.works.counters := (s.heard_works l p m).2.2.1

@[simp] theorem State.heard_lastNumbers : (s.heard l p m).works.lastNumbers = s.works.lastNumbers :=
  (s.heard_works l p m).2.2.2.1

/-- Hearing a header changes no context but in its port records (R145). -/
theorem State.heard_at (c : Chan) :
    (s.heard l p m).works.at c =
      { s.works.at c with
        prim := ((s.heard l p m).works.at c).prim, alt := ((s.heard l p m).works.at c).alt } :=
  (s.heard_works l p m).2.2.2.2.2.2 c

@[simp] theorem State.heard_state (c : Chan) : ((s.heard l p m).works.at c).state = (s.works.at c).state := by
  rw [s.heard_at]

end

/-- A directive that reaches the unit is handed to it, its header already taken (R12, R14). -/
theorem State.Directs.handed {s : State} {l : Lane} {m : RxMsg} {p : Peer} {d : Directive} (h : s.Directs l m p d)
    (unit : Nat → Directive → State → State) :
    s.takeDirective l d.kind unit = unit m.sender.toNat d (s.heard l p m) :=
  h.takeDirective (s.heard_own l p m) unit

end Sys2Proof.Machine
end

