-- ==== Sys2Proof/Laws/Ops.lean ====
section
/-! SUPPORT. What the shared operations of the channels can do, said once for each: passes between channel states, bids
and loss decisions, join requests, the as-run store, the claim table, the pick, and the channel each of them keeps to. -/

namespace Sys2Proof.Machine

/-! ## Contexts -/

theorem Works.mod_mod (w : Works) (c : Chan) (f g : Context → Context) :
    (w.mod c f).mod c g = w.mod c fun x => g (f x) := by
  simp [Works.mod]

theorem Works.mod_notice (w : Works) (c : Chan) (f : Context → Context) (e : Env) (k : NoticeKind) (d : Option Chan)
    (n : BitVec 32) : (w.notice e k d n).mod c f = (w.mod c f).notice e k d n := rfl

/-- A channel that leaves BIDDING without winning (R114). -/
theorem Works.endBid_eq (w : Works) (e : Env) (c : Chan) (st : ChState) :
    w.endBid e c st = w.mod c fun x =>
      { x with
        state := st, prec := (e.entry c).prec, bidCount := 0
        release :=
          if x.state.claiming && !st.claiming then 2
          else if !x.state.claiming && st.claiming then 0
          else x.release } := by
  simp [Works.endBid, Works.moveTo, Works.mod_mod]

/-- BIDDING is entered with no live rival HOLD (R114). -/
theorem Works.enterBidding_open {w : Works} {e : Env} {c : Chan} {forced : Bool}
    (h : ∀ r ∈ (w.at c).table, r.kind = .bid) :
    w.enterBidding e c forced =
      (w.mod c fun x =>
        { x with
          state := .bidding, bidCount := 0, prec := if forced then 0 else (e.entry c).prec, bidNew := e.boundary
          release := if x.state.claiming then x.release else 0 }).notice e .bidStart (some c)
        (BitVec.ofNat 32 (if forced then 0 else (e.entry c).prec)) := by
  have hn : bestHold (w.at c).table = none := by
    have : (w.at c).table.filter (fun r => decide (r.kind = .hold)) = [] := by
      simp only [List.filter_eq_nil_iff, decide_eq_true_eq]
      intro r hr; simp [h r hr]
    simp [bestHold, this, bestRival]
  simp only [Works.enterBidding, Works.notice_at, Works.mod_at, Works.moveTo_at, hn]
  simp only [Works.moveTo, Works.mod_mod]
  congr 2
  funext x
  cases x.state <;> simp [ChState.claiming]

/-- The three outcomes of the loss decision (R93). -/
theorem Works.lossDecide_cases (w : Works) (e : Env) (c : Chan) :
    (∃ code, e.lossOutcome (w.at c) = .lost code ∧ w.lossDecide e c = w.moveTo c .lost) ∨
      (e.lossOutcome (w.at c) = .yielded ∧ w.lossDecide e c = w.moveTo c .yielded) ∨
      (e.lossOutcome (w.at c) = .bidding ∧ w.lossDecide e c = w.enterBidding e c false) := by
  unfold Works.lossDecide
  cases h : e.lossOutcome (w.at c) with
  | lost code => exact .inl ⟨code, rfl, rfl⟩
  | yielded => exact .inr (.inl ⟨rfl, rfl⟩)
  | bidding => exact .inr (.inr ⟨rfl, rfl⟩)

/-- The loss decision bids only against a table without a HOLD (R93). -/
theorem Env.lossOutcome_bidding {e : Env} {x : Context} (h : e.lossOutcome x = .bidding) :
    x.armed = true ∧ e.isolated = false ∧ x.mirror.live ≠ [] ∧ x.mirror.status ≠ .mismatch ∧
      ∀ r ∈ x.table, r.kind = .bid := by
  unfold Env.lossOutcome at h
  split at h <;> try cases h
  split at h <;> try cases h
  split at h <;> try cases h
  split at h <;> try cases h
  split at h <;> try cases h
  rename_i h1 h2 h3 h4 h5
  refine ⟨by simpa using h1, by simpa using h2, by simpa using h3, h4, ?_⟩
  intro r hr
  simp only [Bool.not_eq_true, List.any_eq_false, decide_eq_true_eq] at h5
  cases hk : r.kind with
  | bid => rfl
  | hold => exact absurd hk (h5 r hr)

/-! ## Join requests (R122, R123) -/

/-- The start of a computation changes nothing but the engine. -/
theorem Works.kick_frame (w : Works) (e : Env) : w.kick e = { w with join := (w.kick e).join } := by
  unfold Works.kick
  split
  · rfl
  · split <;> rfl

theorem Works.kick_at (w : Works) (e : Env) (c : Chan) : (w.kick e).at c = w.at c := by rw [Works.kick_frame]; rfl

/-- A request placed for a channel without a REQUESTED handback raises its generation, and otherwise changes nothing but
the engine (R100, R122). -/
theorem Works.placeJoin_eq {w : Works} {e : Env} {c : Chan} {kind : JoinKind} {take : Frame} {curEnd : Option Frame}
    {atSwitch : Bool} (h : kind.endsRequest = true → ∀ a b, (w.at c).handback ≠ .requested a b) :
    w.placeJoin e c kind take curEnd atSwitch =
      { w.mod c (fun x => { x with gen := x.gen + 1 }) with
        join := (w.placeJoin e c kind take curEnd atSwitch).join } := by
  have hw : (if kind.endsRequest then w.refuseRequested e c 3 else w) = w := by
    split
    · rename_i hk
      unfold Works.refuseRequested
      split
      · rename_i a b hb; exact absurd hb (h hk a b)
      · rfl
    · rfl
  simp only [Works.placeJoin, hw]
  rw [Works.kick_frame]

/-- A request that joins an engine with nothing of its channel stands in it (R122, R123). -/
theorem Works.placeJoin_requested {w : Works} {e : Env} {c : Chan} {kind : JoinKind} {take : Frame}
    {curEnd : Option Frame} {atSwitch : Bool} (h : kind.endsRequest = true → ∀ a b, (w.at c).handback ≠ .requested a b)
    (hq : ∀ r ∈ w.join.queue, r.chan ≠ c) :
    (w.placeJoin e c kind take curEnd atSwitch).Requested c kind take curEnd ((w.at c).gen + 1) := by
  have hw : (if kind.endsRequest then w.refuseRequested e c 3 else w) = w := by
    split
    · rename_i hk
      unfold Works.refuseRequested
      split
      · rename_i a b hb; exact absurd hb (h hk a b)
      · rfl
    · rfl
  have hany : (w.join.queue.any fun r => decide (r.chan = c)) = false := by simpa using hq
  have hfind : w.join.queue.find? (fun r => decide (r.chan = c)) = none := by simpa using hq
  simp only [Works.placeJoin, hw, Works.mod_at, Works.mod_join, enqueue, hany, Bool.false_eq_true, if_false]
  refine ⟨{ chan := c, kind := kind, gen := (w.at c).gen + 1, take := take, curEnd := curEnd, atSwitch := atSwitch },
    ?_, rfl, rfl, rfl, rfl⟩
  unfold Works.kick
  split
  · exact .inl (by simp [Works.queuedJoin, List.find?_append, hfind])
  · split
    · rename_i r rest hf hr
      simp only at hf hr
      cases hj : w.join.queue with
      | nil =>
        rw [hj] at hr
        obtain ⟨rfl, rfl⟩ : _ = r ∧ [] = rest := by simpa using hr
        exact .inr (by simp [Works.flyingJoin, Works.snapshot])
      | cons q qs =>
        rw [hj] at hr hfind
        obtain ⟨rfl, rfl⟩ : q = r ∧ _ = rest := by simpa using hr
        refine .inl ?_
        have : qs.find? (fun r => decide (r.chan = c)) = none := by
          simp only [List.find?_eq_none, List.mem_cons] at hfind ⊢
          exact fun x hx => hfind x (.inr hx)
        simp [Works.queuedJoin, List.find?_append, this]
    · exact .inl (by simp [Works.queuedJoin, List.find?_append, hfind])

/-! ## The as-run store (R159 to R161) -/

theorem Works.closeRecord_none {w : Works} {e : Env} {c : Chan} {f : Frame} {st : AsRunStatus}
    (h : (w.at c).openRec = none) : w.closeRecord e c f st = w := by
  simp [Works.closeRecord, h]

/-- Appending changes nothing but the store and the notices. -/
theorem Works.appendRecord_frame (w : Works) (e : Env) (r : AsRunRec) :
    w.appendRecord e r = { w with store := w.store.append r, notices := (w.appendRecord e r).notices } := by
  unfold Works.appendRecord
  dsimp only
  split
  · rfl
  · split <;> rfl

theorem Works.closeRecord_some {w : Works} {e : Env} {c : Chan} {f : Frame} {st : AsRunStatus} {r : AsRunRec}
    (h : (w.at c).openRec = some r) :
    w.closeRecord e c f st =
      { w.mod c (fun x => { x with openRec := none }) with
        store := w.store.append { r with endAt := some f, status := some st }
        notices := (w.closeRecord e c f st).notices } := by
  simp only [Works.closeRecord, h]
  rw [Works.appendRecord_frame]
  rfl

/-! ## The claim table (R107, R108) -/

/-- What a claim does to a table: it replaces its station's entry, joins, displaces the worst entry, or is kept out. -/
theorem writeClaim_cases (r : Rival) (table : List Rival) :
    ((∃ x ∈ table, x.station = r.station) ∧
        writeClaim r table = some (table.map fun x => if x.station = r.station then r else x)) ∨
      ((∀ x ∈ table, x.station ≠ r.station) ∧ table.length < 4 ∧ writeClaim r table = some (table ++ [r])) ∨
      ((∀ x ∈ table, x.station ≠ r.station) ∧ 4 ≤ table.length ∧
        ∃ worst, worstRival table = some worst ∧
          ((r.better worst = true ∧
              writeClaim r table = some ((table.filter fun x => decide (x.station ≠ worst.station)) ++ [r])) ∨
            (r.better worst = false ∧ writeClaim r table = none))) := by
  by_cases h : table.any fun x => decide (x.station = r.station)
  · exact .inl ⟨by simpa using h, by simp [writeClaim, h]⟩
  · have h' : ∀ x ∈ table, x.station ≠ r.station := by simpa using h
    by_cases hl : table.length < 4
    · exact .inr (.inl ⟨h', hl, by simp only [writeClaim, h, hl]; simp⟩)
    · refine .inr (.inr ⟨h', by omega, ?_⟩)
      cases hw : worstRival table with
      | none =>
        cases table with
        | nil => simp at hl
        | cons a as =>
          simp only [worstRival] at hw
          split at hw
          · cases hw
          · split at hw <;> cases hw
      | some worst =>
        refine ⟨worst, rfl, ?_⟩
        cases hb : r.better worst with
        | true => exact .inl ⟨rfl, by simp only [writeClaim, h, hl, hw, hb]; simp⟩
        | false => exact .inr ⟨rfl, by simp only [writeClaim, h, hl, hw, hb]; simp⟩

/-! ## The transmitter (R22, R27) -/

/-- The pick changes neither the account nor a counter, and takes a message from no class but the one it launches:
every class holds as many messages as before, the one in flight counted. -/
theorem Transmitter.pick_keeps (cfg : Config) (t : Transmitter) :
    (t.pick cfg).account = t.account ∧
      ∀ cls, (match cls with
          | .urgent => (t.pick cfg).urgent.length
          | .routine => (t.pick cfg).routine.length
          | .bulk => (t.pick cfg).bulk.length) + (t.pick cfg).flying cls =
        (match cls with | .urgent => t.urgent.length | .routine => t.routine.length | .bulk => t.bulk.length) +
          t.flying cls := by
  cases hf : t.flight with
  | some f => simp [Transmitter.pick, hf]
  | none =>
    have bulk : (t.pickBulk cfg).account = t.account ∧
        ∀ cls, (match cls with
            | .urgent => (t.pickBulk cfg).urgent.length
            | .routine => (t.pickBulk cfg).routine.length
            | .bulk => (t.pickBulk cfg).bulk.length) + (t.pickBulk cfg).flying cls =
          (match cls with | .urgent => t.urgent.length | .routine => t.routine.length | .bulk => t.bulk.length) +
            t.flying cls := by
      unfold Transmitter.pickBulk
      split
      · simp
      · split
        · refine ⟨rfl, fun cls => ?_⟩
          cases cls <;> simp [Transmitter.launch, Transmitter.flying, *]
        · simp
    unfold Transmitter.pick
    rw [hf]
    dsimp only
    split
    · refine ⟨rfl, fun cls => ?_⟩
      cases cls <;> simp [Transmitter.launch, Transmitter.flying, *]
    · split
      · split
        · refine ⟨rfl, fun cls => ?_⟩
          cases cls <;> simp [Transmitter.launch, Transmitter.flying, *]
        · exact bulk
      · exact bulk

/-! ## The channel an operation keeps to -/

theorem Works.OthersKept.rfl {c : Chan} {w : Works} : w.OthersKept c w := fun _ _ => by rfl

theorem Works.OthersKept.trans {c : Chan} {u v w : Works} (h : Works.OthersKept c u v) (k : Works.OthersKept c v w) :
    Works.OthersKept c u w := fun d hd => (k d hd).trans (h d hd)

/-- A change of one context leaves the others. -/
theorem Works.OthersKept.mod {c : Chan} {u w : Works} (h : Works.OthersKept c u w) (f : Context → Context) :
    Works.OthersKept c u (w.mod c f) := h.trans fun _ hd => w.mod_at_other f hd

theorem Works.OthersKept.notice {c : Chan} {u w : Works} (h : Works.OthersKept c u w) (e : Env) (k : NoticeKind)
    (d : Option Chan) (n : BitVec 32) : Works.OthersKept c u (w.notice e k d n) := h

theorem Works.OthersKept.moveTo {c : Chan} {u w : Works} (h : Works.OthersKept c u w) (st : ChState) :
    Works.OthersKept c u (w.moveTo c st) := h.mod _

theorem Works.OthersKept.endBid {c : Chan} {u w : Works} (h : Works.OthersKept c u w) (e : Env) (st : ChState) :
    Works.OthersKept c u (w.endBid e c st) := (h.moveTo st).mod _

theorem Works.OthersKept.yieldBid {c : Chan} {u w : Works} (h : Works.OthersKept c u w) (e : Env) (n : Nat)
    (k : ClaimKind) : Works.OthersKept c u (w.yieldBid e c n k) := (h.endBid e .yielded).notice _ _ _ _

theorem Works.OthersKept.enterBidding {c : Chan} {u w : Works} (h : Works.OthersKept c u w) (e : Env) (forced : Bool) :
    Works.OthersKept c u (w.enterBidding e c forced) := by
  unfold Works.enterBidding
  dsimp only
  split
  · exact ((h.moveTo _).mod _).notice _ _ _ _
  · exact (((h.moveTo _).mod _).notice _ _ _ _).yieldBid _ _ _

theorem Works.OthersKept.lossDecide {c : Chan} {u w : Works} (h : Works.OthersKept c u w) (e : Env) :
    Works.OthersKept c u (w.lossDecide e c) := by
  unfold Works.lossDecide
  split
  · exact h.moveTo _
  · exact h.moveTo _
  · exact h.enterBidding e false

theorem Works.OthersKept.redecide {c : Chan} {u w : Works} (h : Works.OthersKept c u w) (e : Env) :
    Works.OthersKept c u (w.redecide e c) := by
  unfold Works.redecide
  split
  · exact h.lossDecide e
  · exact h

theorem Works.OthersKept.refuseRequested {c : Chan} {u w : Works} (h : Works.OthersKept c u w) (e : Env) (n : Nat) :
    Works.OthersKept c u (w.refuseRequested e c n) := by
  unfold Works.refuseRequested
  split
  · exact (h.mod _).notice _ _ _ _
  · exact h

theorem Works.OthersKept.kick {c : Chan} {u w : Works} (h : Works.OthersKept c u w) (e : Env) :
    Works.OthersKept c u (w.kick e) := fun d hd => (w.kick_at e d).trans (h d hd)

theorem Works.OthersKept.placeJoin {c : Chan} {u w : Works} (h : Works.OthersKept c u w) (e : Env) (kind : JoinKind)
    (take : Frame) (curEnd : Option Frame) (atSwitch : Bool) :
    Works.OthersKept c u (w.placeJoin e c kind take curEnd atSwitch) := by
  have hr : Works.OthersKept c u (if kind.endsRequest then w.refuseRequested e c 3 else w) := by
    split
    · exact h.refuseRequested e 3
    · exact h
  refine Works.OthersKept.kick ?_ e
  exact hr.mod fun x => { x with gen := x.gen + 1 }

theorem Works.OthersKept.placeCue {c : Chan} {u w : Works} (h : Works.OthersKept c u w) (e : Env) (q : Cue) :
    Works.OthersKept c u (w.placeCue e q) := fun d hd => (w.placeCue_contexts e q d).trans (h d hd)

theorem Works.OthersKept.cancelPending {c : Chan} {u w : Works} (h : Works.OthersKept c u w) (e : Env) :
    Works.OthersKept c u (w.cancelPending e c) := by
  unfold Works.cancelPending
  split
  · exact h
  · split
    · exact h
    · exact (h.placeCue _ _).mod _

theorem Works.OthersKept.closingCues {c : Chan} {u w : Works} (h : Works.OthersKept c u w) (e : Env) (f : Frame) :
    Works.OthersKept c u (w.closingCues e c f) := by
  unfold Works.closingCues
  dsimp only
  split
  · exact h.cancelPending e
  · exact (h.cancelPending e).placeCue _ _

theorem Works.OthersKept.placeTake {c : Chan} {u w : Works} (h : Works.OthersKept c u w) (e : Env) (k : JoinKind)
    (f : Frame) (ev : CurEvent) : Works.OthersKept c u (w.placeTake e c k f ev) := by
  unfold Works.placeTake
  dsimp only
  split
  · exact (h.cancelPending e).mod _
  · refine Works.OthersKept.mod (Works.OthersKept.placeCue ?_ e _) _
    exact (h.cancelPending e).mod fun x => x.modRec x.active fun p => { p with withdrawn := none }

theorem Works.OthersKept.closeRecord {c : Chan} {u w : Works} (h : Works.OthersKept c u w) (e : Env) (f : Frame)
    (st : AsRunStatus) : Works.OthersKept c u (w.closeRecord e c f st) := by
  cases hr : (w.at c).openRec with
  | none => rw [Works.closeRecord_none hr]; exact h
  | some r => rw [Works.closeRecord_some hr]; exact h.mod fun x => { x with openRec := none }

theorem Works.OthersKept.judgeOnly {c : Chan} {u w : Works} (h : Works.OthersKept c u w) (e : Env) :
    Works.OthersKept c u (w.judgeOnly e c) := by
  unfold Works.judgeOnly
  dsimp only
  split
  · exact (h.mod _).notice _ _ _ _
  · exact h.mod _

theorem Works.OthersKept.judgeStatus {c : Chan} {u w : Works} (h : Works.OthersKept c u w) (e : Env) :
    Works.OthersKept c u (w.judgeStatus e c) := by
  unfold Works.judgeStatus
  split
  · exact h
  · exact (h.judgeOnly e).redecide e

theorem Works.OthersKept.commitList {c : Chan} {u w : Works} (h : Works.OthersKept c u w) (e : Env) (rev : Half)
    (events : List EventRec) : Works.OthersKept c u (w.commitList e c rev events) :=
  (((h.mod _).notice _ _ _ _).judgeOnly e).redecide e

theorem Works.OthersKept.exitCommit {c : Chan} {u w : Works} (h : Works.OthersKept c u w) (e : Env) :
    Works.OthersKept c u (w.exitCommit e c) := by
  unfold Works.exitCommit
  split
  · split
    · exact h
    · exact h.commitList e _ _
  · exact h

theorem Works.OthersKept.commitDeferred {c : Chan} {u w : Works} (h : Works.OthersKept c u w) (e : Env) :
    Works.OthersKept c u (w.commitDeferred e c) := by
  unfold Works.commitDeferred
  split
  · exact (h.commitList e _ _).mod _
  · exact h

theorem Works.OthersKept.leaveAir {c : Chan} {u w : Works} (h : Works.OthersKept c u w) (e : Env) (st : ChState)
    {closing : Works → Works} (hc : ∀ v, Works.OthersKept c v (closing v)) :
    Works.OthersKept c u (w.leaveAir e c st closing) :=
  ((((h.refuseRequested e 3).moveTo st).mod _).trans (hc _)).mod _ |>.exitCommit e

theorem Works.OthersKept.yieldAir {c : Chan} {u w : Works} (h : Works.OthersKept c u w) (e : Env) (r : Rival) :
    Works.OthersKept c u (w.yieldAir e c r) :=
  (h.notice _ _ _ _).leaveAir e .yielded fun _ => (Works.OthersKept.rfl.closingCues e _).closeRecord e _ _

theorem Works.OthersKept.channelFault {c : Chan} {u w : Works} (h : Works.OthersKept c u w) (e : Env) (k : PortFault) :
    Works.OthersKept c u (w.channelFault e c k) :=
  (h.notice _ _ _ _).leaveAir e .fault fun _ => (Works.OthersKept.rfl.closingCues e _).closeRecord e _ _

end Sys2Proof.Machine
end

