-- ==== Sys2Proof/Laws/Work.lean ====
section
/-! SUPPORT. The frames of the pieces of a boundary's work: what each leaves as it was, and what a whole boundary does
to the clock, the peers and the receivers when no time load is pending. -/

namespace Sys2Proof.Machine

/-! ## What no piece of work changes -/

/-- The parts of the state that no piece of a boundary's work writes. -/
def State.fixedPart (s : State) : LoadState × Nat × Config × Dispatcher × List Work × List Instr :=
  (s.load, s.own, s.cfg, s.disp, s.due, s.pending)

@[simp] theorem State.onWorks_fixedPart (s : State) (f : Works → Works) : (s.onWorks f).fixedPart = s.fixedPart := rfl

@[simp] theorem State.modLane_fixedPart (s : State) (l : Lane) (f : LaneIf → LaneIf) :
    (s.modLane l f).fixedPart = s.fixedPart := by
  cases l <;> rfl

@[simp] theorem State.atWorks_fixedPart (s : State) (f : Env → Works → Works) :
    (s.atWorks f).fixedPart = s.fixedPart := rfl

theorem State.judgeLane_fixedPart (s : State) (l : Lane) : (s.judgeLane l).fixedPart = s.fixedPart := by
  unfold State.judgeLane
  dsimp only
  split <;> simp

theorem State.judgeIsolation_fixedPart (s : State) : s.judgeIsolation.fixedPart = s.fixedPart := by
  unfold State.judgeIsolation
  split
  · split <;> rfl
  · split <;> rfl

theorem State.loadBoundary_fixedPart (s : State) : s.loadBoundary.fixedPart = s.fixedPart := by
  unfold State.loadBoundary
  split
  · rfl
  · split <;> rfl

theorem State.reportBoundary_fixedPart (s : State) : s.reportBoundary.fixedPart = s.fixedPart := by
  unfold State.reportBoundary
  split <;> rfl

/-- No piece of work changes the load state, the id, the configuration, the dispatcher or a queue of commands. -/
theorem runWork_fixedPart (k : Work) (s : State) : (runWork k s).fixedPart = s.fixedPart := by
  cases k with
  | timebase => exact s.loadBoundary_fixedPart
  | laneJudge l => exact s.judgeLane_fixedPart l
  | isolation => exact s.judgeIsolation_fixedPart
  | report => exact s.reportBoundary_fixedPart
  | _ => rfl

theorem runAll_fixedPart (ks : List Work) (s : State) : (runAll ks s).fixedPart = s.fixedPart :=
  runAll_component State.fixedPart (fun k _ s => runWork_fixedPart k s) s

/-! ## The clock, the peers and the receivers when no time load is pending -/

/-- The clock and the receivers, which only a time load changes. -/
def State.timePart (s : State) : Timebase × (Lane → List RxMsg × RxMode) :=
  (s.clk, fun l => ((s.lane l).queue, (s.lane l).mode))

theorem State.judgeLane_timePart (s : State) (l : Lane) : (s.judgeLane l).timePart = s.timePart := by
  unfold State.judgeLane
  dsimp only
  split
  · rfl
  · simp only [State.timePart, State.onWorks_clk, State.onWorks_lane, State.modLane_clk, Prod.mk.injEq, true_and]
    funext k
    cases l <;> cases k <;> rfl

theorem State.judgeIsolation_timePart (s : State) : s.judgeIsolation.timePart = s.timePart := by
  unfold State.judgeIsolation
  split
  · split
    · rfl
    · simp only [State.timePart, State.becomeIsolated, State.onWorks_clk, State.onWorks_lane, Prod.mk.injEq, true_and]
      funext k
      cases k <;> rfl
  · split
    · simp only [State.timePart, State.becomeRejoined, State.onWorks_clk, State.onWorks_lane, Prod.mk.injEq, true_and]
      funext k
      cases k <;> rfl
    · rfl

theorem State.advanceQuiet_timePart (s : State) : s.advanceQuiet.timePart = s.timePart := by
  simp only [State.timePart, State.advanceQuiet, Prod.mk.injEq, true_and]
  funext k
  cases k <;> rfl

theorem State.onWorks_timePart (s : State) (f : Works → Works) : (s.onWorks f).timePart = s.timePart := by
  simp [State.timePart]

theorem State.loadBoundary_idle {s : State} (h : s.clk.loadPending = false) : s.loadBoundary = s := by
  simp [State.loadBoundary, State.loadDue, h]

theorem State.reportBoundary_works (s : State) : ∃ f, s.reportBoundary = s.onWorks f := by
  unfold State.reportBoundary State.buildReport
  split <;> exact ⟨_, rfl⟩

/-- With no load pending, a piece of work leaves the clock, the receive queues and the receivers' modes. -/
theorem runWork_timePart {k : Work} {s : State} (h : s.clk.loadPending = false) :
    (runWork k s).timePart = s.timePart := by
  cases k with
  | timebase => rw [runWork, State.loadBoundary_idle h]
  | laneJudge l => exact s.judgeLane_timePart l
  | isolation => exact (State.advanceQuiet_timePart _).trans s.judgeIsolation_timePart
  | report =>
    obtain ⟨f, hf⟩ := s.reportBoundary_works
    rw [runWork, hf]
    exact s.onWorks_timePart f
  | peers =>
    simp only [runWork, State.timePart, Prod.mk.injEq, true_and]
    funext l
    cases l <;> rfl
  | _ => exact s.onWorks_timePart _

theorem runAll_timePart (ks : List Work) {s : State} (h : s.clk.loadPending = false) :
    (runAll ks s).timePart = s.timePart := by
  have key : (runAll ks s).timePart = s.timePart ∧ (runAll ks s).clk.loadPending = false := by
    refine runAll_keeps (P := fun t => t.timePart = s.timePart ∧ t.clk.loadPending = false) ?_ s ⟨rfl, h⟩
    rintro k - t ⟨h1, h2⟩
    have h3 := (runWork_timePart (k := k) h2).trans h1
    refine ⟨h3, ?_⟩
    have : (runWork k t).clk = s.clk := congrArg Prod.fst h3
    rw [this]
    exact h
  exact key.1

/-- With no load pending, only the peer table's own work changes the peer records (R49). -/
theorem runWork_peers {k : Work} {s : State} (h : s.clk.loadPending = false) :
    (runWork k s).peers = if k = .peers then s.peers.map Peer.tickOver else s.peers := by
  cases k with
  | timebase => rw [runWork, State.loadBoundary_idle h]; rfl
  | laneJudge l =>
    simp only [runWork, State.judgeLane]
    split <;> simp
  | isolation =>
    simp only [runWork, State.advanceQuiet, State.judgeIsolation]
    split
    · split <;> simp [State.becomeIsolated]
    · split <;> simp [State.becomeRejoined]
  | report =>
    obtain ⟨f, hf⟩ := s.reportBoundary_works
    simp [runWork, hf]
  | _ => rfl

theorem runAll_peers {ks : List Work} {s : State} (h : s.clk.loadPending = false) (hn : ks.Nodup) :
    (runAll ks s).peers = if Work.peers ∈ ks then s.peers.map Peer.tickOver else s.peers := by
  induction ks generalizing s with
  | nil => simp
  | cons k ks ih =>
    rw [List.nodup_cons] at hn
    have hc : (runWork k s).clk = s.clk := congrArg Prod.fst (runWork_timePart (k := k) h)
    rw [runAll_cons, ih (by rw [hc]; exact h) hn.2, runWork_peers h]
    by_cases hk : k = .peers
    · subst hk; simp [hn.1]
    · simp [hk, Ne.symm hk]

/-! ## A whole boundary -/

theorem allWork_nodup : allWork.Nodup := by decide

theorem peers_mem_allWork : Work.peers ∈ allWork := by decide

/-- The peers' work follows no other (R36). -/
theorem heldBack_peers (left : List Work) : heldBack left .peers = left.contains .peers := by
  simp only [heldBack, Bool.or_eq_left_iff_imp, List.any_eq_true]
  rintro ⟨j, -, hj⟩
  cases j <;> simp [waitsFor] at hj

theorem State.withDue_lane (s : State) (d : List Work) (l : Lane) : ({ s with due := d } : State).lane l = s.lane l := by
  cases l <;> rfl

/-- What a boundary does to the rest of the part when no time load is pending (R36, R49). -/
theorem State.boundary_made (s : State) (left : List Work) (h : s.clk.loadPending = false) :
    s.BoundaryMade (s.boundary left) left ∧ (s.boundary left).clk = s.clk := by
  have hf := runAll_fixedPart (allWork.filter fun k => !heldBack left k) (s.onWorks Works.newBoundary)
  have ht := runAll_timePart (allWork.filter fun k => !heldBack left k) (s := s.onWorks Works.newBoundary) h
  have hp := runAll_peers (ks := allWork.filter fun k => !heldBack left k) (s := s.onWorks Works.newBoundary) h
    (allWork_nodup.filter _)
  unfold State.boundary
  generalize runAll (allWork.filter fun k => !heldBack left k) (s.onWorks Works.newBoundary) = r at hf ht hp
  simp only [State.fixedPart, State.onWorks_load, State.onWorks_own, State.onWorks_cfg, State.onWorks_disp,
    State.onWorks_due, State.onWorks_pending, Prod.mk.injEq] at hf
  simp only [State.timePart, State.onWorks_clk, State.onWorks_lane, Prod.mk.injEq] at ht
  refine ⟨⟨hf.1, hf.2.1, hf.2.2.1, hf.2.2.2.1, hf.2.2.2.2.2, ?_, rfl, ?_⟩, ht.1⟩
  · intro l
    rw [State.withDue_lane]
    simpa only [Prod.mk.injEq] using congrFun ht.2 l
  · refine hp.trans ?_
    by_cases hm : Work.peers ∈ left
    · simp [hm, peers_mem_allWork, heldBack_peers]
    · simp [hm, peers_mem_allWork, heldBack_peers]
      intro p _
      rfl

end Sys2Proof.Machine
end

