-- ==== Sys2Proof/Tests/Slice0.lean ====
section
/-! SUPPORT. The tests: the WellFormed smoke test, worked values of the data book, and for every statement with
hypotheses a state and operands that meet them, clause by clause at the ends of their ranges. -/

namespace Sys2Proof.Tests

open Sys2Proof.Machine

set_option Elab.async false

/-! ## WellFormed refuses what it should -/

theorem test_short_image_is_refused :
    (Instr.configurationLoad (List.replicate 253 0)).check = .error .imageLength ∧
      (Instr.configurationLoad (List.replicate 254 0)).wellFormed = true := by decide +kernel

theorem test_overlong_message_is_refused :
    (Instr.messageReceived .a 0 (.closing (List.replicate 268 0))).check = .error .messageTooLong ∧
      (Instr.messageReceived .a 0 (.whole (List.replicate 268 0))).check = .error .messageTooLong ∧
      (Instr.messageReceived .a 0 (.closing (List.replicate 267 0))).wellFormed = true := by decide +kernel

theorem test_repeated_work_is_refused :
    (Instr.refPulse 1 [.timebase, .timebase]).check = .error .leftRepeats ∧
      (Instr.refLost [.report, .report]).check = .error .leftRepeats ∧
      (Instr.freeRunBoundary [.claimSet, .claimSet]).check = .error .leftRepeats ∧
      (Instr.refPulse 1 [.timebase, .report]).wellFormed = true := by decide +kernel

theorem test_overlong_echo_is_refused :
    (Instr.copyEnd .a (List.replicate 175 .stop)).check = .error .echoTooLong ∧
      (Instr.copyEnd .a (List.replicate 174 .stop)).wellFormed = true := by decide +kernel

/-! ## Worked values of the data book -/

/-- R2: the check over the nine bytes 31H to 39H is 29B1H. -/
theorem test_crc_check_value :
    crc16 [0x31, 0x32, 0x33, 0x34, 0x35, 0x36, 0x37, 0x38, 0x39] = 0x29B1 := by decide +kernel

/-- 03 section 3.5, "forming a sample": station 12's TALLY gives 204,900, and a sample across the wrap of 2^42 the
same small difference. -/
theorem test_sample_is_formed :
    formSample 40 102297840 102092900 = (204900, false) ∧
    formSample 0 3 (BitVec.ofNat 42 (2 ^ 42 - 4)) = (7, false) := by
  decide +kernel

/-- 03 section 3.5, "filter, outliers and restart": the steps from e = 5,000 with g 3 and outlier_limit 64. -/
theorem test_filter_steps :
    (({ valid := true, e := 5000, run := 0, sat := false } : Estimator).take Config.default 5013 false).est.e = 5002 ∧
      (({ valid := true, e := 5003, run := 0, sat := false } : Estimator).take Config.default 5007 false).est.e = 5003 ∧
      (({ valid := true, e := 5003, run := 0, sat := false } : Estimator).take Config.default 5015 false).est.e = 5005 ∧
      (({ valid := true, e := 5005, run := 0, sat := false } : Estimator).take Config.default 4993 false).est.e = 5003 ∧
      (({ valid := true, e := 5003, run := 0, sat := false } : Estimator).take Config.default 5200 false).est.run = 1 := by
  decide +kernel

/-- R137: its table. -/
theorem test_take_conversion :
    convertFrame (some 700) 100005 = 100004 ∧ convertFrame (some 512) 100005 = 100004 ∧
      convertFrame (some (-300)) 100005 = 100005 ∧ convertFrame (some (-512)) 100005 = 100006 := by decide +kernel

/-- The list of the takeover example of spec 07, its indices 6 to 9 first. -/
def exampleList : List EventRec :=
  [{ event := 41, clip := 1041, mode := .follow, duration := 200, startFrame := 0 },
    { event := 42, clip := 1042, mode := .follow, duration := 1500, startFrame := 0 },
    { event := 43, clip := 1043, mode := .fixed, duration := 3000, startFrame := 101200 },
    { event := 44, clip := 1044, mode := .follow, duration := 0, startFrame := 0 }]

/-- The event that the takeover example of spec 07 gives, and its successor at 101,400. -/
def exampleE42 : CurEvent :=
  { place := .at 1, event := 42, clip := 1042, entry := 25, start := 99980, endAt := some 101400,
    natEnd := some 101480, held := false }

/-- E42 as the list holds it. -/
def event42 : EventRec := { event := 42, clip := 1042, mode := .follow, duration := 1500, startFrame := 0 }

/-- A computation over that list. -/
def exampleFlight (kind : JoinKind) (take : Frame) : JoinFlight :=
  { req := { chan := 0, kind := kind, gen := 1, take := take, curEnd := some take, atSwitch := false },
    list := exampleList, cur := some exampleE42, anchor := some 200,
    tally := some { rev := 611, digest := 0, phase := .playing, event := some (41, 120), readyFrame := none,
                    stamp := 99700 * 1024 },
    estimate := some 204900 }

/-- 07, "a takeover joined mid-event": E42 with entry 25 from 100,005 to 101,400, anchor 200. -/
theorem test_takeover_example :
    (exampleFlight .takeover 100005).takeover 900 =
      { outcome := .take exampleE42, anchor := some 200, due := [] } := by decide +kernel

/-- 07, "a takeover joined mid-event" and "a hold and a late resume": E43 follows at 101,400 with entry 0; a RESUME at
101,905 gives E43 with entry 505, and one at 104,500 skips it and gives E44 with entry 0. -/
theorem test_follow_and_resume_examples :
    (exampleFlight .follow 101400).imposed 900 false =
        { outcome := .take { place := .at 2, event := 43, clip := 1043, entry := 0, start := 101400,
                             endAt := some 104400, natEnd := some 104400, held := false }
          anchor := none, due := [] } ∧
      (exampleFlight .resume 101905).imposed 900 false =
        { outcome := .take { place := .at 2, event := 43, clip := 1043, entry := 505, start := 101400,
                             endAt := some 104400, natEnd := some 104400, held := false }
          anchor := none, due := [] } ∧
      (exampleFlight .resume 104500).imposed 900 false =
        { outcome := .take { place := .at 3, event := 44, clip := 1044, entry := 0, start := 104500, endAt := none,
                             natEnd := none, held := false }
          anchor := none, due := [] } := by decide +kernel

/-- 11 section 11.4, "a corrected image": the eight corrections. -/
theorem test_corrected_image :
    (correctImage { Config.default with
        suspectFrames := 12, lossFrames := 8, preroll := 35, handbackLead := 20, claimExpiry := 6, bidWindow := 4,
        limit := 2500, clip := 2000
        map := ((Vector.replicate 16 MapEntry.blank).set 3
          { MapEntry.blank with enabled := true, bus := 41 }).set 11
          { MapEntry.blank with enabled := true, bus := 41 } |>.set 5
          { MapEntry.blank with enabled := true, bus := 8, prec := 0, alternate := some (1, 0) } }).2 = 8 := by
  decide +kernel

/-! ## The states of the witnesses -/

/-- Channel 0 of bus channel 7, with origin 1, standby origin 2, and ports at the servers 10 and 11. -/
def demoEntry : MapEntry :=
  { enabled := true, armed := true, bus := 7, origin := 1, standby := 2, prec := 5, primary := (10, 3),
    alternate := some (11, 4), filler := 900 }

/-- Station 40 may send every directive for channel 0, station 41 none; station 30 is the time station. -/
def demoCfg : Config :=
  { Config.default with
    timeStation := 30
    control := #v[{ id := 40, perm := 0x3FF, mask := 1 }, { id := 41, perm := 0, mask := 1 },
      { id := 42, perm := 0x3FF, mask := 0 }, { id := 0, perm := 0, mask := 0 }]
    map := (Vector.replicate 16 MapEntry.blank).set 0 demoEntry }

/-- Station 21 just begun. -/
def demo : State := ({ State.reset with own := 21, peers := peerTable 21 }).start demoCfg (.good 0)

/-- Station 21 with its channel 0 as a function makes it. -/
def demoAt (f : Context → Context) : State := demo.onWorks fun w => w.mod 0 f

/-- A port record of channel 0, its server heard. -/
def demoPort (server port : Nat) (pending withdrawn : Option Take) : PortRec :=
  { server := server, port := port, pending := pending, onAirTag := 0, withdrawn := withdrawn, silent := 0 }

/-- A TAKE of a source with its countdowns. -/
def demoTake (source : JoinKind) (arm take : Nat) : Take :=
  { tag := 3, source := source, takeLocal := 20, k := 20, outcome := exampleE42, seen := false, armCount := arm,
    takeCount := take }

/-- Channel 0 in a state, its current event on its primary port. -/
def demoAir (st : ChState) (f : Context → Context) : State :=
  demoAt fun x =>
    f { x with state := st, cur := some exampleE42, anchor := some 200, prim := some (demoPort 10 3 none none) }

/-- A received message, serial 9. -/
def rx (sender : Byte) (kind : MsgKind) (payload : List Byte) : RxMsg :=
  { sender := sender, kind := kind, serial := 9, stamp := 2048, payload := payload, arrival := 4096 }

/-- A message is the oldest entry of lane A's queue. -/
def hears (s : State) (m : RxMsg) : State := s.modLane .a fun x => { x with queue := [m] }

/-- Work of a boundary is outstanding. -/
def owes (s : State) (ks : List Work) : State := { s with due := ks }

/-- A directive from a station to the part for bus channel 7. -/
def order (sender : Byte) (kind : DirKind) : RxMsg :=
  rx sender .directive [21, 1, BitVec.ofNat 8 kind.code, 7]

/-- Channel 0 after the header of a message from lane A is taken. -/
def heardAt (s : State) (m : RxMsg) : Context := ((s.heard .a (Peer.reset m.sender.toNat) m).works).at 0

/-- A computation is in flight. -/
def computing (s : State) (f : JoinFlight) : State :=
  s.onWorks fun w => { w with join := { queue := [], flight := some f } }

/-- The directive that `order` spells. -/
def ordered (kind : DirKind) : Directive := { target := 21, number := 1, kind := kind, bus := 7 }

/-- A directive from station 40 passes checks 1 to 5 for channel 0. -/
def passes (s : State) (kind : DirKind) : Prop :=
  (hears s (order 40 kind)).Passes .a (order 40 kind) (Peer.reset 40) (ordered kind) 0 0

/-- The state that a command leaves. -/
def after (s : State) (i : Instr) : State :=
  match step { s with pending := [i] } with
  | .next t => t
  | _ => s

/-! ## Witnesses: reset, loading and CONFIG_FAULT -/

/-- Station 21 while it loads. -/
def loading : State := { State.reset with load := .loading, own := 21, peers := peerTable 21 }

/-- The first 252 bytes of an image with one channel enabled. -/
def demoBody : List Byte := List.replicate 44 0 ++ [1, 7] ++ List.replicate 206 0

/-- The image: those bytes and their check. -/
def demoImage : List Byte := demoBody ++ [0x9B, 0xA8]

theorem demoBody_check : crc16 demoBody = 0x9BA8 := by
  have h1 : (demoBody.take 63).foldl crcByte 0xFFFF = 48559 := by decide +kernel
  have h2 : ((demoBody.drop 63).take 63).foldl crcByte 48559 = 49857 := by decide +kernel
  have h3 : ((demoBody.drop 126).take 63).foldl crcByte 49857 = 33160 := by decide +kernel
  have h4 : (demoBody.drop 189).foldl crcByte 33160 = 39848 := by decide +kernel
  have h : demoBody = demoBody.take 63 ++ ((demoBody.drop 63).take 63 ++ ((demoBody.drop 126).take 63 ++
      demoBody.drop 189)) := by decide +kernel
  rw [h, crc16, List.foldl_append, List.foldl_append, List.foldl_append, h1, h2, h3, h4]
  rfl

/-- The same bytes with one of them flipped, and the image that carries the old check. -/
def brokenBody : List Byte := demoBody.take 251 ++ [1]

/-- The image that fails its check. -/
def brokenImage : List Byte := brokenBody ++ [0x9B, 0xA8]

theorem brokenBody_check : crc16 brokenBody = 0x8B89 := by
  have h1 : (brokenBody.take 126).foldl crcByte 0xFFFF = 49857 := by decide +kernel
  have h2 : ((brokenBody.drop 126).take 63).foldl crcByte 49857 = 33160 := by decide +kernel
  have h3 : (brokenBody.drop 189).foldl crcByte 33160 = 0x8B89 := by decide +kernel
  have h : brokenBody = brokenBody.take 126 ++ ((brokenBody.drop 126).take 63 ++ brokenBody.drop 189) := by
    decide +kernel
  rw [h, crc16, List.foldl_append, List.foldl_append, h1, h2, h3]
  rfl

theorem witness_StrapsAndImageDecideTheLoad :
    (State.reset.load = .reset ∧ (1 ≤ (1 : BitVec 6).toNat ∧ (62 : BitVec 6).toNat ≤ 62) ∧
        (0 : BitVec 6).toNat = 0 ∧ (63 : BitVec 6).toNat = 63 ∧ demo.load ≠ .reset) ∧
      (loading.load = .loading ∧ brokenImage.length = 254 ∧
        (crc16 (brokenImage.take 252)).toNat ≠ fieldAt brokenImage 252 2) ∧
      demoImage.length = 254 ∧ (crc16 (demoImage.take 252)).toNat = fieldAt demoImage 252 2 ∧
      (correctImage (readImage demoImage)).1.map[0].enabled = true ∧
      (correctImage (readImage demoImage)).1.map[1].enabled = false := by
  have h : demoImage.take 252 = demoBody := by decide +kernel
  have hb : brokenImage.take 252 = brokenBody := by decide +kernel
  rw [h, hb, demoBody_check, brokenBody_check]
  decide +kernel

theorem witness_CorrectedImageIsSoundAndStable :
    Corrected demoCfg ∧ demoCfg.control[(0 : Fin 4)].id ≠ 0 ∧ demoCfg.map[(0 : Chan)].enabled = true ∧
      demoImage.length = 254 := by
  unfold Corrected
  simp only [← Option.mem_def]
  refine ⟨⟨?_, ?_, ?_, ?_, ?_⟩, ?_⟩ <;> decide +kernel

/-! ## Witnesses: reference and boundaries -/

/-- Station 21 locked, with a measured period of 1,000,000. -/
def locked : State := demo.withClk { demo.clk with monitor := .locked }

theorem witness_LockedPulseIsJudged :
    locked.Ready ∧ locked.clk.monitor = .locked ∧ locked.clk.loadPending = false ∧
      2 * (locked.clk.elapsed + 499999) < locked.clk.period ∧ locked.clk.period ≤ 2 * (locked.clk.elapsed + 500000) ∧
      2 * (locked.clk.elapsed + 1500000) ≤ 3 * locked.clk.period := by
  unfold State.Ready; decide +kernel

theorem witness_FreeRunPulsesAndBoundaries :
    (demo.Ready ∧ demo.clk.monitor = .freeRun ∧ demo.clk.loadPending = false ∧
        (demo.clk.advance 499999).phase = 511 ∧ (demo.clk.advance 500000).phase = 512 ∧
        (demo.clk.advance 0).phase = 0) ∧
      locked.Ready ∧ locked.clk.loadPending = false ∧ locked.clk.monitor = .locked := by
  unfold State.Ready; decide +kernel

/-- A load to V = 700 is pending; the estimate of station 1 is valid. -/
def pending700 : State :=
  owes { demo with
         clk := { demo.clk with loadPending := true, pendingValue := 700 }
         peers := modPeer demo.peers 1 fun p => { p with est := { p.est with valid := true, e := 5 } } }
    [.timebase]

theorem witness_TimeLoadIsMade :
    (Work.timebase ∈ pending700.due ∧ ∀ j ∈ pending700.due, waitsFor .timebase j = false) ∧
      pending700.clk.loadPending = true ∧
      (∀ c, (pending700.works.at c).state ≠ .bidding ∧ (pending700.works.at c).state ≠ .cueing ∧
        (pending700.works.at c).state ≠ .onAir ∧ (pending700.works.at c).state ≠ .returning) ∧
      (pending700.peers.filter fun p => p.est.valid && !p.est.sat && decide
        (2147483647 < (p.est.e + frameDiff pending700.clk.pendingValue pending700.clk.count * 1024).natAbs)).map
          Peer.station = [] := by
  decide +kernel

/-- The same load with estimates at the end of their range: station 1 is held at the bound, station 2 was so before. -/
def saturating : State :=
  { pending700 with
    peers := modPeer (modPeer demo.peers 1 fun p => { p with est := { p.est with valid := true, e := 2147483647 } }) 2
      fun p => { p with est := { p.est with valid := true, e := 2147483647, sat := true } } }

theorem witness_TimeLoadIsMade_saturates :
    (Work.timebase ∈ saturating.due ∧ ∀ j ∈ saturating.due, waitsFor .timebase j = false) ∧
      saturating.clk.loadPending = true ∧
      (saturating.peers.filter fun p => p.est.valid && !p.est.sat && decide
        (2147483647 < (p.est.e + frameDiff saturating.clk.pendingValue saturating.clk.count * 1024).natAbs)).map
          Peer.station = [1] := by decide +kernel

/-- Station 21 locked, a claim table about to age, and the rest of the boundary's work done. -/
def ageing : State := owes locked [.claimAge 0, .claimSet]

theorem witness_BoundaryDoesItsWork :
    (locked.Ready ∧ locked.clk.monitor = .locked ∧ locked.clk.period ≤ 2 * (locked.clk.elapsed + 500000) ∧
        2 * (locked.clk.elapsed + 1500000) ≤ 3 * locked.clk.period) ∧
      (demo.Ready ∧ demo.clk.monitor = .freeRun) ∧
      allWork.filter (heldBack [.claimAge 0]) ≠ [] ∧ allWork.filter (fun k => !heldBack [.claimAge 0] k) ≠ [] ∧
      ageing.running = true ∧ ageing.due ≠ [] ∧ receiveCommand .a .tally = some (.receiveTally .a) := by
  unfold State.Ready; decide +kernel

/-! ## Witnesses: lines and copies -/

/-- Lane A's receiver in a mode. -/
def mode (s : State) (m : RxMode) : State := s.modLane .a fun x => { x with mode := m }

/-- A queue of eight messages. -/
def full : State :=
  (mode demo (.receiving 5)).modLane .a fun x => { x with queue := List.replicate 8 (rx 1 .report []) }

theorem witness_MessagesAreQueuedOrDiscarded_queued :
    (mode demo (.receiving 5)).Ready ∧ ((mode demo (.receiving 5)).lane .a).mode = .receiving 5 ∧
      (List.replicate 65 (0 : Byte)).length ≤ MsgKind.largest .tally ∧
      ((mode demo (.receiving 5)).lane .a).queue.length < 8 ∧ full.Ready ∧ (full.lane .a).mode = .receiving 5 ∧
      8 ≤ (full.lane .a).queue.length := by
  unfold State.Ready; decide +kernel

/-- Twelve bytes of a kind, with a payload length and their check. -/
def framed (kind len : Byte) (payload : List Byte) : List Byte :=
  let body := [1, kind, 0, len, 0, 0, 0, 0, 0, 0] ++ payload
  body ++ beBytes 2 (crc16 body).toNat

theorem witness_MessagesAreQueuedOrDiscarded :
    demo.Ready ∧ (demo.lane .a).mode = .hunting false ∧ (mode demo (.receiving 5)).Ready ∧
      ((mode demo (.receiving 5)).lane .a).mode = .receiving 5 ∧ (mode demo (.hunting true)).Ready ∧
      ((mode demo (.hunting true)).lane .a).mode = .hunting true ∧
      (4 ≤ (List.replicate 13 (0 : Byte)).length ∧
        12 + fieldAt (List.replicate 13 0) 3 1 < (List.replicate 13 (0 : Byte)).length) ∧
      ([0, 0, 0] : List Byte).length < 4 ∧
        (List.replicate 11 (0 : Byte)).length < 12 + fieldAt (List.replicate 11 0) 3 1 ∧
      (List.replicate 12 (0 : Byte)).length = 12 + fieldAt (List.replicate 12 0) 3 1 ∧
      (crc16 ((List.replicate 12 (0 : Byte)).take 10)).toNat ≠ fieldAt (List.replicate 12 0) 10 2 ∧
      (framed 10 0 []).length = 12 + fieldAt (framed 10 0 []) 3 1 ∧
      (crc16 ((framed 10 0 []).take 10)).toNat = fieldAt (framed 10 0 []) 10 2 ∧
      MsgKind.ofCode (fieldAt (framed 10 0 []) 1 1) = none ∧
      (framed 7 5 [0, 0, 0, 0, 0]).length = 12 + fieldAt (framed 7 5 [0, 0, 0, 0, 0]) 3 1 ∧
      (crc16 ((framed 7 5 [0, 0, 0, 0, 0]).take 15)).toNat = fieldAt (framed 7 5 [0, 0, 0, 0, 0]) 15 2 ∧
      MsgKind.ofCode (fieldAt (framed 7 5 [0, 0, 0, 0, 0]) 1 1) = some .timeMark ∧
      MsgKind.largest .timeMark < fieldAt (framed 7 5 [0, 0, 0, 0, 0]) 3 1 := by
  unfold State.Ready; decide +kernel

/-- A message to send, and one in flight with its two copies. -/
def sentReport : OutMsg := .report []

/-- The message in flight. -/
def flying (a b : Copy) : TxFlight := { cls := .routine, msg := sentReport, serial := 0, copyA := a, copyB := b }

/-- Station 21 with a message in flight. -/
def sends (s : State) (a b : Copy) : State :=
  s.onWorks fun w => { w with tx := { w.tx with flight := some (flying a b) } }

theorem witness_MessagesArePickedAndSent_pick :
    (demo.works.tx.flight = none ∧ demo.works.tx.urgent = [] ∧ demo.works.tx.routine = [] ∧
        demo.works.tx.bulk = []) ∧
      ({ Transmitter.reset with routine := [sentReport], account := 900 }).account ≤ demoCfg.limit ∧
      demoCfg.limit < ({ Transmitter.reset with routine := [sentReport], account := 901 }).account ∧
      ({ Transmitter.reset with bulk := [sentReport], account := 450 }).account ≤ demoCfg.limit / 2 ∧
      demoCfg.limit / 2 < ({ Transmitter.reset with bulk := [sentReport], account := 451 }).account := by
  decide +kernel

theorem witness_MessagesArePickedAndSent_begins :
    (sends demo (.waiting 0) (.waiting 0)).Ready ∧
      (sends demo (.waiting 0) (.waiting 0)).works.tx.flight = some (flying (.waiting 0) (.waiting 0)) ∧
      (flying (.waiting 0) (.waiting 0)).copy .a = .waiting 0 ∧
      ((sends demo (.waiting 0) (.waiting 0)).lane .a).mode = .hunting false := by
  unfold State.Ready; decide +kernel

theorem witness_MessagesArePickedAndSent :
    (([.start, .stop] : List Symbol) = .start :: ([] : List Byte).map Symbol.data ++ [.stop] ∧
        ([.start] : List Symbol) <+: [.start, .stop] ∧ ([] : List Symbol) <+: [.start, .stop] ∧
        ¬([.other, .stop] : List Symbol) <+: [.start, .stop] ∧
        ¬([.start, .stop, .stop] : List Symbol) <+: [.start, .stop]) ∧
      (mode (sends demo (.sending []) .sent) .echo).Ready ∧
      (mode (sends demo (.sending []) .sent) .echo).works.tx.flight = some (flying (.sending []) .sent) ∧
      (flying (.sending []) .sent).copy .a = .sending [] ∧
      ((mode (sends demo (.sending []) .sent) .echo).lane .a).mode = .echo ∧ Lane.b ≠ Lane.a ∧
      (flying (.sending []) .sent).copy .b = .sent ∧ (flying (.sending []) .abandoned).copy .b = .abandoned ∧
      (flying (.sending []) (.waiting 1)).copy .b = .waiting 1 := by
  unfold State.Ready; decide +kernel

theorem witness_MessagesArePickedAndSent_abandons :
    (owes (sends demo (.waiting 1) .sent) [.busy .a]).Outstanding (.busy .a) ∧
      (owes (sends demo (.waiting 1) .sent) [.busy .a]).works.tx.flight = some (flying (.waiting 1) .sent) ∧
      (flying (.waiting 1) .sent).copy .a = .waiting 1 ∧ Lane.b ≠ Lane.a ∧
      (flying (.waiting 1) .abandoned).copy .b = .abandoned ∧
      (flying (.waiting 1) (.waiting 0)).copy .b ≠ .sent ∧ (flying (.waiting 1) (.waiting 0)).copy .b ≠ .abandoned := by
  unfold State.Outstanding; decide +kernel

/-- A CUE for a port of server 10. -/
def cueTo (port : Nat) : Cue := { server := 10, port := port, tag := 1, body := .cancel }

/-- Channel 0 in a state with a handback, RELEASEs to send, and an URGENT queue. -/
def claiming (st : ChState) (hb : Handback) (release : Nat) (urgent : List OutMsg) : State :=
  (demoAt fun x => { x with state := st, handback := hb, release := release }).onWorks fun w =>
    { w with tx := { w.tx with urgent := urgent } }

theorem witness_UrgentPlacementsAreMade :
    (((claiming .bidding .absent 0 []).works.at 0).state = .bidding ∧
        ((claiming .onAir .absent 2 []).works.at 0).state = .onAir ∧
        ((claiming .returning (.agreed .set 9 8 7 0) 0 []).works.at 0).handback = .agreed .set 9 8 7 0 ∧
        ((claiming .yielded .absent 2 []).works.at 0).state ∉ [.bidding, .cueing, .onAir, .returning] ∧
        0 < ((claiming .yielded .absent 1 []).works.at 0).release ∧
        ((claiming .mirroring .absent 0 []).works.at 0).release = 0) ∧
      (∃ before old after, (claiming .onAir .absent 0 [.claim [], .cue (cueTo 3)]).works.tx.urgent =
          before ++ old :: after ∧ old.isCueTo 10 3 = true ∧ ∀ m ∈ before, m.isCueTo 10 3 = false) ∧
      ((∀ m ∈ (claiming .onAir .absent 0 (List.replicate 15 (.claim []))).works.tx.urgent, m.isCueTo 10 3 = false) ∧
        (claiming .onAir .absent 0 (List.replicate 15 (.claim []))).works.tx.urgent.length + 0 < 16) ∧
      16 ≤ (claiming .onAir .absent 0 (List.replicate 16 (.cue (cueTo 4)))).works.tx.urgent.length ∧
      (claiming .onAir .absent 0 []).works.notices.ring.length ≤ 32 :=
  ⟨by decide +kernel, ⟨[.claim []], .cue (cueTo 3), [], by decide +kernel⟩, by decide +kernel, by decide +kernel,
    by decide +kernel⟩

/-! ## Witnesses: the dispatcher and the channel watch -/

/-- The message is accepted on lane A from the station that sent it. -/
def accepted (s : State) (m : RxMsg) : Prop := (hears s m).Accepts .a m (Peer.reset m.sender.toNat)

/-- The record of station 1 holds serial 9, taken within two boundaries. -/
def repeating : State :=
  { demo with peers := modPeer demo.peers 1 fun p => { p with lastSerial := some 9, since := 2 } }

theorem witness_BadMessagesAreDropped_unaccepted :
    (hears demo (rx 0 .report [])).Ready ∧ ((hears demo (rx 0 .report [])).lane .a).queue = rx 0 .report [] :: [] ∧
      receiveCommand .a (rx 0 .report []).kind = some (.receiveReport .a) ∧ (rx 0 .report []).sender.toNat = 0 ∧
      (rx 63 .report []).sender.toNat = 63 ∧ (rx 21 .report []).sender.toNat = demo.own ∧
      (hears repeating (rx 1 .report [])).Ready ∧ (rx 1 .report []).sender.toNat ≠ repeating.own ∧
      (findPeer repeating.peers 1).map (fun p => (p.lastSerial, p.since)) = some (some 9, 2) := by
  unfold State.Ready; decide +kernel

theorem witness_AcceptedHeaderIsTaken :
    accepted demo (rx 62 .report ([1] ++ List.replicate 159 0)) ∧
      reportWellFormed ([1] ++ List.replicate 159 0) = true ∧
      accepted demo (rx 1 .asRun ([1, 0] ++ List.replicate 32 0)) ∧
      asRunWellFormed ([1, 0] ++ List.replicate 32 0) = true ∧
      accepted demo (rx 1 .cue [10, 3, 2, 0, 1]) ∧ cueWellFormed [10, 3, 2, 0, 1] = true := by
  unfold accepted State.Accepts State.Ready; decide +kernel

/-- A message of the kind without a payload, accepted with the command that takes it. -/
def emptyTaken (k : MsgKind) (i : Instr) : Prop :=
  accepted demo (rx 1 k []) ∧ receiveCommand .a k = some i

theorem witness_BadMessagesAreDropped :
    (emptyTaken .tally (.receiveTally .a) ∧ emptyTaken .segment (.receiveSegment .a) ∧
        emptyTaken .claim (.receiveClaim .a) ∧ emptyTaken .cue (.receiveCue .a) ∧
        emptyTaken .portStatus (.receivePortStatus .a) ∧ emptyTaken .timeMark (.receiveTimeMark .a) ∧
        emptyTaken .report (.receiveReport .a) ∧ emptyTaken .asRun (.receiveAsRun .a)) ∧
      (readTally [] = none ∧ readSegment [] = none ∧ readClaim [] = none ∧ cueWellFormed [] = false ∧
        readPortStatus [] = none ∧ readTimeMark [] = none ∧ reportWellFormed [] = false ∧
        asRunWellFormed [] = false) ∧
      accepted demo (rx 1 .directive []) ∧ RxMsg.isDirective .arm (rx 1 .directive []) = true ∧
      readDirective [] = none := by
  unfold emptyTaken accepted State.Accepts State.Ready
  refine ⟨⟨?_, ?_, ?_, ?_, ?_, ?_, ?_, ?_⟩, ?_, ?_⟩ <;> decide +kernel

/-- A TALLY of one plain entry. -/
def tally (sender bus phase : Byte) : RxMsg := rx sender .tally [1, 8, 0, bus, phase, 0, 0, 0, 0]

/-- A TALLY of one entry with event 42 at offset 0. -/
def tally42 (sender phase : Byte) : RxMsg := rx sender .tally [1, 16, 1, 7, phase, 0, 0, 0, 0, 0, 0, 0, 42, 0, 0, 0, 0]

theorem witness_UnusableContentIsSkipped :
    accepted demo (tally 1 8 2) ∧ (readTally (tally 1 8 2).payload).map (fun es => es.map TallyEntry.bus) = some [8] ∧
      Config.localOf demo.cfg 8 = none ∧ accepted demo (tally 3 7 2) ∧ Config.localOf demo.cfg 7 = some 0 ∧
      demo.cfg.map[(0 : Chan)].origin ≠ 3 ∧ demo.cfg.map[(0 : Chan)].standby ≠ 3 ∧ accepted demo (tally 2 7 1) ∧
      (readTally (tally 2 7 1).payload).map (fun es => es.map fun e => (e.phase, e.event)) = some [(.holding, 0)] ∧
      demo.cfg.map[(0 : Chan)].standby = 2 ∧ accepted demo (rx 1 .segment [7, 0, 1, 0, 0, 0]) ∧
      (readSegment [7, 0, 1, 0, 0, 0]).map SegmentMsg.total = some 0 ∧
      (accepted demo (rx 40 .directive [22, 1, 1, 7]) ∧
        readDirective [22, 1, 1, 7] = some { target := 22, number := 1, kind := .arm, bus := 7 } ∧
        readDirective [0, 1, 10, 0] = some { target := 0, number := 1, kind := .retime, bus := 0 } ∧ 22 ≠ demo.own) ∧
      (readSegment [7, 0, 1, 0, 33, 0]).map SegmentMsg.total = some 33 ∧
      (readSegment [7, 0, 1, 1, 1, 0]).map (fun g => (g.index, g.total)) = some (1, 1) := by
  unfold accepted State.Accepts State.Ready; decide +kernel

/-- A PORT STATUS of two ports, a CLAIM of two entries and a TALLY of two entries. -/
def pairs : List RxMsg :=
  [rx 10 .portStatus [2, 3, 2, 0, 0, 0, 3, 5, 0, 0, 0, 0, 0], rx 3 .claim [7, 1, 5, 7, 3, 5],
    rx 1 .tally [2, 8, 0, 7, 2, 0, 0, 0, 0, 8, 0, 7, 2, 0, 1, 0, 0]]

theorem witness_EveryEntryActsInOrder :
    (∀ m ∈ pairs, accepted demo m) ∧
      (readPortStatus [2, 3, 2, 0, 0, 0, 3, 5, 0, 0, 0, 0, 0]).map List.length = some 2 ∧
      (readClaim [7, 1, 5, 7, 3, 5]).map List.length = some 2 ∧
      (readTally [2, 8, 0, 7, 2, 0, 0, 0, 0, 8, 0, 7, 2, 0, 1, 0, 0]).map List.length = some 2 ∧
      (demo.works.at 0).prim.map PortRec.server = some 10 := by
  unfold accepted State.Accepts State.Ready; decide +kernel

/-- A tally of channel 0 whose stamp is a number of ticks after that of the witnesses' messages. -/
def tallied (s : State) (ticks : Int) : State :=
  s.onWorks fun w => w.mod 0 fun x =>
    { x with tally := some { rev := 0, digest := 0, phase := .standby, event := none, readyFrame := none,
                             stamp := 2048 + BitVec.ofInt 42 ticks } }

theorem witness_MainTallyIsTaken :
    accepted demo (tally 1 7 2) ∧ demo.cfg.map[(0 : Chan)].origin = (tally 1 7 2).sender.toNat ∧
      (readTally (tally 1 7 2).payload).map (fun es => es.map TallyEntry.phase) = some [.standby] ∧
      (heardAt (hears demo (tally 1 7 2)) (tally 1 7 2)).tally = none ∧
      accepted (tallied demo 1) (tally 1 7 2) ∧ tickDiff 2048 2049 = -1 ∧ accepted (tallied demo 4096) (tally 1 7 2) ∧
      tickDiff 2048 6144 = -4096 ∧ tickDiff 2048 6145 = -4097 ∧
      (heardAt (hears (tallied (demoAir .onAir id) 1) (tally42 1 0)) (tally42 1 0)).state = .onAir ∧
      accepted (demoAir .onAir id) (tally42 1 0) ∧
      (readTally (tally42 1 0).payload).map (fun es => es.map fun e => (e.phase, e.event)) = some [(.playing, 42)] ∧
      (heardAt (hears (demoAir .onAir id) (tally42 1 0)) (tally42 1 0)).dualSeen = false ∧
      accepted (demoAir .onAir fun x => { x with dualSeen := true }) (tally42 1 1) ∧
      (heardAt (hears (demoAir .onAir fun x => { x with dualSeen := true }) (tally42 1 1)) (tally42 1 1)).dualSeen = true ∧
      accepted (demoAt fun x => { x with state := .bidding }) (tally 1 7 2) ∧
      (heardAt (hears (demoAt fun x => { x with state := .bidding }) (tally 1 7 2)) (tally 1 7 2)).state = .bidding := by
  unfold accepted State.Accepts State.Ready; decide +kernel

/-- Channel 0 in RETURNING with H peer at a frame; the stamp 2048 lies in frame 2. -/
def handing (hPeer : Frame) : State := demoAir .returning fun x => { x with handback := .agreed .set 9 hPeer 43 0 }

theorem witness_MainTallyIsTaken_returning :
    (accepted (handing 3) (tally42 1 0) ∧
        (heardAt (hears (handing 3) (tally42 1 0)) (tally42 1 0)).handback = .agreed .set 9 3 43 0 ∧
        frameDiff (BitVec.ofNat 32 ((tally42 1 0).stamp.toNat / 1024)) 3 < 0) ∧
      accepted (handing 2) (tally42 1 0) ∧ 0 ≤ frameDiff (BitVec.ofNat 32 ((tally42 1 0).stamp.toNat / 1024)) 2 := by
  unfold accepted State.Accepts State.Ready; decide +kernel

/-- Channel 0 in a state with its judgement outstanding, origin seen, at an age, with one event in its live list. -/
def watched (st : ChState) (age : Byte) (f : Context → Context) : State :=
  owes (demoAt fun x =>
      f { x with state := st, seen := true, age := age, mirror := { x.mirror with live := exampleList } })
    [.watch 0]

theorem witness_SuspectAndLossAreJudged :
    (watched .mirroring 3 id).Outstanding (.watch 0) ∧ ((watched .mirroring 3 id).works.at 0).state = .mirroring ∧
      ((watched .mirroring 3 id).works.at 0).seen = true ∧
      (watched .mirroring 3 id).cfg.suspectFrames ≤ ((watched .mirroring 3 id).works.at 0).age.toNat ∧
      ((watched .suspect 10 id).works.at 0).state = .suspect ∧
      (watched .suspect 10 id).cfg.lossFrames ≤ ((watched .suspect 10 id).works.at 0).age.toNat ∧
      ((watched .suspect 10 id).works.at 0).armed = true ∧ (watched .suspect 10 id).isolated = false ∧
      ((watched .suspect 10 id).works.at 0).mirror.live ≠ [] ∧
      ((watched .suspect 10 id).works.at 0).mirror.status ≠ .mismatch ∧
      (∀ r ∈ ((watched .suspect 10 id).works.at 0).table, r.kind = .bid) ∧
      (∃ r ∈ ((watched .suspect 10 fun x => { x with table := [{ station := 3, kind := .hold, prec := 5, age := 0 }] }).works.at
        0).table, r.kind = .hold) ∧
      ((watched .suspect 10 fun x => { x with armed := false }).works.at 0).armed = false ∧
      { watched .suspect 10 id with isolated := true }.isolated = true ∧
      ((watched .suspect 10 fun x => { x with mirror := { x.mirror with live := [] } }).works.at 0).mirror.live = [] ∧
      ((watched .suspect 10 fun x => { x with mirror := { x.mirror with status := .mismatch } }).works.at
        0).mirror.status = .mismatch := by
  unfold State.Outstanding; decide +kernel

/-- Lanes with quiet counts. -/
def quiet (n m : Byte) (k : Work) : State :=
  owes { demo with laneA := { demo.laneA with quietCount := n }, laneB := { demo.laneB with quietCount := m } } [k]

/-- Both lanes in ECHO_FAULT, channel 0 in BIDDING. -/
def faulty : State :=
  owes { (demoAt fun x => { x with state := .bidding }) with
         laneA := { demo.laneA with state := .echoFault }, laneB := { demo.laneB with state := .echoFault } }
    [.isolation]

theorem witness_LanesAndIsolationAreJudged :
    (quiet 3 0 (.laneJudge .a)).Outstanding (.laneJudge .a) ∧ ((quiet 3 0 (.laneJudge .a)).lane .a).echoRun.toNat < 3 ∧
      (quiet 3 0 (.laneJudge .a)).cfg.laneQuietFrames ≤ ((quiet 3 0 (.laneJudge .a)).lane .a).quietCount.toNat ∧
      ((quiet 3 0 (.laneJudge .a)).lane .a).state ≠ .quiet ∧ (quiet 5 5 .isolation).Outstanding .isolation ∧
      (quiet 5 5 .isolation).isolated = false ∧
      (quiet 5 5 .isolation).cfg.isolationFrames ≤ (quiet 5 5 .isolation).laneA.quietCount.toNat ∧
      (quiet 5 5 .isolation).cfg.isolationFrames ≤ (quiet 5 5 .isolation).laneB.quietCount.toNat ∧
      (faulty.laneA.state = .echoFault ∧ faulty.laneB.state = .echoFault ∧ faulty.Outstanding .isolation ∧
        faulty.isolated = false ∧ (faulty.works.at 0).state = .bidding ∧ (faulty.works.at 1).state ≠ .bidding) := by
  unfold State.Outstanding; decide +kernel

/-- An isolated part that hears both lanes again, channel 0 in LOST with an event in its live list and a table. -/
def rejoining (table : List Rival) : State :=
  { demoAt (fun x =>
      { x with state := .lost, table := table, mirror := { x.mirror with live := exampleList } }) with
    isolated := true }

theorem witness_LanesAndIsolationAreJudged_rejoins :
    ((rejoining []).isolated = true ∧ (rejoining []).laneA.quietCount.toNat < demoCfg.isolationFrames ∧
        (rejoining []).laneA.state ≠ .echoFault) ∧
      (((rejoining []).works.at 0).state = .lost ∧ ((rejoining []).works.at 0).armed = true ∧
        ((rejoining []).works.at 0).mirror.live ≠ [] ∧ ((rejoining []).works.at 0).mirror.status ≠ .mismatch ∧
        ((rejoining []).works.at 0).table = [] ∧ ((rejoining []).works.at 1).state ≠ .lost) ∧
      (∃ r ∈ ((rejoining [{ station := 3, kind := .hold, prec := 5, age := 0 }]).works.at 0).table, r.kind = .hold) ∧
      { demo with laneA := { demo.laneA with echoRun := 3 } }.laneA.state ≠ .echoFault := by decide +kernel

/-! ## Witnesses: the schedule mirror and claims -/

/-- A SEGMENT of channel 0, revision 1. -/
def segment (index total : Byte) (events : List EventRec) : RxMsg :=
  rx 1 .segment ([7, 0, 1, index, total, BitVec.ofNat 8 events.length] ++ events.flatMap EventRec.bytes)

/-- Eight events of one frame each. -/
def eight : List EventRec :=
  (List.range 8).map fun n =>
    { event := BitVec.ofNat 32 (n + 1), clip := 5, mode := .follow, duration := 1, startFrame := 0 }

theorem witness_SegmentsAreCollectedAndCommitted :
    (accepted demo (segment 0 2 eight) ∧
      readSegment (segment 0 2 eight).payload = some { bus := 7, rev := 1, index := 0, total := 2, events := eight } ∧
      accepted demo (segment 31 32 exampleList) ∧
      readSegment (segment 31 32 exampleList).payload =
        some { bus := 7, rev := 1, index := 31, total := 32, events := exampleList } ∧
      accepted demo (segment 0 1 exampleList) ∧
      readSegment (segment 0 1 exampleList).payload =
        some { bus := 7, rev := 1, index := 0, total := 1, events := exampleList }) ∧
      Config.localOf demo.cfg 7 = some 0 ∧ demo.cfg.map[(0 : Chan)].origin = (segment 0 1 exampleList).sender.toNat ∧
      validate exampleList = none ∧
      (heardAt (hears demo (segment 0 1 exampleList)) (segment 0 1 exampleList)).mirror = Mirror.reset ∧
      (heardAt (hears demo (segment 0 1 exampleList)) (segment 0 1 exampleList)).state = .mirroring ∧
      (heardAt (hears demo (segment 0 1 exampleList)) (segment 0 1 exampleList)).cur = none ∧
      demo.works.usedSlots + eight.length ≤ 4096 ∧ demo.works.join.flight = none := by
  unfold accepted State.Accepts State.Ready
  refine ⟨⟨?_, ?_, ?_, ?_, ?_, ?_⟩, ?_⟩ <;> decide +kernel

/-- A SEGMENT of channel 0, of a revision. -/
def segmentOf (rev : Half) (index total : Byte) (events : List EventRec) : RxMsg :=
  rx 1 .segment
    ([7] ++ beBytes 2 rev.toNat ++ [index, total, BitVec.ofNat 8 events.length] ++ events.flatMap EventRec.bytes)

/-- Channel 0 in a state, its mirror as a function makes it. -/
def mirrored (st : ChState) (f : Mirror → Mirror) : State :=
  demoAt fun x => { x with state := st, mirror := f x.mirror }

/-- A segment is collected by channel 0, whose mirror no header touches. -/
def collects (s : State) (rev : Half) (index total : Byte) (events : List EventRec) : Prop :=
  (hears s (segmentOf rev index total events)).Collects .a (segmentOf rev index total events) (Peer.reset 1)
      { bus := 7, rev := rev, index := index.toNat, total := total.toNat, events := events } 0 ∧
    heardAt (hears s (segmentOf rev index total events)) (segmentOf rev index total events) = s.works.at 0

/-- The other list holds the last of three segments of revision 5. -/
def lastOfThree : State := mirrored .yielded fun y => { y with other := .building 5 3 [(2, exampleList)] }

/-- The other list holds the first and the last of three segments of revision 5. -/
def outerOfThree : State :=
  mirrored .yielded fun y => { y with liveRev := some 3, other := .building 5 3 [(2, exampleList), (0, eight)] }

/-- Eight events with other ids than those of the other segments. -/
def otherEight : List EventRec := eight.map fun r => { r with event := r.event + 100 }

/-- Channel 0 in LOST, its bid conditions to be met by a list. -/
def lostWith (table : List Rival) : State := demoAt fun x => { x with state := .lost, table := table }

theorem witness_SegmentsAreCollectedAndCommitted_decides :
    (collects (lostWith []) 5 0 1 exampleList ∧ ((lostWith []).works.at 0).armed = true ∧
        (lostWith []).isolated = false ∧ ((lostWith []).works.at 0).table = []) ∧
      (collects (lostWith [{ station := 3, kind := .hold, prec := 5, age := 0 }]) 5 0 1 exampleList ∧
        ∃ r ∈ ((lostWith [{ station := 3, kind := .hold, prec := 5, age := 0 }]).works.at 0).table, r.kind = .hold) ∧
      (collects (demoAt fun x => { x with state := .cueing }) 5 0 1 exampleList ∧
        ((demoAt fun x => { x with state := .cueing }).works.at 0).cur = none) ∧
      (collects (demoAt fun x => { x with state := .bidding }) 5 0 1 [] ∧
        collects (demoAt fun x => { x with state := .fault }) 5 0 1 exampleList) ∧
      validate exampleList = none ∧ validate [] = none := by
  unfold collects State.Collects State.Accepts State.Ready
  constructorm* _ ∧ _ <;> decide +kernel

theorem witness_SegmentsAreCollectedAndCommitted_several :
    (collects lastOfThree 5 1 3 otherEight ∧
        ∀ q ∈ [(2, exampleList)], q.1 ≠ 1 ∧ ∃ i, i < 3 ∧ i ≠ 1 ∧ q.1 ≠ i) ∧
      (collects outerOfThree 5 1 3 otherEight ∧ otherEight.length = 8 ∧
        validate (eight ++ otherEight ++ exampleList) = none ∧ outerOfThree.works.join.flight = none ∧
        outerOfThree.works.usedSlots + 8 ≤ 4096) := by
  unfold collects State.Collects State.Accepts State.Ready
  refine ⟨⟨?_, fun q hq => ⟨?_, 0, ?_⟩⟩, ?_⟩
  · decide +kernel
  · rw [List.mem_singleton.1 hq]; decide
  · rw [List.mem_singleton.1 hq]; decide
  · decide +kernel

/-- A TALLY of one plain entry of channel 0 with a revision and a digest. -/
def tallyOf (sender : Byte) (rev digest : Half) : RxMsg :=
  rx sender .tally ([1, 8, 0, 7, 2] ++ beBytes 2 rev.toNat ++ beBytes 2 digest.toNat)

/-- Revision 3 is live, with digest 77. -/
def liveThree (y : Mirror) : Mirror :=
  { y with live := exampleList, liveRev := some 3, digest := 77, status := .current }

/-- The status that a reference gives to the live revision 3. -/
def statusFrom (rev digest : Half) : MirrorStatus := statusAgainst (liveThree Mirror.reset) rev digest

theorem witness_ReferencesSetTheStatus :
    (statusFrom 4 0 = .behind ∧ statusFrom 3 77 = .current ∧ statusFrom 3 78 = .mismatch ∧
      statusFrom 2 77 = .mismatch) ∧
      (accepted (mirrored .mirroring liveThree) (tallyOf 1 3 78) ∧
        (readTally (tallyOf 1 3 78).payload).map (fun es => es.map fun e => (e.rev, e.digest)) = some [(3, 78)] ∧
        (heardAt (hears (mirrored .mirroring liveThree) (tallyOf 1 3 78)) (tallyOf 1 3 78)).tally = none) ∧
      (accepted (mirrored .onAir liveThree) (tallyOf 1 3 78) ∧ accepted (mirrored .suspect liveThree) (tallyOf 2 3 78) ∧
        accepted (mirrored .onAir liveThree) (tallyOf 2 3 78) ∧ accepted (mirrored .lost liveThree) (tallyOf 2 3 77) ∧
        demoCfg.map[(0 : Chan)].standby = (tallyOf 2 3 78).sender.toNat) ∧
      (accepted (mirrored .lost liveThree) (tallyOf 2 4 77) ∧
        (heardAt (hears (mirrored .lost liveThree) (tallyOf 2 4 77)) (tallyOf 2 4 77)).mirror = liveThree Mirror.reset ∧
        (heardAt (hears (mirrored .lost liveThree) (tallyOf 2 4 77)) (tallyOf 2 4 77)).table = []) := by
  unfold accepted State.Accepts State.Ready
  refine ⟨?_, ?_, ?_, ?_⟩ <;> decide +kernel

/-- A full segment meets a mirror of channel 0 in MIRRORING. -/
def meets (rev : Half) (index total : Byte) (f : Mirror → Mirror) : Prop :=
  collects (mirrored .mirroring f) rev index total eight

/-- A BUILDING list of two segments with the first received. -/
def halfOf (rev : Half) : OtherList := .building rev 2 [(0, eight)]

/-- A channel collects revision 5, and the pool has seven free slots. -/
def crowded : State :=
  (mirrored .mirroring fun y => { y with other := halfOf 5 }).onWorks fun w =>
    (List.finRange 16).foldl (init := w) fun v c =>
      if c = 0 then v
      else v.mod c fun x =>
        { x with mirror := { x.mirror with live := List.replicate (if c = 1 then 273 else 272) event42 } }

theorem witness_RevisionsGiveWay :
    (meets 6 0 2 (fun y => { y with other := halfOf 5 }) ∧ (halfOf 5).rev = some 5 ∧ 0 < ((6 : Half) - 5).toInt) ∧
      (meets 6 1 2 (fun y => { liveThree y with other := halfOf 3, reference := some (3, 77) }) ∧
        statusFrom 3 77 ≠ .mismatch) ∧
      (meets 4 0 2 (fun y => { y with other := halfOf 5 }) ∧ ((4 : Half) - 5).toInt < 0) ∧
      (meets 4 0 2 liveThree ∧ meets 3 0 2 liveThree ∧ meets 2 0 2 liveThree ∧ meets 0x8003 0 2 liveThree ∧
        ((0x8003 : Half) - 3).toInt < 0) ∧
      (meets 3 0 2 (fun y => { liveThree y with status := .mismatch, reference := some (3, 78) }) ∧
        meets 3 0 2 (fun y => { liveThree y with status := .mismatch, rebuilt := some 3 })) ∧
      (meets 9 1 2 (fun y => { liveThree y with short := some 9 }) ∧
        meets 9 0 2 (fun y => { liveThree y with short := some 9 }) ∧
        meets 10 1 2 (fun y => { liveThree y with short := some 9 }) ∧
        meets 8 0 2 (fun y => { liveThree y with short := some 9 })) ∧
      collects crowded 5 1 2 eight ∧ 4096 - crowded.works.usedSlots = 7 := by
  unfold meets collects State.Collects State.Accepts State.Ready
  constructorm* _ ∧ _ <;> decide +kernel

/-- An event of one frame with an id, a start mode and a start. -/
def event (id : Ident) (mode : StartMode) (duration : BitVec 24) (start : Frame) : EventRec :=
  { event := id, clip := 5, mode := mode, duration := duration, startFrame := start }

theorem witness_RevisionsAreRejected :
    (meets 5 0 2 (fun y => { y with rejected := some 5 }) ∧ meets 5 0 2 (fun y => { y with other := halfOf 5 })) ∧
      (meets 5 1 3 (fun y => { y with other := halfOf 5 }) ∧
        collects (mirrored .onAir fun y => { y with other := .building 5 3 [] }) 5 1 3 exampleList ∧
        collects (mirrored .onAir liveThree) 5 0 2 exampleList) ∧
      (collects (mirrored .onAir liveThree) 5 0 1 [event 0 .follow 1 0] ∧ validate [event 0 .follow 1 0] = some 3) ∧
      (collects demo 5 0 1 [event 2 .follow 1 0, event 2 .fixed 1 0] ∧
        validate [event 2 .follow 1 0, event 2 .fixed 1 0] = some 4) ∧
      (collects demo 5 0 1 [event 2 .fixed 1 9, event 3 .follow 1 0, event 4 .fixed 1 9] ∧
        validate [event 2 .fixed 1 9, event 3 .follow 1 0, event 4 .fixed 1 9] = some 5 ∧
        validate [event 2 .fixed 1 9, event 4 .fixed 1 10] = none ∧
        validate [event 2 .fixed 1 9, event 4 .fixed 1 0x80000009] = some 5) ∧
      collects demo 5 0 1 [event 2 .fixed 0 9, event 3 .follow 1 0] ∧
      validate [event 2 .fixed 0 9, event 3 .follow 1 0] = some 6 := by
  unfold meets collects State.Collects State.Accepts State.Ready
  constructorm* _ ∧ _ <;> decide +kernel

/-- Channel 0 on air with E42, a TAKE pending. -/
def airing (st : ChState) (t : Option Take) (f : Context → Context) : State :=
  demoAir st fun x => f { x with prim := some (demoPort 10 3 t none) }

/-- The queue of the join engine holds a request of channel 0. -/
def queued (s : State) : State :=
  s.onWorks fun w =>
    { w with join := { queue := [(exampleFlight .boundary 9).req], flight := none } }

/-- FILLER on air to frame 9. -/
def onFiller : CurEvent :=
  { place := .filler, event := 0, clip := 900, entry := 0, start := 1, endAt := some 9, natEnd := some 9,
    held := false }

/-- E42 brought onto the same list, which ends it by R126 at 101,400. -/
def retold (ahead : Frame) : CurEvent :=
  { exampleE42 with
    endAt := endAfterCommit ahead ((airing .onAir none id).works.at 0) false
      (ruledEnd (((airing .onAir none id).works.at 0).anchor.getD 0) exampleE42.start event42 (exampleList.drop 2))
    natEnd := if event42.duration = 0 then none else some (exampleE42.start + event42.duration.setWidth 32) }

theorem witness_OnAirCommitsAreMade :
    (collects (airing .onAir none id) 5 0 1 exampleList ∧
      collects (airing .cueing (some (demoTake .takeover 1 2)) id) 5 0 1 exampleList ∧
        collects (airing .onAir (some (demoTake .follow 1 2)) id) 5 0 1 exampleList ∧
        collects (queued (airing .returning (some (demoTake .skip 1 2)) fun x =>
          { x with handback := .agreed .set 9 8 7 0 })) 5 0 1 exampleList ∧
        collects (airing .onAir none fun x => { x with cur := some onFiller }) 5 0 1 exampleList ∧
        collects (airing .onAir none id) 5 0 1 eight) ∧
      (∀ ahead, ToldBy ahead ((airing .onAir none id).works.at 0) exampleList exampleE42 (retold ahead)) ∧
      ToldBy 5 ((airing .onAir none id).works.at 0) exampleList onFiller
        { onFiller with endAt := some 101400, natEnd := some 101400 } ∧
      (retold 101399).endAt = some 101400 ∧ (retold 101400).endAt = some 101400 ∧ (retold 101401).endAt = some 101401 ∧
      ∀ r ∈ eight, r.event ≠ exampleE42.event := by
  have told : ∀ ahead, ToldBy ahead ((airing .onAir none id).works.at 0) exampleList exampleE42
      (retold ahead) := fun _ =>
    ⟨fun _ => ⟨exampleList.take 1, event42, exampleList.drop 2, by decide +kernel, by decide +kernel,
        by decide +kernel, rfl⟩,
      fun h => absurd h (by decide), fun h => absurd h (by decide)⟩
  have filled : ToldBy 5 ((airing .onAir none id).works.at 0) exampleList onFiller
      { onFiller with endAt := some 101400, natEnd := some 101400 } :=
    ⟨fun h => absurd rfl h, fun _ h => absurd h (by decide), fun _ _ e h => by subst h; decide +kernel⟩
  unfold collects State.Collects State.Accepts State.Ready
  refine ⟨?_, told, filled, ?_⟩ <;> constructorm* _ ∧ _ <;> decide +kernel

/-- Channel 0 on air with a deferred list of revision 5 and a current event. -/
def deferring (st : ChState) (ev : CurEvent) : State :=
  demoAir st fun x => { x with cur := some ev, mirror := { x.mirror with other := .ready 5 exampleList true } }

theorem witness_DeferredListsAreCommitted :
    ((owes (State.withClk (deferring .onAir exampleE42) { demo.clk with count := 101395 }) [.follow 0]).Outstanding (.follow 0) ∧
        0 ≤ frameDiff (101395 + BitVec.ofNat 32 demoCfg.preroll) 101400) ∧
      (passes (deferring .onAir { exampleE42 with held := true }) .resume ∧ passes (deferring .onAir exampleE42) .skip ∧
        passes (computing (deferring .onAir exampleE42) (exampleFlight .follow 9)) .skip ∧
        (deferring .onAir exampleE42).works.join = { queue := [], flight := none }) ∧
      ((computing (deferring .onAir exampleE42) (exampleFlight .follow 9)).Ready ∧
        (exampleFlight .follow 9).req.gen ≠ ((deferring .onAir exampleE42).works.at 0).gen) ∧
      (owes (State.withClk ((deferring .returning exampleE42).onWorks fun w => w.mod 0 fun x =>
          { x with handback := .agreed .settled 7 8 9 0 }) { demo.clk with count := 7 }) [.handback 0]).Outstanding
        (.handback 0) := by
  unfold passes State.Passes State.Directs State.Accepts State.Outstanding State.Ready
  refine ⟨?_, ?_, ?_, ?_⟩ <;> decide +kernel

/-- A CLAIM of one plain entry for bus channel 7 from station 3. -/
def claim (kind prec : Byte) : RxMsg := rx 3 .claim [7, kind, prec]

/-- Rival entries of channel 0. -/
def rivals (rs : List Rival) : State := demoAt fun x => { x with table := rs }

/-- A rival BID of a station. -/
def bidOf (station : Nat) : Rival := { station := station, kind := .bid, prec := 5, age := 0 }

theorem witness_ClaimTablesAreKept :
    (accepted demo (rx 3 .claim [8, 1, 5]) ∧
        readClaim [8, 1, 5] = some [{ bus := 8, claim := .bid, prec := 5 }] ∧ Config.localOf demo.cfg 8 = none) ∧
      (accepted demo (claim 1 16) ∧ readClaim (claim 1 16).payload = some [{ bus := 7, claim := .bid, prec := 16 }]) ∧
      (accepted demo (claim 3 15) ∧
        readClaim (claim 3 15).payload = some [{ bus := 7, claim := .release, prec := 15 }]) ∧
      (accepted (rivals [bidOf 3]) (claim 1 15) ∧
        readClaim (claim 1 15).payload = some [{ bus := 7, claim := .bid, prec := 15 }] ∧
        ∃ r ∈ (heardAt (hears (rivals [bidOf 3]) (claim 1 15)) (claim 1 15)).table, r.station = 3) ∧
      (accepted (rivals [bidOf 4, bidOf 5, bidOf 6]) (claim 1 0) ∧
        readClaim (claim 1 0).payload = some [{ bus := 7, claim := .bid, prec := 0 }] ∧
        (heardAt (hears (rivals [bidOf 4, bidOf 5, bidOf 6]) (claim 1 0)) (claim 1 0)).table.length < 4 ∧
        ∀ r ∈ (heardAt (hears (rivals [bidOf 4, bidOf 5, bidOf 6]) (claim 1 0)) (claim 1 0)).table, r.station ≠ 3) ∧
      (accepted (demoAt fun x => { x with state := .bidding }) (claim 2 15) ∧
        readClaim (claim 2 15).payload = some [{ bus := 7, claim := .hold, prec := 15 }] ∧
        (heardAt (hears (demoAt fun x => { x with state := .bidding }) (claim 2 15)) (claim 2 15)).state = .bidding ∧
        (heardAt (hears (demoAt fun x => { x with state := .bidding }) (claim 2 15)) (claim 2 15)).table = []) := by
  unfold accepted State.Accepts State.Ready
  refine ⟨?_, ?_, ?_, ?_, ?_, ?_⟩ <;> decide +kernel

theorem witness_BetterHoldTakesAir :
    (accepted (demoAir .onAir id) (claim 2 4) ∧
      readClaim (claim 2 4).payload = some [{ bus := 7, claim := .hold, prec := 4 }] ∧
        Config.localOf (demoAir .onAir id).cfg 7 = some 0 ∧
        (heardAt (hears (demoAir .onAir id) (claim 2 4)) (claim 2 4)).state = .onAir ∧
        (heardAt (hears (demoAir .onAir id) (claim 2 4)) (claim 2 4)).prec = 5 ∧
        (heardAt (hears (demoAir .onAir id) (claim 2 4)) (claim 2 4)).table = [] ∧
        (heardAt (hears (demoAir .onAir id) (claim 2 4)) (claim 2 4)).openRec = none ∧
        (heardAt (hears (demoAir .onAir id) (claim 2 4)) (claim 2 4)).handback = .absent) ∧
      (accepted (demoAir .onAir id) (claim 2 5) ∧ (claim 2 5).sender.toNat < (demoAir .onAir id).own) ∧
      (accepted (demoAir .onAir id) (claim 2 6) ∧
        readClaim (claim 2 6).payload = some [{ bus := 7, claim := .hold, prec := 6 }]) ∧
      ((demoAir .onAir id).works.tx.urgent.length + (demoAir .onAir id).works.tx.flying .urgent ≤ 14) := by
  unfold accepted State.Accepts State.Ready
  refine ⟨?_, ?_, ?_, ?_⟩ <;> decide +kernel

theorem witness_ClaimTablesAreKept_age :
    (owes (rivals [{ bidOf 3 with age := 3 }, { bidOf 4 with age := 2 }]) [.claimAge 0]).Outstanding (.claimAge 0) ∧
      ∃ r ∈ ((owes (rivals [{ bidOf 3 with age := 3 }, { bidOf 4 with age := 2 }]) [.claimAge 0]).works.at 0).table,
        demoCfg.claimExpiry ≤ r.age + 1 := by
  unfold State.Outstanding; decide +kernel

/-- Channel 0 at the end of its bid window against a table. -/
def bidding (rs : List Rival) : State :=
  owes (demoAt fun x => { x with state := .bidding, bidCount := 7, table := rs }) [.bid 0]

theorem witness_BidsAndYieldsAreDecided :
    (bidding []).Outstanding (.bid 0) ∧ ((bidding []).works.at 0).state = .bidding ∧
      ((bidding []).works.at 0).bidNew = false ∧
      (bidding []).cfg.bidWindow ≤ ((bidding []).works.at 0).bidCount + 1 ∧
      (∀ r ∈ ((bidding [{ bidOf 22 with prec := 5 }]).works.at 0).table,
        r.kind = .bid ∧ (5 < r.prec ∨ (5 = r.prec ∧ demo.own < r.station))) ∧
      (bidding [{ bidOf 22 with prec := 5 }]).Outstanding (.bid 0) ∧
      (∃ b ∈ ((bidding [bidOf 20, bidOf 30]).works.at 0).table, b.kind = .bid ∧ (b.prec = 5 ∧ b.station < demo.own) ∧
        ∀ r ∈ ((bidding [bidOf 20, bidOf 30]).works.at 0).table, r ≠ b → b.better r = true) ∧
      (bidding [bidOf 20, bidOf 30]).Outstanding (.bid 0) := by
  unfold State.Outstanding; decide +kernel

/-- Channel 0 in YIELDED, its origin seen and at an age, with one event in its live list. -/
def yielding (age : Byte) (rs : List Rival) : State :=
  demoAt fun x =>
    { x with state := .yielded, seen := true, age := age, table := rs, mirror := { x.mirror with live := exampleList } }

theorem witness_BidsAndYieldsAreDecided_yielded :
    ((demo.works.at 0).state ≠ .yielded ∧ ((yielding 2 []).works.at 0).state = .yielded) ∧
      (∃ r ∈ ((yielding 2 [bidOf 22, bidOf 20]).works.at 0).table, r.prec = 5 ∧ r.station < demo.own) ∧
      ((∀ r ∈ ((yielding 2 [bidOf 22]).works.at 0).table, r.kind = .bid ∧ (5 < r.prec ∨ (5 = r.prec ∧
        demo.own ≤ r.station))) ∧
        ((yielding 2 [bidOf 22]).works.at 0).age.toNat < demoCfg.suspectFrames) ∧
      demoCfg.suspectFrames ≤ ((yielding 3 [bidOf 22]).works.at 0).age.toNat ∧
      ((yielding 3 [bidOf 22]).works.at 0).armed = true := by decide +kernel

/-! ## Witnesses: marks and cueing -/

/-- A TIME MARK of frame 2 from a station. -/
def mark (sender : Byte) : RxMsg := rx sender .timeMark [0, 0, 0, 2]

/-- Station 21 with its time loaded and a last slip. -/
def timed (slip : Frame) : State := demo.withClk { demo.clk with loaded := true, lastSlip := slip }

theorem witness_TimeMarkIsTaken :
    (accepted demo (mark 29) ∧ readTimeMark (mark 29).payload = some 2 ∧
      (mark 29).sender.toNat ≠ demo.cfg.timeStation) ∧
      (accepted demo (mark 30) ∧ demo.cfg.timeStation ≠ 0 ∧ (mark 30).sender.toNat = demo.cfg.timeStation ∧
        demo.clk.loaded = false) ∧
      (accepted (timed 0) (mark 30) ∧ (timed 0).clk.loaded = true ∧
        BitVec.ofNat 32 ((mark 30).arrival.toNat / 1024) - 2 = (2 : Frame) ∧ (2 : Frame) ≠ 0 ∧
        (2 : Frame) ≠ (timed 0).clk.lastSlip) ∧
      (accepted (timed 2) (mark 30) ∧ (timed 2).clk.loaded = true ∧ (2 : Frame) = (timed 2).clk.lastSlip) := by
  unfold accepted State.Accepts State.Ready
  refine ⟨?_, ?_, ?_, ?_⟩ <;> decide +kernel

/-- A PORT STATUS: port 3 plays tag 3. -/
def playing (sender : Byte) : RxMsg := rx sender .portStatus [1, 3, 2, 0, 0, 0, 3]

/-- Channel 0 in CUEING with a TAKE of a TAKEOVER pending. -/
def cueing : State :=
  demoAir .cueing fun x => { x with prim := some (demoPort 10 3 (some (demoTake .takeover 1 2)) none) }

theorem witness_PlayingReportConfirmsTake :
    (accepted demo (playing 12) ∧ (readPortStatus (playing 12).payload).isSome = true ∧
        ∀ c : Chan, ((demo.works.at c).prim.map PortRec.server ≠ some 12) ∧
          ((demo.works.at c).alt.map PortRec.server ≠ some 12)) ∧
      (accepted cueing (playing 10) ∧
        readPortStatus (playing 10).payload = some [{ port := 3, state := .playing, armedTag := 0, playingTag := 3 }]) ∧
      ((heardAt (hears cueing (playing 10)) (playing 10)).state = .cueing ∧
        (heardAt (hears cueing (playing 10)) (playing 10)).openRec = none ∧
        (heardAt (hears cueing (playing 10)) (playing 10)).active = .primary ∧
        (heardAt (hears cueing (playing 10)) (playing 10)).prim.map (fun r => (r.server, r.port, r.withdrawn)) =
          some (10, 3, none) ∧
        ((heardAt (hears cueing (playing 10)) (playing 10)).prim.bind PortRec.pending).map
            (fun t => (t.source, t.tag)) = some (.takeover, 3)) ∧
      later 101400 (((hears cueing (playing 10)).heard .a (Peer.reset 10) (playing 10)).clk.count +
        BitVec.ofNat 32 demo.cfg.preroll) = true := by
  unfold accepted State.Accepts State.Ready
  refine ⟨?_, ?_, ?_, ?_⟩ <;> decide +kernel

/-- The record of E42 on a port of server 10, still open. -/
def openOn (port : Nat) : AsRunRec :=
  { chan := 0, bus := 7, event := 42, clip := 1042, entry := 25, start := 100005, endAt := none, status := none,
    server := 10, port := port, tag := 3, closing := none }

/-- Channel 0 in a state, a TAKE pending or withdrawn on its primary port, a record open. -/
def turning (st : ChState) (ev : CurEvent) (pending withdrawn : Option Take) (port : Nat) : State :=
  demoAir st fun x =>
    { x with cur := some ev, openRec := some (openOn port), prim := some (demoPort 10 3 pending withdrawn)
             handback := if st = .returning then .agreed .set 9 8 7 0 else .absent }

/-- A message is accepted by a state whose channel 0 no header touches. -/
def reaches (s : State) (m : RxMsg) : Prop := accepted s m ∧ heardAt (hears s m) m = s.works.at 0

/-- A PORT STATUS: port 3 is in FAULT, with an armed tag. -/
def faultOf (tag : Byte) : RxMsg := rx 10 .portStatus [1, 3, 3, 0, tag, 0, 0]

theorem witness_PortReportsTurnTheRecord :
    (reaches (turning .onAir exampleE42 (some (demoTake .follow 1 2)) none 3) (playing 10) ∧
        reaches (turning .returning exampleE42 (some (demoTake .skip 1 2)) none 3) (playing 10) ∧
        reaches (turning .onAir { exampleE42 with held := true, endAt := none } none (some (demoTake .follow 0 2)) 3)
          (playing 10) ∧
        reaches (turning .onAir exampleE42 (some (demoTake .rejoin 1 2)) none 4) (playing 10)) ∧
      (∀ (d : Chan), ∀ side ∈ [PortSel.primary, .alternate], ∀ q ∈ (demo.works.at d).portRec side,
        q.server = 10 → q.port = 3 → d = 0 ∧ side = .primary) ∧
      (exampleE42.endAt = some 101400 ∧ later 101400 (demo.clk.count + BitVec.ofNat 32 demoCfg.preroll) = true) ∧
      (reaches (turning .onAir exampleE42 (some (demoTake .follow 1 2)) none 3) (faultOf 4) ∧
        readPortStatus (faultOf 4).payload = some [{ port := 3, state := .fault, armedTag := 4, playingTag := 0 }]) ∧
      (reaches (turning .cueing exampleE42 (some (demoTake .takeover 1 2)) none 3) (faultOf 3) ∧
        reaches (demoAir .onAir fun x => { x with alt := none }) (faultOf 0) ∧
        reaches (demoAir .onAir id) (faultOf 0) ∧ ((demoAir .onAir id).works.at 0).alt.isSome = true) := by
  unfold reaches accepted State.Accepts State.Ready
  constructorm* _ ∧ _ <;> decide +kernel

/-- Channel 0 on air with the boundary's cue work outstanding: a silent count, a pending TAKE, and an alternate. -/
def deadline (silent : Byte) (t : Option Take) (alt : Option PortRec) : State :=
  owes (demoAir .onAir fun x =>
      { x with prim := some { demoPort 10 3 t none with silent := silent }, alt := alt })
    [.cue 0]

theorem witness_PortFaultSwitchesPort :
    (deadline 10 none (some (demoPort 11 4 none none))).Outstanding (.cue 0) ∧
      demoCfg.lossFrames ≤ (10 : Byte).toNat ∧ (9 : Byte).toNat < demoCfg.lossFrames ∧
      ((demoTake .follow 1 2).armCount ≤ 1 ∧ (demoTake .follow 1 2).seen = false) ∧
      (¬((demoTake .follow 2 1).armCount ≤ 1 ∧ (demoTake .follow 2 1).seen = false) ∧
        (demoTake .follow 2 1).takeCount ≤ 1) ∧
      ((deadline 9 (some (demoTake .follow 1 2)) (some (demoPort 11 4 none none))).works.at 0).state = .onAir ∧
      ((deadline 9 (some (demoTake .follow 1 2)) (some (demoPort 11 4 none none))).works.at 0).alt =
        some (demoPort 11 4 none none) ∧
      ((deadline 9 (some (demoTake .follow 2 1)) (some (demoPort 11 4 none none))).works.at 0).cur = some exampleE42 ∧
      ((deadline 10 none (some (demoPort 11 4 none none))).works.at 0).waitReq = none ∧
      ((deadline 10 none (some (demoPort 11 4 none none))).works.at 0).handback = .absent ∧
      ((deadline 10 none (some (demoPort 11 4 none none))).works.at 0).mirror.other = .absent ∧
      demo.works.join = { queue := [], flight := none } ∧
      demo.works.tx.urgent.length + demo.works.tx.flying .urgent < 16 := by
  unfold State.Outstanding; decide +kernel

/-- The same port fault with a current event, a handback and a request of channel 0. -/
def switching (st : ChState) (cur : Option CurEvent) (join : JoinEngine) : State :=
  owes (demoAir st fun x =>
      { x with cur := cur, prim := some { demoPort 10 3 none none with silent := 10 }
               alt := some (demoPort 11 4 none none)
               handback := if st = .returning then .agreed .set 9 8 7 0 else .absent })
    [.cue 0] |>.onWorks fun w => { w with join := join }

theorem witness_PortFaultSwitchesPort_cases :
    ((switching .cueing none { queue := [], flight := none }).Outstanding (.cue 0) ∧
        ((switching .cueing none { queue := [], flight := none }).works.at 0).cur = none) ∧
      ((switching .returning (some exampleE42) { queue := [], flight := none }).Outstanding (.cue 0) ∧
        ((switching .returning (some exampleE42) { queue := [], flight := none }).works.at 0).state = .returning) ∧
      ((switching .onAir (some exampleE42) { queue := [(exampleFlight .skip 9).req], flight := none }).works.queuedJoin 0).map
        JoinReq.kind = some .skip ∧
      (switching .onAir (some exampleE42) { queue := [], flight := some (exampleFlight .resume 9) }).works.join.flight =
        some (exampleFlight .resume 9) ∧
      (exampleFlight .resume 9).req.chan = 0 ∧
      ((switching .onAir (some exampleE42) { queue := [], flight := none }).works.at 0).mirror.other = .absent := by
  unfold State.Outstanding
  constructorm* _ ∧ _ <;> decide +kernel

theorem witness_PortFaultFaultsChannel :
    (deadline 10 none none).Outstanding (.cue 0) ∧ ((deadline 10 none none).works.at 0).state = .onAir ∧
      ((deadline 10 none none).works.at 0).active = .primary ∧ ((deadline 10 none none).works.at 0).alt = none ∧
      demoCfg.lossFrames ≤ (10 : Byte).toNat ∧ (9 : Byte).toNat < demoCfg.lossFrames ∧
      ((deadline 9 (some (demoTake .follow 1 2)) none).works.at 0).pending = some (demoTake .follow 1 2) ∧
      ((deadline 9 (some (demoTake .follow 2 1)) none).works.at 0).pending = some (demoTake .follow 2 1) ∧
      ((deadline 10 none none).works.at 0).openRec = none ∧ ((deadline 10 none none).works.at 0).handback = .absent ∧
      ((deadline 10 none none).works.at 0).mirror.other = .absent := by
  unfold State.Outstanding; decide +kernel

/-- Channel 0 on air with a withdrawn TAKE whose countdown ends. -/
def withdrawn : State :=
  owes (demoAir .onAir fun x =>
      { x with prim := some { demoPort 10 3 none (some (demoTake .follow 0 1)) with silent := 9 }, alt := none })
    [.cue 0]

theorem witness_StandingCuesAreKept :
    withdrawn.Outstanding (.cue 0) ∧ (withdrawn.works.at 0).state = .onAir ∧
      (withdrawn.works.at 0).active = .primary ∧
      (withdrawn.works.at 0).prim = some { demoPort 10 3 none (some (demoTake .follow 0 1)) with silent := 9 } ∧
      (9 : Byte).toNat < withdrawn.cfg.lossFrames ∧ (demoTake .follow 0 1).takeCount ≤ 1 ∧
      (withdrawn.works.at 0).alt = none := by
  unfold State.Outstanding; decide +kernel

/-- Channel 0 on air with a TAKE pending on its primary port, and no alternate. -/
def pendingOn (t : Take) : State :=
  demoAir .onAir fun x => { x with prim := some { demoPort 10 3 (some t) none with silent := 9 }, alt := none }

theorem witness_StandingCuesAreKept_pending :
    (((pendingOn (demoTake .follow 2 2)).works.at 0).state = .onAir ∧
      ((pendingOn (demoTake .follow 2 2)).works.at 0).alt = none ∧
        (9 : Byte).toNat < demoCfg.lossFrames ∧ (demoTake .follow 2 2).seen = false ∧
          2 ≤ (demoTake .follow 2 2).armCount ∧
        2 ≤ (demoTake .follow 2 2).takeCount ∧ { demoTake .follow 0 2 with seen := true }.seen = true) ∧
      (∀ d : Chan, ∀ side ∈ [PortSel.primary, .alternate], ∀ q ∈ ((pendingOn (demoTake .follow 2 2)).works.at d).portRec side,
        q.server = 10 → q.pending ≠ none → d = 0 ∧ side = .primary) ∧
      (∀ d : Chan, ∀ side ∈ [PortSel.primary, .alternate], ∀ q ∈ (demo.works.at d).portRec side, q.pending = none) ∧
      (convertFrame (some 0) (demoTake .follow 2 2).takeLocal = (demoTake .follow 2 2).k ∧
        convertFrame (some 5000) (demoTake .follow 2 2).takeLocal ≠ (demoTake .follow 2 2).k) := by decide +kernel

/-- Channel 0 on air at a frame, FOLLOW judged. -/
def following (now : Frame) : State :=
  owes (State.withClk (demoAir .onAir id) { demo.clk with count := now }) [.follow 0]

theorem witness_RequestsAndStaleResults_follow :
    (following 101395).Outstanding (.follow 0) ∧ ((following 101395).works.at 0).state = .onAir ∧
      ((following 101395).works.at 0).cur.bind CurEvent.endAt = some 101400 ∧
      0 ≤ frameDiff ((following 101395).clk.count + BitVec.ofNat 32 demoCfg.preroll) 101400 ∧
      ¬0 ≤ frameDiff ((following 101394).clk.count + BitVec.ofNat 32 demoCfg.preroll) 101400 ∧
      ((following 101395).works.at 0).pending = none ∧ ((following 101395).works.at 0).settled = false ∧
      ((following 101395).works.at 0).waitReq = none ∧ ((following 101395).works.at 0).mirror.other = .absent ∧
      (following 101395).works.join = { queue := [], flight := none } := by
  unfold State.Outstanding; decide +kernel

/-! ## Witnesses: the join engine, handback and the as-run store -/

theorem witness_RequestsAndStaleResults :
    (computing demo (exampleFlight .takeover 100005)).Ready ∧
      (computing demo (exampleFlight .takeover 100005)).works.join.flight = some (exampleFlight .takeover 100005) ∧
      (exampleFlight .takeover 100005).req.chan = 0 ∧
      (exampleFlight .takeover 100005).req.gen ≠ ((computing demo (exampleFlight .takeover 100005)).works.at 0).gen ∧
      (demo.works.at 0).mirror.other = .absent ∧ (demo.works.at 0).mirror.clearWaits = false ∧
      (demo.works.at 0).waitReq = none ∧ (demo.works.at 0).followOwed = false ∧
      (demo.works.at 0).state = .mirroring := by
  unfold State.Ready; decide +kernel

/-- Channel 0 in CUEING at generation 1, its TAKEOVER computed. -/
def takingOver : State :=
  computing (demoAir .cueing fun x => { x with gen := 1, cur := none }) (exampleFlight .takeover 100005)

theorem witness_TakeoverIsDelivered :
    takingOver.Ready ∧ takingOver.works.join.flight = some (exampleFlight .takeover 100005) ∧
      (takingOver.works.at 0).state = .cueing ∧
      (exampleFlight .takeover 100005).req.gen = (takingOver.works.at 0).gen ∧
      (takingOver.works.at 0).active = .primary ∧ (takingOver.works.at 0).prim = some (demoPort 10 3 none none) ∧
      (takingOver.works.at 0).mirror.other = .absent ∧ (takingOver.works.at 0).mirror.clearWaits = false ∧
      (takingOver.works.at 0).waitReq = none ∧ (takingOver.works.at 0).followOwed = false ∧
      ((exampleFlight .takeover 100005).takeover takingOver.cfg.map[(0 : Chan)].filler).outcome = .take exampleE42 ∧
      ((exampleFlight .takeover 100005).takeover takingOver.cfg.map[(0 : Chan)].filler).due = [] ∧
      takingOver.works.tx.urgent = [] ∧ takingOver.works.tx.flying .urgent = 0 := by
  unfold State.Ready; decide +kernel

/-- R137's table: 324 and 300 ticks over the frame, and a tie above an even and above an odd frame. -/
theorem witness_TakeoverIsDelivered_frames :
    (((100005 * 1024 - 700) % 2 ^ 42 - 1024 * 100004 : Int).natAbs < 512 ∧
        ((100005 * 1024 - -300) % 2 ^ 42 - 1024 * 100005 : Int).natAbs < 512) ∧
      (((100005 * 1024 - 512) % 2 ^ 42 - 1024 * 100004 : Int).natAbs = 512 ∧ (100004 : Int) % 2 = 0) ∧
      (((100005 * 1024 - -512) % 2 ^ 42 - 1024 * 100006 : Int).natAbs = 512 ∧ (100006 : Int) % 2 = 0) ∧
      findPeer demo.peers 10 = some (Peer.reset 10) := by decide +kernel

/-- Channel 0 on air at generation 1 with E42 and a TAKE pending, the result of a computation waiting. -/
def resulting (kind : JoinKind) (take : Frame) (t : Option Take) (held : Bool) : State :=
  computing (demoAir .onAir fun x =>
    { x with gen := 1, cur := some { exampleE42 with held := held }, prim := some (demoPort 10 3 t none) })
    (exampleFlight kind take)

/-- E43 as the FOLLOW at 101,400 gives it, and a TAKE that announces it already. -/
def exampleE43 : CurEvent :=
  { place := .at 2, event := 43, clip := 1043, entry := 0, start := 101400, endAt := some 104400,
    natEnd := some 104400, held := false }

/-- The TAKE of E43. -/
def take43 : Take := { demoTake .follow 1 2 with takeLocal := 101400, outcome := exampleE43 }

theorem witness_ImposedAndRejoinAreDelivered :
    ((resulting .resume 101905 (some (demoTake .follow 1 2)) true).Ready ∧
        (exampleFlight .resume 101905).req.gen =
          ((resulting .resume 101905 (some (demoTake .follow 1 2)) true).works.at 0).gen ∧
        (resulting .resume 101905 none true).works.tx.urgent.length +
          (resulting .resume 101905 none true).works.tx.flying .urgent ≤ 14) ∧
      ((exampleFlight .resume 101905).result 900 =
          { outcome := .take { exampleE43 with entry := 505 }, anchor := none, due := [] } ∧
        ((exampleFlight .skip 101405).result 900).due = [] ∧
        (exampleFlight .rejoin 100005).result 900 = { outcome := .take exampleE42, anchor := none, due := [] } ∧
        (exampleFlight .follow 101400).result 900 = { outcome := .take exampleE43, anchor := none, due := [] }) ∧
      ((resulting .follow 101400 none false).Ready ∧
        ((resulting .follow 101400 none false).works.at 0).cur = some exampleE42 ∧ exampleE42.endAt = some 101400) ∧
      (take43.outcome.event = 43 ∧ take43.takeLocal = 101400 ∧
        (take43.outcome.endAt.map fun e => e - take43.takeLocal) = some 3000) ∧
      exampleE42.endAt ≠ some 101401 ∧
      (resulting .resume 101905 none true).works.notices.ring.length ≤ 32 ∧
      ((resulting .rejoin 101405 none true).Ready ∧
        ((resulting .rejoin 101405 none true).works.at 0).cur.map CurEvent.held = some true) := by
  unfold State.Ready
  constructorm* _ ∧ _ <;> decide +kernel

/-- The same computation with a current event. -/
def flightFrom (kind : JoinKind) (take : Frame) (cur : CurEvent) : JoinFlight :=
  { exampleFlight kind take with cur := some cur }

theorem witness_SuccessorsAreFound :
    (exampleList = exampleList.take 2 ++ exampleList.drop 2 ∧ exampleE42.place = .at ((exampleList.take 2).length - 1) ∧
        (flightFrom .follow 101400 exampleE42).cur = some exampleE42 ∧
        frameDiff (101200 + 200) 101400 ≤ 0 ∧ 0 < frameDiff (101200 + 200) 101399) ∧
      (exampleList = exampleList ++ [] ∧
        (flightFrom .follow 9 { exampleE42 with place := .at 3 }).cur.map CurEvent.place = some (.at (exampleList.length - 1))) ∧
      ((∀ n ∈ exampleList.take 2, n.mode = .fixed → frameDiff (n.startFrame + 200) 101400 < 0) ∧
        (exampleList.drop 2).head?.map EventRec.mode = some .fixed ∧ 0 ≤ frameDiff (101200 + 200) 101400) ∧
      (∀ n ∈ exampleList, n.mode = .fixed → frameDiff (n.startFrame + 200) 101401 < 0) ∧
      frameDiff 100005 (exampleE42.start + exampleE42.entry) < frameDiff 101400 (exampleE42.start + exampleE42.entry) := by
  decide +kernel

/-- A TAKEOVER computed over a list from a tally of a phase and an event, stamped in the frame 99,700. -/
def joining (list : List EventRec) (phase : TallyPhase) (event : Option (Ident × Frame)) (take : Frame) : JoinFlight :=
  { exampleFlight .takeover take with
    list := list
    tally := some { rev := 611, digest := 0, phase := phase, event := event, readyFrame := none,
                    stamp := 99700 * 1024 } }

/-- E41 began at 99,580 on the origin's clock: a J of 99,779 lies in it and one of 99,780 in E42; at 99,699 the stamp
frame is J, and a J of 101,200 is not earlier than the FIXED start. -/
theorem witness_TakeoversAndBoundariesAreFound :
    (convertFrame (some 204900) 100005 = 99805 ∧ convertFrame (some 204900) 99899 = 99699 ∧
        0 < frameDiff (BitVec.ofNat 32 ((99700 * 1024 : Tick).toNat / 1024)) 99699 ∧
        ¬0 < frameDiff (BitVec.ofNat 32 ((99700 * 1024 : Tick).toNat / 1024)) 99700) ∧
      ((joining [] .playing none 9).list = [] ∧ (joining exampleList .standby none 9).list ≠ [] ∧
        (∀ n ∈ exampleList, n.event ≠ 45) ∧ frameDiff 99805 (99700 - 3000000000) < 0) ∧
      (exampleList = exampleList.take 2 ++ exampleList.drop 2 ∧ 0 < frameDiff 101200 101199 ∧
        frameDiff 101200 101200 ≤ 0 ∧ (∀ q ∈ exampleList.take 2, q.mode ≠ .fixed)) ∧
      ((∀ n ∈ exampleList.take 0, n.event ≠ 41) ∧ frameDiff 99779 (99700 - 120) = 199 ∧
        frameDiff 99780 (99700 - 120) = 200 ∧
        (joining exampleList .holding (some (41, 120)) 99979).tally.map OriginTally.phase = some .holding) ∧
      spansFrom (fun n => frameDiff n.startFrame 99580) (max 0 200) 41 ((indexed exampleList).drop 1) =
        [.event 1 event42 200 200 (some 1700) (some 1620),
          .event 2 { event := 43, clip := 1043, mode := .fixed, duration := 3000, startFrame := 101200 } 1620 1620
            (some 4620) (some 4620),
          .event 3 { event := 44, clip := 1044, mode := .follow, duration := 0, startFrame := 0 } 4620 4620 none
            none] := by
  decide +kernel

/-- From the air start 100,005 of E42 and its end 101,400, E43 begins 1,395 frames on and E44, open, 4,395. -/
theorem witness_TakeoversAndBoundariesAreFound_current :
    ((exampleFlight .boundary 101400).cur = some exampleE42 ∧ exampleE42.endAt = some 101400 ∧
        exampleE42.start + exampleE42.entry = 100005 ∧ frameDiff 101400 100005 = 1395 ∧
        frameDiff 104400 100005 = 4395 ∧ frameDiff 104401 100005 = 4396) ∧
      (exampleFlight .rejoin 101407).Follows exampleE42 101400 ((indexed exampleList).drop 2) ∧
      spansFrom (fun n => frameDiff (n.startFrame + (some (200 : Frame)).getD 0) 100005) 1395 42
          ((indexed exampleList).drop 2) =
        [] ++ .event 2 { event := 43, clip := 1043, mode := .fixed, duration := 3000, startFrame := 101200 } 1395 1395
            (some 4395) (some 4395) ::
          [.event 3 { event := 44, clip := 1044, mode := .follow, duration := 0, startFrame := 0 } 4395 4395 none
            none] := by
  refine ⟨by decide +kernel, ⟨fun i h => ?_, fun h => absurd h (by decide), fun h => absurd h (by decide)⟩,
    by decide +kernel⟩
  cases h
  decide +kernel

/-- Channel 0 on air at generation 1 and a frame, a HAND BACK in hand, its BOUNDARY computed. -/
def bounding (now : Frame) : State :=
  computing
    (State.withClk (demoAir .onAir fun x => { x with gen := 1, seen := true, age := 2, handback := .requested 40 1 })
      { demo.clk with count := now })
    (exampleFlight .boundary 100025)

theorem witness_BoundaryResultsAreJudged :
    (bounding 101394).Ready ∧ (bounding 101394).works.join.flight = some (exampleFlight .boundary 100025) ∧
      ((bounding 101394).works.at 0).state = .onAir ∧
      (exampleFlight .boundary 100025).req.gen = ((bounding 101394).works.at 0).gen ∧
      ((bounding 101394).works.at 0).cur = some exampleE42 ∧
      later 101400 ((bounding 101394).clk.count + BitVec.ofNat 32 demoCfg.preroll) = true ∧
      ((bounding 101394).works.at 0).handback = .requested 40 1 ∧ ((bounding 101394).works.at 0).seen = true ∧
      ((bounding 101394).works.at 0).age.toNat < demoCfg.suspectFrames ∧
      (exampleFlight .boundary 100025).boundary.outcome = .found 101400 43 ∧
      later (101400 - 1) (bounding 101394).clk.count = true ∧
      ((bounding 101394).works.at 0).mirror.other = .absent ∧
      ((bounding 101394).works.at 0).mirror.clearWaits = false ∧ ((bounding 101394).works.at 0).waitReq = none ∧
      ((bounding 101394).works.at 0).followOwed = false := by
  unfold State.Ready; decide +kernel

/-- Channel 0 at generation 1 and a frame with a handback, a tally age and its BOUNDARY computed. -/
def judging (st : ChState) (hb : Handback) (age : Byte) (held : Bool) (take : Frame) : State :=
  computing
    (State.withClk (demoAir st fun x =>
      { x with gen := 1, seen := true, age := age, handback := hb
               cur := some { exampleE42 with held := held, endAt := if held then none else exampleE42.endAt } })
      { demo.clk with count := 101000 })
    (exampleFlight .boundary take)

theorem witness_BoundaryResultsAreJudged_refuses :
    ((judging .onAir (.requested 40 1) 2 true 101300).Ready ∧
        ((judging .onAir (.requested 40 1) 2 true 101300).works.at 0).handback = .requested 40 1 ∧
        ((judging .onAir (.requested 40 1) 2 true 101300).works.at 0).cur.map CurEvent.held = some true ∧
        demoCfg.suspectFrames ≤ ((judging .onAir (.requested 40 1) 3 false 101300).works.at 0).age.toNat ∧
        later 101400 (101000 + BitVec.ofNat 32 demoCfg.preroll) = true) ∧
      (exampleFlight .boundary 101300).boundary.outcome = .found 101400 43 ∧
      (exampleFlight .boundary 300000).boundary.outcome = .noBoundary ∧
      later (101400 - 1) 101400 = false ∧
      ((judging .returning (.agreed .postponing 9 8 7 1) 2 false 101300).Ready ∧
        ((judging .returning (.agreed .postponing 9 8 7 1) 2 false 101300).works.at 0).handback =
          .agreed .postponing 9 8 7 1) := by
  unfold State.Ready
  constructorm* _ ∧ _ <;> decide +kernel

/-- Channel 0 in RETURNING at a frame, its handback agreed for H = 101,400, peer 101,200. -/
def returning (now : Frame) (phase : HandbackPhase) (n : Nat) (ready : Option Frame) : State :=
  owes
    (State.withClk
      (demoAir .returning fun x =>
        { x with
          seen := true, age := 2, handback := .agreed phase 101400 101200 43 n
          tally := some { rev := 0, digest := 0, phase := .ready, event := none, readyFrame := ready, stamp := 0 } })
      { demo.clk with count := now })
    [.handback 0]

theorem witness_ReadyCheckAndCompletion :
    (returning 101399 .set 0 (some 101200)).Outstanding (.handback 0) ∧
      ((returning 101399 .set 0 (some 101200)).works.at 0).state = .returning ∧
      ((returning 101399 .set 0 (some 101200)).works.at 0).handback = .agreed .set 101400 101200 43 0 ∧
      (returning 101399 .set 0 (some 101200)).clk.count = 101400 - 1 ∧
      ((returning 101399 .set 0 (some 101200)).works.at 0).tally.map (fun o => (o.phase, o.readyFrame)) =
        some (.ready, some 101200) ∧
      ((returning 101399 .set 2 (some 101201)).works.at 0).tally.map (fun o => o.readyFrame) ≠ some (some 101200) ∧
      ((returning 101399 .set 2 (some 101201)).works.at 0).handback = .agreed .set 101400 101200 43 2 ∧
      ((returning 101399 .set 3 none).works.at 0).handback = .agreed .set 101400 101200 43 3 ∧
      ((returning 101399 .set 3 none).works.at 0).seen = true ∧
      ((returning 101399 .set 3 none).works.at 0).age.toNat < demoCfg.suspectFrames := by
  unfold State.Outstanding; decide +kernel

theorem witness_ReadyCheckAndCompletion_completes :
    (returning 101400 .settled 0 none).Outstanding (.handback 0) ∧
      ((returning 101400 .settled 0 none).works.at 0).state = .returning ∧
      ((returning 101400 .settled 0 none).works.at 0).handback = .agreed .settled 101400 101200 43 0 ∧
      (returning 101400 .settled 0 none).clk.count = 101400 := by
  unfold State.Outstanding; decide +kernel

/-- An as-run record of channel 0. -/
def aired : AsRunRec :=
  { chan := 0, bus := 7, event := 42, clip := 1042, entry := 25, start := 100005, endAt := some 101400,
    status := some .complete, server := 10, port := 3, tag := 3, closing := some 0 }

/-- Station 21 with an as-run ring and its period run out. -/
def carousel (n k : Nat) : State :=
  owes (demo.onWorks fun w =>
      { w with store := { w.store with ring := List.replicate n aired, period := 1, cursor := .ring k } })
    [.asrun]

theorem witness_AsRunRingIsNoticed :
    ((carousel 255 0).onWorks fun w => { w with store := { w.store with writePos := 255 } }).works.store.writePos = 255 ∧
      ((carousel 511 0).onWorks fun w => { w with store := { w.store with writePos := 511 } }).works.store.writePos = 511 ∧
      (carousel 512 0).works.store.ring.length ≤ 512 ∧ (carousel 0 0).works.store.writePos = 0 := by decide +kernel

/-- A full BULK class. -/
def bulkFull : State := (carousel 1 0).onWorks fun w => { w with tx := { w.tx with bulk := [.report [], .report []] } }

theorem witness_AsRunIsBuilt :
    (carousel 4 0).Outstanding .asrun ∧ (carousel 4 0).cfg.asrunPeriod ≤ (carousel 4 0).works.store.period + 1 ∧
      (carousel 4 0).works.store.ring ≠ [] ∧
      (carousel 4 0).works.tx.bulk.length + (carousel 4 0).works.tx.flying .bulk < 2 ∧
      (carousel 4 0).works.store.cursor = .ring 0 ∧ 0 + 4 ≤ (carousel 4 0).works.store.ring.length ∧
      (carousel 9 4).Outstanding .asrun ∧ 4 + 4 < (carousel 9 4).works.store.ring.length ∧ bulkFull.Outstanding .asrun ∧
      2 ≤ bulkFull.works.tx.bulk.length + bulkFull.works.tx.flying .bulk := by
  unfold State.Outstanding; decide +kernel

theorem witness_AsRunIsBuilt_open :
    ((carousel 0 0).onWorks fun w => w.mod 15 fun x => { x with openRec := some aired }).Outstanding .asrun ∧
      ((((carousel 0 0).onWorks fun w => w.mod 15 fun x => { x with openRec := some aired }).works.at 15).openRec = some aired) ∧
      4 + 4 = (carousel 8 4).works.store.ring.length := by
  unfold State.Outstanding; decide +kernel

/-! ## Witnesses: reports and directives -/

/-- Station 21 with its report period run out and a ROUTINE queue. -/
def reporting (load : LoadState) (half : Nat) (queue : List OutMsg) : State :=
  owes { (demo.onWorks fun w =>
           { w with reportCount := 4, nextHalf := half, tx := { w.tx with routine := queue } }) with load := load }
    [.report]

theorem witness_ReportIsBuilt :
    (reporting (.good 0) 1 []).Outstanding .report ∧
      (reporting (.good 0) 1 []).cfg.reportPeriod ≤ (reporting (.good 0) 1 []).works.reportCount + 1 ∧
      (reporting (.good 0) 1 []).works.nextHalf ≤ 1 ∧ (reporting (.fault .noMemory) 1 []).Outstanding .report ∧
      (reporting (.good 0) 0 [sentReport, sentReport, sentReport]).works.tx.routine.length +
        (reporting (.good 0) 0 [sentReport, sentReport, sentReport]).works.tx.flying .routine < 4 ∧
      4 ≤ (reporting (.good 0) 0 [sentReport, sentReport, sentReport, sentReport]).works.tx.routine.length +
        (reporting (.good 0) 0 [sentReport, sentReport, sentReport, sentReport]).works.tx.flying .routine := by
  unfold State.Outstanding; decide +kernel

/-- A directive from a station reaches the directive unit. -/
def directs (s : State) (sender : Byte) (kind : DirKind) : Prop :=
  (hears s (order sender kind)).Directs .a (order sender kind) (Peer.reset sender.toNat) (ordered kind)

/-- Channel 0 as the directive finds it. -/
def found (s : State) (kind : DirKind) : Context := heardAt (hears s (order 40 kind)) (order 40 kind)

/-- Directive 1 has been taken from every station. -/
def numbered : State := demo.onWorks fun w => { w with lastNumbers := Vector.replicate 4 (some 1) }

/-- A directive of a target and a bus channel. -/
def orderTo (target bus : Byte) : RxMsg := rx 40 .directive [target, 1, 1, bus]

theorem witness_DirectiveChecksOneToFive :
    (directs demo 39 .arm ∧ ∀ j : Fin 4, demoCfg.control[j].id = 0 ∨ demoCfg.control[j].id ≠ 39) ∧
      (directs numbered 40 .arm ∧ demoCfg.control[(0 : Fin 4)].id = 40 ∧
        numbered.works.lastNumbers[(0 : Fin 4)] = some (ordered .arm).number) ∧
      (directs demo 41 .arm ∧ demoCfg.control[(1 : Fin 4)].id = 41 ∧
        (∀ j : Fin 4, j < 1 → demoCfg.control[j].id ≠ 41) ∧ demo.works.lastNumbers[(1 : Fin 4)] = none ∧
        demoCfg.control[(1 : Fin 4)].perm.getLsbD (DirKind.code .arm - 1) = false ∧
        demoCfg.control[(1 : Fin 4)].perm.getLsbD (DirKind.code .retime - 1) = false) ∧
      ((hears demo (orderTo 21 8)).Directs .a (orderTo 21 8) (Peer.reset 40) { ordered .arm with bus := 8 } ∧
        Config.localOf demoCfg 8 = none ∧
        demoCfg.control[(0 : Fin 4)].perm.getLsbD (DirKind.code .arm - 1) = true) ∧
      (hears demo (orderTo 63 8)).Directs .a (orderTo 63 8) (Peer.reset 40)
        { target := 63, number := 1, kind := .arm, bus := 8 } ∧
      (directs demo 42 .clearChannel ∧ Config.localOf demoCfg 7 = some 0 ∧
        demoCfg.control[(2 : Fin 4)].perm.getLsbD (DirKind.code .clearChannel - 1) = true ∧
        demoCfg.control[(2 : Fin 4)].mask.getLsbD 0 = false) := by
  unfold directs State.Directs State.Accepts State.Ready
  refine ⟨?_, ?_, ?_, ?_, ?_, ?_⟩ <;> decide +kernel

/-- The last event of the list is on air. -/
def atLast : State :=
  demoAir .onAir fun x =>
    { x with cur := some { exampleE42 with place := .at 3 }, mirror := { x.mirror with live := exampleList } }

/-- Channel 0 on air with the event held. -/
def held : State := demoAir .onAir fun x => { x with cur := some { exampleE42 with held := true } }

theorem witness_SixthCheckRefuses :
    (passes demo .handBack ∧ (found demo .handBack).state ≠ .onAir) ∧
      (passes (demoAir .onAir id) .forceTake ∧
        (found (demoAir .onAir id) .forceTake).state ∉ [.mirroring, .suspect, .lost, .yielded, .bidding]) ∧
      (passes { demo with isolated := true } .forceTake ∧ (found demo .forceTake).state = .mirroring) ∧
      (passes (demoAir .onAir id) .handBack ∧ (found (demoAir .onAir id) .handBack).state = .onAir ∧
        (found (demoAir .onAir id) .handBack).seen = false ∧
          (demoAir .onAir id).works.join = { queue := [], flight := none }) ∧
      (passes held .hold ∧ (found held .hold).isHeld = true) ∧
      (passes (demoAir .onAir id) .resume ∧ (found (demoAir .onAir id) .resume).isHeld = false) ∧
      (passes demo .skip ∧ (found demo .skip).state ∉ [.onAir, .returning]) ∧
      (passes atLast .skip ∧ (found atLast .skip).cur.map CurEvent.place = some (.at 3) ∧
        (found atLast .skip).mirror.live.length ≤ 3 + 1 ∧ (found atLast .skip).mirror.other = .absent) ∧
      (passes demo .retry ∧ (found demo .retry).state ≠ .fault) ∧
      (passes (demoAir .onAir id) .clearChannel ∧
        (found (demoAir .onAir id) .clearChannel).state ∉ [.mirroring, .suspect, .lost, .yielded, .fault]) := by
  unfold passes State.Passes State.Directs State.Accepts State.Ready
  refine ⟨?_, ?_, ?_, ?_, ?_, ?_, ?_, ?_, ?_, ?_⟩ <;> decide +kernel

/-- Channel 0 on air with a fresh tally and a request of a kind. -/
def requesting (kind : JoinKind) (atSwitch flying : Bool) : State :=
  let r := { (exampleFlight kind 9).req with atSwitch := atSwitch }
  (demoAir .onAir fun x => { x with seen := true, age := 2 }).onWorks fun w =>
    { w with join := if flying then { queue := [], flight := some { exampleFlight kind 9 with req := r } }
                     else { queue := [r], flight := none } }

/-- Channel 0 on air with a request that waits with a deferred commit. -/
def waiting (atSwitch : Bool) : State :=
  demoAir .onAir fun x => { x with waitReq := some { kind := .skip, atSwitch := atSwitch } }

theorem witness_SixthCheckRefuses_outstanding :
    (passes (requesting .rejoin false false) .handBack ∧
        (((requesting .rejoin false false).works.queuedJoin 0).map JoinReq.kind) = some .rejoin) ∧
      (passes (requesting .skip false true) .handBack ∧
        (((requesting .skip false true).works.flyingJoin 0).map JoinReq.kind) = some .skip) ∧
      (passes (waiting false) .handBack ∧
        ((waiting false).works.at 0).waitReq = some { kind := .skip, atSwitch := false }) ∧
      (passes (requesting .rejoin true true) .skip ∧
        (((requesting .rejoin true true).works.flyingJoin 0).map JoinReq.atSwitch) = some true) ∧
      (passes (waiting true) .resume ∧ ((waiting true).works.at 0).waitReq = some { kind := .skip, atSwitch := true }) ∧
      (passes (demoAir .returning fun x => { x with handback := .agreed .settled 9 8 7 0 }) .hold ∧
        passes (demoAir .returning fun x => { x with handback := .agreed .settled 9 8 7 0 }) .skip ∧
        ((demoAir .returning fun x => { x with handback := .agreed .settled 9 8 7 0 }).works.at 0).settled = true) ∧
      (passes (demoAir .onAir fun x => { x with cur := some { exampleE42 with place := .beforeZero } }) .skip ∧
        (demoAir .onAir id).works.switchOutstanding 0 = false) := by
  unfold passes State.Passes State.Directs State.Accepts State.Ready
  constructorm* _ ∧ _ <;> decide +kernel

/-- Channel 0 in a state with an event in its live list and a table. -/
def judged (st : ChState) (table : List Rival) : State :=
  demoAt fun x => { x with state := st, table := table, mirror := { x.mirror with live := exampleList } }

/-- A rival HOLD of station 3. -/
def holdOf : Rival := { station := 3, kind := .hold, prec := 5, age := 0 }

theorem witness_ArmingAndForceAreTaken :
    (passes demo .arm ∧ (found demo .arm).state ≠ .lost ∧ passes demo .disarm ∧ (found demo .disarm).state ≠ .bidding) ∧
      (passes (judged .lost []) .arm ∧ (found (judged .lost []) .arm).state = .lost ∧
        (found (judged .lost []) .arm).mirror.live ≠ [] ∧ (found (judged .lost []) .arm).mirror.status ≠ .mismatch ∧
        (found (judged .lost []) .arm).table = []) ∧
      (passes (judged .lost [holdOf]) .arm ∧ ∃ r ∈ (found (judged .lost [holdOf]) .arm).table, r.kind = .hold) ∧
      (passes (demoAt fun x => { x with state := .lost }) .arm ∧
        (found (demoAt fun x => { x with state := .lost }) .arm).mirror.live = []) ∧
      (passes (judged .bidding []) .disarm ∧ (found (judged .bidding []) .disarm).state = .bidding) := by
  unfold passes State.Passes State.Directs State.Accepts State.Ready
  refine ⟨?_, ?_, ?_, ?_, ?_⟩ <;> decide +kernel

theorem witness_ArmingAndForceAreTaken_force :
    (passes demo .forceTake ∧ (found demo .forceTake).state = .mirroring ∧ demo.isolated = false ∧
        (found demo .forceTake).table = []) ∧
      (passes (judged .yielded [holdOf]) .forceTake ∧
        (found (judged .yielded [holdOf]) .forceTake).table.filter (fun q => decide (q.kind = .hold)) = [holdOf]) ∧
      (passes (judged .bidding []) .forceTake ∧ (found (judged .bidding []) .forceTake).state = .bidding) := by
  unfold passes State.Passes State.Directs State.Accepts State.Ready
  refine ⟨?_, ?_, ?_⟩ <;> decide +kernel

/-- Channel 0 on air with a fresh tally. -/
def freshAir : State := demoAir .onAir fun x => { x with seen := true, age := 2 }

theorem witness_HandBackIsTakenInHand :
    passes freshAir .handBack ∧
      ((found freshAir .handBack).state = .onAir ∧ (found freshAir .handBack).isHeld = false ∧
        (found freshAir .handBack).handback = .absent ∧ (found freshAir .handBack).waitReq = none ∧
        (found freshAir .handBack).seen = true ∧ (found freshAir .handBack).age.toNat < demoCfg.suspectFrames) ∧
      freshAir.works.join = { queue := [], flight := none } := by
  unfold passes State.Passes State.Directs State.Accepts State.Ready
  refine ⟨?_, ?_, ?_⟩ <;> decide +kernel

/-- Channel 0 in RETURNING, the handback SET. -/
def returningSet : State := demoAir .returning fun x => { x with handback := .agreed .set 101400 101200 43 0 }

/-- Channel 0 in RETURNING with the handback POSTPONING and a pending FOLLOW. -/
def returningCued : State :=
  demoAir .returning fun x =>
    { x with handback := .agreed .postponing 101400 101200 43 1
             prim := some (demoPort 10 3 (some (demoTake .follow 1 2)) none) }

/-- Channel 0 on air with a pending FOLLOW. -/
def followAir : State :=
  demoAir .onAir fun x => { x with prim := some (demoPort 10 3 (some (demoTake .follow 1 2)) none) }

theorem witness_HoldResumeAndSkipAreTaken :
    (passes followAir .hold ∧ (found followAir .hold).state = .onAir ∧
        (found followAir .hold).cur = some exampleE42 ∧ (found followAir .hold).active = .primary ∧
        ((found followAir .hold).pending.map Take.source) = some .follow ∧
        followAir.works.tx.urgent.length + followAir.works.tx.flying .urgent < 16) ∧
      (passes freshAir .hold ∧ (found freshAir .hold).prim = some (demoPort 10 3 none none)) ∧
      (passes returningSet .hold ∧ (found returningSet .hold).state = .returning ∧
        (found returningSet .hold).handback = .agreed .set 101400 101200 43 0 ∧
        (found returningSet .hold).prim = some (demoPort 10 3 none none)) ∧
      (passes returningCued .hold ∧ (found returningCued .hold).handback = .agreed .postponing 101400 101200 43 1 ∧
        ((found returningCued .hold).pending.map Take.source) = some .follow ∧
        ∀ q ∈ returningCued.works.tx.urgent, q.isCueTo 10 3 = false) := by
  unfold passes State.Passes State.Directs State.Accepts State.Ready
  refine ⟨?_, ?_, ?_, ?_⟩ <;> decide +kernel

/-- E42 is on air with a list that holds its successor. -/
def skippable : State := demoAir .onAir fun x => { x with mirror := { x.mirror with live := exampleList } }

/-- Channel 0 in RETURNING with the handback POSTPONING, its BOUNDARY computed, a pending FOLLOW and a list that holds the
successor of E42. -/
def returningSkip : State :=
  computing (demoAir .returning fun x =>
    { x with handback := .agreed .postponing 101400 101200 43 1, mirror := { x.mirror with live := exampleList }
             prim := some (demoPort 10 3 (some (demoTake .follow 1 2)) none) })
    { exampleFlight .boundary 9 with req := { (exampleFlight .boundary 9).req with atSwitch := false } }

theorem witness_HoldResumeAndSkipAreTaken_steered :
    (passes held .resume ∧ (found held .resume).state = .onAir ∧ (found held .resume).handback = .absent ∧
        (found held .resume).cur.map CurEvent.held = some true ∧ (found held .resume).active = .primary ∧
        (found held .resume).prim = some (demoPort 10 3 none none) ∧ (found held .resume).mirror.other = .absent ∧
        (found held .resume).waitReq = none ∧ held.works.join = { queue := [], flight := none } ∧
        held.works.tx.urgent.length + held.works.tx.flying .urgent < 16) ∧
      (passes returningSkip .skip ∧ (found returningSkip .skip).state = .returning ∧
        (found returningSkip .skip).handback = .agreed .postponing 101400 101200 43 1 ∧
        (found returningSkip .skip).cur.map CurEvent.place = some (.at 1) ∧
        1 + 1 < (found returningSkip .skip).mirror.live.length ∧
        ((found returningSkip .skip).pending.map Take.source) = some .follow ∧
        (∀ q ∈ returningSkip.works.tx.urgent, q.isCueTo 10 3 = false) ∧
        returningSkip.works.join.flight.map (fun f => f.req.atSwitch) = some false) ∧
      (passes skippable .skip ∧ (found skippable .skip).cur.map CurEvent.place = some (.at 1) ∧
        (found skippable .skip).waitReq = none ∧ (found skippable .skip).mirror.other = .absent ∧
        1 + 1 < (found skippable .skip).mirror.live.length) := by
  unfold passes State.Passes State.Directs State.Accepts State.Ready
  refine ⟨?_, ?_, ?_⟩ <;> decide +kernel

/-- Channel 0 in FAULT with its tally at an age. -/
def faulted (age : Byte) : State :=
  demoAt fun x =>
    { x with state := .fault, seen := true, age := age, mirror := { x.mirror with live := exampleList } }

theorem witness_RetryAndClearAreTaken :
    (passes (faulted 2) .retry ∧ (found (faulted 2) .retry).state = .fault ∧ (found (faulted 2) .retry).seen = true ∧
        (found (faulted 2) .retry).age.toNat < demoCfg.suspectFrames) ∧
      (passes (faulted 3) .retry ∧ demoCfg.suspectFrames ≤ (found (faulted 3) .retry).age.toNat ∧
        (found (faulted 3) .retry).armed = true ∧ (found (faulted 3) .retry).mirror.live ≠ [] ∧
        (found (faulted 3) .retry).table = []) ∧
      (passes (faulted 3) .clearChannel ∧ (found (faulted 3) .clearChannel).state = .fault ∧
        (faulted 3).works.join.flight = none) := by
  unfold passes State.Passes State.Directs State.Accepts State.Ready
  refine ⟨?_, ?_, ?_⟩ <;> decide +kernel

theorem witness_RetimeIsTaken :
    (directs demo 40 .retime ∧ Config.controlOf demoCfg 40 = some 0 ∧
        demo.works.lastNumbers[(0 : Fin 4)] ≠ some (ordered .retime).number ∧
        ControlEntry.permits demoCfg.control[(0 : Fin 4)] .retime = true) ∧
      (∀ c, (demo.works.at c).state ∉ [.bidding, .cueing, .onAir, .returning]) ∧
      (directs freshAir 40 .retime ∧ (freshAir.works.at 0).state ∈ [.bidding, .cueing, .onAir, .returning]) := by
  unfold directs State.Directs State.Accepts State.Ready
  refine ⟨?_, ?_, ?_⟩ <;> decide +kernel

/-- RETIME waits on lane A, and a mark of the time station on lane B. -/
def retiming : State := (hears demo (order 40 .retime)).modLane .b fun x => { x with queue := [mark 30] }

theorem witness_RetimeIsTaken_next :
    (after retiming (.retime .a)).Accepts .b (mark 30) (Peer.reset 30) ∧
      (after retiming (.retime .a)).cfg.timeStation = 30 := by
  unfold State.Accepts State.Ready; decide +kernel

/-! ## Witnesses: estimators, claims and the whole part -/

theorem witness_SamplesMoveTheEstimate :
    ({ valid := true, e := 5000, run := 3, sat := false } : Estimator).valid = true ∧
      ((5064 : Int) - 5000).natAbs ≤ demoCfg.outlierLimit ∧ ((4936 : Int) - 5000).natAbs ≤ demoCfg.outlierLimit ∧
      ({ demoCfg with gain := 0 }).gain = 0 ∧ ({ demoCfg with gain := 7 }).gain = 7 := by decide +kernel

/-- The estimate of station 1 stands at a value, with an outlier run. -/
def estimating (e : Int) (run : Nat) : State :=
  { demo with
    peers := modPeer demo.peers 1 fun p => { p with est := { valid := true, e := e, run := run, sat := false } } }

/-- The record of station 1 in it. -/
def estimated (e : Int) (run : Nat) : Peer :=
  { Peer.reset 1 with est := { valid := true, e := e, run := run, sat := false } }

/-- A mark whose stamp lies before its arrival by all of the range of a sample and more. -/
def farMark : RxMsg := { mark 1 with arrival := 2048 + 2147483648 }

theorem witness_SamplesMoveTheEstimate_heard :
    ((hears demo (mark 1)).Accepts .a (mark 1) (Peer.reset 1) ∧
        ((Peer.reset 1).est.take demoCfg 2048 false).satSet = false ∧
        ((Peer.reset 1).est.take demoCfg 2048 false).step = none) ∧
      ((hears demo farMark).Accepts .a farMark (Peer.reset 1) ∧
        2147483647 < (tickDiff farMark.arrival farMark.stamp - demoCfg.linkDelay).natAbs ∧
        tickDiff farMark.arrival (farMark.stamp + 1) - demoCfg.linkDelay = 2147483647 ∧
        ((Peer.reset 1).est.take demoCfg 2147483647 true).satSet = true) ∧
      ((hears (estimating 9000 3) (mark 1)).Accepts .a (mark 1) (estimated 9000 3) ∧
        (((estimated 9000 3).est.take demoCfg 2048 false).step = some (-6952)) ∧
        (((estimated 9000 2).est.take demoCfg 2048 false).step = none)) := by
  unfold State.Accepts State.Ready
  constructorm* _ ∧ _ <;> decide +kernel

/-- An event of one frame whose FIXED start has passed. -/
def lateEvent : EventRec := { event42 with mode := .fixed, duration := 1, startFrame := 5 }

/-- It stands before a FOLLOW event. -/
def passing : List (Nat × EventRec) := [(0, lateEvent), (1, event42)]

theorem witness_WalkTilesTheTime :
    (passing.Nodup ∧ passing = [] ++ (0, lateEvent) :: [(1, event42)]) ∧
      spansFrom (fun _ => -5) 0 41 passing =
        [.event 1 event42 0 0 (some 1500) (some 1500), .tail 1500 42] := by decide +kernel

/-- A full claim table. -/
def four : List Rival := [bidOf 4, bidOf 5, bidOf 6, { bidOf 7 with prec := 9 }]

theorem witness_ClaimsAreRankedAndTheBestAreKept :
    (four.length ≤ 4 ∧ (four.map Rival.station).Nodup ∧ ∀ r ∈ four, r.station ≠ 21) ∧ (bidOf 3).station ≠ 21 ∧
      four.length = 4 ∧ (∀ q ∈ four, q.station ≠ (bidOf 3).station) ∧ { bidOf 7 with prec := 9 } ∈ four ∧
      (∀ q ∈ four, q.station ≠ 7 → q.better { bidOf 7 with prec := 9 } = true) ∧
      (bidOf 3).better { bidOf 7 with prec := 9 } = true ∧
      ({ bidOf 3 with prec := 15 } : Rival).better { bidOf 7 with prec := 9 } = false := by decide +kernel

/-- Station 21 after a pulse that locks its monitor, its notice in the ring. -/
def stepped : State := demo.onWorks fun w => w.notice demo.env .refRestored none 1024

theorem witness_SentMessagesAreReadBack :
    (21 < 256 ∧ (sentReport.payload.length ≤ MsgKind.largest sentReport.kind)) ∧
      (1 ≤ (List.replicate 8 ({ bus := 7, claim := .handback 5 6, prec := 5 } : ClaimEntry)).length ∧
        (List.replicate 8 ({ bus := 7, claim := .handback 5 6, prec := 5 } : ClaimEntry)).length ≤ 8) ∧
      (1 ≤ (List.replicate 4 aired).length ∧ (List.replicate 4 aired).length ≤ 4) ∧
      (demo.load = .good 0 ∧ ({ demo with load := .fault .noMemory }.load = .fault .noMemory) ∧
        ∀ n ∈ (stepped.works.notices.ring.take 4), noticeWellFormed n.bytes 0 = true) ∧
      (readEvent (List.replicate 8 0 ++ [2] ++ List.replicate 7 0)).isSome = true ∧
      (List.replicate 8 (0 : Byte) ++ [2] ++ List.replicate 7 0).length = 16 := by decide +kernel

theorem witness_StepRunsTheFrontCommand :
    (ageing.pending = [] ∧ ageing.due ≠ []) ∧ (State.reset.pending = [] ∧ State.reset.due = [] ∧
      State.reset.running = false) ∧
      (locked.Ready ∧ locked.pending = [] ∧ locked.clk.monitor = .locked ∧
        2 * (locked.clk.elapsed + 1) < 3 * locked.clk.period ∧
        3 * locked.clk.period ≤ 2 * ((locked.withClk { locked.clk with elapsed := 1499999 }).clk.elapsed + 1)) ∧
      (demo.Ready ∧ demo.clk.monitor = .freeRun ∧
        1024 * (demo.clk.elapsed + 1) < (1024 - demo.clk.base) * demo.clk.period ∧
        (1024 - demo.clk.base) * demo.clk.period ≤
          1024 * ((demo.withClk { demo.clk with elapsed := 999999 }).clk.elapsed + 1)) := by
  unfold State.Ready; decide +kernel

theorem witness_EveryCommandCompletes :
    State.reset.load = .reset ∧ State.reset.due = [] ∧ loading.load = .loading ∧ loading.due = [] := by decide +kernel

/-- Station 21 with a command at the front of its queue. -/
def front : State := { demo with pending := [.refPulse 500000 []] }

theorem witness_EveryStepKeepsSound : (demo.Sound ∧ front.Sound) ∧ ∃ t, step front = .next t :=
  ⟨by unfold State.Sound Estimator.Bounded; decide +kernel, _, rfl⟩

theorem witness_EveryStepKeepsTables :
    ((∀ c, TableSound front.own (front.works.at c).table) ∧ front.running = true) ∧ ∃ t, step front = .next t :=
  ⟨by unfold TableSound; decide +kernel, _, rfl⟩

theorem witness_EveryStepKeepsStocks : front.Stocked ∧ ∃ t, step front = .next t :=
  ⟨by unfold State.Stocked; decide +kernel, _, rfl⟩

theorem witness_EveryStepKeepsThePool : front.Pooled ∧ ∃ t, step front = .next t :=
  ⟨by unfold State.Pooled; decide +kernel, _, rfl⟩

/-! ## One step at a time -/

/-- R183, R189: straps 63 lead to CONFIG_FAULT with cause 3. -/
theorem test_straps_63 : (after State.reset (.resetRelease 63)).load = .fault .strapInvalid := by decide +kernel

/-- R39: in FREE_RUN a pulse at phase 512 makes a boundary, and the monitor locks. -/
theorem test_free_run_pulse :
    (after demo (.refPulse 500000 [])).clk.count = 1 ∧ (after demo (.refPulse 500000 [])).clk.monitor = .locked := by
  decide +kernel

/-- R6, R3: a start delimiter in RECEIVING counts a framing lost and starts again. -/
theorem test_restart_counts :
    (after (mode demo (.receiving 5)) (.messageReceived .a 500000 .opening)).laneA.framingLost = 1 ∧
      (after (mode demo (.receiving 5)) (.messageReceived .a 500000 .opening)).laneA.mode = .receiving 512 := by
  decide +kernel

/-- R6: a byte too many loses the framing, and the run that ends with the end delimiter counts once more. -/
theorem test_overlong_counts_twice :
    (after (mode demo (.receiving 5)) (.messageReceived .a 0 (.closing (List.replicate 13 0)))).laneA.framingLost = 2 := by
  decide +kernel

/-- R17: a copy read back whole is good, one of which nothing is read is not. -/
theorem test_echo_is_judged :
    judgeEcho [.start, .data 1, .stop] [.start, .data 1, .stop] = .good ∧
      judgeEcho [.start, .data 1, .stop] [.start, .data 1] = .absent ∧ judgeEcho [.start, .data 1, .stop] [] = .absent ∧
      judgeEcho [.start, .data 1, .stop] [.start, .data 2] = .mismatch ∧
      judgeEcho [.start, .data 1, .stop] [.start, .data 1, .stop, .other] = .mismatch := by decide +kernel

/-- R14, R183: a part whose straps are 0 is not the target 0. -/
theorem test_target_zero :
    (after (hears { demo with own := 0 } (rx 40 .directive [0, 1, 1, 7])) (.arm .a)).disp.notTargeted = 1 := by
  decide +kernel

/-- R186: loss_frames 1 beside suspect_frames 50 is corrected to 51 by two passes and counted once. -/
theorem test_correction_counts_once :
    (correctImage { Config.default with suspectFrames := 50, lossFrames := 1 }).2 = 1 ∧
      (correctImage { Config.default with suspectFrames := 50, lossFrames := 1 }).1.lossFrames = 51 := by decide +kernel

/-- R4, R7: a TIME MARK with its check joins the queue with its arrival tick, 5. -/
theorem test_message_is_queued :
    ((after (mode demo (.receiving 5)) (.messageReceived .a 0 (.closing (framed 7 4 [0, 0, 0, 2])))).laneA.queue.map
      fun m => (m.kind, m.arrival, m.payload)) = [(.timeMark, 5, [0, 0, 0, 2])] := by decide +kernel

/-- R42: the mark for frame 2 leaves a load to frame 3 pending. -/
theorem test_mark_pends :
    (after (hears demo (mark 30)) (.receiveTimeMark .a)).clk.pendingValue = 3 := by decide +kernel

/-- R13: a DIRECTIVE of three bytes is malformed. -/
theorem test_malformed_directive :
    (after (hears demo (rx 40 .directive [21, 1, 1])) (.arm .a)).disp.malformed = 1 := by decide +kernel

/-- R43: a load to 700 is made at the boundary. -/
theorem test_time_loaded : (after pending700 .timeLoaded).clk.count = 700 := by decide +kernel

/-- R116, R98: an empty table wins the window. -/
theorem test_bid_won : ((after (bidding []) (.bidWindowDecided 0)).works.at 0).state = .cueing := by decide +kernel

/-- R119: a better HOLD takes the air. -/
theorem test_claim_lost :
    ((after (hears (demoAir .onAir id) (claim 2 4)) (.receiveClaim .a)).works.at 0).state = .yielded := by decide +kernel

/-- R141, R152: a PLAYING report of the pending tag confirms the take. -/
theorem test_take_confirmed :
    ((after (hears cueing (playing 10)) (.receivePortStatus .a)).works.at 0).state = .onAir := by decide +kernel

/-- R148: a silent server with an alternate switches the port. -/
theorem test_port_switch :
    ((after (deadline 10 none (some (demoPort 11 4 none none))) (.serverSilent 0)).works.at 0).active = .alternate := by
  decide +kernel

/-- R168, R169: READY at H − 1 settles the handback, and at H it is done. -/
theorem test_handback :
    ((after (returning 101399 .set 0 (some 101200)) (.readyCheck 0)).works.at 0).handback =
        .agreed .settled 101400 101200 43 0 ∧
      ((after (returning 101400 .settled 0 none) (.handbackDone 0)).works.at 0).state = .mirroring := by decide +kernel

/-- R181: REPORT half 0 of a part in CONFIG_FAULT is 160 bytes, and the next half stays. -/
theorem test_report :
    (after (reporting (.fault .noMemory) 1 []) .reportBuild).works.nextHalf = 1 := by decide +kernel

/-- R134, R126, R128: a SKIP of a held FILLER, its end open, pulls E43 forward from 101,400 to T. -/
theorem test_skip_of_held_filler :
    (flightFrom .skip 101000 { exampleE42 with place := .filler, endAt := none, held := true }).result 900 =
      { outcome := .take { exampleE43 with start := 101000, endAt := some 104000, natEnd := some 104000 }
        anchor := none, due := [] } := by decide +kernel

/-- R135, R155: a HOLD taken while the REJOIN for 100,105 is computed stands: E42 is re-taken with its end open. -/
theorem test_hold_during_rejoin :
    ((after (computing (demoAir .onAir fun x =>
        { x with gen := 1, cur := some { exampleE42 with held := true, endAt := none } })
        (exampleFlight .rejoin 100105)) .joinComplete).works.at 0).cur.map (fun y => (y.held, y.endAt, y.entry)) =
      some (true, none, 125) := by decide +kernel

/-- R78, R134, R156: a SKIP waits, and the list that took the deferred one's place holds no E42: it is deferred at the
handover and committed before the SKIP is placed. -/
theorem test_waiting_skip_commits :
    ((after (computing (demoAir .onAir fun x =>
        { x with waitReq := some { kind := .skip, atSwitch := false }
                 mirror := { x.mirror with other := .ready 6 eight false } })
        (exampleFlight .follow 9)) .joinComplete).works.at 0).mirror.liveRev = some 6 := by decide +kernel

/-- R190: the reason byte of DIRECTIVE_TAKEN is 0 (kind 32, no channel, number 7, directive kind 5). -/
theorem test_taken_reason :
    (noticeWellFormed [32, 0, 40, 7, 5, 0, 0, 0, 0, 1] 0, noticeWellFormed [32, 0, 40, 7, 5, 9, 0, 0, 0, 1] 0) =
      (true, false) := by decide +kernel

/-- R155: a HOLD leaves the end of the event open and withdraws the pending TAKE. -/
theorem test_hold :
    ((after (hears followAir (order 40 .hold)) (.hold .a)).works.at 0).isHeld = true ∧
      ((after (hears followAir (order 40 .hold)) (.hold .a)).works.at 0).pending = none := by decide +kernel

/-- R143, R137: the TAKEOVER of the example is cued under the next tag. -/
theorem test_takeover_is_cued :
    ((after takingOver .joinComplete).works.at 0).pending.map (fun t => (t.tag, t.k)) = some (1, 100005) := by
  decide +kernel

end Sys2Proof.Tests
end

