-- ==== Sys2Proof/Proofs/Sound.lean ====
section
/-! SUPPORT. R7, R56, R37, R36: the bounds on the receive queues, the estimates and the clock are kept by every
operation, and so by every step. -/

namespace Sys2Proof.Machine

/-! ## Estimates stay within their bounds (R52 to R56) -/

theorem clampInt_bounds {lo hi : Int} (h : lo ≤ hi) (x : Int) : lo ≤ clampInt lo hi x ∧ clampInt lo hi x ≤ hi := by
  unfold clampInt
  split
  · omega
  · split <;> omega

theorem saturate_bounded (x : Int) : -sampleBound ≤ (saturate x).1 ∧ (saturate x).1 ≤ sampleBound :=
  clampInt_bounds (by decide) x

/-- A quotient rounded to the nearest lies between 0 and the dividend, whatever the sign. -/
theorem roundDiv_between (n : Int) {d : Nat} (hd : 0 < d) : min 0 n ≤ roundDiv n d ∧ roundDiv n d ≤ max 0 n := by
  have hpos : (0 : Int) < d := by exact_mod_cast hd
  have hdiv : (d : Int) * (n / d) + n % d = n := Int.mul_ediv_add_emod n d
  have hlo : 0 ≤ n % (d : Int) := Int.emod_nonneg n hpos.ne'
  have hhi : n % (d : Int) < d := Int.emod_lt_of_pos n hpos
  unfold roundDiv
  dsimp only
  generalize n / (d : Int) = q at *
  generalize n % (d : Int) = r at *
  generalize (d : Int) = k at *
  have low : min 0 n ≤ q := by
    rcases lt_or_ge q 0 with hq | hq
    · have : n ≤ q := by nlinarith
      omega
    · omega
  have top : q ≤ max 0 n := by
    rcases lt_or_ge 0 q with hq | hq
    · have : q ≤ n := by nlinarith
      omega
    · omega
  have up : k ≤ 2 * r → q + 1 ≤ max 0 n := by
    intro hr
    rcases lt_or_ge q 0 with hq | hq
    · omega
    · have : q + 1 ≤ n := by nlinarith
      omega
  split
  · exact ⟨low, top⟩
  · split
    · exact ⟨by omega, up (by omega)⟩
    · split
      · exact ⟨low, top⟩
      · exact ⟨by omega, up (by omega)⟩

theorem Estimator.take_bounded {cfg : Config} {x : Estimator} {s : Int} {marked : Bool} (hx : x.Bounded)
    (hs : -sampleBound ≤ s ∧ s ≤ sampleBound) : (x.take cfg s marked).est.Bounded := by
  unfold Estimator.take
  split
  · exact fun _ => hs
  · rename_i hv
    have he := hx (by simpa using hv)
    dsimp only
    split
    · have hr := roundDiv_between (s - x.e) (d := 2 ^ cfg.gain) (by positivity)
      intro _
      constructor
      · dsimp only; omega
      · dsimp only; omega
    · split
      · exact hx
      · exact fun _ => hs

theorem Estimator.shift_bounded {x : Estimator} (hx : x.Bounded) (delta : Int) : (x.shift delta).1.Bounded := by
  unfold Estimator.shift
  split
  · exact fun _ => saturate_bounded _
  · exact hx

/-! ## What keeps the bounds (R7, R36, R37) -/

theorem State.Sound.onWorks {s : State} (h : s.Sound) (f : Works → Works) : (s.onWorks f).Sound := h

theorem State.Sound.hand {s : State} (h : s.Sound) (f : Env → Works → Works) : (s.hand f).Sound := h

theorem State.Sound.dispatch {s : State} (h : s.Sound) (f : Dispatcher → Dispatcher) : (s.dispatch f).Sound := h

theorem State.Sound.withDue {s : State} (h : s.Sound) (due : List Work) : ({ s with due := due } : State).Sound := h

theorem State.Sound.withPeers {s : State} (h : s.Sound) {peers : List Peer} (hp : ∀ p ∈ peers, p.est.Bounded) :
    ({ s with peers := peers } : State).Sound := by
  obtain ⟨ha, hb, -, hclk⟩ := h
  exact ⟨ha, hb, hp, hclk⟩

/-- A clock whose period is not 0 and whose frame began at or below phase 512 may take the clock's place. -/
theorem State.Sound.withClk {s : State} (h : s.Sound) (t : Timebase) (hp : 0 < t.period) (hb : t.base ≤ 512) :
    (s.withClk t).Sound := by
  obtain ⟨hqa, hqb, he, -⟩ := h
  exact ⟨hqa, hqb, he, hp, hb⟩

theorem State.Sound.modLane {s : State} (h : s.Sound) (l : Lane) {f : LaneIf → LaneIf}
    (hf : ∀ x : LaneIf, x.queue.length ≤ 8 → (f x).queue.length ≤ 8) : (s.modLane l f).Sound := by
  obtain ⟨ha, hb, hrest⟩ := h
  cases l with
  | a => exact ⟨hf _ ha, hb, hrest⟩
  | b => exact ⟨ha, hf _ hb, hrest⟩

theorem State.Sound.pass {s : State} (h : s.Sound) (dt : Nat) : (s.pass dt).Sound := h

/-! ## The pieces of a boundary's work -/

theorem State.Sound.makeLoad {s : State} (h : s.Sound) : s.makeLoad.Sound := by
  obtain ⟨ha, hb, he, hp, -⟩ := h
  refine State.Sound.onWorks ?_ _
  refine ⟨?_, ?_, ?_, hp, Nat.zero_le 512⟩
  · simpa [LaneIf.shift] using ha
  · simpa [LaneIf.shift] using hb
  · intro p hmem
    obtain ⟨q, hq, rfl⟩ := List.mem_map.mp hmem
    exact Estimator.shift_bounded (he q hq) _

theorem State.Sound.loadBoundary {s : State} (h : s.Sound) : s.loadBoundary.Sound := by
  unfold State.loadBoundary
  split
  · exact h.makeLoad
  · split <;> exact h

theorem State.Sound.judgeLane {s : State} (h : s.Sound) (l : Lane) : (s.judgeLane l).Sound := by
  unfold State.judgeLane
  dsimp only
  split
  · exact h
  · refine State.Sound.onWorks (h.modLane l ?_) _
    exact fun _ hx => hx

theorem State.Sound.judgeIsolation {s : State} (h : s.Sound) : s.judgeIsolation.Sound := by
  unfold State.judgeIsolation
  split
  · split <;> exact h
  · split <;> exact h

theorem State.Sound.reportBoundary {s : State} (h : s.Sound) : s.reportBoundary.Sound := by
  obtain ⟨f, hf⟩ := s.reportBoundary_works
  rw [hf]
  exact h.onWorks f

theorem State.Sound.runWork {s : State} (h : s.Sound) (k : Work) : (runWork k s).Sound := by
  cases k with
  | timebase => exact h.loadBoundary
  | laneJudge l => exact h.judgeLane l
  | isolation => exact h.judgeIsolation
  | peers =>
    obtain ⟨-, -, he, -⟩ := id h
    refine h.withPeers fun p hmem => ?_
    obtain ⟨q, hq, rfl⟩ := List.mem_map.mp hmem
    exact he q hq
  | report => exact h.reportBoundary
  | _ => exact h

theorem State.Sound.runAll {s : State} (h : s.Sound) (ks : List Work) : (runAll ks s).Sound :=
  runAll_keeps (fun k _ _ hs => hs.runWork k) s h

theorem State.Sound.settle {s : State} (h : s.Sound) : s.settle.Sound := (h.runAll s.due).withDue []

theorem State.Sound.boundary {s : State} (h : s.Sound) (left : List Work) : (s.boundary left).Sound :=
  ((h.onWorks Works.newBoundary).runAll _).withDue _

theorem State.Sound.slice {s : State} (h : s.Sound) (k : Work) (cond : State → Bool) : (s.slice k cond).Sound := by
  unfold State.slice
  split
  · dsimp only
    split
    · exact State.Sound.withDue (State.Sound.runWork ((h.runAll _).withDue _) k) _
    · exact h
  · exact h

theorem State.Sound.whenRunning {s : State} (h : s.Sound) {f : State → State} (hf : ∀ u : State, u.Sound → (f u).Sound) :
    (s.whenRunning f).Sound := by
  unfold State.whenRunning
  split
  · exact hf _ h.settle
  · exact h

/-! ## The reference monitor (R37 to R39) -/

/-- A pulse that is no glitch came after half a measured period or more, so the interval it measures is not 0. -/
theorem Timebase.accept_period_pos {t : Timebase} (hp : 0 < t.period) (hg : t.glitch = false) : 0 < t.accept.period := by
  have : t.period ≤ 2 * t.elapsed := by simpa [Timebase.glitch] using hg
  show 0 < t.elapsed
  omega

theorem State.Sound.refPulse {s : State} (h : s.Sound) (dt : Nat) (left : List Work) : (s.refPulse dt left).Sound := by
  obtain ⟨-, -, -, hp, hb⟩ := id h
  have hp' : 0 < (s.clk.advance dt).period := hp
  unfold State.refPulse
  split
  · unfold State.lockedPulse
    split
    · exact h.withClk _ hp hb
    · rename_i hg
      exact (h.withClk _ (Timebase.accept_period_pos hp' (by simpa using hg)) (Nat.zero_le 512)).boundary left
  · unfold State.freePulse
    split
    · exact ((h.withClk ((s.clk.advance dt).roll 0).lock hp (Nat.zero_le 512)).boundary left).onWorks _
    · exact (h.withClk (s.clk.advance dt).lock hp (Nat.zero_le 512)).onWorks _

theorem State.Sound.refLost {s : State} (h : s.Sound) (left : List Work) : (s.refLost left).Sound := by
  obtain ⟨-, -, -, hp, -⟩ := id h
  unfold State.refLost
  split
  · exact ((h.withClk s.clk.lose hp (le_refl 512)).boundary left).onWorks _
  · exact h

theorem State.Sound.freeRunBoundary {s : State} (h : s.Sound) (left : List Work) : (s.freeRunBoundary left).Sound := by
  obtain ⟨-, -, -, hp, -⟩ := id h
  unfold State.freeRunBoundary
  split
  · exact (h.withClk (s.clk.roll 0) hp (Nat.zero_le 512)).boundary left
  · exact h

theorem State.Sound.crystal {s : State} (h : s.Sound) : s.crystal.Sound := by
  have h1 : (s.withClk (s.clk.advance 1)).Sound := h
  unfold State.crystal
  dsimp only
  split
  · split
    · exact h1.refLost []
    · exact h1.freeRunBoundary []
  · exact h1

theorem State.Sound.idle {s : State} (h : s.Sound) : s.idle.Sound := by
  unfold State.idle
  split
  · exact h.settle
  · split
    · exact h.crystal
    · exact h

/-! ## Lines (R3 to R7, R17, R29) -/

theorem LaneIf.offer_queue_le {x : LaneIf} (h : x.queue.length ≤ 8) (m : RxMsg) : (x.offer m).queue.length ≤ 8 := by
  unfold LaneIf.offer
  split
  · simp; omega
  · exact h

theorem LaneIf.stray_queue (x : LaneIf) : x.stray.queue = x.queue := by
  unfold LaneIf.stray
  split <;> rfl

theorem LaneIf.judge_queue_le {x : LaneIf} (h : x.queue.length ≤ 8) (bytes : List Byte) (arrival : Tick) :
    (x.judge bytes arrival).queue.length ≤ 8 := by
  unfold LaneIf.judge
  split
  · rw [LaneIf.stray_queue]; exact h
  · dsimp only
    split
    case h_5 => exact LaneIf.offer_queue_le (x := { x with mode := .hunting false }) h _
    all_goals exact h

theorem LaneIf.receive_queue_le {x : LaneIf} (h : x.queue.length ≤ 8) (tick : Tick) (part : RxPart) :
    (x.receive tick part).queue.length ≤ 8 := by
  unfold LaneIf.receive
  split
  case h_3 => exact LaneIf.judge_queue_le h _ _
  case h_4 => rw [LaneIf.stray_queue]; exact h
  case h_5 => exact LaneIf.judge_queue_le h _ _
  case h_6 => exact LaneIf.judge_queue_le (x := x.lose (.hunting false)) h _ _
  all_goals exact h

theorem LaneIf.unframe_queue (x : LaneIf) (tick : Tick) (cause : FramingCause) :
    (x.unframe tick cause).queue = x.queue := by
  unfold LaneIf.unframe
  split
  · exact x.stray_queue
  all_goals rfl

theorem State.Sound.messageReceived {s : State} (h : s.Sound) (l : Lane) (dt : Nat) (part : RxPart) :
    (s.messageReceived l dt part).Sound :=
  (h.pass dt).modLane l fun _ hx => LaneIf.receive_queue_le hx _ _

theorem State.Sound.loseFraming {s : State} (h : s.Sound) (l : Lane) (dt : Nat) (cause : FramingCause) :
    (s.loseFraming l dt cause).Sound :=
  (h.pass dt).modLane l fun x hx => by rw [x.unframe_queue]; exact hx

theorem State.Sound.copyBegin {s : State} (h : s.Sound) (l : Lane) (dt : Nat) : (s.copyBegin l dt).Sound := by
  unfold State.copyBegin
  dsimp only
  split
  · exact h
  · split
    · refine State.Sound.onWorks ((h.pass dt).modLane l ?_) _
      exact fun _ hx => hx
    · exact h

theorem State.Sound.copyEnd {s : State} (h : s.Sound) (l : Lane) (readBack : List Symbol) :
    (s.copyEnd l readBack).Sound := by
  unfold State.copyEnd
  split
  · exact h
  · split
    · refine State.Sound.onWorks (h.modLane l ?_) _
      exact fun _ hx => hx
    · exact h

/-! ## The dispatcher (R9 to R15) -/

theorem State.Sound.popRx {s : State} (h : s.Sound) (l : Lane) : (s.popRx l).Sound :=
  h.modLane l fun _ hx => by simp; omega

theorem State.Sound.refreshLane {s : State} (h : s.Sound) (l : Lane) : (s.refreshLane l).Sound :=
  h.modLane l fun _ hx => hx

/-- A record changes to one whose estimate is bounded when the old one was. -/
theorem modPeer_bounded {peers : List Peer} (h : ∀ p ∈ peers, p.est.Bounded) {station : Nat} {f : Peer → Peer}
    (hf : ∀ p, p.est.Bounded → (f p).est.Bounded) : ∀ p ∈ modPeer peers station f, p.est.Bounded := by
  intro p hmem
  obtain ⟨q, hq, rfl⟩ := List.mem_map.mp hmem
  split
  · exact hf q (h q hq)
  · exact h q hq

theorem Peer.heardOn_est (p : Peer) (l : Lane) : (p.heardOn l).est = p.est := by cases l <;> rfl

theorem State.Sound.suppress {s : State} (h : s.Sound) (l : Lane) (sender : Nat) : (s.suppress l sender).Sound := by
  obtain ⟨-, -, he, -⟩ := id h
  exact (h.refreshLane l).withPeers (modPeer_bounded he fun p hp => by rw [p.heardOn_est]; exact hp)

theorem findPeer_mem {peers : List Peer} {n : Nat} {p : Peer} (h : findPeer peers n = some p) : p ∈ peers :=
  List.mem_of_find?_eq_some h

theorem State.Sound.acceptMsg {s : State} (h : s.Sound) (l : Lane) {p : Peer} (hp : p ∈ s.peers) (m : RxMsg) :
    (s.acceptMsg l p m).Sound := by
  obtain ⟨-, -, he, -⟩ := id h
  have hest : (s.sample p m).est.Bounded := Estimator.take_bounded (he p hp) (saturate_bounded _)
  exact State.Sound.onWorks ((h.refreshLane l).withPeers (modPeer_bounded he fun _ _ => hest)) _

/-- The dispatcher keeps the bounds when the routing of the accepted message does. -/
theorem State.Sound.takeRx {s : State} (h : s.Sound) (l : Lane) (names : RxMsg → Bool)
    {route : Nat → RxMsg → State → State} (hr : ∀ n m (u : State), u.Sound → (route n m u).Sound) :
    (s.takeRx l names route).Sound := by
  have hpop := h.popRx l
  unfold State.takeRx
  split
  · exact h
  · split
    · dsimp only
      split
      · exact hpop.dispatch _
      · split
        · exact hpop
        · rename_i p hfind
          split
          · exact hpop.suppress l _
          · exact hr _ _ _ (hpop.acceptMsg l (findPeer_mem hfind) _)
    · exact h

theorem State.Sound.decoded {α : Type} {s : State} (h : s.Sound) (x : Option α) {f : α → State}
    (hf : ∀ a, (f a).Sound) : (s.decoded x f).Sound := by
  cases x with
  | none => exact h
  | some a => exact hf a

theorem State.Sound.tallyEntry {s : State} (h : s.Sound) (sender : Nat) (stamp : Tick) (t : TallyEntry) :
    (s.tallyEntry sender stamp t).Sound := by
  unfold State.tallyEntry
  split
  · exact h
  · split
    · exact h
    · split <;> exact h

theorem State.Sound.claimEntry {s : State} (h : s.Sound) (sender : Nat) (x : ClaimEntry) :
    (s.claimEntry sender x).Sound := by
  unfold State.claimEntry
  split <;> exact h

theorem State.Sound.routeTally {s : State} (h : s.Sound) (sender : Nat) (m : RxMsg) : (s.routeTally sender m).Sound :=
  h.decoded _ fun ts => foldl_keeps (P := State.Sound) (fun _ t hu => hu.tallyEntry sender m.stamp t) ts h

theorem State.Sound.routeSegment {s : State} (h : s.Sound) (sender : Nat) (m : RxMsg) :
    (s.routeSegment sender m).Sound := by
  refine h.decoded _ fun g => ?_
  split
  · exact h
  · split <;> exact h

theorem State.Sound.routeClaim {s : State} (h : s.Sound) (sender : Nat) (m : RxMsg) : (s.routeClaim sender m).Sound :=
  h.decoded _ fun xs => foldl_keeps (P := State.Sound) (fun _ x hu => hu.claimEntry sender x) xs h

theorem State.Sound.routeCue {s : State} (h : s.Sound) (m : RxMsg) : (s.routeCue m).Sound := by
  unfold State.routeCue
  split <;> exact h

theorem State.Sound.routeReport {s : State} (h : s.Sound) (m : RxMsg) : (s.routeReport m).Sound := by
  unfold State.routeReport
  split <;> exact h

theorem State.Sound.routeAsRun {s : State} (h : s.Sound) (m : RxMsg) : (s.routeAsRun m).Sound := by
  unfold State.routeAsRun
  split <;> exact h

theorem State.Sound.takeMark {s : State} (h : s.Sound) (sender : Nat) (arrival : Tick) (m : Frame) :
    (s.takeMark sender arrival m).Sound := by
  unfold State.takeMark State.compareMark
  split
  · exact h
  · split
    · dsimp only
      split <;> exact h
    · exact h

theorem State.Sound.takeDirective {s : State} (h : s.Sound) (l : Lane) (k : DirKind)
    {unit : Nat → Directive → State → State} (hu : ∀ n d (u : State), u.Sound → (unit n d u).Sound) :
    (s.takeDirective l k unit).Sound := by
  refine h.takeRx l _ fun n m u hs => hs.decoded _ fun d => ?_
  split
  · exact hu n d u hs
  · exact hs.dispatch _

theorem State.Sound.directRetime {s : State} (h : s.Sound) (sender : Nat) (d : Directive) :
    (s.directRetime sender d).Sound := by
  obtain ⟨ha, hb, he, hp, hbase⟩ := h
  unfold State.directRetime
  dsimp only
  split <;> exact ⟨ha, hb, he, hp, hbase⟩

/-! ## Start-up (R183 to R189) -/

theorem peerTable_bounded (own : Nat) : ∀ p ∈ peerTable own, p.est.Bounded := by
  intro p hmem
  obtain ⟨n, -, rfl⟩ := List.mem_map.mp hmem
  exact fun hv => Bool.noConfusion hv

theorem State.Sound.start {s : State} (h : s.Sound) (cfg : Config) (load : LoadState) : (s.start cfg load).Sound := by
  obtain ⟨ha, hb, he, -⟩ := h
  exact ⟨ha, hb, he, (by decide : 0 < nominalPeriod), Nat.zero_le 512⟩

theorem State.Sound.configFault {s : State} (h : s.Sound) (cause : LoadFault) : (s.configFault cause).Sound :=
  (h.start _ _).onWorks _

theorem State.Sound.loadImage {s : State} (h : s.Sound) (image : List Byte) : (s.loadImage image).Sound := by
  unfold State.loadImage
  split
  · exact h.start _ _
  · exact h.configFault _

theorem State.Sound.readStraps {s : State} (h : s.Sound) (straps : BitVec 6) : (s.readStraps straps).Sound := by
  have h1 : ({ s with own := straps.toNat, peers := peerTable straps.toNat } : State).Sound :=
    h.withPeers (peerTable_bounded _)
  unfold State.readStraps
  dsimp only
  split
  · exact h1.configFault _
  · exact h1

theorem State.reset_sound : State.reset.Sound :=
  ⟨Nat.zero_le _, Nat.zero_le _, peerTable_bounded 0, by decide, Nat.zero_le _⟩

/-! ## Every command and every step -/

theorem State.Sound.withPending {s : State} (h : s.Sound) (is : List Instr) :
    ({ s with pending := is } : State).Sound := h

/-- Every command keeps the bounds. -/
theorem State.Sound.exec {s t : State} (h : s.Sound) (i : Instr) (ht : exec i s = .next t) : t.Sound := by
  cases i with
  | resetAssert => cases ht; exact State.reset_sound.withPending _
  | resetRelease straps => cases ht; split; exacts [h.readStraps straps, h]
  | configurationLoad image => cases ht; split; exacts [h.loadImage image, h]
  | noMemory => cases ht; split; exacts [h.configFault _, h]
  | refPulse dt left => cases ht; exact h.whenRunning fun _ hu => hu.refPulse dt left
  | refLost left => cases ht; exact h.whenRunning fun _ hu => hu.refLost left
  | freeRunBoundary left => cases ht; exact h.whenRunning fun _ hu => hu.freeRunBoundary left
  | messageReceived l dt part => cases ht; exact h.whenRunning fun _ hu => hu.messageReceived l dt part
  | framingLost l dt cause => cases ht; exact h.whenRunning fun _ hu => hu.loseFraming l dt cause
  | receiveTally l =>
    cases ht; exact h.whenRunning fun _ hu => hu.takeRx l _ fun n m _ hv => hv.routeTally n m
  | receiveSegment l =>
    cases ht; exact h.whenRunning fun _ hu => hu.takeRx l _ fun n m _ hv => hv.routeSegment n m
  | receiveClaim l =>
    cases ht; exact h.whenRunning fun _ hu => hu.takeRx l _ fun n m _ hv => hv.routeClaim n m
  | receiveCue l => cases ht; exact h.whenRunning fun _ hu => hu.takeRx l _ fun _ m _ hv => hv.routeCue m
  | receivePortStatus l =>
    cases ht; exact h.whenRunning fun _ hu => hu.takeRx l _ fun n _ _ hv => hv.decoded _ fun _ => hv.hand _
  | receiveTimeMark l =>
    cases ht; exact h.whenRunning fun _ hu => hu.takeRx l _ fun n m _ hv => hv.decoded _ (hv.takeMark n m.arrival)
  | receiveReport l => cases ht; exact h.whenRunning fun _ hu => hu.takeRx l _ fun _ m _ hv => hv.routeReport m
  | receiveAsRun l => cases ht; exact h.whenRunning fun _ hu => hu.takeRx l _ fun _ m _ hv => hv.routeAsRun m
  | retime l => cases ht; exact h.whenRunning fun _ hu => hu.takeDirective l _ fun n d _ hv => hv.directRetime n d
  | arm l | disarm l | forceTake l | handBack l | hold l | resume l | skip l | retry l | clearChannel l =>
    cases ht; exact h.whenRunning fun _ hu => hu.takeDirective l _ fun _ _ _ hv => hv.hand _
  | copyBegin l dt => cases ht; exact h.whenRunning fun _ hu => hu.copyBegin l dt
  | copyEnd l readBack => cases ht; exact h.whenRunning fun _ hu => hu.copyEnd l readBack
  | joinComplete => cases ht; exact h.whenRunning fun _ hu => hu.hand _
  | copyAbandoned | originSuspect | originLost | claimExpiry | bidWindowDecided | laneQuiet | isolated | serverSilent
  | armTimeout | takeTimeout | withdrawnTakeExpiry | followDue | readyCheck | handbackDone | timeLoaded | reportBuild
  | asrunBuild => cases ht; exact h.slice _ _

/-- Settles O57: by the command at the front of the queue, or by the idle step. -/
theorem everyStepKeepsSound : Obligations.EveryStepKeepsSound := by
  intro s t h ht
  unfold step at ht
  split at ht
  · cases ht; exact h.idle
  · exact (h.withPending _).exec _ ht

end Sys2Proof.Machine
end

