-- ==== Sys2Proof/Proofs/Dispatcher.lean ====
section
/-! SUPPORT. R9 to R15: which command takes a message, what the dispatcher does with it, and how an accepted message of
each kind is routed. -/

namespace Sys2Proof.Machine

/-! ## Lanes -/

/-- Two changes that agree on a lane change the part alike. -/
theorem State.modLane_congr {s : State} {l : Lane} {f g : LaneIf → LaneIf} (h : f (s.lane l) = g (s.lane l)) :
    s.modLane l f = s.modLane l g := by
  cases l
  · exact congrArg (fun x => { s with laneA := x }) h
  · exact congrArg (fun x => { s with laneB := x }) h

theorem State.modLane_modLane (s : State) (l : Lane) (f g : LaneIf → LaneIf) :
    (s.modLane l f).modLane l g = s.modLane l fun x => g (f x) := by
  cases l <;> rfl

theorem State.popRx_of_queue {s : State} {l : Lane} {m : RxMsg} {rest : List RxMsg} (h : (s.lane l).queue = m :: rest) :
    s.popRx l = s.modLane l fun x => { x with queue := rest } :=
  State.modLane_congr (by simp [h])

/-! ## The command that takes a message (R9) -/

/-- A directive command takes the entry for a unit of its own. -/
theorem exec_directiveCommand (l : Lane) (k : DirKind) :
    ∃ unit, ∀ s, exec (directiveCommand l k) s = .next (s.whenRunning (State.takeDirective l k unit)) := by
  cases k <;> exact ⟨_, fun _ => rfl⟩

/-- A command that takes a message names it to the dispatcher, and routes it as malformed when it is. -/
theorem Takes.exec {l : Lane} {m : RxMsg} {i : Instr} (h : Takes l m i) :
    ∃ names route, names m = true ∧ (∀ s, exec i s = .next (s.whenRunning (State.takeRx l names route))) ∧
      (m.Malformed → ∀ n s, route n m s = s.malformed) := by
  rcases h with h | ⟨k, hk, rfl⟩
  · cases hm : m.kind with
    | directive => simp [receiveCommand, hm] at h
    | cue | report | asRun =>
      obtain rfl : _ = i := by simpa [receiveCommand, hm] using h
      refine ⟨_, _, ?_, fun s => rfl, ?_⟩
      · simp [RxMsg.isKind, hm]
      · intro hbad n s
        simp only [RxMsg.Malformed, hm] at hbad
        simp [State.routeCue, State.routeReport, State.routeAsRun, hbad]
    | _ =>
      obtain rfl : _ = i := by simpa [receiveCommand, hm] using h
      refine ⟨_, _, ?_, fun s => rfl, ?_⟩
      · simp [RxMsg.isKind, hm]
      · intro hbad n s
        simp only [RxMsg.Malformed, hm] at hbad
        simp only [State.routeTally, State.routeSegment, State.routeClaim, State.routePortStatus, State.routeTimeMark,
          hbad, State.decoded]
  · obtain ⟨unit, hexec⟩ := exec_directiveCommand l k
    refine ⟨_, _, hk, hexec, fun hbad n s => ?_⟩
    have hkind : m.kind = .directive := by
      simp only [RxMsg.isDirective, Bool.and_eq_true, decide_eq_true_eq] at hk
      exact hk.1
    simp only [RxMsg.Malformed, hkind] at hbad
    simp only [State.routeDirective, hbad, State.decoded]

/-! ## Routing of an accepted message (R14) -/

section
variable {s : State} {l : Lane} {m : RxMsg} {p : Peer}

/-- A command that takes one kind routes an accepted message of it, the header already taken. -/
theorem State.Accepts.whenRunning (h : s.Accepts l m p) {names : RxMsg → Bool} (hn : names m = true)
    (route : Nat → RxMsg → State → State) :
    s.whenRunning (State.takeRx l names route) = route m.sender.toNat m (s.heard l p m) := by
  rw [h.1.whenRunning, h.takeRx hn]

theorem State.Accepts.receiveTally (h : s.Accepts l m p) (hk : m.kind = .tally) :
    exec (.receiveTally l) s = .next (State.routeTally m.sender.toNat m (s.heard l p m)) :=
  congrArg _ (h.whenRunning (by simp [RxMsg.isKind, hk]) _)

theorem State.Accepts.receiveSegment (h : s.Accepts l m p) (hk : m.kind = .segment) :
    exec (.receiveSegment l) s = .next (State.routeSegment m.sender.toNat m (s.heard l p m)) :=
  congrArg _ (h.whenRunning (by simp [RxMsg.isKind, hk]) _)

theorem State.Accepts.receiveClaim (h : s.Accepts l m p) (hk : m.kind = .claim) :
    exec (.receiveClaim l) s = .next (State.routeClaim m.sender.toNat m (s.heard l p m)) :=
  congrArg _ (h.whenRunning (by simp [RxMsg.isKind, hk]) _)

theorem State.Accepts.receivePortStatus (h : s.Accepts l m p) (hk : m.kind = .portStatus) :
    exec (.receivePortStatus l) s = .next (State.routePortStatus m.sender.toNat m (s.heard l p m)) :=
  congrArg _ (h.whenRunning (by simp [RxMsg.isKind, hk]) _)

theorem State.Accepts.receiveCue (h : s.Accepts l m p) (hk : m.kind = .cue) :
    exec (.receiveCue l) s = .next (State.routeCue m (s.heard l p m)) :=
  congrArg _ (h.whenRunning (by simp [RxMsg.isKind, hk]) _)

theorem State.Accepts.receiveReport (h : s.Accepts l m p) (hk : m.kind = .report) :
    exec (.receiveReport l) s = .next (State.routeReport m (s.heard l p m)) :=
  congrArg _ (h.whenRunning (by simp [RxMsg.isKind, hk]) _)

theorem State.Accepts.receiveAsRun (h : s.Accepts l m p) (hk : m.kind = .asRun) :
    exec (.receiveAsRun l) s = .next (State.routeAsRun m (s.heard l p m)) :=
  congrArg _ (h.whenRunning (by simp [RxMsg.isKind, hk]) _)

end

section
variable {s : State} {m : RxMsg} {c : Chan}

/-- The entries of a TALLY act one after the other (R88). -/
theorem State.routeTally_of_read {es : List TallyEntry} (h : readTally m.payload = some es) (sender : Nat) :
    s.routeTally sender m = es.foldl (State.tallyEntry sender m.stamp) s := by
  simp only [State.routeTally, h, State.decoded]

/-- The entries of a CLAIM act one after the other (R107). -/
theorem State.routeClaim_of_read {es : List ClaimEntry} (h : readClaim m.payload = some es) (sender : Nat) :
    s.routeClaim sender m = es.foldl (State.claimEntry sender) s := by
  simp only [State.routeClaim, h, State.decoded]

theorem State.routePortStatus_of_read {es : List PortEntry} (h : readPortStatus m.payload = some es) (sender : Nat) :
    s.routePortStatus sender m = s.hand fun e w => w.takePortStatus e sender es := by
  simp only [State.routePortStatus, h, State.decoded]

theorem State.tallyEntry_unmapped {t : TallyEntry} (h : Config.localOf s.cfg t.bus = none) (sender : Nat)
    (stamp : Tick) : s.tallyEntry sender stamp t = s := by
  simp only [State.tallyEntry, h]

/-- An entry from a station that is neither origin is counted (R15). -/
theorem State.tallyEntry_foreign {t : TallyEntry} {sender : Nat} (h : Config.localOf s.cfg t.bus = some c)
    (ho : s.cfg.map[c].origin ≠ sender) (hs : s.cfg.map[c].standby ≠ sender) (stamp : Tick) :
    s.tallyEntry sender stamp t = s.dispatch fun d => { d with foreignTally := bump d.foreignTally } := by
  simp only [State.tallyEntry, h, if_neg ho, if_neg hs]

/-- An entry that fails the sanity rule is counted, whichever origin sent it (R86). -/
theorem State.tallyEntry_insane {t : TallyEntry} {sender : Nat} (h : Config.localOf s.cfg t.bus = some c)
    (hs : s.cfg.map[c].origin = sender ∨ s.cfg.map[c].standby = sender) (ht : t.insane = true) (stamp : Tick) :
    s.tallyEntry sender stamp t =
      s.onWorks fun w => w.count fun n => { n with tallySanity := bump n.tallySanity } := by
  simp only [State.tallyEntry, h]
  by_cases ho : s.cfg.map[c].origin = sender
  · simp only [if_pos ho, State.hand, Works.mainEntry, ht, if_true]
  · simp only [if_neg ho, if_pos (hs.resolve_left ho), State.hand, Works.standbyEntry, ht, if_true]

theorem State.routeSegment_unmapped {g : SegmentMsg} (hr : readSegment m.payload = some g)
    (h : Config.localOf s.cfg g.bus = none) (sender : Nat) : s.routeSegment sender m = s := by
  simp only [State.routeSegment, hr, State.decoded, h]

/-- A SEGMENT from a station that is neither origin is counted (R15). -/
theorem State.routeSegment_foreign {g : SegmentMsg} {sender : Nat} (hr : readSegment m.payload = some g)
    (h : Config.localOf s.cfg g.bus = some c) (hs : ¬(s.cfg.map[c].origin = sender ∨ s.cfg.map[c].standby = sender)) :
    s.routeSegment sender m = s.dispatch fun d => { d with foreignSegment := bump d.foreignSegment } := by
  simp only [State.routeSegment, hr, State.decoded, h, if_neg hs]

/-- A SEGMENT of an origin reaches the mirror (R15). -/
theorem State.routeSegment_admitted {g : SegmentMsg} {sender : Nat} (hr : readSegment m.payload = some g)
    (h : Config.localOf s.cfg g.bus = some c) (hs : s.cfg.map[c].origin = sender ∨ s.cfg.map[c].standby = sender) :
    s.routeSegment sender m = s.hand fun e w => w.takeSegment e c g := by
  simp only [State.routeSegment, hr, State.decoded, h, if_pos hs]

/-- A SEGMENT with an impossible index or total is counted (R63). -/
theorem Works.takeSegment_range {g : SegmentMsg} (h : g.total = 0 ∨ 32 < g.total ∨ g.total ≤ g.index) (e : Env)
    (c : Chan) (w : Works) :
    w.takeSegment e c g = w.count fun n => { n with segmentRange := bump n.segmentRange } := if_pos h

end

/-! ## Messages that are dropped (R10, R11, R13) -/

/-- The dispatcher's second outcome: the other lane's copy is suppressed (R11). -/
theorem State.suppress_popRx {s : State} {l : Lane} {m : RxMsg} {rest : List RxMsg} (h : (s.lane l).queue = m :: rest)
    (sender : Nat) :
    (s.popRx l).suppress l sender =
      { (s.modLane l fun x => { x with queue := rest, quietCount := 0 }) with
        peers := modPeer s.peers sender fun q => q.heardOn l } := by
  rw [State.popRx_of_queue h, State.suppress, State.refreshLane, State.modLane_modLane, State.modLane_peers]

theorem State.badSender_of_station {s : State} {n : Nat} (h1 : 1 ≤ n) (h2 : n ≤ 62) (h3 : n ≠ s.own) :
    s.badSender n = false := by
  simp only [State.badSender, Bool.or_eq_false_iff, decide_eq_false_iff_not]
  exact ⟨⟨by omega, by omega⟩, h3⟩

/-- Settles O11: by the outcomes of the dispatcher, whichever command takes the message. -/
theorem badMessagesAreDropped : Obligations.BadMessagesAreDropped := by
  refine ⟨fun s l m rest i hready hq ht => ?_, fun s s1 l m p i ha ht hbad hs1 => ?_⟩
  · obtain ⟨names, route, hn, hexec, -⟩ := ht.exec
    rw [hexec, hready.whenRunning]
    refine ⟨fun hsender => ?_, fun p h1 h2 h3 hp hlast hsince => ?_⟩
    · have hb : s.badSender m.sender.toNat = true := by
        rcases hsender with h | h | h <;> simp [State.badSender, h]
      rw [State.takeRx_badSender hq hn hb, State.popRx_of_queue hq]
      simp [State.dispatch]
    · have hr : p.repeats m = true := by simp [Peer.repeats, hlast, hsince]
      rw [State.takeRx_repeat hq hn (State.badSender_of_station h1 h2 h3) hp hr, State.suppress_popRx hq]
      cases l <;> rfl
  · obtain ⟨names, route, hn, hexec, hmal⟩ := ht.exec
    rw [hexec, ha.whenRunning hn, hmal hbad, hs1]
    rfl

/-! ## The header of an accepted message (R12, R50) -/

/-- What an accepted message makes of a record, the estimator apart (R12, R50). -/
theorem Peer.accept_eq (q : Peer) (l : Lane) (m : RxMsg) :
    q.accept l m =
      { q with
        present := true, lastSerial := some m.serial, since := 0
        heardA := if l = .a then 0 else q.heardA
        heardB := if l = .b then 0 else q.heardB
        roles :=
          { origin := q.roles.origin || decide (m.kind = .tally ∨ m.kind = .segment)
            recovery := q.roles.recovery ||
              decide (m.kind = .claim ∨ m.kind = .cue ∨ m.kind = .report ∨ m.kind = .asRun)
            server := q.roles.server || decide (m.kind = .portStatus)
            control := q.roles.control || decide (m.kind = .directive)
            time := q.roles.time || decide (m.kind = .timeMark) } } := by
  have hroles : q.roles.learn m.kind =
      { origin := q.roles.origin || decide (m.kind = .tally ∨ m.kind = .segment)
        recovery := q.roles.recovery ||
          decide (m.kind = .claim ∨ m.kind = .cue ∨ m.kind = .report ∨ m.kind = .asRun)
        server := q.roles.server || decide (m.kind = .portStatus)
        control := q.roles.control || decide (m.kind = .directive)
        time := q.roles.time || decide (m.kind = .timeMark) } := by
    cases m.kind <;> simp [Roles.learn]
  cases l <;> simp [Peer.accept, Peer.heardOn, hroles]

theorem State.popRx_cfg (s : State) (l : Lane) : (s.popRx l).cfg = s.cfg := by simp [State.popRx]

/-- Settles O12. -/
theorem acceptedHeaderIsTaken : Obligations.AcceptedHeaderIsTaken := by
  intro s s1 l m p ha hs1
  subst hs1
  refine ⟨⟨?_, fun k hk => s.heard_lane_other l p m hk, s.heard_load l p m, s.heard_own l p m, s.heard_cfg l p m,
    s.heard_clk l p m, s.heard_isolated l p m, s.heard_disp l p m, s.heard_due l p m, s.heard_pending l p m,
    s.heard_join l p m, s.heard_store l p m, s.heard_counters l p m, s.heard_lastNumbers l p m, fun c => ?_, ?_⟩,
    fun hk hw => ?_, fun hk hw => ?_, fun hk hw => ?_⟩
  · rw [s.heard_lane, List.drop_one]
  · rw [s.heard_at l p m c]
    exact ⟨rfl, rfl, rfl, rfl⟩
  · rw [s.heard_peers, modPeer]
    refine List.map_congr_left fun q _ => ?_
    rw [Peer.accept_eq, State.sample, State.popRx_cfg]
  · rw [ha.receiveReport hk, State.routeReport, if_pos hw]
  · rw [ha.receiveAsRun hk, State.routeAsRun, if_pos hw]
  · rw [ha.receiveCue hk, State.routeCue, if_pos hw]
    rfl

/-! ## Unusable content (R14, R15, R63, R86) -/

/-- A directive for others is counted (R14, log 27). -/
theorem State.Accepts.directive_notTargeted {s : State} {l : Lane} {m : RxMsg} {p : Peer} (h : s.Accepts l m p)
    (hk : m.kind = .directive) {d : Directive} (hr : readDirective m.payload = some d)
    (ht : s.isTarget d.target = false) :
    exec (directiveCommand l d.kind) s =
      .next ((s.heard l p m).dispatch fun x => { x with notTargeted := bump x.notTargeted }) := by
  obtain ⟨unit, hexec⟩ := exec_directiveCommand l d.kind
  have hn : RxMsg.isDirective d.kind m = true := by simp [RxMsg.isDirective, hk, hr]
  have ht' : (s.heard l p m).isTarget d.target = false := by simpa [State.isTarget] using ht
  rw [hexec]
  refine congrArg _ ((h.whenRunning hn _).trans ?_)
  simp [State.routeDirective, State.decoded, hr, ht']

/-- Settles O14: by the branches of each kind's routing. -/
theorem unusableContentIsSkipped : Obligations.UnusableContentIsSkipped := by
  intro s s1 l m p ha hs1
  have hcfg : s1.cfg = s.cfg := by rw [hs1, s.heard_cfg]
  rw [← hcfg]
  refine ⟨fun e hk hr => ?_, fun g hk hr => ?_, fun d hk hr h63 hown => ?_⟩
  · rw [ha.receiveTally hk, ← hs1, State.routeTally_of_read hr, List.foldl_cons, List.foldl_nil]
    refine ⟨fun hbus => ?_, fun c hbus => ⟨fun ho hs => ?_, fun hsender hphase hev => ?_⟩⟩
    · rw [State.tallyEntry_unmapped hbus]
    · rw [State.tallyEntry_foreign hbus ho hs]
      rfl
    · have hin : e.insane = true := by rcases hphase with h | h <;> simp [TallyEntry.insane, TallyEntry.airs, h, hev]
      rw [State.tallyEntry_insane hbus hsender hin]
      rfl
  · rw [ha.receiveSegment hk, ← hs1]
    refine ⟨fun hbus => ?_, fun c hbus => ⟨fun ho hs => ?_, fun hsender hrange => ?_⟩⟩
    · rw [State.routeSegment_unmapped hr hbus]
    · rw [State.routeSegment_foreign hr hbus (not_or.mpr ⟨ho, hs⟩)]
      rfl
    · rw [State.routeSegment_admitted hr hbus hsender, State.hand]
      simp only [Works.takeSegment_range hrange]
      rfl
  · have ht : s.isTarget d.target = false := by
      simp only [State.isTarget, Bool.or_eq_false_iff, decide_eq_false_iff_not, Bool.and_eq_false_iff]
      exact ⟨h63, hown.symm.imp not_not.mpr id⟩
    rw [ha.directive_notTargeted hk hr ht, ← hs1]
    rfl

end Sys2Proof.Machine
end

