-- ==== Sys2Proof/Proofs/Servers.lean ====
section
/-! SUPPORT. R140, R141: a port record names one server for as long as it stands, whatever a PORT STATUS entry does to
its channel. So each entry of a PORT STATUS finds the stations of the port records as the first one did. -/

namespace Sys2Proof.Machine

/-- The servers that a channel's port records name. -/
def Context.servers (x : Context) : Option Nat × Option Nat := (x.prim.map PortRec.server, x.alt.map PortRec.server)

/-- The servers that the port records of all channels name. -/
def Works.servers (w : Works) (c : Chan) : Option Nat × Option Nat := (w.at c).servers

/-- Whether a station is known as a server is read from the named servers alone (R141). -/
theorem Works.knowsServer_congr {u v : Works} (h : u.servers = v.servers) (sender : Nat) :
    u.knowsServer sender = v.knowsServer sender := by
  have key : ∀ w : Works, w.knowsServer sender =
      (List.finRange 16).any fun c =>
        (w.servers c).1.any (decide <| · = sender) || (w.servers c).2.any (decide <| · = sender) := by
    intro w
    simp [Works.knowsServer, Works.servers, Context.servers, Option.any_map]
  rw [key u, key v, h]

theorem Works.knowsServer_of_portRec {w : Works} {c : Chan} {side : PortSel} {r : PortRec}
    (h : (w.at c).portRec side = some r) : w.knowsServer r.server = true := by
  simp only [Works.knowsServer, List.any_eq_true]
  refine ⟨c, List.mem_finRange c, ?_⟩
  cases side <;> simp_all [Context.portRec]

/-! ## What leaves the named servers -/

theorem Works.servers_mod {w : Works} {c : Chan} {f : Context → Context} (h : (f (w.at c)).servers = (w.at c).servers) :
    (w.mod c f).servers = w.servers := by
  funext d
  simp only [Works.servers, Works.mod_at_eq]
  split
  · subst d; exact h
  · rfl

theorem Context.servers_modRec (x : Context) (p : PortSel) {f : PortRec → PortRec} (h : ∀ r, (f r).server = r.server) :
    (x.modRec p f).servers = x.servers := by
  cases p <;> simp [Context.modRec, Context.servers, Function.comp_def, h]

theorem Context.servers_cleared (x : Context) :
    (x.prim.map PortRec.cleared).map PortRec.server = x.prim.map PortRec.server ∧
      (x.alt.map PortRec.cleared).map PortRec.server = x.alt.map PortRec.server := by
  simp [Function.comp_def, PortRec.cleared]

section
variable (w : Works) (e : Env) (c : Chan)

@[simp] theorem Works.servers_notice (k : NoticeKind) (d : Option Chan) (n : BitVec 32) :
    (w.notice e k d n).servers = w.servers := rfl

@[simp] theorem Works.servers_moveTo (st : ChState) : (w.moveTo c st).servers = w.servers := Works.servers_mod rfl

@[simp] theorem Works.servers_endBid (st : ChState) : (w.endBid e c st).servers = w.servers :=
  (Works.servers_mod rfl).trans (w.servers_moveTo c st)

@[simp] theorem Works.servers_yieldBid (n : Nat) (k : ClaimKind) : (w.yieldBid e c n k).servers = w.servers :=
  w.servers_endBid e c .yielded

@[simp] theorem Works.servers_enterBidding (forced : Bool) : (w.enterBidding e c forced).servers = w.servers := by
  unfold Works.enterBidding
  dsimp only
  split
  · rw [Works.servers_notice]
    refine (Works.servers_mod ?_).trans (w.servers_moveTo c .bidding)
    rfl
  · rw [Works.servers_yieldBid, Works.servers_notice]
    refine (Works.servers_mod ?_).trans (w.servers_moveTo c .bidding)
    rfl

@[simp] theorem Works.servers_redecide : (w.redecide e c).servers = w.servers := by
  unfold Works.redecide Works.lossDecide
  split
  · split <;> simp
  · rfl

@[simp] theorem Works.servers_refuseRequested (n : Nat) : (w.refuseRequested e c n).servers = w.servers := by
  unfold Works.refuseRequested
  split
  · rw [Works.servers_notice]
    exact Works.servers_mod rfl
  · rfl

@[simp] theorem Works.servers_kick : (w.kick e).servers = w.servers := by
  funext d
  simp [Works.servers, Works.kick_at]

@[simp] theorem Works.servers_placeJoin (kind : JoinKind) (take : Frame) (curEnd : Option Frame) (atSwitch : Bool) :
    (w.placeJoin e c kind take curEnd atSwitch).servers = w.servers := by
  unfold Works.placeJoin
  rw [Works.servers_kick]
  refine (Works.servers_mod (c := c) (f := fun x => { x with gen := x.gen + 1 }) rfl).trans ?_
  split <;> simp

@[simp] theorem Works.servers_placeCue (q : Cue) : (w.placeCue e q).servers = w.servers := by
  funext d
  simp [Works.servers, Works.placeCue_contexts]

@[simp] theorem Works.servers_cancelPending : (w.cancelPending e c).servers = w.servers := by
  unfold Works.cancelPending
  split
  · rfl
  · split
    · rfl
    · refine (Works.servers_mod (Context.servers_modRec _ _ ?_)).trans (w.servers_placeCue e _)
      exact fun _ => rfl

@[simp] theorem Works.servers_closingCues (f : Frame) : (w.closingCues e c f).servers = w.servers := by
  unfold Works.closingCues
  dsimp only
  split <;> simp

@[simp] theorem Works.servers_closeRecord (f : Frame) (st : AsRunStatus) :
    (w.closeRecord e c f st).servers = w.servers := by
  cases hr : (w.at c).openRec with
  | none => rw [Works.closeRecord_none hr]
  | some r =>
    rw [Works.closeRecord_some hr]
    exact Works.servers_mod (f := fun x => { x with openRec := none }) rfl

@[simp] theorem Works.servers_judgeOnly : (w.judgeOnly e c).servers = w.servers := by
  unfold Works.judgeOnly
  dsimp only
  split
  · rw [Works.servers_notice]
    exact Works.servers_mod rfl
  · exact Works.servers_mod rfl

@[simp] theorem Works.servers_commitList (rev : Half) (events : List EventRec) :
    (w.commitList e c rev events).servers = w.servers := by
  unfold Works.commitList
  simp only [Works.servers_redecide, Works.servers_judgeOnly, Works.servers_notice]
  exact Works.servers_mod rfl

@[simp] theorem Works.servers_exitCommit : (w.exitCommit e c).servers = w.servers := by
  unfold Works.exitCommit
  split
  · split <;> simp
  · rfl

@[simp] theorem Works.servers_commitDeferred : (w.commitDeferred e c).servers = w.servers := by
  unfold Works.commitDeferred
  split
  · refine (Works.servers_mod ?_).trans (w.servers_commitList e c _ _)
    rfl
  · rfl

theorem Works.servers_leaveAir (st : ChState) {closing : Works → Works} (hc : ∀ v, (closing v).servers = v.servers) :
    (w.leaveAir e c st closing).servers = w.servers := by
  unfold Works.leaveAir
  rw [Works.servers_exitCommit]
  refine (Works.servers_mod ?_).trans ((hc _).trans ((Works.servers_mod ?_).trans ?_))
  · exact Prod.ext (Context.servers_cleared _).1 (Context.servers_cleared _).2
  · rfl
  · simp

@[simp] theorem Works.servers_followJudge : (w.followJudge e c).servers = w.servers := by
  unfold Works.followJudge Works.placeFollow
  split <;> simp

@[simp] theorem Works.servers_requestImposed (kind : JoinKind) (atSwitch : Bool) :
    (w.requestImposed e c kind atSwitch).servers = w.servers := by
  unfold Works.requestImposed
  split
  · exact Works.servers_mod rfl
  · rw [Works.servers_placeJoin, Works.servers_commitDeferred]
    exact Works.servers_mod rfl

@[simp] theorem Works.servers_abortHandback (n : Nat) : (w.abortHandback e c n).servers = w.servers := by
  unfold Works.abortHandback
  rw [Works.servers_notice]
  refine (Works.servers_mod ?_).trans (w.servers_moveTo c .onAir)
  rfl

/-! ## Port faults and take confirmation -/

/-- The STOP of the primary port at a switch (R149). -/
theorem Works.servers_stopPrimary :
    (match (w.at c).prim with
      | some r => w.placeCue e (r.stop e e.ahead)
      | none => w).servers = w.servers := by
  split <;> simp

/-- A switch leaves the servers: the primary record stays, cleared (R149). -/
theorem Works.servers_portSwitch (k : PortFault) : (w.portSwitch e c k).servers = w.servers := by
  have switched : ∀ v : Works, v.servers = w.servers →
      (v.mod c fun x => { x with prim := x.prim.map PortRec.cleared, active := .alternate }).servers = w.servers := by
    intro v hv
    refine (Works.servers_mod ?_).trans hv
    exact Prod.ext (Context.servers_cleared _).1 rfl
  have stopped := (w.notice e .portSwitch (some c) (BitVec.ofNat 32 k.code)).servers_stopPrimary e c
  unfold Works.portSwitch
  dsimp only
  split
  · exact switched _ stopped
  · split
    · rw [Works.servers_requestImposed]
      exact switched _ stopped
    · rw [Works.servers_placeJoin]
      exact switched _ stopped

theorem Works.servers_channelFault (k : PortFault) : (w.channelFault e c k).servers = w.servers :=
  Works.servers_leaveAir _ e c .fault fun v => by simp [Works.stopNow]

theorem Works.servers_portFault (k : PortFault) : (w.portFault e c k).servers = w.servers := by
  unfold Works.portFault
  dsimp only
  split
  · rw [Works.servers_portSwitch]
    split <;> simp
  · rw [Works.servers_channelFault]
    split <;> simp

theorem Works.servers_turnRecord (r : PortRec) (t : Take) : (w.turnRecord e c r t).servers = w.servers := by
  unfold Works.turnRecord
  dsimp only
  refine (Works.servers_mod (f := fun y => { y with openRec := some (openRecord e c r t) }) rfl).trans ?_
  split <;> simp

theorem Works.servers_confirm (p : PortSel) (r : PortRec) (t : Take) : (w.confirm e c p r t).servers = w.servers := by
  have turned : ∀ v : Works,
      (v.mod c fun x =>
        { x.modRec p fun q => { q with onAirTag := t.tag, pending := none } with cur := t.currentAfter x.cur }).servers =
        v.servers := fun v => Works.servers_mod (Context.servers_modRec _ p fun _ => rfl)
  unfold Works.confirm
  dsimp only
  rw [Works.servers_followJudge, Works.servers_notice]
  split
  · refine (Works.servers_mod (f := fun x => { x with dualSeen := false }) rfl).trans ?_
    rw [Works.servers_moveTo, turned, Works.servers_turnRecord]
  · rw [turned, Works.servers_turnRecord]

theorem Works.servers_confirmPlaying (p : PortSel) (m : PortEntry) :
    (w.confirmPlaying e c p m).servers = w.servers := by
  unfold Works.confirmPlaying
  split
  · rfl
  · split
    · split
      · exact w.servers_confirm e c p _ _
      · rfl
    · rfl

theorem Works.servers_overtakeHold (p : PortSel) (m : PortEntry) : (w.overtakeHold e c p m).servers = w.servers := by
  unfold Works.overtakeHold
  dsimp only
  split
  · rfl
  · split
    · split
      · rw [Works.servers_confirm]
        exact Works.servers_mod (Context.servers_modRec _ p fun _ => rfl)
      · rfl
    · rfl

theorem Works.servers_faultReported (p : PortSel) (m : PortEntry) : (w.faultReported e c p m).servers = w.servers := by
  unfold Works.faultReported
  dsimp only
  split
  · rfl
  · split
    · exact w.servers_portFault e c _
    · rfl

/-- A PORT STATUS entry that meets a port record names no other server in any (R141). -/
theorem Works.servers_portEntry (sender : Nat) (m : PortEntry) (p : PortSel) :
    (w.portEntry e sender m c p).servers = w.servers := by
  unfold Works.portEntry
  split
  · rfl
  · split
    · rw [Works.servers_faultReported, Works.servers_overtakeHold, Works.servers_confirmPlaying]
      exact Works.servers_mod (Context.servers_modRec _ p fun _ => rfl)
    · rfl

/-- A PORT STATUS of one entry leaves the named servers. -/
theorem Works.servers_takePortStatus_one (sender : Nat) (m : PortEntry) :
    (w.takePortStatus e sender [m]).servers = w.servers := by
  unfold Works.takePortStatus
  split
  · exact foldl_keeps (P := fun v : Works => v.servers = w.servers)
      (fun v d hv => foldl_keeps (P := fun u : Works => u.servers = w.servers)
        (fun u c hu => by rw [Works.servers_portEntry, Works.servers_portEntry, hu]) _ hv) _ rfl
  · rfl

end

/-- The entries of a PORT STATUS from a known server act one after the other (R141). -/
theorem Works.takePortStatus_foldl {e : Env} {sender : Nat} (es : List PortEntry) {w : Works}
    (h : w.knowsServer sender = true) :
    w.takePortStatus e sender es = es.foldl (fun v m => v.takePortStatus e sender [m]) w := by
  induction es generalizing w with
  | nil => simp [Works.takePortStatus, h]
  | cons m es ih =>
    have h1 : (w.takePortStatus e sender [m]).knowsServer sender = true := by
      rw [Works.knowsServer_congr (w.servers_takePortStatus_one e sender m), h]
    rw [List.foldl_cons, ← ih h1]
    simp only [Works.takePortStatus, h, if_true, List.foldl_cons, List.foldl_nil] at h1 ⊢
    rw [if_pos h1]

/-- Settles O15: by the routing of each kind; a PORT STATUS besides because no entry changes the known servers. -/
theorem everyEntryActsInOrder : Obligations.EveryEntryActsInOrder := by
  intro s s1 l m p ha hs1
  refine ⟨fun es hk hr => ?_, fun es hk hr => ?_, fun es hk hr hknown => ?_⟩
  · rw [ha.receiveTally hk, ← hs1, State.routeTally_of_read hr]
  · rw [ha.receiveClaim hk, ← hs1, State.routeClaim_of_read hr]
  · obtain ⟨c, side, r, hrec, hserver⟩ := hknown
    have hknows : s1.works.knowsServer m.sender.toNat = true := by
      rw [← hserver]
      exact Works.knowsServer_of_portRec hrec
    rw [ha.receivePortStatus hk, ← hs1, State.routePortStatus_of_read hr, State.hand]
    exact congrArg (fun w => Host.Outcome.next { s1 with works := w }) (Works.takePortStatus_foldl es hknows)

end Sys2Proof.Machine
end

