-- ==== Sys2Proof/Proofs/ClaimTable.lean ====
section
/-! SUPPORT. R104 to R110, R115: what a CLAIM entry does to the table of its channel, by the claim it carries, and the
ageing of a table. -/

namespace Sys2Proof.Machine

/-- Two changes that agree on a context change the blocks alike. -/
theorem Works.mod_congr {w : Works} {c : Chan} {f g : Context → Context} (h : f (w.at c) = g (w.at c)) :
    w.mod c f = w.mod c g := by
  simp only [Works.at] at h
  simp only [Works.mod, h]

theorem State.claimEntry_unmapped {s : State} {y : ClaimEntry} (h : Config.localOf s.cfg y.bus = none) (sender : Nat) :
    s.claimEntry sender y = s := by
  simp only [State.claimEntry, h]

theorem State.claimEntry_mapped {s : State} {y : ClaimEntry} {c : Chan} (h : Config.localOf s.cfg y.bus = some c)
    (sender : Nat) : s.claimEntry sender y = s.hand fun e w => w.claimEntry e c sender y := by
  simp only [State.claimEntry, h]

/-- A CLAIM of one entry acts as the entry. -/
theorem State.Accepts.receiveOneClaim {s : State} {l : Lane} {m : RxMsg} {p : Peer} (h : s.Accepts l m p)
    (hk : m.kind = .claim) {y : ClaimEntry} (hr : readClaim m.payload = some [y]) :
    exec (.receiveClaim l) s = .next ((s.heard l p m).claimEntry m.sender.toNat y) := by
  rw [h.receiveClaim hk, State.routeClaim_of_read hr, List.foldl_cons, List.foldl_nil]

/-! ## Writing to a table (R107, R108) -/

theorem writeClaim_replaces {r : Rival} {table : List Rival} (h : ∃ x ∈ table, x.station = r.station) :
    writeClaim r table = some (table.map fun x => if x.station = r.station then r else x) := if_pos (by simpa using h)

theorem writeClaim_joins {r : Rival} {table : List Rival} (h : ∀ x ∈ table, x.station ≠ r.station)
    (hl : table.length < 4) : writeClaim r table = some (table ++ [r]) := by
  rcases writeClaim_cases r table with ⟨⟨x, hx, he⟩, -⟩ | ⟨-, -, hw⟩ | ⟨-, hfull, -⟩
  · exact absurd he (h x hx)
  · exact hw
  · omega

section
variable {w : Works} {e : Env} {c : Chan} {station : Nat} {y : ClaimEntry}

/-- A precedence above 15 is counted (R104). -/
theorem Works.claimEntry_range (h : 15 < y.prec) :
    w.claimEntry e c station y = w.count fun n => { n with claimRange := bump n.claimRange } := if_pos h

/-- A plain RELEASE removes its station's entry (R109). -/
theorem Works.claimEntry_release (h : y.prec ≤ 15) (hc : y.claim = .release) :
    w.claimEntry e c station y =
      w.mod c fun x => { x with table := x.table.filter fun r => decide (r.station ≠ station) } := by
  simp only [Works.claimEntry, if_neg (Nat.not_lt.mpr h), hc]

/-- A BID is only written (R107). -/
theorem Works.claimEntry_bid (h : y.prec ≤ 15) (hc : y.claim = .bid) {table : List Rival}
    (hw : writeClaim { station := station, kind := .bid, prec := y.prec, age := 0 } (w.at c).table = some table) :
    w.claimEntry e c station y = w.mod c fun x => { x with table := table } := by
  simp only [Works.claimEntry, if_neg (Nat.not_lt.mpr h), hc, Works.writeRival, hw]

/-- A HOLD, or a handback RELEASE entered as one, heard in BIDDING ends the window (R109, R115). -/
theorem Works.claimEntry_hold_bidding (h : y.prec ≤ 15) (hc : y.claim = .hold ∨ ∃ f ev, y.claim = .handback f ev)
    {table : List Rival}
    (hw : writeClaim { station := station, kind := .hold, prec := y.prec, age := 0 } (w.at c).table = some table)
    (hs : (w.at c).state = .bidding) :
    w.claimEntry e c station y = (w.mod c fun x => { x with table := table }).yieldBid e c station .hold := by
  have hwrite : w.claimEntry e c station y =
      w.writeRival e c { station := station, kind := .hold, prec := y.prec, age := 0 } := by
    rcases hc with hc | ⟨f, ev, hc⟩ <;> simp only [Works.claimEntry, if_neg (Nat.not_lt.mpr h), hc]
  have hbid : ((w.mod c fun x => { x with table := table }).at c).state = .bidding := by rw [Works.mod_at, hs]
  rw [hwrite]
  simp only [Works.writeRival, hw, Works.holdHeard, hbid]

/-- The context of a channel that yields a bid: YIELDED, its configured precedence, two RELEASEs to send (R112, R115). -/
theorem Works.yieldBid_at (hs : (w.at c).state = .bidding) (n : Nat) (k : ClaimKind) :
    (w.yieldBid e c n k).at c =
      { w.at c with state := .yielded, release := 2, prec := (e.entry c).prec, bidCount := 0 } := by
  unfold Works.yieldBid
  rw [Works.notice_at, Works.endBid_eq, Works.mod_at, hs]
  rfl

/-- A channel that yields a bid to a HOLD makes one notice (R115). -/
theorem Works.yieldBid_oneNotice (n : Nat) :
    w.OneNotice (w.yieldBid e c n .hold) .bidYielded (some c) (paramBytes n 2 0 0) e.now := by
  unfold Works.yieldBid
  rw [Works.endBid_eq]
  exact ⟨Works.notice_ring _ _ _ _ _, Works.notice_count _ _ _ _ _⟩

/-- A channel that yields a bid changes contexts and notices only. -/
theorem Works.yieldBid_onlyContexts (n : Nat) (k : ClaimKind) : w.OnlyContexts (w.yieldBid e c n k) :=
  ⟨rfl, rfl, rfl, rfl, rfl, rfl, rfl, rfl⟩

end

/-! ## The entries and the boundary -/

/-- An aged entry that stays (R110). -/
theorem Rival.aged_eq_some {expiry : Nat} {q r : Rival} :
    q.aged expiry = some r ↔ q.age + 1 < expiry ∧ r = { q with age := q.age + 1 } := by
  unfold Rival.aged
  split
  · simp; omega
  · simp only [Option.some.injEq]
    constructor
    · rintro rfl; exact ⟨by omega, rfl⟩
    · rintro ⟨-, rfl⟩; rfl

/-- An entry that removes its station's claim, or is a BID that finds its place, changes its table only (R107, R109). -/
theorem Works.claimEntry_writes {w : Works} {c : Chan} {y : ClaimEntry} {station : Nat} {table : List Rival}
    (hprec : y.prec ≤ 15)
    (h : y.claim = .release ∧ table = (w.at c).table.filter (fun r => decide (r.station ≠ station)) ∨
      y.claim = .bid ∧
        writeClaim { station := station, kind := .bid, prec := y.prec, age := 0 } (w.at c).table = some table)
    (e : Env) : w.claimEntry e c station y = w.mod c fun x => { x with table := table } := by
  rcases h with ⟨hc, rfl⟩ | ⟨hc, hw⟩
  · rw [Works.claimEntry_release hprec hc]
    exact Works.mod_congr rfl
  · exact Works.claimEntry_bid hprec hc hw

/-- A rival HOLD, or a handback RELEASE entered as one, is heard in BIDDING (R109, R115). -/
theorem State.claimEntry_hold_yields {s : State} {c : Chan} {y : ClaimEntry} {sender : Nat} {table : List Rival}
    (hbus : Config.localOf s.cfg y.bus = some c) (hprec : y.prec ≤ 15)
    (hclaim : y.claim = .hold ∨ ∃ f ev, y.claim = .handback f ev)
    (hw : writeClaim { station := sender, kind := .hold, prec := y.prec, age := 0 } (s.works.at c).table = some table)
    (hs : (s.works.at c).state = .bidding) :
    ∃ t, s.claimEntry sender y = t ∧ s.SameOutside t ∧ t.due = s.due ∧ s.works.OthersKept c t.works ∧
      s.works.OnlyContexts t.works ∧
      t.works.at c =
        { s.works.at c with
          state := .yielded, release := 2, prec := s.cfg.map[c].prec, bidCount := 0, table := table } ∧
      s.works.OneNotice t.works .bidYielded (some c) (paramBytes sender 2 0 0) s.clk.count := by
  have hbid : ((s.works.mod c fun x => { x with table := table }).at c).state = .bidding := by rw [Works.mod_at, hs]
  refine ⟨s.onWorks fun w => (w.mod c fun x => { x with table := table }).yieldBid s.env c sender .hold, ?_,
    ⟨rfl, rfl, rfl, rfl, rfl, rfl, rfl, rfl, rfl, rfl⟩, rfl, ?_, ?_, ?_, ?_⟩
  · rw [State.claimEntry_mapped hbus, State.hand, State.onWorks, State.onWorks,
      Works.claimEntry_hold_bidding hprec hclaim hw hs]
  · rw [State.onWorks_works]
    exact (Works.OthersKept.rfl.mod _).yieldBid _ _ _
  · rw [State.onWorks_works]
    exact Works.yieldBid_onlyContexts (w := s.works.mod c _) sender .hold
  · rw [State.onWorks_works, Works.yieldBid_at hbid, Works.mod_at]
    rfl
  · rw [State.onWorks_works]
    exact Works.yieldBid_oneNotice (w := s.works.mod c fun x => { x with table := table }) sender

/-- The ageing of a table leaves its other fields, and each entry that stays is one older (R110). -/
theorem Works.claimAge_at (w : Works) (e : Env) (c : Chan) :
    (w.claimAge e c).at c =
      { w.at c with table := (w.at c).table.filterMap (Rival.aged e.cfg.claimExpiry) } := Works.mod_at _ _ _

/-- Settles O25: by the claim an entry carries, and by the ageing of each entry. -/
theorem claimTablesAreKept : Obligations.ClaimTablesAreKept := by
  refine ⟨fun s s1 l m p y ha hs1 hk hr => ?_, fun s c ho hold => ?_⟩
  · have hcfg : s1.cfg = s.cfg := by rw [hs1, s.heard_cfg]
    rw [← hcfg, ha.receiveOneClaim hk hr, ← hs1]
    refine ⟨fun hbus => ?_, fun c hbus => ⟨fun hprec => ?_, fun table hprec htable => ?_⟩,
      fun c x hbus hprec hclaim hx hstate hnew hroom => ?_⟩
    · rw [State.claimEntry_unmapped hbus]
    · rw [State.claimEntry_mapped hbus, State.hand]
      simp only [Works.claimEntry_range hprec]
      rfl
    · have hmod : s1.works.claimEntry s1.env c m.sender.toNat y =
          s1.works.mod c fun x => { x with table := table } := by
        refine Works.claimEntry_writes hprec (htable.imp_right ?_) s1.env
        rintro (⟨hc, hin, rfl⟩ | ⟨hc, hnew, hroom, rfl⟩)
        · exact ⟨hc, writeClaim_replaces hin⟩
        · exact ⟨hc, writeClaim_joins hnew hroom⟩
      refine ⟨s1.onWorks fun w => w.mod c fun x => { x with table := table }, ?_, rfl, ?_, ?_⟩
      · rw [State.claimEntry_mapped hbus, State.hand, State.onWorks, State.onWorks, hmod]
      · exact Works.OthersKept.rfl.mod _
      · exact Works.mod_at _ _ _
    · subst hx
      obtain ⟨t, ht, hrest⟩ := State.claimEntry_hold_yields hbus hprec hclaim (writeClaim_joins hnew hroom) hstate
      exact ⟨t, congrArg _ ht, hrest⟩
  · have hdue : onChannel Env.expiryDue c s = true := by
      obtain ⟨r, hr, hage⟩ := hold
      exact List.any_eq_true.mpr ⟨r, hr, decide_eq_true hage⟩
    have hat := s.works.claimAge_at s.boundaryEnv c
    refine ⟨{ s with works := s.works.claimAge s.boundaryEnv c, due := s.due.erase (.claimAge c) },
      congrArg Host.Outcome.next (ho.slice hdue), rfl, Works.OthersKept.rfl.mod _, ?_, ?_, fun r => ?_⟩
    · dsimp only
      rw [hat]
    · dsimp only
      rw [hat]
      exact List.length_filterMap_le _ _
    · dsimp only
      rw [hat]
      simp only [List.mem_filterMap, Rival.aged_eq_some]
      rfl

end Sys2Proof.Machine
end

