-- ==== Sys2Proof/Proofs/Codec.lean ====
section
/-! SUPPORT. R1 to R5, R58, R181, R182, R190: fields of payloads built piece by piece, and what each kind of message
that the part sends looks like to a receiver. -/

namespace Sys2Proof.Machine

/-! ## Fields (R190) -/

@[simp] theorem beBytes_one (x : Nat) : beBytes 1 x = [BitVec.ofNat 8 x] := rfl

theorem fieldAt_cons_succ (b : Byte) (bs : List Byte) (o n : Nat) : fieldAt (b :: bs) (o + 1) n = fieldAt bs o n := rfl

theorem fieldAt_cons_zero (b : Byte) (bs : List Byte) : fieldAt (b :: bs) 0 1 = b.toNat := by
  simp [fieldAt, beNat]

/-- A number that fits its field is read back from it. -/
theorem fieldAt_beBytes {n x : Nat} (h : x < 256 ^ n) (ys : List Byte) : fieldAt (beBytes n x ++ ys) 0 n = x := by
  rw [fieldAt_zero (beBytes_length n x), beNat_beBytes, Nat.mod_eq_of_lt h]

/-- A word of 8n bits is read back from its n bytes. -/
theorem fieldAt_word {w : Nat} (n : Nat) (x : BitVec w) (h : w ≤ 8 * n) (ys : List Byte) :
    BitVec.ofNat w (fieldAt (beBytes n x.toNat ++ ys) 0 n) = x := by
  rw [fieldAt_beBytes, BitVec.ofNat_toNat, BitVec.setWidth_eq]
  calc x.toNat < 2 ^ w := x.isLt
    _ ≤ 2 ^ (8 * n) := Nat.pow_le_pow_right (by decide) h
    _ = 256 ^ n := Nat.pow_mul 2 8 n

/-- The bytes of the number that a list of bytes spells are the list. -/
theorem beBytes_beNat (bs : List Byte) : beBytes bs.length (beNat bs) = bs := by
  induction bs using List.reverseRecOn with
  | nil => rfl
  | append_singleton xs b ih =>
    have hlast : beNat [b] = b.toNat := by simp [beNat]
    have hb := b.isLt
    rw [List.length_append, List.length_singleton, beBytes, beNat_append, List.length_singleton, pow_one, hlast]
    congr 1
    · rw [show (beNat xs * 256 + b.toNat) / 256 = beNat xs by omega, ih]
    · refine congrArg (fun x => [x]) (BitVec.eq_of_toNat_eq ?_)
      rw [BitVec.toNat_ofNat]
      omega

/-- The bytes of a field that is read are those that stand there. -/
theorem beBytes_fieldAt {bs : List Byte} {o n : Nat} (h : o + n ≤ bs.length) :
    beBytes n (fieldAt bs o n) = (bs.drop o).take n := by
  have hl : ((bs.drop o).take n).length = n := by simp; omega
  have hb := beBytes_beNat ((bs.drop o).take n)
  rw [hl] at hb
  exact hb

/-- The bytes of a field read as a word are those that stand there. -/
theorem beBytes_ofNat_fieldAt {bs : List Byte} {o n w : Nat} (hw : 8 * n = w) (h : o + n ≤ bs.length) :
    beBytes n (BitVec.ofNat w (fieldAt bs o n)).toNat = (bs.drop o).take n := by
  have hlt : fieldAt bs o n < 2 ^ w := by
    have := beNat_lt ((bs.drop o).take n)
    rw [show ((bs.drop o).take n).length = n by simp; omega] at this
    rw [← hw, Nat.pow_mul]
    exact this
  rw [BitVec.toNat_ofNat, Nat.mod_eq_of_lt hlt, beBytes_fieldAt h]

/-! ## Records of one size -/

section
variable {α : Type} {l : List α} {f : α → List Byte} {k : Nat}

theorem length_flatMap_const (h : ∀ x ∈ l, (f x).length = k) : (l.flatMap f).length = k * l.length := by
  rw [List.length_flatMap, List.map_congr_left h, List.map_const', List.sum_replicate, smul_eq_mul, Nat.mul_comm]

/-- A field of the record at a place. -/
theorem fieldAt_flatMap (h : ∀ x ∈ l, (f x).length = k) {i o n : Nat} (hi : i < l.length) (hon : o + n ≤ k) :
    fieldAt (l.flatMap f) (k * i + o) n = fieldAt (f l[i]) o n := by
  induction l generalizing i with
  | nil => simp at hi
  | cons x xs ih =>
    have hx := h x (by simp)
    rw [List.flatMap_cons]
    cases i with
    | zero => rw [Nat.mul_zero, Nat.zero_add, fieldAt_left (by omega)]; rfl
    | succ i =>
      rw [fieldAt_append (by rw [hx, Nat.mul_succ]; omega), hx,
        show k * (i + 1) + o - k = k * i + o by rw [Nat.mul_succ]; omega,
        ih (fun y hy => h y (by simp [hy])) (by simpa using hi)]
      rfl

end

/-- A field within the middle part of a payload. -/
theorem fieldAt_middle {pre mid post : List Byte} {o n : Nat} (h : o + n ≤ mid.length) :
    fieldAt (pre ++ mid ++ post) (pre.length + o) n = fieldAt mid o n := by
  rw [fieldAt_left (by rw [List.length_append]; omega), fieldAt_append (by omega), Nat.add_sub_cancel_left]

/-! ## A whole message (R1 to R5) -/

theorem MsgKind.ofCode_code (k : MsgKind) : MsgKind.ofCode k.code = some k := by cases k <;> rfl

theorem MsgKind.largest_lt (k : MsgKind) : k.largest < 256 := by cases k <;> decide

theorem MsgKind.code_lt (k : MsgKind) : k.code < 256 := by cases k <;> decide

/-- The bytes of a message as its four header bytes and what follows. -/
theorem messageBytes_eq (sender : Byte) (kind : MsgKind) (serial : Byte) (stamp : Tick) (payload : List Byte) :
    messageBytes sender kind serial stamp payload =
      sender :: BitVec.ofNat 8 kind.code :: serial :: BitVec.ofNat 8 payload.length ::
        (beBytes 6 stamp.toNat ++ (payload ++ beBytes 2
          (crc16 ((messageBytes sender kind serial stamp payload).take (10 + payload.length))).toNat)) := by
  have htake : (messageBytes sender kind serial stamp payload).take (10 + payload.length) =
      [sender, BitVec.ofNat 8 kind.code, serial, BitVec.ofNat 8 payload.length] ++ beBytes 6 stamp.toNat ++ payload :=
    List.take_left' (by simp; omega)
  rw [htake]
  simp only [messageBytes, List.append_assoc, List.cons_append, List.nil_append]

theorem messageBytes_length (sender : Byte) (kind : MsgKind) (serial : Byte) (stamp : Tick) (payload : List Byte) :
    (messageBytes sender kind serial stamp payload).length = 12 + payload.length := by
  simp [messageBytes]; omega

/-- The length byte of a message whose payload fits it. -/
theorem messageBytes_lengthByte (sender : Byte) (kind : MsgKind) (serial : Byte) (stamp : Tick) {payload : List Byte}
    (h : payload.length < 256) :
    fieldAt (messageBytes sender kind serial stamp payload) 3 1 = payload.length := by
  rw [messageBytes_eq]
  simp only [fieldAt_cons_succ, fieldAt_cons_zero, BitVec.toNat_ofNat]
  exact Nat.mod_eq_of_lt h

/-- A message of its kind's size passes R4 and gives what it was built from. -/
theorem judgeReceived_messageBytes (sender : Byte) (kind : MsgKind) (serial : Byte) (stamp : Tick)
    {payload : List Byte} (h : payload.length ≤ kind.largest) :
    judgeReceived (messageBytes sender kind serial stamp payload) = .good sender kind serial stamp payload := by
  have hlt : payload.length < 256 := Nat.lt_of_le_of_lt h kind.largest_lt
  have hlen := messageBytes_length sender kind serial stamp payload
  have hbyte := messageBytes_lengthByte sender kind serial stamp hlt
  have hm := messageBytes_eq sender kind serial stamp payload
  generalize messageBytes sender kind serial stamp payload = bs at *
  generalize hcheck : crc16 (bs.take (10 + payload.length)) = check at hm
  have hcrc : fieldAt bs (10 + payload.length) 2 = check.toNat := by
    have h2 : fieldAt (payload ++ beBytes 2 check.toNat) payload.length 2 = check.toNat := by
      rw [fieldAt_append (le_refl _), Nat.sub_self]
      simpa using fieldAt_beBytes (n := 2) (x := check.toNat) check.isLt []
    rw [hm, show 10 + payload.length = payload.length + 6 + 1 + 1 + 1 + 1 by omega]
    simp only [fieldAt_cons_succ]
    rw [fieldAt_append (by simp), beBytes_length, Nat.add_sub_cancel, h2]
  have hkind : fieldAt bs 1 1 = kind.code := by
    rw [hm]
    simp only [fieldAt_cons_succ, fieldAt_cons_zero, BitVec.toNat_ofNat]
    exact Nat.mod_eq_of_lt kind.code_lt
  have hsender : fieldAt bs 0 1 = sender.toNat := by rw [hm, fieldAt_cons_zero]
  have hserial : fieldAt bs 2 1 = serial.toNat := by
    rw [hm]
    simp only [fieldAt_cons_succ, fieldAt_cons_zero]
  have hstamp : BitVec.ofNat 42 (fieldAt bs 4 6) = stamp := by
    rw [hm]
    exact fieldAt_word 6 stamp (by decide) _
  have hpayload : (bs.drop 10).take payload.length = payload := by
    rw [hm]
    simp
  unfold judgeReceived
  dsimp only
  rw [hbyte, hkind, MsgKind.ofCode_code, hcrc, hcheck, if_neg (by omega), if_neg (by simp)]
  simp only [if_neg (Nat.not_lt.mpr h), hsender, hserial, hstamp, hpayload, BitVec.ofNat_toNat, BitVec.setWidth_eq]

/-- The bytes of a copy are those of a message from the part's own id (R1, R29). -/
theorem copyBytes_eq (own : Nat) (serial : Byte) (stamp : Tick) (m : OutMsg) :
    copyBytes own serial stamp m = messageBytes (BitVec.ofNat 8 own) m.kind serial stamp m.payload := rfl

/-! ## CLAIM (R104) -/

/-- An entry is read from the front of what follows it. -/
theorem readClaimEntry_bytes {x : ClaimEntry} (h : x.prec < 256) (rest : List Byte) :
    readClaimEntry (x.bytes ++ rest) = some (x, rest) := by
  have hprec : BitVec.toNat (BitVec.ofNat 8 x.prec) = x.prec := by
    rw [BitVec.toNat_ofNat]
    exact Nat.mod_eq_of_lt h
  obtain ⟨bus, claim, prec⟩ := x
  cases claim with
  | handback f ev =>
    have hev : BitVec.ofNat 32 (fieldAt (beBytes 4 f.toNat ++ (beBytes 4 ev.toNat ++ rest)) 4 4) = ev := by
      rw [fieldAt_append (by simp), beBytes_length]
      exact fieldAt_word 4 ev (by decide) rest
    have hf := fieldAt_word 4 f (by decide) (beBytes 4 ev.toNat ++ rest)
    simp only [ClaimEntry.bytes, beBytes_one, List.cons_append, List.nil_append, List.append_assoc, readClaimEntry,
      fieldAt_cons_succ, fieldAt_cons_zero, hprec, hev, hf]
    simp [List.drop_append]
    omega
  | _ =>
    simp only [ClaimEntry.bytes, beBytes_one, List.cons_append, List.nil_append, readClaimEntry, fieldAt_cons_succ,
      fieldAt_cons_zero, hprec]
    simp

theorem ClaimEntry.bytes_length_le (x : ClaimEntry) : x.bytes.length ≤ 11 := by
  cases hx : x.claim <;> simp [ClaimEntry.bytes, hx]

theorem ClaimEntry.bytes_ne_nil (x : ClaimEntry) : x.bytes ≠ [] := by simp [ClaimEntry.bytes]

theorem readClaims_bytes {n : Nat} {entries : List ClaimEntry} (hn : entries.length ≤ n)
    (h : ∀ x ∈ entries, x.prec < 256) : readClaims n (entries.flatMap ClaimEntry.bytes) = some entries := by
  induction entries generalizing n with
  | nil => cases n <;> rfl
  | cons x xs ih =>
    cases n with
    | zero => simp at hn
    | succ n =>
      have hne : ((x :: xs).flatMap ClaimEntry.bytes).isEmpty = false := by simp [x.bytes_ne_nil]
      rw [readClaims, hne, List.flatMap_cons, readClaimEntry_bytes (h x (by simp))]
      simp [ih (by simpa using hn) fun y hy => h y (by simp [hy])]

theorem readClaim_bytes {entries : List ClaimEntry} (h1 : 1 ≤ entries.length) (h8 : entries.length ≤ 8)
    (h : ∀ x ∈ entries, x.prec < 256) : readClaim (OutMsg.claim entries).payload = some entries := by
  have hne : (entries.flatMap ClaimEntry.bytes).isEmpty = false := by
    cases entries with
    | nil => simp at h1
    | cons x xs => simp [x.bytes_ne_nil]
  rw [OutMsg.payload, readClaim, hne]
  exact readClaims_bytes h8 h

theorem claimPayload_length_le (entries : List ClaimEntry) :
    (OutMsg.claim entries).payload.length ≤ 11 * entries.length := by
  rw [OutMsg.payload]
  induction entries with
  | nil => simp
  | cons x xs ih =>
    have := x.bytes_length_le
    rw [List.flatMap_cons, List.length_append, List.length_cons]
    omega

/-! ## CUE and AS-RUN (R138, R159) -/

theorem Cue.bytes_length_le (c : Cue) : c.bytes.length ≤ 25 := by
  obtain ⟨server, port, tag, body⟩ := c
  cases body with
  | take ev clip entry k len => cases len <;> simp [Cue.bytes]
  | cancel => simp [Cue.bytes]
  | stop k => simp [Cue.bytes]

/-- Each body has the length that its code byte asks for (12 section 12.4). -/
theorem Cue.bytes_wellFormed (c : Cue) : cueWellFormed c.bytes = true := by
  obtain ⟨server, port, tag, body⟩ := c
  cases body with
  | take ev clip entry k len =>
    cases len <;> simp [Cue.bytes, cueWellFormed, fieldAt_cons_succ, fieldAt_cons_zero]
  | cancel => simp [Cue.bytes, cueWellFormed, fieldAt_cons_succ, fieldAt_cons_zero]
  | stop k => simp [Cue.bytes, cueWellFormed, fieldAt_cons_succ, fieldAt_cons_zero]

theorem AsRunStatus.code_le (st : Option AsRunStatus) : AsRunStatus.code st ≤ 6 := by
  rcases st with - | st
  · decide
  · cases st <;> decide

theorem AsRunRec.bytes_status (r : AsRunRec) : fieldAt r.bytes 2 1 = AsRunStatus.code r.status := by
  have := AsRunStatus.code_le r.status
  simp only [AsRunRec.bytes, beBytes_one, List.append_assoc, List.cons_append, List.nil_append, fieldAt_cons_succ,
    fieldAt_cons_zero, BitVec.toNat_ofNat]
  omega

theorem asRunPayload_length (rs : List AsRunRec) : (OutMsg.asRun rs).payload.length = 2 + 32 * rs.length := by
  simp [OutMsg.payload, length_flatMap_const (f := AsRunRec.bytes) (l := rs) fun r _ => r.bytes_length]
  omega

theorem asRunPayload_wellFormed {rs : List AsRunRec} (h1 : 1 ≤ rs.length) (h4 : rs.length ≤ 4) :
    asRunWellFormed (OutMsg.asRun rs).payload = true := by
  have hlen := asRunPayload_length rs
  have hcount : fieldAt (OutMsg.asRun rs).payload 0 1 = rs.length := by
    simp only [OutMsg.payload, beBytes_one, List.cons_append, List.nil_append, fieldAt_cons_zero, BitVec.toNat_ofNat]
    omega
  have hstatus : ∀ i, i < rs.length → fieldAt (OutMsg.asRun rs).payload (2 + 32 * i + 2) 1 ≤ 6 := by
    intro i hi
    rw [show 2 + 32 * i + 2 = 32 * i + 2 + 1 + 1 by omega]
    simp only [OutMsg.payload, beBytes_one, List.cons_append, List.nil_append, fieldAt_cons_succ]
    rw [fieldAt_flatMap (fun r _ => r.bytes_length) hi (by decide), AsRunRec.bytes_status]
    exact AsRunStatus.code_le _
  simp only [asRunWellFormed, hcount, hlen, Bool.and_eq_true, decide_eq_true_eq, beq_self_eq_true, List.all_eq_true,
    List.mem_range, and_true]
  exact ⟨⟨h1, h4⟩, hstatus⟩

/-! ## REPORT (R181, R182, R191) -/

theorem ChState.code_le (st : ChState) : st.code ≤ 9 := by cases st <;> decide

theorem MirrorStatus.code_le (st : MirrorStatus) : st.code ≤ 3 := by cases st <;> decide

theorem LaneState.code_le (st : LaneState) : st.code ≤ 2 := by cases st <;> decide

@[simp] theorem halfBytes_length (x : Half) : (halfBytes x).length = 2 := beBytes_length 2 _

@[simp] theorem Context.sectionBytes_length (x : Context) (now : Frame) (half offset : Nat) :
    (x.sectionBytes now half offset).length = 5 := by
  cases h : x.mirror.liveRev <;> simp [Context.sectionBytes, h]

/-- The two code bytes of a channel section (R181). -/
theorem Context.sectionBytes_codes (x : Context) (now : Frame) (half offset : Nat) :
    fieldAt (x.sectionBytes now half offset) 0 1 = x.state.code ∧
      fieldAt (x.sectionBytes now half offset) 1 1 = x.mirror.status.code := by
  have hst := x.state.code_le
  have hms := x.mirror.status.code_le
  simp only [Context.sectionBytes, beBytes_one, List.cons_append, List.nil_append,
    fieldAt_cons_succ, fieldAt_cons_zero, BitVec.toNat_ofNat]
  omega

section
variable (w : Works) (now : Frame) (half offset : Nat) {first : Nat}

/-- A place of the sections is that of a channel, when there are channels for all eight. -/
theorem Works.sections_place (hf : first + 8 ≤ 16) {i : Nat} (hi : i < 8) :
    ∃ c : Chan, (if h : first + i < 16 then (w.at ⟨first + i, h⟩).sectionBytes now half (offset + 5 * i) else []) =
      (w.at c).sectionBytes now half (offset + 5 * i) :=
  ⟨⟨first + i, by omega⟩, dif_pos (by omega)⟩

theorem Works.sections_place_length (hf : first + 8 ≤ 16) : ∀ i ∈ List.range 8,
    (if h : first + i < 16 then (w.at ⟨first + i, h⟩).sectionBytes now half (offset + 5 * i) else []).length = 5 := by
  intro i hi
  obtain ⟨c, hc⟩ := w.sections_place now half offset hf (List.mem_range.mp hi)
  rw [hc, Context.sectionBytes_length]

theorem Works.sections_length (hf : first + 8 ≤ 16) : (w.sections now half offset first).length = 40 :=
  length_flatMap_const (w.sections_place_length now half offset hf)

/-- The sections of a half are well formed, wherever they stand (R190). -/
theorem Works.sections_wellFormed (hf : first + 8 ≤ 16) (pre post : List Byte) :
    sectionsWellFormed (pre ++ w.sections now half offset first ++ post) pre.length = true := by
  have hlen := w.sections_length now half offset hf
  have hfield : ∀ i < 8, ∀ o, o + 1 ≤ 5 → ∃ c : Chan,
      fieldAt (pre ++ w.sections now half offset first ++ post) (pre.length + 5 * i + o) 1 =
        fieldAt ((w.at c).sectionBytes now half (offset + 5 * i)) o 1 := by
    intro i hi o ho
    obtain ⟨c, hc⟩ := w.sections_place now half offset hf hi
    refine ⟨c, ?_⟩
    rw [Nat.add_assoc, fieldAt_middle (by omega), Works.sections,
      fieldAt_flatMap (w.sections_place_length now half offset hf) (by simpa using hi) ho, List.getElem_range, hc]
  simp only [sectionsWellFormed, List.all_eq_true, List.mem_range, Bool.and_eq_true, decide_eq_true_eq]
  intro i hi
  obtain ⟨c, hc⟩ := hfield i hi 0 (by omega)
  obtain ⟨d, hd⟩ := hfield i hi 1 (by omega)
  rw [Nat.add_zero] at hc
  rw [hc, hd, (Context.sectionBytes_codes _ _ _ _).1, (Context.sectionBytes_codes _ _ _ _).2]
  exact ⟨ChState.code_le _, MirrorStatus.code_le _⟩

end

/-- Once the load has ended its two bytes name a state, and in CONFIG_FAULT a cause (R189, R191). -/
theorem LoadState.bytes_ended {load : LoadState} (h : (∃ n, load = .good n) ∨ ∃ cause, load = .fault cause) :
    ∃ b : Byte, load.bytes = [1, b] ∨ load.bytes = [2, b] ∧ 1 ≤ b.toNat ∧ b.toNat ≤ 3 := by
  rcases h with ⟨n, rfl⟩ | ⟨cause, rfl⟩
  · exact ⟨_, .inl rfl⟩
  · refine ⟨_, .inr ⟨rfl, ?_⟩⟩
    cases cause <;> decide

/-- The fields of half 0 from the lanes' counters to the sections (R181). -/
def State.half0Fields (s : State) : List Byte :=
  s.laneA.counterBytes ++ s.laneB.counterBytes ++ s.disp.counterBytes ++ halfBytes s.clk.refGlitch ++
    halfBytes s.clk.foreignMark ++ roleSummary s.cfg.lossFrames s.peers ++ beBytes 2 s.works.tx.account ++
    s.works.tx.counterBytes ++ beBytes 2 s.works.freeSlots ++ halfBytes s.works.counters.segmentRange ++
    halfBytes s.works.counters.tallySanity ++ halfBytes s.works.counters.tallyStale ++
    halfBytes s.works.counters.claimRange ++ halfBytes s.works.counters.claimTableFull ++
    halfBytes s.works.counters.foreignStatus ++ halfBytes s.works.counters.unknownController

theorem State.half0Fields_length (s : State) : s.half0Fields.length = 73 := by
  simp [State.half0Fields, LaneIf.counterBytes, Dispatcher.counterBytes, roleSummary, Transmitter.counterBytes]

/-- Half 0 as the bytes up to offset 78, the sections and the rest (12 section 12.5). -/
theorem State.reportHalf0_eq (s : State) : ∃ flags lanes : Byte,
    lanes = BitVec.ofNat 8 (s.laneA.state.code + 16 * s.laneB.state.code) ∧
      s.reportHalf0 =
        ([0, flags] ++ (s.load.bytes ++ lanes :: s.half0Fields)) ++ s.works.sections s.clk.count 0 78 0 ++
          List.replicate 42 0 := by
  refine ⟨BitVec.ofNat 8 (flagBit s.isolated 0 + flagBit s.clk.refLost 1 + flagBit s.clk.loaded 2 +
    flagBit s.clk.loadPending 3), _, rfl, ?_⟩
  unfold State.reportHalf0 State.half0Fields
  generalize s.works.sections s.clk.count 0 78 0 = sections
  generalize List.replicate 42 (0 : Byte) = rest
  simp only [beBytes_one, List.append_assoc, List.cons_append, List.nil_append]

theorem State.reportHalf0_wellFormed {s : State} (h : (∃ n, s.load = .good n) ∨ ∃ cause, s.load = .fault cause) :
    s.reportHalf0.length = 160 ∧ reportWellFormed s.reportHalf0 = true := by
  have ha := s.laneA.state.code_le
  have hb := s.laneB.state.code_le
  obtain ⟨flags, lanes, hl, heq⟩ := s.reportHalf0_eq
  have hlanes : lanes.toNat = s.laneA.state.code + 16 * s.laneB.state.code := by
    rw [hl, BitVec.toNat_ofNat]
    omega
  obtain ⟨b, hload⟩ := LoadState.bytes_ended h
  have hsections := s.works.sections_wellFormed s.clk.count 0 78 (first := 0) (by decide)
    ([0, flags] ++ (s.load.bytes ++ lanes :: s.half0Fields)) (List.replicate 42 0)
  have hpre : ([0, flags] ++ (s.load.bytes ++ lanes :: s.half0Fields)).length = 78 := by
    rcases hload with hl | ⟨hl, -⟩ <;> simp [hl, s.half0Fields_length]
  have hlen : s.reportHalf0.length = 160 := by
    rw [heq, List.length_append, List.length_append, hpre, s.works.sections_length _ _ _ (by decide)]
    simp
  rw [hpre, ← heq] at hsections
  have hhead : fieldAt s.reportHalf0 0 1 = 0 := by rw [heq]; rfl
  have hlane : fieldAt s.reportHalf0 4 1 = lanes.toNat := by
    rw [heq]
    rcases hload with hl | ⟨hl, -⟩ <;>
      simp only [hl, List.cons_append, List.nil_append, fieldAt_cons_succ, fieldAt_cons_zero]
  have hconfig : configWellFormed s.reportHalf0 = true := by
    rw [heq]
    rcases hload with hl | ⟨hl, h1, h3⟩
    · simp [configWellFormed, hl, fieldAt_cons_succ, fieldAt_cons_zero]
    · simp [configWellFormed, hl, fieldAt_cons_succ, fieldAt_cons_zero, h1, h3]
  refine ⟨hlen, ?_⟩
  simp only [reportWellFormed, hlen, hhead, hconfig, hlane, hlanes, hsections, beq_self_eq_true, Bool.true_and,
    Bool.and_true, Bool.and_eq_true, decide_eq_true_eq]
  omega

/-! ## Notices in half 1 (R182) -/

@[simp] theorem Notice.bytes_length (n : Notice) : n.bytes.length = 10 := by simp [Notice.bytes]

@[simp] theorem Works.noticePlace_length (w : Works) (now : Frame) (i : Nat) : (w.noticePlace now i).length = 10 := by
  unfold Works.noticePlace
  split <;> simp

/-- The judgement of a notice place reads its ten bytes only. -/
theorem noticeWellFormed_congr {bs cs : List Byte} {o k : Nat}
    (h : ∀ a n, a + n ≤ 10 → fieldAt bs (o + a) n = fieldAt cs (k + a) n) :
    noticeWellFormed bs o = noticeWellFormed cs k := by
  have h01 : fieldAt bs o 1 = fieldAt cs k 1 := h 0 1 (by decide)
  simp only [noticeWellFormed, h01, h 2 1 (by decide), h 3 1 (by decide), h 4 1 (by decide), h 5 1 (by decide),
    h 2 4 (by decide), h 4 2 (by decide)]

/-- An empty place is well formed, and one that holds a notice is when the notice's codes are (log 9). -/
theorem Works.noticePlace_wellFormed {w : Works} (h : ∀ n ∈ w.notices.ring.take 4, noticeWellFormed n.bytes 0 = true)
    (now : Frame) {i : Nat} (hi : i < 4) : noticeWellFormed (w.noticePlace now i) 0 = true := by
  unfold Works.noticePlace
  split
  · rename_i n hn
    refine h n (List.mem_of_getElem? (i := i) ?_)
    rw [List.getElem?_take_of_lt hi, hn]
  · rfl

/-- Half 1 as its first byte, the sections, the four notice places and the rest (12 section 12.5). -/
theorem Works.reportHalf1_eq (w : Works) (now : Frame) : ∃ post : List Byte,
    w.reportHalf1 now = [1] ++ w.sections now 1 1 8 ++ ((List.range 4).flatMap (w.noticePlace now) ++ post) ∧
      post.length = 79 :=
  ⟨_, by simp only [Works.reportHalf1, List.append_assoc]; rfl, by simp⟩

theorem Works.reportHalf1_wellFormed {w : Works} {now : Frame}
    (h : ∀ n ∈ w.notices.ring.take 4, noticeWellFormed n.bytes 0 = true) :
    (w.reportHalf1 now).length = 160 ∧ reportWellFormed (w.reportHalf1 now) = true := by
  obtain ⟨post, heq, hpost⟩ := w.reportHalf1_eq now
  have hsec := w.sections_length now 1 1 (first := 8) (by decide)
  have hplaces : ((List.range 4).flatMap (w.noticePlace now)).length = 40 :=
    length_flatMap_const fun i _ => w.noticePlace_length now i
  have hlen : (w.reportHalf1 now).length = 160 := by
    rw [heq]
    simp [hsec, hpost, -List.length_flatMap, hplaces]
  have hsections : sectionsWellFormed (w.reportHalf1 now) 1 = true := by
    rw [heq]
    exact w.sections_wellFormed now 1 1 (by decide) [1] _
  have hnotices : ∀ i < 4, noticeWellFormed (w.reportHalf1 now) (41 + 10 * i) = true := by
    intro i hi
    rw [← Works.noticePlace_wellFormed h now hi]
    refine noticeWellFormed_congr fun a n han => ?_
    have hpre : ([1] ++ w.sections now 1 1 8).length = 41 := by simp [hsec]
    rw [heq, ← List.append_assoc, Nat.add_assoc, ← hpre, fieldAt_middle (by omega),
      fieldAt_flatMap (fun i _ => w.noticePlace_length now i) (by simpa using hi) han, List.getElem_range, Nat.zero_add]
  have hhead : fieldAt (w.reportHalf1 now) 0 1 = 1 := by rw [heq]; rfl
  refine ⟨hlen, ?_⟩
  simp only [reportWellFormed, hlen, hhead, hsections, beq_self_eq_true, Bool.true_and, List.all_eq_true,
    List.mem_range]
  exact hnotices

/-! ## Event records (R58) -/

/-- The mode that a code names is the mode of that code. -/
theorem readEvent_mode {bs : List Byte} {r : EventRec} (h : readEvent bs = some r) :
    fieldAt bs 8 1 = r.mode.code ∧
      r = { event := BitVec.ofNat 32 (fieldAt bs 0 4), clip := BitVec.ofNat 32 (fieldAt bs 4 4), mode := r.mode,
            duration := BitVec.ofNat 24 (fieldAt bs 9 3), startFrame := BitVec.ofNat 32 (fieldAt bs 12 4) } := by
  unfold readEvent at h
  dsimp only at h
  split at h
  · rename_i hm
    cases h
    exact ⟨hm, rfl⟩
  · rename_i hm
    cases h
    exact ⟨hm, rfl⟩
  · cases h

/-- A field and what follows it are what stands from its offset on. -/
theorem take_drop_append_drop (bs : List Byte) (o n : Nat) : (bs.drop o).take n ++ bs.drop (o + n) = bs.drop o := by
  rw [← List.drop_drop, List.take_append_drop]

/-- An event record that was read gives back the bytes that arrived (R58). -/
theorem readEvent_bytes {bs : List Byte} {r : EventRec} (hl : bs.length = 16) (h : readEvent bs = some r) :
    r.bytes = bs := by
  obtain ⟨hmode, hr⟩ := readEvent_mode h
  rw [hr, EventRec.bytes, ← hmode]
  dsimp only
  rw [beBytes_ofNat_fieldAt rfl (by omega), beBytes_ofNat_fieldAt rfl (by omega), beBytes_fieldAt (by omega),
    beBytes_ofNat_fieldAt rfl (by omega), beBytes_ofNat_fieldAt rfl (by omega)]
  have hend : (bs.drop 12).take 4 = bs.drop 12 := List.take_of_length_le (by simp; omega)
  rw [hend]
  simp only [List.append_assoc]
  calc _ = (bs.drop 0).take 4 ++ ((bs.drop 4).take 4 ++ ((bs.drop 8).take 1 ++ bs.drop 9)) := by
          rw [take_drop_append_drop bs 9 3]
    _ = (bs.drop 0).take 4 ++ ((bs.drop 4).take 4 ++ bs.drop 8) := by rw [take_drop_append_drop bs 8 1]
    _ = (bs.drop 0).take 4 ++ bs.drop 4 := by rw [take_drop_append_drop bs 4 4]
    _ = bs := take_drop_append_drop bs 0 4

/-- Settles O53: kind by kind. -/
theorem sentMessagesAreReadBack : Obligations.SentMessagesAreReadBack := by
  refine ⟨fun own serial stamp m _ hm => ?_, fun entries h1 h8 hprec => ⟨?_, readClaim_bytes h1 h8 hprec⟩,
    fun c => ⟨c.bytes_length_le, c.bytes_wellFormed⟩, fun rs h1 h4 => ⟨?_, asRunPayload_wellFormed h1 h4⟩,
    fun s h => State.reportHalf0_wellFormed h, fun w now h => Works.reportHalf1_wellFormed h,
    fun bs r hl h => readEvent_bytes hl h⟩
  · rw [copyBytes_eq, judgeReceived_messageBytes _ _ _ _ hm]
  · have := claimPayload_length_le entries
    show _ ≤ 88
    omega
  · have := asRunPayload_length rs
    show _ ≤ 130
    omega

end Sys2Proof.Machine
end

