-- ==== Sys2Proof/Proofs/Lines.lean ====
section
/-! SUPPORT. R3 to R7, R17, R29, R30: what a receiver does with what arrives, and how a copy of the part's own message
begins, is judged and ends. -/

namespace Sys2Proof.Machine

/-! ## A collected message is judged (R4 to R7) -/

section
variable {bytes : List Byte} {x : LaneIf}

/-- The judgement of a collected message does not look at the receiver's mode. -/
theorem LaneIf.judge_withMode (x : LaneIf) (bytes : List Byte) (arrival : Tick) (mode : RxMode) :
    ({ x with mode := mode } : LaneIf).judge bytes arrival = x.judge bytes arrival := rfl

theorem tooLong_eq_false (h : bytes.length < 4 ∨ bytes.length ≤ 12 + fieldAt bytes 3 1) : tooLong bytes = false := by
  simp only [tooLong, decide_eq_false_iff_not]
  omega

/-- A byte too many loses framing, and so does the run that the end delimiter then ends (R6). -/
theorem LaneIf.judge_tooLong (h4 : 4 ≤ bytes.length) (h : 12 + fieldAt bytes 3 1 < bytes.length) (arrival : Tick) :
    x.judge bytes arrival = { x with framingLost := bump (bump x.framingLost), mode := .hunting true } := by
  have ht : tooLong bytes = true := decide_eq_true ⟨h4, h⟩
  simp only [LaneIf.judge, ht, if_true, LaneIf.lose, LaneIf.stray]

theorem LaneIf.judge_truncated (h : bytes.length < 4 ∨ bytes.length < 12 + fieldAt bytes 3 1) (arrival : Tick) :
    x.judge bytes arrival = { x with mode := .hunting false, truncated := bump x.truncated } := by
  have ht : tooLong bytes = false := tooLong_eq_false (h.imp_right Nat.le_of_lt)
  have hv : judgeReceived bytes = .truncated := if_pos h
  simp only [LaneIf.judge, ht, hv, Bool.false_eq_true, if_false]

/-- The judgement of R4 on a string of the stated length, past its first check. -/
theorem judgeReceived_of_length (h : bytes.length = 12 + fieldAt bytes 3 1) :
    judgeReceived bytes =
      if (crc16 (bytes.take (10 + fieldAt bytes 3 1))).toNat ≠ fieldAt bytes (10 + fieldAt bytes 3 1) 2 then
        .checkError
      else
        match MsgKind.ofCode (fieldAt bytes 1 1) with
        | none => .unknownKind
        | some k =>
          if k.largest < fieldAt bytes 3 1 then .lengthError
          else
            .good (BitVec.ofNat 8 (fieldAt bytes 0 1)) k (BitVec.ofNat 8 (fieldAt bytes 2 1))
              (BitVec.ofNat 42 (fieldAt bytes 4 6)) ((bytes.drop 10).take (fieldAt bytes 3 1)) :=
  if_neg (by omega)

theorem LaneIf.judge_checkError (h : bytes.length = 12 + fieldAt bytes 3 1)
    (hc : (crc16 (bytes.take (10 + fieldAt bytes 3 1))).toNat ≠ fieldAt bytes (10 + fieldAt bytes 3 1) 2)
    (arrival : Tick) :
    x.judge bytes arrival = { x with mode := .hunting false, checkError := bump x.checkError } := by
  have ht : tooLong bytes = false := tooLong_eq_false (.inr h.le)
  have hv : judgeReceived bytes = .checkError := by rw [judgeReceived_of_length h, if_pos hc]
  simp only [LaneIf.judge, ht, hv, Bool.false_eq_true, if_false]

theorem LaneIf.judge_unknownKind (h : bytes.length = 12 + fieldAt bytes 3 1)
    (hc : (crc16 (bytes.take (10 + fieldAt bytes 3 1))).toNat = fieldAt bytes (10 + fieldAt bytes 3 1) 2)
    (hk : MsgKind.ofCode (fieldAt bytes 1 1) = none) (arrival : Tick) :
    x.judge bytes arrival = { x with mode := .hunting false, unknownKind := bump x.unknownKind } := by
  have ht : tooLong bytes = false := tooLong_eq_false (.inr h.le)
  have hv : judgeReceived bytes = .unknownKind := by
    rw [judgeReceived_of_length h, if_neg (not_not.mpr hc), hk]
  simp only [LaneIf.judge, ht, hv, Bool.false_eq_true, if_false]

theorem LaneIf.judge_lengthError (h : bytes.length = 12 + fieldAt bytes 3 1)
    (hc : (crc16 (bytes.take (10 + fieldAt bytes 3 1))).toNat = fieldAt bytes (10 + fieldAt bytes 3 1) 2)
    {k : MsgKind} (hk : MsgKind.ofCode (fieldAt bytes 1 1) = some k) (hl : k.largest < fieldAt bytes 3 1)
    (arrival : Tick) :
    x.judge bytes arrival = { x with mode := .hunting false, lengthError := bump x.lengthError } := by
  have ht : tooLong bytes = false := tooLong_eq_false (.inr h.le)
  have hv : judgeReceived bytes = .lengthError := by
    rw [judgeReceived_of_length h, if_neg (not_not.mpr hc), hk]
    exact if_pos hl
  simp only [LaneIf.judge, ht, hv, Bool.false_eq_true, if_false]

/-- A message that passes R4 is offered to the queue (R5, R7). -/
theorem LaneIf.judge_messageBytes (x : LaneIf) (sender : Byte) {kind : MsgKind} (serial : Byte) (stamp arrival : Tick)
    {payload : List Byte} (h : payload.length ≤ kind.largest) :
    x.judge (messageBytes sender kind serial stamp payload) arrival =
      ({ x with mode := .hunting false } : LaneIf).offer
        { sender := sender, kind := kind, serial := serial, stamp := stamp, payload := payload,
          arrival := arrival } := by
  have hlt : payload.length < 256 := Nat.lt_of_le_of_lt h kind.largest_lt
  have ht : tooLong (messageBytes sender kind serial stamp payload) = false := by
    refine tooLong_eq_false (.inr ?_)
    rw [messageBytes_lengthByte _ _ _ _ hlt, messageBytes_length]
  simp only [LaneIf.judge, ht, judgeReceived_messageBytes sender kind serial stamp h, Bool.false_eq_true, if_false]

end

/-! ## What arrives on a lane (R3, R6, log 28) -/

section
variable {s : State} {l : Lane} {dt : Nat}

/-- MESSAGE_RECEIVED does to its lane what its part does to the lane as it stands. -/
theorem State.Ready.messageReceived (h : s.Ready) (part : RxPart) {f : LaneIf → LaneIf}
    (hf : LaneIf.receive (s.pass dt).clk.tick part (s.lane l) = f (s.lane l)) :
    exec (.messageReceived l dt part) s = .next ((s.pass dt).modLane l f) :=
  congrArg Host.Outcome.next ((h.whenRunning _).trans (State.modLane_congr (by rw [s.pass_lane]; exact hf)))

/-- FRAMING_LOST does to its lane what its cause does to the lane as it stands. -/
theorem State.Ready.framingLost (h : s.Ready) (cause : FramingCause) {f : LaneIf → LaneIf}
    (hf : LaneIf.unframe (s.pass dt).clk.tick cause (s.lane l) = f (s.lane l)) :
    exec (.framingLost l dt cause) s = .next ((s.pass dt).modLane l f) :=
  congrArg Host.Outcome.next ((h.whenRunning _).trans (State.modLane_congr (by rw [s.pass_lane]; exact hf)))

/-- The end of a message in RECEIVING has it judged. -/
theorem State.Ready.closing (h : s.Ready) {arrival : Tick} (hm : (s.lane l).mode = .receiving arrival)
    {bytes : List Byte} {f : LaneIf → LaneIf} (hf : (s.lane l).judge bytes arrival = f (s.lane l)) :
    exec (.messageReceived l dt (.closing bytes)) s = .next ((s.pass dt).modLane l f) :=
  h.messageReceived _ (by simp only [LaneIf.receive, hm]; exact hf)

end

/-- What arrives whole does to a receiver what its opening and then its closing do (log 28). -/
theorem LaneIf.receive_whole (tick : Tick) (bytes : List Byte) (x : LaneIf) :
    x.receive tick (.whole bytes) = (x.receive tick .opening).receive tick (.closing bytes) := by
  cases hm : x.mode with
  | held | echo => simp only [LaneIf.receive, hm]
  | hunting run =>
    simp only [LaneIf.receive, hm]
    exact (x.judge_withMode bytes tick _).symm
  | receiving arrival =>
    simp only [LaneIf.receive, hm]
    exact ((x.lose _).judge_withMode bytes tick _).symm

theorem Timebase.advance_zero (t : Timebase) (dt : Nat) : (t.advance dt).advance 0 = t.advance dt := by
  simp [Timebase.advance, Timebase.deadline]

theorem State.modLane_pass (s : State) (l : Lane) (f : LaneIf → LaneIf) (dt : Nat) :
    ((s.pass dt).modLane l f).pass 0 = (s.pass dt).modLane l f := by
  have h := s.clk.advance_zero dt
  cases l
  · exact congrArg (fun t => { s with clk := t, laneA := f s.laneA }) h
  · exact congrArg (fun t => { s with clk := t, laneB := f s.laneB }) h

/-- A message that arrives whole arrives as its opening and then its closing. -/
theorem State.Ready.whole {s : State} (h : s.Ready) (l : Lane) (dt : Nat) (bytes : List Byte) {u : State}
    (hu : exec (.messageReceived l dt .opening) s = .next u) :
    exec (.messageReceived l dt (.whole bytes)) s = exec (.messageReceived l 0 (.closing bytes)) u := by
  have hopen := h.messageReceived (l := l) (dt := dt) .opening (f := LaneIf.receive (s.pass dt).clk.tick .opening) rfl
  obtain rfl : _ = u := Host.Outcome.next.inj (hopen.symm.trans hu)
  have hready : ((s.pass dt).modLane l (LaneIf.receive (s.pass dt).clk.tick .opening)).Ready := by
    obtain ⟨hrun, hdue⟩ := h
    refine ⟨?_, by rw [State.modLane_due, State.pass_due, hdue]⟩
    rw [← hrun]
    cases l <;> rfl
  rw [h.messageReceived (.whole bytes) rfl, hready.messageReceived (.closing bytes) rfl, State.modLane_pass,
    State.modLane_modLane, State.modLane_clk]
  exact congrArg _ (State.modLane_congr (LaneIf.receive_whole _ _ _))

/-- Settles O8: by the receiver's mode and by the judgement of what it collected. -/
theorem messagesAreQueuedOrDiscarded : Obligations.MessagesAreQueuedOrDiscarded := by
  refine ⟨fun s l dt sender kind serial stamp arrival payload hr hm hp => ⟨fun hq => ?_, fun hq => ?_⟩,
    fun s l dt hr => ⟨fun run hm => ?_, fun bytes u hu => hr.whole l dt bytes hu,
      fun arrival bytes hm => ⟨fun h4 hlong => ?_, fun hshort => ?_, fun hlen hcrc => ?_,
        fun hlen hcrc => ⟨fun hkind => ?_, fun k hkind hlarge => ?_⟩⟩,
      fun hm => ?_, fun hm => ?_, fun arrival cause hm hcause => ?_, fun arrival i hm hi => ?_⟩⟩
  · exact hr.closing hm ((LaneIf.judge_messageBytes _ _ _ _ _ hp).trans (if_pos hq))
  · exact hr.closing hm ((LaneIf.judge_messageBytes _ _ _ _ _ hp).trans (if_neg (Nat.not_lt.mpr hq)))
  · exact hr.messageReceived _ (by simp only [LaneIf.receive, hm])
  · exact hr.closing hm (LaneIf.judge_tooLong h4 hlong arrival)
  · exact hr.closing hm (LaneIf.judge_truncated hshort arrival)
  · exact hr.closing hm (LaneIf.judge_checkError hlen hcrc arrival)
  · exact hr.closing hm (LaneIf.judge_unknownKind hlen hcrc hkind arrival)
  · exact hr.closing hm (LaneIf.judge_lengthError hlen hcrc hkind hlarge arrival)
  · exact hr.framingLost _ (by simp only [LaneIf.unframe, LaneIf.stray, LaneIf.lose, hm])
  · rw [hr.framingLost (f := id) _ (by simp only [LaneIf.unframe, LaneIf.stray, hm, id])]
    cases l <;> rfl
  · rcases hcause with rfl | rfl <;> exact hr.framingLost _ (by simp only [LaneIf.unframe, LaneIf.lose, hm])
  · rcases hi with rfl | rfl
    · exact hr.framingLost _ (by simp only [LaneIf.unframe, LaneIf.lose, hm])
    · exact hr.messageReceived _ (by simp only [LaneIf.receive, LaneIf.lose, hm])

end Sys2Proof.Machine
end

