-- ==== Sys2Proof/Proofs/Copies.lean ====
section
/-! SUPPORT. R17, R27 to R32: the pick, the beginning, the judgement and the end of a copy, and the completion of a
message. -/

namespace Sys2Proof.Machine

/-! ## The pick (R27) -/

section
variable {cfg : Config} {t : Transmitter} {m : OutMsg} {rest : List OutMsg}

theorem Transmitter.pick_busy (h : t.flight ≠ none) (cfg : Config) : t.pick cfg = t := by
  cases hf : t.flight with
  | none => exact absurd hf h
  | some f => simp only [Transmitter.pick, hf]

theorem Transmitter.pick_urgent (hf : t.flight = none) (hu : t.urgent = m :: rest) (cfg : Config) :
    t.pick cfg = ({ t with urgent := rest } : Transmitter).launch .urgent m := by
  simp only [Transmitter.pick, hf, hu]

theorem Transmitter.pick_routine (hf : t.flight = none) (hu : t.urgent = []) (hr : t.routine = m :: rest)
    (ha : t.account ≤ cfg.limit) :
    t.pick cfg = ({ t with routine := rest } : Transmitter).launch .routine m := by
  simp only [Transmitter.pick, hf, hu, hr, if_pos ha]

/-- With no URGENT message, and the ROUTINE class empty or closed by the account, the pick is that of BULK. -/
theorem Transmitter.pick_eq_pickBulk (hf : t.flight = none) (hu : t.urgent = [])
    (hr : t.routine = [] ∨ cfg.limit < t.account) : t.pick cfg = t.pickBulk cfg := by
  cases hq : t.routine with
  | nil => simp only [Transmitter.pick, hf, hu, hq]
  | cons m rest =>
    have ha : cfg.limit < t.account := hr.resolve_left (by simp [hq])
    simp only [Transmitter.pick, hf, hu, hq, if_neg (Nat.not_le.mpr ha)]

theorem Transmitter.pickBulk_open (hb : t.bulk = m :: rest) (ha : t.account ≤ cfg.limit / 2) :
    t.pickBulk cfg = ({ t with bulk := rest } : Transmitter).launch .bulk m := by
  simp only [Transmitter.pickBulk, hb, if_pos ha]

theorem Transmitter.pickBulk_closed (hb : t.bulk = [] ∨ cfg.limit / 2 < t.account) : t.pickBulk cfg = t := by
  cases hq : t.bulk with
  | nil => simp only [Transmitter.pickBulk, hq]
  | cons m rest =>
    have ha : cfg.limit / 2 < t.account := hb.resolve_left (by simp [hq])
    simp only [Transmitter.pickBulk, hq, if_neg (Nat.not_le.mpr ha)]

end

/-! ## The judgement of an echo (R17, log 42) -/

theorem judgeEcho_eq_good {sent readBack : List Symbol} : judgeEcho sent readBack = .good ↔ readBack = sent := by
  unfold judgeEcho
  split
  · simp [*]
  · split <;> simp [*]

/-- No symbol differs, and none is left over, exactly when the symbols read back begin those sent. -/
theorem begins_iff_zip {sent readBack : List Symbol} :
    readBack <+: sent ↔
      ((sent.zip readBack).any (fun p => p.1 != p.2) || decide (sent.length < readBack.length)) = false := by
  induction sent generalizing readBack with
  | nil => cases readBack <;> simp
  | cons x xs ih =>
    cases readBack with
    | nil => simp
    | cons y ys =>
      rw [List.cons_prefix_cons, ih]
      by_cases hxy : y = x
      · simp [hxy]
      · simp [hxy, Ne.symm hxy]

theorem judgeEcho_eq_absent {sent readBack : List Symbol} :
    judgeEcho sent readBack = .absent ↔ readBack <+: sent ∧ readBack ≠ sent := by
  rw [begins_iff_zip]
  unfold judgeEcho
  generalize ((sent.zip readBack).any (fun p => p.1 != p.2) || decide (sent.length < readBack.length)) = differs
  split
  · simp [*]
  · cases differs <;> simp [*]

/-! ## Copies and completion (R29 to R31) -/

theorem TxFlight.setCopy_msg (f : TxFlight) (l : Lane) (c : Copy) : (f.setCopy l c).msg = f.msg := by cases l <;> rfl

/-- Both copies are over, told by one lane and the other. -/
theorem TxFlight.setCopy_over (f : TxFlight) {k l : Lane} (h : k ≠ l) (c : Copy) :
    ((f.setCopy l c).copyA.over && (f.setCopy l c).copyB.over) = (c.over && (f.copy k).over) := by
  cases k <;> cases l
  · exact absurd rfl h
  · exact Bool.and_comm _ _
  · rfl
  · exact absurd rfl h

/-- A copy was sent, told by one lane and the other. -/
theorem TxFlight.setCopy_sent (f : TxFlight) {k l : Lane} (h : k ≠ l) (c : Copy) :
    ((f.setCopy l c).copyA = .sent ∨ (f.setCopy l c).copyB = .sent) ↔ c = .sent ∨ f.copy k = .sent := by
  cases k <;> cases l
  · exact absurd rfl h
  · exact or_comm
  · rfl
  · exact absurd rfl h

theorem Copy.over_iff {c : Copy} : c.over = true ↔ c = .sent ∨ c = .abandoned := by cases c <;> simp [Copy.over]

section
variable {cfg : Config} {t : Transmitter} {f : TxFlight} {k l : Lane} {c : Copy}

/-- While the other lane's copy is not over, only the copy changes. -/
theorem Transmitter.copyDone_open (h : k ≠ l) (hs : f.copy k ≠ .sent) (ha : f.copy k ≠ .abandoned) (c : Copy) :
    t.copyDone cfg f l c = { t with flight := some (f.setCopy l c) } := by
  have ho : (f.copy k).over = false := by
    rw [Bool.eq_false_iff]
    exact fun h => (Copy.over_iff.mp h).elim hs ha
  simp only [Transmitter.copyDone, f.setCopy_over h, ho, Bool.and_false, Bool.false_eq_true, if_false]

/-- A message whose copies are over is charged once, if one was sent, and the next is picked (R30, R31). -/
theorem Transmitter.copyDone_charged (h : k ≠ l) (hc : c.over = true) (hk : (f.copy k).over = true)
    (hs : c = .sent ∨ f.copy k = .sent) :
    t.copyDone cfg f l c =
      ({ t with
          flight := none
          account := min cfg.clip (t.account + (12 + f.msg.payload.length) * cfg.ratio) } : Transmitter).pick cfg := by
  simp only [Transmitter.copyDone, f.setCopy_over h, hc, hk, Bool.and_self, if_true, Transmitter.charge,
    if_pos ((f.setCopy_sent h c).mpr hs), TxFlight.setCopy_msg, OutMsg.size]

/-- A message of which no copy was sent is not charged (R30). -/
theorem Transmitter.copyDone_uncharged (h : k ≠ l) (hc : c = .abandoned) (hk : f.copy k = .abandoned) :
    t.copyDone cfg f l c = ({ t with flight := none } : Transmitter).pick cfg := by
  have hs : ¬((f.setCopy l c).copyA = .sent ∨ (f.setCopy l c).copyB = .sent) := by
    rw [f.setCopy_sent h, hc, hk]
    simp
  have ho : ((f.setCopy l c).copyA.over && (f.setCopy l c).copyB.over) = true := by
    rw [f.setCopy_over h, hc, hk]
    rfl
  simp only [Transmitter.copyDone, ho, if_true, Transmitter.charge, if_neg hs]

end

section
variable {s : State} {l : Lane} {f : TxFlight}

/-- A copy that waits begins when its lane's receiver hunts (R29, R3). -/
theorem State.Ready.copyBegin (h : s.Ready) (hf : s.works.tx.flight = some f) {busy : Nat}
    (hc : f.copy l = .waiting busy) {run : Bool} (hm : (s.lane l).mode = .hunting run) (dt : Nat) :
    exec (.copyBegin l dt) s =
      .next (((s.pass dt).modLane l fun x => { x with mode := .echo }).onWorks fun w =>
        { w with tx := { w.tx with flight := some (f.setCopy l
            (.sending (copyBytes s.own f.serial (s.clk.advance dt).tick f.msg))) } }) := by
  refine congrArg Host.Outcome.next ((h.whenRunning _).trans ?_)
  have hw : (s.pass dt).works.tx.waitingOn l = some f := by
    simp only [State.pass_works, Transmitter.waitingOn, hf, Option.bind_some, hc]
  have hh : ((s.pass dt).lane l).hunts = true := by
    simp only [State.pass_lane, LaneIf.hunts, hm]
  simp only [State.copyBegin, hw, hh, if_true, State.pass_own, State.pass_clk]

/-- A copy that is being sent ends, its echo judged (R17, R30). -/
theorem State.Ready.copyEnd (h : s.Ready) (hf : s.works.tx.flight = some f) {bytes : List Byte}
    (hc : f.copy l = .sending bytes) (hm : (s.lane l).mode = .echo) (readBack : List Symbol) :
    exec (.copyEnd l readBack) s =
      .next ((s.modLane l (LaneIf.echoed (judgeEcho (copySymbols bytes) readBack))).onWorks fun w =>
        { w with tx := w.tx.copyDone s.cfg f l .sent }) := by
  refine congrArg Host.Outcome.next ((h.whenRunning _).trans ?_)
  have hs : s.works.tx.sendingOn l = some f := by
    simp only [Transmitter.sendingOn, hf, Option.bind_some, hc]
  have he : (s.lane l).echoes = true := by simp only [LaneIf.echoes, hm]
  simp only [State.copyEnd, hs, he, if_true, hc, Copy.bytes]

/-- The echo-failure run after an echo: 0 when it is Good, and otherwise one more (R17). -/
theorem LaneIf.echoed_eq (x : LaneIf) (sent readBack : List Symbol) :
    x.echoed (judgeEcho sent readBack) =
      { x with mode := .hunting false, echoRun := if readBack = sent then 0 else bump x.echoRun } := by
  by_cases h : readBack = sent
  · rw [judgeEcho_eq_good.mpr h, if_pos h]
    rfl
  · have hne : judgeEcho sent readBack ≠ .good := fun hg => h (judgeEcho_eq_good.mp hg)
    rw [if_neg h]
    cases hj : judgeEcho sent readBack with
    | good => exact absurd hj hne
    | mismatch => rfl
    | absent => rfl

/-- A copy whose busy count reaches 2 is abandoned and counted (R29). -/
theorem State.Outstanding.copyAbandoned (h : s.Outstanding (.busy l)) (hf : s.works.tx.flight = some f)
    (hc : f.copy l = .waiting 1) :
    exec (.copyAbandoned l) s =
      .next { s with
        works := { s.works with tx := (s.works.tx.skipCopy l).copyDone s.cfg f l .abandoned }
        due := s.due.erase (.busy l) } := by
  have hd : s.abandonDue l = true := by simp [State.abandonDue, hf, hc]
  refine congrArg Host.Outcome.next ((h.slice hd).trans ?_)
  simp only [runWork, State.onWorks, Transmitter.busyBoundary, hf, hc]
  rfl

end

/-- Settles O9: the pick by the classes in order, a copy by its beginning, its end and its abandonment. -/
theorem messagesArePickedAndSent : Obligations.MessagesArePickedAndSent := by
  refine ⟨fun cfg t => ⟨fun hf => Transmitter.pick_busy hf cfg, fun hf => ⟨fun m rest hu => ?_,
      fun m rest hu hr ha => ?_, fun m rest hu hr hb ha => ?_, fun hu hr hb => ?_⟩⟩,
    fun s l dt busy f run hr hf hc hm => ?_, fun s l readBack sent f bytes hr hf hc hm hsent => ?_,
    fun s l k f ho hf hc hk => ?_⟩
  · rw [Transmitter.pick_urgent hf hu]
    rfl
  · rw [Transmitter.pick_routine hf hu hr ha]
    rfl
  · rw [Transmitter.pick_eq_pickBulk hf hu hr, Transmitter.pickBulk_open hb ha]
    rfl
  · rw [Transmitter.pick_eq_pickBulk hf hu hr, Transmitter.pickBulk_closed hb]
  · rw [hr.copyBegin hf hc hm, copyBytes_eq]
  · have hexec := hr.copyEnd hf hc hm readBack
    rw [show copySymbols bytes = sent from hsent.symm] at hexec
    refine ⟨judgeEcho_eq_good, judgeEcho_eq_absent, _, if readBack = sent then 0 else bump (s.lane l).echoRun, hexec,
      ?_, fun h => if_pos h, fun h => if_neg h, fun k hk hover => ?_, fun k hk hs ha => ?_⟩
    · rw [State.modLane_congr (g := fun x =>
        { x with mode := .hunting false, echoRun := if readBack = sent then 0 else bump (s.lane l).echoRun })
        (LaneIf.echoed_eq (s.lane l) sent readBack)]
      cases l <;> rfl
    · rw [State.onWorks_works, State.modLane_works]
      exact Transmitter.copyDone_charged hk rfl (Copy.over_iff.mpr hover) (.inl rfl)
    · rw [State.onWorks_works, State.modLane_works]
      exact Transmitter.copyDone_open hk hs ha _
  · refine ⟨_, ho.copyAbandoned hf hc, rfl, fun skipped hskip => ?_⟩
    obtain rfl : skipped = s.works.tx.skipCopy l := by
      rw [hskip]
      cases l <;> rfl
    have hacc : (s.works.tx.skipCopy l).account = s.works.tx.account := by cases l <;> rfl
    refine ⟨fun ha => ?_, fun hs => ?_, fun ha hs => ?_⟩
    · exact Transmitter.copyDone_uncharged hk rfl ha
    · rw [← hacc]
      exact Transmitter.copyDone_charged hk rfl (Copy.over_iff.mpr (.inl hs)) (.inr hs)
    · exact Transmitter.copyDone_open hk hs ha _

end Sys2Proof.Machine
end

