-- ==== Sys2Proof/Proofs/Isolation.lean ====
section
/-! SUPPORT. R18 to R20, R94, R96: the judgement of a lane, and of isolation with the reaction of the channels, each of
which acts on its own context alone. -/

namespace Sys2Proof.Machine

/-! ## Something done for each channel -/

theorem foldl_channels_at {f : Chan → Works → Works} (hkept : ∀ c w, Works.OthersKept c w (f c w))
    (hown : ∀ c u v, u.at c = v.at c → (f c u).at c = (f c v).at c) {cs : List Chan} (hn : cs.Nodup) (w : Works)
    (c : Chan) : (cs.foldl (fun w c => f c w) w).at c = if c ∈ cs then (f c w).at c else w.at c := by
  induction cs generalizing w with
  | nil => rfl
  | cons d ds ih =>
    rw [List.nodup_cons] at hn
    rw [List.foldl_cons, ih hn.2]
    by_cases hcd : c = d
    · subst hcd
      simp [hn.1]
    · have hd : (f d w).at c = w.at c := hkept d w c hcd
      simp [hcd, hd, hown c _ _ hd]

/-- When each channel's turn changes its own context alone, and as that context says, each context ends as its own turn
would leave it. -/
theorem Works.eachChannel_at {f : Chan → Works → Works} (hkept : ∀ c w, Works.OthersKept c w (f c w))
    (hown : ∀ c u v, u.at c = v.at c → (f c u).at c = (f c v).at c) (w : Works) (c : Chan) :
    (w.eachChannel f).at c = (f c w).at c := by
  rw [Works.eachChannel, foldl_channels_at hkept hown (List.nodup_finRange 16), if_pos (List.mem_finRange c)]

/-- What each channel's turn keeps is kept by all of them. -/
theorem Works.eachChannel_keeps {P : Works → Prop} {f : Chan → Works → Works} (h : ∀ c w, P w → P (f c w)) {w : Works}
    (hw : P w) : P (w.eachChannel f) :=
  foldl_keeps (fun v c hv => h c v hv) _ hw

/-! ## The reaction to isolation (R96) -/

theorem Works.OnlyContexts.rfl {w : Works} : w.OnlyContexts w :=
  ⟨by rfl, by rfl, by rfl, by rfl, by rfl, by rfl, by rfl, by rfl⟩

theorem Works.OnlyContexts.trans {u v w : Works} (h : u.OnlyContexts v) (k : v.OnlyContexts w) : u.OnlyContexts w := by
  obtain ⟨a1, a2, a3, a4, a5, a6, a7, a8⟩ := h
  obtain ⟨b1, b2, b3, b4, b5, b6, b7, b8⟩ := k
  exact ⟨b1.trans a1, b2.trans a2, b3.trans a3, b4.trans a4, b5.trans a5, b6.trans a6, b7.trans a7, b8.trans a8⟩

/-- The turn of a channel when the part becomes isolated. -/
def Works.isolateOne (e : Env) (c : Chan) (w : Works) : Works :=
  if (w.at c).state = .bidding then w.endBid e c .lost else w

theorem Works.isolate_eq (w : Works) (e : Env) : w.isolate e = w.eachChannel (Works.isolateOne e) := rfl

theorem Works.isolateOne_at (w : Works) (e : Env) (c : Chan) :
    (w.isolateOne e c).at c =
      if (w.at c).state = .bidding then
        { w.at c with state := .lost, release := 2, prec := (e.entry c).prec, bidCount := 0 }
      else w.at c := by
  unfold Works.isolateOne
  split
  · rename_i h
    rw [Works.endBid_eq, Works.mod_at, h]
    rfl
  · rfl

/-- The contexts after isolation: a bidding channel is LOST, another is as it was (R96). -/
theorem Works.isolate_at (w : Works) (e : Env) (c : Chan) :
    (w.isolate e).at c =
      if (w.at c).state = .bidding then
        { w.at c with state := .lost, release := 2, prec := (e.entry c).prec, bidCount := 0 }
      else w.at c := by
  rw [Works.isolate_eq, Works.eachChannel_at, Works.isolateOne_at]
  · intro d v
    unfold Works.isolateOne
    split
    · exact Works.OthersKept.rfl.endBid e .lost
    · exact Works.OthersKept.rfl
  · intro d u v h
    rw [Works.isolateOne_at, Works.isolateOne_at, h]

/-- Isolation changes contexts alone: no block's state and no notice (R96). -/
theorem Works.isolate_frame (w : Works) (e : Env) :
    w.OnlyContexts (w.isolate e) ∧ (w.isolate e).notices = w.notices := by
  refine Works.eachChannel_keeps (P := fun v => w.OnlyContexts v ∧ v.notices = w.notices) ?_
    ⟨.rfl, rfl⟩
  intro c v hv
  split <;> exact hv

/-! ## The decisions after it (R93, R94, R96) -/

/-- The context of a channel whose loss decision is made again when it is LOST (R93, R94, R114). -/
def Context.redecided (e : Env) (c : Chan) (x : Context) : Context :=
  if x.state = .lost then
    match e.lossOutcome x with
    | .lost _ => x
    | .yielded => { x with state := .yielded }
    | .bidding =>
      { x with
        state := .bidding, release := 0, bidCount := 0, bidNew := e.boundary, prec := (e.entry c).prec }
  else x

theorem Works.redecide_of_ne {w : Works} {c : Chan} (h : (w.at c).state ≠ .lost) (e : Env) : w.redecide e c = w :=
  if_neg h

/-- A LOST channel that decides again moves alone, or enters BIDDING against a table without a HOLD (R94). -/
theorem Works.redecide_cases (w : Works) (e : Env) (c : Chan) :
    (w.redecide e c).at c = (w.at c).redecided e c ∧ w.OnlyContexts (w.redecide e c) ∧
      ((w.redecide e c).notices = w.notices ∨
        ∃ n : Notice, n.kind = .bidStart ∧ (w.redecide e c).notices.ring = (n :: w.notices.ring).take 32) := by
  have only : ∀ st, w.OnlyContexts (w.moveTo c st) := fun st => ⟨rfl, rfl, rfl, rfl, rfl, rfl, rfl, rfl⟩
  by_cases hl : (w.at c).state = .lost
  · rw [Works.redecide, if_pos hl, Context.redecided, if_pos hl]
    rcases w.lossDecide_cases e c with ⟨code, ho, hd⟩ | ⟨ho, hd⟩ | ⟨ho, hd⟩
    · rw [ho, hd]
      refine ⟨?_, only _, .inl rfl⟩
      rw [Works.moveTo_at]
      generalize w.at c = x at hl
      cases x
      cases hl
      rfl
    · rw [ho, hd]
      refine ⟨?_, only _, .inl rfl⟩
      rw [Works.moveTo_at, hl]
      rfl
    · obtain ⟨-, -, -, -, hbids⟩ := Env.lossOutcome_bidding ho
      rw [ho, hd, Works.enterBidding_open hbids]
      refine ⟨?_, ⟨rfl, rfl, rfl, rfl, rfl, rfl, rfl, rfl⟩, .inr ⟨_, rfl, Works.notice_ring _ _ _ _ _⟩⟩
      rw [Works.notice_at, Works.mod_at, hl]
      rfl
  · rw [Works.redecide_of_ne hl, Context.redecided, if_neg hl]
    exact ⟨rfl, .rfl, .inl rfl⟩

/-- The contexts after the part rejoins (R96). -/
theorem Works.rejoin_at (w : Works) (e : Env) (c : Chan) : (w.rejoin e).at c = (w.at c).redecided e c := by
  rw [Works.rejoin, Works.eachChannel_at (fun d v => Works.OthersKept.rfl.redecide e), (w.redecide_cases e c).1]
  intro d u v h
  rw [(u.redecide_cases e d).1, (v.redecide_cases e d).1, h]

/-- A ring of 32 that one notice enters. -/
theorem take_cons_take {α : Type} (a : α) (l : List α) (n : Nat) : (a :: l.take n).take n = (a :: l).take n := by
  cases n with
  | zero => rfl
  | succ n => simp [List.take_take]

/-- Nothing but contexts and notices changed, and the ring is an older one with BID_STARTs made since. -/
def Works.OnlyBidStarts (base : List Notice) (w v : Works) : Prop :=
  w.OnlyContexts v ∧ ∃ starts : List Notice, (∀ n ∈ starts, n.kind = .bidStart) ∧
    v.notices.ring = (starts ++ base).take 32

theorem Works.OnlyBidStarts.redecide {base : List Notice} {w v : Works} (h : w.OnlyBidStarts base v) (e : Env)
    (c : Chan) : w.OnlyBidStarts base (v.redecide e c) := by
  obtain ⟨hv, starts, hs, hring⟩ := h
  obtain ⟨-, honly, hnot⟩ := v.redecide_cases e c
  refine ⟨hv.trans honly, ?_⟩
  rcases hnot with hnot | ⟨n, hn, hnot⟩
  · exact ⟨starts, hs, by rw [hnot, hring]⟩
  · refine ⟨n :: starts, List.forall_mem_cons.mpr ⟨hn, hs⟩, ?_⟩
    rw [hnot, hring, take_cons_take, List.cons_append]

/-- The part's return changes contexts alone, and its notices are BID_STARTs (R96). -/
theorem Works.rejoin_onlyBidStarts {w : Works} {base : List Notice} (hw : w.notices.ring = base.take 32) (e : Env) :
    w.OnlyBidStarts base (w.rejoin e) :=
  Works.eachChannel_keeps (fun c _ hv => hv.redecide e c) ⟨.rfl, [], by simp, hw⟩

/-- With no channel LOST the return changes nothing more. -/
theorem Works.rejoin_of_ne {w : Works} (h : ∀ c, (w.at c).state ≠ .lost) (e : Env) : w.rejoin e = w :=
  Works.eachChannel_keeps (P := fun v => v = w) (fun c v hv => by rw [hv, Works.redecide_of_ne (h c)]) rfl

/-! ## The loss decision again (R93) -/

section
variable {e : Env} {x : Context} {c : Chan}

/-- A bid condition that fails gives LOST (R93). -/
theorem Env.lossOutcome_lost (h : x.armed = false ∨ x.mirror.live = [] ∨ x.mirror.status = .mismatch) :
    ∃ code, e.lossOutcome x = .lost code := by
  unfold Env.lossOutcome
  split
  · exact ⟨_, rfl⟩
  · split
    · exact ⟨_, rfl⟩
    · split
      · exact ⟨_, rfl⟩
      · split
        · exact ⟨_, rfl⟩
        · simp_all

/-- With every bid condition met, the table decides (R93). -/
theorem Env.lossOutcome_open (ha : x.armed = true) (hi : e.isolated = false) (hl : x.mirror.live ≠ [])
    (hs : x.mirror.status ≠ .mismatch) :
    e.lossOutcome x = if x.table.any (fun r => r.kind = .hold) then .yielded else .bidding := by
  simp [Env.lossOutcome, ha, hi, hl, hs]

/-- A channel that is not LOST, or whose bid conditions fail, stays as it is (R93, R94). -/
theorem Context.redecided_stays
    (h : x.state ≠ .lost ∨ x.armed = false ∨ x.mirror.live = [] ∨ x.mirror.status = .mismatch) :
    x.redecided e c = x := by
  rcases h with h | h
  · exact if_neg h
  · obtain ⟨code, ho⟩ := Env.lossOutcome_lost (e := e) h
    simp only [Context.redecided, ho, ite_self]

/-- A rival HOLD yields a LOST channel that may bid (R93). -/
theorem Context.redecided_yields (hl : x.state = .lost) (ho : e.lossOutcome x = .yielded) :
    x.redecided e c = { x with state := .yielded } := by
  simp only [Context.redecided, if_pos hl, ho]

/-- A LOST channel that may bid, against no HOLD, enters BIDDING (R93, R114). -/
theorem Context.redecided_bids (hl : x.state = .lost) (ho : e.lossOutcome x = .bidding) :
    x.redecided e c =
      { x with state := .bidding, release := 0, bidCount := 0, bidNew := e.boundary, prec := (e.entry c).prec } := by
  simp only [Context.redecided, if_pos hl, ho]

end

/-! ## The judgements (R19, R20) -/

/-- A lane whose judged state is new takes it, with a notice (R19). -/
theorem State.judgeLane_of_ne {s : State} {l : Lane} {new : LaneState}
    (hn : (s.lane l).judged s.cfg.laneQuietFrames = new) (h : new ≠ (s.lane l).state) :
    s.judgeLane l =
      (s.modLane l fun x => { x with state := new }).onWorks fun w =>
        w.notice s.boundaryEnv .laneState none (paramBytes (laneCode l) (s.lane l).state.code new.code 0) := by
  subst hn
  exact if_neg h

/-- What a lane's new state does to the part. -/
theorem State.judgeLane_outcome {s : State} {l : Lane} {new : LaneState}
    (hn : (s.lane l).judged s.cfg.laneQuietFrames = new) (h : new ≠ (s.lane l).state) :
    s.judgeLane l = { (s.modLane l fun x => { x with state := new }) with works := (s.judgeLane l).works } ∧
      (s.judgeLane l).works.OnlyNotices s.works ∧
      s.works.OneNotice (s.judgeLane l).works .laneState none
        (paramBytes (laneCode l) (s.lane l).state.code new.code 0) s.clk.count := by
  rw [State.judgeLane_of_ne hn h]
  refine ⟨rfl, ?_, ?_⟩
  · rw [State.onWorks_works, State.modLane_works]
    rfl
  · rw [State.onWorks_works, State.modLane_works]
    exact ⟨Works.notice_ring _ _ _ _ _, Works.notice_count _ _ _ _ _⟩

theorem State.isolationCause_eq {s : State} {silence echoes : Prop} (hs : s.silence = true ↔ silence)
    (he : s.echoFaults = true ↔ echoes) :
    (silence → ¬echoes → s.isolationCause = 1) ∧ (echoes → ¬silence → s.isolationCause = 2) ∧
      (silence → echoes → s.isolationCause = 3) := by
  refine ⟨fun h1 h2 => ?_, fun h1 h2 => ?_, fun h1 h2 => ?_⟩ <;>
    simp [State.isolationCause, hs, he, h1, h2]

theorem State.silence_iff (s : State) :
    s.silence = true ↔
      s.cfg.isolationFrames ≤ s.laneA.quietCount.toNat ∧ s.cfg.isolationFrames ≤ s.laneB.quietCount.toNat := by
  simp [State.silence]

theorem State.echoFaults_iff (s : State) :
    s.echoFaults = true ↔ s.laneA.state = .echoFault ∧ s.laneB.state = .echoFault := by
  simp [State.echoFaults]

/-- A part that becomes isolated (R20, R96): the flag, the reaction of the channels and the notice. -/
theorem State.isolation_sets {s : State} (hi : s.isolated = false) (h : (s.silence || s.echoFaults) = true) :
    ∃ w : Works, runWork .isolation s = ({ s with isolated := true, works := w } : State).advanceQuiet ∧
      s.works.OnlyContexts w ∧
      s.works.OneNotice w .isolated none (BitVec.ofNat 32 s.isolationCause) s.clk.count ∧
      ∀ c, w.at c =
        if (s.works.at c).state = .bidding then
          { s.works.at c with state := .lost, release := 2, prec := s.cfg.map[c].prec, bidCount := 0 }
        else s.works.at c := by
  have hrun : runWork .isolation s = s.becomeIsolated.advanceQuiet := by
    simp only [runWork, State.judgeIsolation, h, if_true, hi, Bool.false_eq_true, if_false]
  generalize he : ({ s with isolated := true } : State).boundaryEnv = e
  have hnow : e.now = s.clk.count := by rw [← he]; rfl
  have hcfg : e.cfg = s.cfg := by rw [← he]; rfl
  obtain ⟨honly, hnot⟩ := (s.works.notice e .isolated none (BitVec.ofNat 32 s.isolationCause)).isolate_frame e
  refine ⟨(s.works.notice e .isolated none (BitVec.ofNat 32 s.isolationCause)).isolate e, ?_, honly, ?_, fun c => ?_⟩
  · rw [hrun, ← he]
    rfl
  · rw [Works.OneNotice, hnot, ← hnow]
    exact ⟨rfl, rfl⟩
  · rw [Works.isolate_at, Works.notice_at, Env.entry, hcfg]

/-- With the isolation as judged, only the quiet counts advance (R18, R20). -/
theorem State.isolation_stands {s : State} (h : s.isolated = (s.silence || s.echoFaults)) :
    runWork .isolation s = s.advanceQuiet := by
  cases hj : (s.silence || s.echoFaults) <;> simp [runWork, State.judgeIsolation, hj, h]

/-- A part that rejoins (R20, R96): the flag, REJOINED, and the decisions of the channels. -/
theorem State.isolation_clears {s : State} (hi : s.isolated = true) (h : (s.silence || s.echoFaults) = false) :
    ∃ (w : Works) (starts : List Notice),
      runWork .isolation s = ({ s with isolated := false, works := w } : State).advanceQuiet ∧
      s.works.OnlyContexts w ∧ (∀ n ∈ starts, n.kind = .bidStart) ∧
      w.notices.ring =
        (starts ++ { kind := .rejoined, chan := none, param := 0, frame := s.clk.count } ::
          s.works.notices.ring).take 32 ∧
      ((∀ c, (s.works.at c).state ≠ .lost) → starts = []) ∧
      ∀ c, w.at c = (s.works.at c).redecided ({ s with isolated := false } : State).boundaryEnv c := by
  have hrun : runWork .isolation s = s.becomeRejoined.advanceQuiet := by
    simp only [runWork, State.judgeIsolation, h, Bool.false_eq_true, if_false, hi, if_true]
  generalize he : ({ s with isolated := false } : State).boundaryEnv = e
  have hnow : e.now = s.clk.count := by rw [← he]; rfl
  have hring : (s.works.notice e .rejoined none 0).notices.ring =
      ({ kind := .rejoined, chan := none, param := 0, frame := s.clk.count } :: s.works.notices.ring).take 32 := by
    rw [Works.notice_ring, hnow]
  obtain ⟨honly, starts, hstarts, hring'⟩ := Works.rejoin_onlyBidStarts hring e
  have hat : ∀ c, ((s.works.notice e .rejoined none 0).rejoin e).at c = (s.works.at c).redecided e c := fun c => by
    rw [Works.rejoin_at, Works.notice_at]
  have hstate : runWork .isolation s =
      ({ s with isolated := false, works := (s.works.notice e .rejoined none 0).rejoin e } : State).advanceQuiet := by
    rw [hrun, ← he]
    rfl
  by_cases hlost : ∀ c, (s.works.at c).state ≠ .lost
  · refine ⟨_, [], hstate, honly, by simp, ?_, fun _ => rfl, hat⟩
    rw [Works.rejoin_of_ne (w := s.works.notice e .rejoined none 0) hlost, hring, List.nil_append]
  · exact ⟨_, starts, hstate, honly, hstarts, hring', fun h => absurd h hlost, hat⟩

/-- The outcome of the loss decision of a part that is not isolated reads the table (R93). -/
theorem Env.lossOutcome_table {e : Env} {x : Context} (ha : x.armed = true) (hi : e.isolated = false)
    (hl : x.mirror.live ≠ []) (hs : x.mirror.status ≠ .mismatch) :
    ((∃ r ∈ x.table, r.kind = .hold) → e.lossOutcome x = .yielded) ∧
      ((∀ r ∈ x.table, r.kind = .bid) → e.lossOutcome x = .bidding) := by
  rw [Env.lossOutcome_open ha hi hl hs]
  refine ⟨fun h => if_pos (by simpa using h), fun h => if_neg ?_⟩
  simp only [List.any_eq_true, decide_eq_true_eq, not_exists, not_and]
  intro r hr hk
  rw [h r hr] at hk
  cases hk

/-- Settles O18: the lane judgement by its three outcomes, the isolation judgement by its four. -/
theorem lanesAndIsolationAreJudged : Obligations.LanesAndIsolationAreJudged := by
  intro s silence echoes hsil hecho
  have hs : s.silence = true ↔ silence := s.silence_iff.trans hsil.symm
  have he : s.echoFaults = true ↔ echoes := s.echoFaults_iff.trans hecho.symm
  have hor : (s.silence || s.echoFaults) = true ↔ silence ∨ echoes := by rw [Bool.or_eq_true, hs, he]
  have hnor : (s.silence || s.echoFaults) = false ↔ ¬silence ∧ ¬echoes := by
    rw [Bool.eq_false_iff, Ne, hor, not_or]
  refine ⟨fun l ho hecho3 hquiet hstate => ?_, fun l new hnew => ⟨fun hsame => ?_, fun hchange => ?_⟩,
    fun ho hi hcause => ?_, fun hstands => ?_, fun hi hns hne => ?_⟩
  · have hj : (s.lane l).judged s.cfg.laneQuietFrames = .quiet := by
      rw [LaneIf.judged, if_neg (Nat.not_le.mpr hecho3), if_pos hquiet]
    obtain ⟨hout, hworks, hnotice⟩ := State.judgeLane_outcome hj (Ne.symm hstate)
    have hslice := ho.slice (cond := fun s =>
      decide ((s.lane l).judged s.cfg.laneQuietFrames = .quiet) && decide ((s.lane l).state ≠ .quiet))
      (by simp [hj, hstate])
    refine ⟨_, congrArg Host.Outcome.next hslice, ?_, hworks, ?_⟩
    · show ({ s.judgeLane l with due := s.due.erase (.laneJudge l) } : State) = _
      rw [hout]
      rfl
    · cases l <;> exact hnotice
  · exact if_pos (hnew.symm.trans hsame)
  · obtain ⟨hout, hworks, hnotice⟩ := State.judgeLane_outcome hnew.symm hchange
    refine ⟨_, rfl, hout, hworks, ?_⟩
    cases l <;> exact hnotice
  · have hj := hor.mpr hcause
    obtain ⟨w, hrun, honly, hnotice, hat⟩ := State.isolation_sets hi hj
    have hslice := ho.slice (cond := fun s => (s.silence || s.echoFaults) && !s.isolated) (by simp [hj, hi])
    obtain ⟨h1, h2, h3⟩ := State.isolationCause_eq hs he
    rw [hrun] at hslice
    refine ⟨_, s.isolationCause, congrArg Host.Outcome.next hslice, rfl, honly, h1, h2, h3, hnotice, fun c hc => ?_,
      fun c hc => ?_⟩
    · exact (hat c).trans (if_neg hc)
    · exact (hat c).trans (if_pos hc)
  · refine State.isolation_stands ?_
    rcases hstands with ⟨hi, hcause⟩ | ⟨hi, hno⟩
    · rw [hi, hor.mpr hcause]
    · rw [hi, hnor.mpr hno]
  · obtain ⟨w, starts, hrun, honly, hstarts, hring, hnone, hat⟩ := State.isolation_clears hi (hnor.mpr ⟨hns, hne⟩)
    refine ⟨_, starts, hrun, rfl, honly, hstarts, hring, hnone, fun c x hx => ⟨fun hstay => ?_,
      fun hl ha hlive hstatus => ?_⟩⟩
    · subst hx
      exact (hat c).trans (Context.redecided_stays hstay)
    · subst hx
      obtain ⟨hy, hb⟩ := Env.lossOutcome_table (e := ({ s with isolated := false } : State).boundaryEnv) ha rfl hlive
        hstatus
      exact ⟨fun h => (hat c).trans (Context.redecided_yields hl (hy h)),
        fun h => (hat c).trans (Context.redecided_bids hl (hb h))⟩

end Sys2Proof.Machine
end

