-- ==== Sys2Proof/Proofs/Stocks.lean ====
section
/-! SUPPORT. R22, R31, R139, R160, R179, R180: the account, the transmit queues, the notice and as-run rings, the cue
tag and the next half stay within their bounds through every operation, and so through every step. -/

namespace Sys2Proof.Machine

/-! ## The transmitter (R22 to R31) -/

/-- The account at or below clip (R31), and the three queues within their capacities, the message in flight counted
(R22). -/
def Transmitter.Stocked (clip : Nat) (t : Transmitter) : Prop :=
  t.account ≤ clip ∧ t.urgent.length + t.flying .urgent ≤ 16 ∧ t.routine.length + t.flying .routine ≤ 4 ∧
    t.bulk.length + t.flying .bulk ≤ 2

theorem Transmitter.flying_le_one (t : Transmitter) (cls : TxClass) : t.flying cls ≤ 1 := by
  unfold Transmitter.flying
  split
  · split <;> decide
  · decide

theorem Transmitter.flying_flight {t : Transmitter} {f : TxFlight} (h : t.flight = some f) (cls : TxClass) :
    t.flying cls = if f.cls = cls then 1 else 0 := by
  simp only [Transmitter.flying, h]

theorem TxFlight.setCopy_cls (f : TxFlight) (l : Lane) (c : Copy) : (f.setCopy l c).cls = f.cls := by cases l <;> rfl

section
variable {clip : Nat} {t : Transmitter}

theorem Transmitter.Stocked.withUrgent (h : t.Stocked clip) {ms : List OutMsg}
    (hms : ms.length + t.flying .urgent ≤ 16) (n : Half) :
    ({ t with urgent := ms, urgentDropped := n } : Transmitter).Stocked clip := by
  obtain ⟨hacc, -, hrest⟩ := h
  exact ⟨hacc, hms, hrest⟩

theorem Transmitter.Stocked.withRoutine (h : t.Stocked clip) {ms : List OutMsg}
    (hms : ms.length + t.flying .routine ≤ 4) (n : Half) :
    ({ t with routine := ms, routineDiscarded := n } : Transmitter).Stocked clip := by
  obtain ⟨hacc, hurgent, -, hbulk⟩ := h
  exact ⟨hacc, hurgent, hms, hbulk⟩

theorem Transmitter.Stocked.withBulk (h : t.Stocked clip) {ms : List OutMsg} (hms : ms.length + t.flying .bulk ≤ 2) :
    ({ t with bulk := ms } : Transmitter).Stocked clip := by
  obtain ⟨hacc, hurgent, hroutine, -⟩ := h
  exact ⟨hacc, hurgent, hroutine, hms⟩

theorem Transmitter.Stocked.pick (h : t.Stocked clip) (cfg : Config) : (t.pick cfg).Stocked clip := by
  obtain ⟨hacc, hurgent, hroutine, hbulk⟩ := h
  obtain ⟨ha, hq⟩ := t.pick_keeps cfg
  exact ⟨ha ▸ hacc, (hq .urgent).trans_le hurgent, (hq .routine).trans_le hroutine, (hq .bulk).trans_le hbulk⟩

/-- The claim set takes at most the places that the other URGENT messages leave (R23). -/
theorem Transmitter.Stocked.withClaims (h : t.Stocked clip) (msgs : List OutMsg) :
    (t.withClaims msgs).Stocked clip := by
  obtain ⟨-, hurgent, -⟩ := id h
  have hothers : (t.urgent.filter fun m => !m.isClaim).length ≤ t.urgent.length := List.length_filter_le _ _
  refine h.withUrgent ?_ _
  simp only [List.length_append, List.length_take, List.length_drop]
  omega

theorem replaceCue_length (server port : Nat) (new : OutMsg) (ms : List OutMsg) :
    (replaceCue server port new ms).length = ms.length := by
  induction ms with
  | nil => rfl
  | cons m ms ih =>
    unfold replaceCue
    split
    · rfl
    · rw [List.length_cons, List.length_cons, ih]

/-- The flight of a message changes in its copies alone (R29). -/
theorem Transmitter.Stocked.setCopy {f : TxFlight} (h : t.Stocked clip) (hf : t.flight = some f) (l : Lane) (c : Copy) :
    ({ t with flight := some (f.setCopy l c) } : Transmitter).Stocked clip := by
  have hflying : ∀ cls, ({ t with flight := some (f.setCopy l c) } : Transmitter).flying cls = t.flying cls := by
    intro cls
    rw [Transmitter.flying_flight hf, Transmitter.flying_flight (t := { t with flight := some (f.setCopy l c) }) rfl,
      TxFlight.setCopy_cls]
  obtain ⟨hacc, hurgent, hroutine, hbulk⟩ := h
  exact ⟨hacc, by rwa [hflying], by rwa [hflying], by rwa [hflying]⟩

/-- A completed message leaves its queue, and its charge is held at clip (R30, R31). -/
theorem Transmitter.Stocked.copyDone {cfg : Config} {f : TxFlight} (h : t.Stocked cfg.clip) (hf : t.flight = some f)
    (l : Lane) (c : Copy) : (t.copyDone cfg f l c).Stocked cfg.clip := by
  have hdone : ∀ u : Transmitter, u.Stocked cfg.clip → ({ u with flight := none } : Transmitter).Stocked cfg.clip := by
    rintro u ⟨hacc, hurgent, hroutine, hbulk⟩
    refine ⟨hacc, ?_, ?_, ?_⟩ <;> simp only [Transmitter.flying] <;> omega
  have hcharge : (t.charge cfg (f.setCopy l c)).Stocked cfg.clip := by
    unfold Transmitter.charge
    split
    · obtain ⟨-, hqueues⟩ := h
      exact ⟨Nat.min_le_left _ _, hqueues⟩
    · exact h
  unfold Transmitter.copyDone
  dsimp only
  split
  · exact (hdone _ hcharge).pick cfg
  · exact h.setCopy hf l c

theorem Transmitter.Stocked.decay (h : t.Stocked clip) (cfg : Config) : (t.decay cfg).Stocked clip := by
  obtain ⟨hacc, hqueues⟩ := h
  exact Transmitter.Stocked.pick (t := { t with account := t.account - cfg.decrement })
    ⟨(Nat.sub_le _ _).trans hacc, hqueues⟩ cfg

theorem Transmitter.Stocked.busyBoundary {cfg : Config} (h : t.Stocked cfg.clip) (l : Lane) :
    (t.busyBoundary cfg l).Stocked cfg.clip := by
  have hskip : (t.skipCopy l).Stocked cfg.clip ∧ (t.skipCopy l).flight = t.flight := by
    cases l <;> exact ⟨h, rfl⟩
  unfold Transmitter.busyBoundary
  split
  · exact h
  · rename_i f hf
    split
    · split
      · exact hskip.1.copyDone (hskip.2.trans hf) l .abandoned
      · exact h.setCopy hf l _
    · exact h

end

/-! ## The blocks behind the dispatcher -/

/-- The cue tag skips 0 (R139). -/
theorem nextTag_ne_zero (t : Half) : nextTag t ≠ 0 := by
  unfold nextTag
  split
  · decide
  · bv_omega

/-- The as-run ring within its capacity, and its write position in it (R160). -/
def AsRunStore.Stocked (s : AsRunStore) : Prop := s.ring.length ≤ 512 ∧ s.writePos < 512

theorem AsRunStore.Stocked.append {s : AsRunStore} (h : s.Stocked) (r : AsRunRec) : (s.append r).Stocked := by
  obtain ⟨hring, -⟩ := h
  refine ⟨?_, Nat.mod_lt _ (by decide)⟩
  unfold AsRunStore.append
  dsimp only
  split
  · simp; omega
  · rename_i hfull
    simp at hfull ⊢
    omega

/-- What `State.Stocked` asks of the blocks behind the dispatcher. -/
def Works.Stocked (clip : Nat) (w : Works) : Prop :=
  w.tx.Stocked clip ∧ w.notices.ring.length ≤ 32 ∧ w.store.Stocked ∧ w.tag ≠ 0 ∧ w.nextHalf ≤ 1

theorem State.stocked_iff (s : State) : s.Stocked ↔ s.works.Stocked s.cfg.clip := by
  simp only [State.Stocked, Works.Stocked, Transmitter.Stocked, AsRunStore.Stocked, and_assoc]

section
variable {clip : Nat} {w : Works} {e : Env} {c : Chan}

theorem Works.Stocked.withTx (h : w.Stocked clip) {t : Transmitter} (ht : t.Stocked clip) :
    ({ w with tx := t } : Works).Stocked clip := by
  obtain ⟨-, hrest⟩ := h
  exact ⟨ht, hrest⟩

theorem Works.Stocked.picked (h : w.Stocked clip) {t : Transmitter} (ht : t.Stocked clip) (cfg : Config) :
    ({ w with tx := t.pick cfg } : Works).Stocked clip := h.withTx (ht.pick cfg)

theorem Works.Stocked.notice (h : w.Stocked clip) (k : NoticeKind) (d : Option Chan) (n : BitVec 32) :
    (w.notice e k d n).Stocked clip := by
  obtain ⟨htx, -, hrest⟩ := h
  exact ⟨htx, by simp, hrest⟩

theorem Works.Stocked.mod (h : w.Stocked clip) (f : Context → Context) : (w.mod c f).Stocked clip := h

theorem Works.Stocked.record (h : w.Stocked clip) (i : Fin 4) (n : Byte) : (w.record i n).Stocked clip := h

theorem Works.Stocked.modMirror (h : w.Stocked clip) (f : Mirror → Mirror) : (w.modMirror c f).Stocked clip := h

theorem Works.Stocked.moveTo (h : w.Stocked clip) (st : ChState) : (w.moveTo c st).Stocked clip := h

theorem Works.Stocked.turnTag (h : w.Stocked clip) : ({ w with tag := nextTag w.tag } : Works).Stocked clip := by
  obtain ⟨htx, hring, hstore, -, hhalf⟩ := h
  exact ⟨htx, hring, hstore, nextTag_ne_zero w.tag, hhalf⟩

theorem Works.Stocked.foldl {α : Type} (h : w.Stocked clip) {f : Works → α → Works}
    (hf : ∀ v a, Works.Stocked clip v → (f v a).Stocked clip) (l : List α) : (l.foldl f w).Stocked clip :=
  foldl_keeps hf l h

theorem Works.Stocked.eachChannel (h : w.Stocked clip) {f : Chan → Works → Works}
    (hf : ∀ c v, Works.Stocked clip v → (f c v).Stocked clip) : (w.eachChannel f).Stocked clip :=
  Works.eachChannel_keeps hf h

/-! ## Bids and loss decisions -/

theorem Works.Stocked.endBid (h : w.Stocked clip) (st : ChState) : (w.endBid e c st).Stocked clip := h

theorem Works.Stocked.yieldBid (h : w.Stocked clip) (n : Nat) (k : ClaimKind) : (w.yieldBid e c n k).Stocked clip :=
  (h.endBid .yielded).notice _ _ _

theorem Works.Stocked.enterBidding (h : w.Stocked clip) (forced : Bool) : (w.enterBidding e c forced).Stocked clip := by
  have hbid := ((h.moveTo (c := c) .bidding).mod (c := c) fun x =>
    { x with bidCount := 0, prec := if forced then 0 else (e.entry c).prec, bidNew := e.boundary }).notice (e := e)
    .bidStart (some c) (BitVec.ofNat 32 (if forced then 0 else (e.entry c).prec))
  unfold Works.enterBidding
  dsimp only
  split
  · exact hbid
  · exact hbid.yieldBid _ _

theorem Works.Stocked.lossDecide (h : w.Stocked clip) : (w.lossDecide e c).Stocked clip := by
  unfold Works.lossDecide
  split
  · exact h.moveTo _
  · exact h.moveTo _
  · exact h.enterBidding false

theorem Works.Stocked.redecide (h : w.Stocked clip) : (w.redecide e c).Stocked clip := by
  unfold Works.redecide
  split
  · exact h.lossDecide
  · exact h

/-! ## Join requests (R122, R123) -/

theorem Works.Stocked.refuseRequested (h : w.Stocked clip) (n : Nat) : (w.refuseRequested e c n).Stocked clip := by
  unfold Works.refuseRequested
  split
  · exact (h.mod _).notice _ _ _
  · exact h

theorem Works.Stocked.kick (h : w.Stocked clip) : (w.kick e).Stocked clip := by
  rw [Works.kick_frame]
  exact h

theorem Works.Stocked.placeJoin (h : w.Stocked clip) (kind : JoinKind) (take : Frame) (curEnd : Option Frame)
    (atSwitch : Bool) : (w.placeJoin e c kind take curEnd atSwitch).Stocked clip := by
  refine Works.Stocked.kick ?_
  have hrefused : (if kind.endsRequest then w.refuseRequested e c 3 else w).Stocked clip := by
    split
    · exact h.refuseRequested 3
    · exact h
  exact hrefused

/-! ## Cues and takes (R24, R143, R145) -/

/-- A CUE takes the place of another, joins a queue with room, or is dropped (R24). -/
theorem Works.Stocked.placeCue (h : w.Stocked clip) (q : Cue) : (w.placeCue e q).Stocked clip := by
  obtain ⟨htx, -⟩ := id h
  obtain ⟨-, hurgent, -⟩ := id htx
  unfold Works.placeCue
  dsimp only
  split
  · exact h.picked (htx.withUrgent (by rwa [replaceCue_length]) _) e.cfg
  · split
    · exact h.picked (htx.withUrgent (by simp; omega) _) e.cfg
    · exact (h.withTx (htx.withUrgent hurgent _)).notice _ _ _

theorem Works.Stocked.cancelPending (h : w.Stocked clip) : (w.cancelPending e c).Stocked clip := by
  unfold Works.cancelPending
  split
  · exact h
  · split
    · exact h
    · exact (h.placeCue _).mod _

theorem Works.Stocked.cueCancel (h : w.Stocked clip) : (w.cueCancel e c).Stocked clip := by
  unfold Works.cueCancel
  split
  · exact h
  · split
    · exact h
    · exact h.placeCue _

theorem Works.Stocked.placeTake (h : w.Stocked clip) (k : JoinKind) (f : Frame) (ev : CurEvent) :
    (w.placeTake e c k f ev).Stocked clip := by
  have hcancelled : Works.Stocked clip
      ((w.cancelPending e c).mod c fun x => x.modRec x.active fun p => { p with withdrawn := none }) := h.cancelPending
  unfold Works.placeTake
  dsimp only
  split
  · exact hcancelled
  · exact (hcancelled.turnTag.placeCue _).mod _

theorem Works.Stocked.reconvert (h : w.Stocked clip) (station : Nat) (p : PortSel) :
    (w.reconvert e station c p).Stocked clip := by
  unfold Works.reconvert
  split
  · exact h
  · split
    · exact h
    · dsimp only
      split
      · exact (h.turnTag.placeCue _).mod _
      · exact h

theorem Works.Stocked.clockStep (h : w.Stocked clip) (station : Nat) : (w.clockStep e station).Stocked clip :=
  h.foldl (fun _ _ hv => (hv.reconvert station .primary).reconvert station .alternate) _

theorem Works.Stocked.closingCues (h : w.Stocked clip) (f : Frame) : (w.closingCues e c f).Stocked clip := by
  unfold Works.closingCues
  dsimp only
  split
  · exact h.cancelPending
  · exact h.cancelPending.placeCue _

theorem Works.Stocked.repeatTake (h : w.Stocked clip) : (w.repeatTake e c).Stocked clip := by
  unfold Works.repeatTake
  dsimp only
  split
  · exact h
  · split
    · split
      · exact h.placeCue _
      · exact h
    · exact h

theorem Works.Stocked.stepped (h : w.Stocked clip) (station : Nat) (step : Option Int) :
    (w.stepped e station step).Stocked clip := by
  unfold Works.stepped
  split
  · exact h
  · exact (h.notice _ _ _).clockStep station

theorem Works.Stocked.saturated (h : w.Stocked clip) (station : Nat) (set : Bool) :
    (w.saturated e station set).Stocked clip := by
  unfold Works.saturated
  split
  · exact h.notice _ _ _
  · exact h

/-! ## As-run records (R159 to R161) -/

theorem Works.Stocked.appendRecord (h : w.Stocked clip) (r : AsRunRec) : (w.appendRecord e r).Stocked clip := by
  obtain ⟨htx, hring, hstore, hrest⟩ := h
  have happended : ({ w with store := w.store.append r } : Works).Stocked clip := ⟨htx, hring, hstore.append r, hrest⟩
  unfold Works.appendRecord
  dsimp only
  split
  · exact happended.notice _ _ _
  · split
    · exact happended.notice _ _ _
    · exact happended

theorem Works.Stocked.closeRecord (h : w.Stocked clip) (f : Frame) (st : AsRunStatus) :
    (w.closeRecord e c f st).Stocked clip := by
  unfold Works.closeRecord
  split
  · exact h
  · exact (h.mod _).appendRecord _

/-! ## The schedule mirror (04) -/

theorem Works.Stocked.judgeOnly (h : w.Stocked clip) : (w.judgeOnly e c).Stocked clip := by
  unfold Works.judgeOnly
  dsimp only
  split
  · exact (h.modMirror _).notice _ _ _
  · exact h.modMirror _

theorem Works.Stocked.judgeStatus (h : w.Stocked clip) : (w.judgeStatus e c).Stocked clip := by
  unfold Works.judgeStatus
  split
  · exact h
  · exact h.judgeOnly.redecide

theorem Works.Stocked.commitList (h : w.Stocked clip) (rev : Half) (events : List EventRec) :
    (w.commitList e c rev events).Stocked clip :=
  Works.Stocked.redecide (Works.Stocked.judgeOnly (Works.Stocked.notice (h.mod _) _ _ _))

theorem Works.Stocked.commitDeferred (h : w.Stocked clip) : (w.commitDeferred e c).Stocked clip := by
  unfold Works.commitDeferred
  split
  · exact (h.commitList _ _).mod _
  · exact h

theorem Works.Stocked.followAfterCommit (h : w.Stocked clip) : (w.followAfterCommit e c).Stocked clip := by
  have hplaced : ∀ f, (if !(w.at c).successorPending || (w.at c).settled then w
      else if (w.queuedJoin c).isSome then w.mod c fun y => { y with followOwed := true }
      else (w.commitDeferred e c).placeJoin e c .follow f (some f) false).Stocked clip := fun f => by
    split
    · exact h
    · split
      · exact h.mod _
      · exact h.commitDeferred.placeJoin _ _ _ _
  unfold Works.followAfterCommit
  dsimp only
  split
  · exact hplaced _
  · exact hplaced _
  · exact h

theorem Works.Stocked.commitByState (h : w.Stocked clip) (rev : Half) (events : List EventRec) :
    (w.commitByState e c rev events).Stocked clip := by
  have hlist := h.commitList (e := e) (c := c) rev events
  unfold Works.commitByState
  dsimp only
  split
  · exact hlist
  · split
    · exact hlist
    · split
      · exact (hlist.mod _).followAfterCommit
      · split
        · exact (hlist.mod _).followAfterCommit
        · exact (h.modMirror _).notice _ _ _

theorem Works.Stocked.exitCommit (h : w.Stocked clip) : (w.exitCommit e c).Stocked clip := by
  unfold Works.exitCommit
  split
  · split
    · exact h
    · exact h.commitList _ _
  · exact h

theorem Works.Stocked.clearMirror (h : w.Stocked clip) : (w.clearMirror c).Stocked clip := by
  unfold Works.clearMirror
  split
  · exact h.modMirror _
  · exact (h.modMirror _).mod _

theorem Works.Stocked.afterJoin (h : w.Stocked clip) : (w.afterJoin e c).Stocked clip := by
  unfold Works.afterJoin
  dsimp only
  split
  · exact h.clearMirror
  · split
    · exact h.commitByState _ _
    · split
      · exact h.commitList _ _
      · split
        · exact h.commitDeferred
        · exact h
    · exact h

theorem Works.Stocked.dropOther (h : w.Stocked clip) {f : Mirror → Mirror} {after : Works → Works}
    (hafter : ∀ v, Works.Stocked clip v → (after v).Stocked clip) : (w.dropOther e c f after).Stocked clip := by
  have hdropped := hafter _ (h.modMirror (c := c) fun m => f { m with other := .absent })
  unfold Works.dropOther
  dsimp only
  split
  · exact hdropped.judgeStatus
  · exact hdropped

theorem Works.Stocked.reject (h : w.Stocked clip) (rev : Half) (reason : Nat) :
    (w.reject e c rev reason).Stocked clip :=
  h.dropOther fun _ hv => hv.notice _ _ _

theorem Works.Stocked.abandon (h : w.Stocked clip) (rev : Half) : (w.abandon e c rev).Stocked clip :=
  h.dropOther fun _ hv => Works.Stocked.notice (Works.Stocked.mod hv _) _ _ _

theorem Works.Stocked.complete (h : w.Stocked clip) (rev : Half) (events : List EventRec) :
    (w.complete e c rev events).Stocked clip := by
  unfold Works.complete
  split
  · exact h.reject _ _
  · dsimp only
    split
    · exact h.modMirror _
    · exact (h.modMirror _).commitByState _ _

theorem Works.Stocked.addSegment (h : w.Stocked clip) (m : SegmentMsg) : (w.addSegment e c m).Stocked clip := by
  unfold Works.addSegment
  split
  · split
    · exact h.reject _ _
    · split
      · exact h.abandon _
      · dsimp only
        split
        · exact (h.modMirror _).complete _ _
        · exact h.modMirror _
  · exact h

theorem Works.Stocked.startBuilding (h : w.Stocked clip) (m : SegmentMsg) : (w.startBuilding e c m).Stocked clip := by
  unfold Works.startBuilding
  dsimp only
  split
  · exact (h.modMirror _).judgeStatus.addSegment m
  · exact (h.modMirror _).addSegment m

theorem Works.Stocked.startIfWanted (h : w.Stocked clip) (m : SegmentMsg) : (w.startIfWanted e c m).Stocked clip := by
  unfold Works.startIfWanted
  dsimp only
  split
  · exact h.startBuilding m
  · split
    · exact h.startBuilding m
    · split
      · exact h.startBuilding m
      · exact h

theorem Works.Stocked.supersede (h : w.Stocked clip) (m : SegmentMsg) : (w.supersede e c m).Stocked clip :=
  (h.dropOther fun _ hv => hv).startBuilding m

theorem Works.Stocked.freshSegment (h : w.Stocked clip) (m : SegmentMsg) : (w.freshSegment e c m).Stocked clip := by
  unfold Works.freshSegment
  split
  · exact h.startIfWanted m
  · dsimp only
    split
    · split
      · exact (h.modMirror _).startIfWanted m
      · exact h
    · split
      · exact (h.modMirror _).startBuilding m
      · exact h

theorem Works.Stocked.routeSegment (h : w.Stocked clip) (m : SegmentMsg) : (w.routeSegment e c m).Stocked clip := by
  unfold Works.routeSegment
  split
  · split
    · split
      · exact h
      · split
        · exact h.reject _ _
        · exact h.addSegment m
    · split
      · exact h.supersede m
      · exact h
  · split
    · exact h.supersede m
    · exact h
  · exact h.freshSegment m

theorem Works.Stocked.takeSegment (h : w.Stocked clip) (m : SegmentMsg) : (w.takeSegment e c m).Stocked clip := by
  unfold Works.takeSegment
  split
  · exact h
  · split
    · split
      · exact h
      · exact (h.modMirror _).routeSegment m
    · exact h.routeSegment m

theorem Works.Stocked.takeReference (h : w.Stocked clip) (main : Bool) (rev digest : Half) :
    (w.takeReference e c main rev digest).Stocked clip := by
  unfold Works.takeReference
  split
  · exact (h.modMirror _).judgeStatus
  · exact h

/-! ## On air (08, 09) -/

theorem Works.Stocked.stopNow (h : w.Stocked clip) (st : AsRunStatus) : (w.stopNow e c st).Stocked clip :=
  (h.closingCues _).closeRecord _ _

theorem Works.Stocked.leaveAir (h : w.Stocked clip) (st : ChState) {closing : Works → Works}
    (hclosing : ∀ v, Works.Stocked clip v → (closing v).Stocked clip) : (w.leaveAir e c st closing).Stocked clip :=
  Works.Stocked.exitCommit (Works.Stocked.mod (hclosing _ (((h.refuseRequested 3).moveTo st).mod _)) _)

theorem Works.Stocked.yieldAir (h : w.Stocked clip) (r : Rival) : (w.yieldAir e c r).Stocked clip :=
  (h.notice _ _ _).leaveAir .yielded fun _ hv => Works.Stocked.stopNow hv .yielded

theorem Works.Stocked.placeFollow (h : w.Stocked clip) (f : Frame) : (w.placeFollow e c f).Stocked clip :=
  h.commitDeferred.placeJoin _ _ _ _

theorem Works.Stocked.followJudge (h : w.Stocked clip) : (w.followJudge e c).Stocked clip := by
  unfold Works.followJudge
  split
  · exact h.placeFollow _
  · exact h

theorem Works.Stocked.requestImposed (h : w.Stocked clip) (kind : JoinKind) (atSwitch : Bool) :
    (w.requestImposed e c kind atSwitch).Stocked clip := by
  unfold Works.requestImposed
  split
  · exact h.mod _
  · exact (h.mod _).commitDeferred.placeJoin _ _ _ _

theorem Works.Stocked.placeWaiting (h : w.Stocked clip) : (w.placeWaiting e c).Stocked clip := by
  unfold Works.placeWaiting
  split
  · exact h
  · dsimp only
    split
    · exact (h.mod _).commitDeferred.placeJoin _ _ _ _
    · exact h.mod _

theorem Works.Stocked.abortHandback (h : w.Stocked clip) (reason : Nat) : (w.abortHandback e c reason).Stocked clip :=
  ((h.moveTo .onAir).mod _).notice _ _ _

theorem Works.Stocked.placeBoundary (h : w.Stocked clip) : (w.placeBoundary e c).Stocked clip := h.placeJoin _ _ _ _

theorem Works.Stocked.settleRequest (h : w.Stocked clip) (sender : Nat) (number : Byte) (o : JoinOutcome) :
    (w.settleRequest e c sender number o).Stocked clip := by
  unfold Works.settleRequest
  dsimp only
  split
  · exact h.refuseRequested _
  · split
    · exact h.refuseRequested _
    · split
      · split
        · exact Works.Stocked.notice (((h.moveTo .returning).mod _).notice _ _ _) _ _ _
        · exact h.refuseRequested _
      · exact h.refuseRequested _

theorem Works.Stocked.settlePostponed (h : w.Stocked clip) (count : Nat) (o : JoinOutcome) :
    (w.settlePostponed e c count o).Stocked clip := by
  unfold Works.settlePostponed
  split
  · dsimp only
    split
    · exact (h.mod _).notice _ _ _
    · exact h.abortHandback 2
  · exact h.abortHandback 2

theorem Works.Stocked.boundaryResult (h : w.Stocked clip) (o : JoinOutcome) :
    (w.boundaryResult e c o).Stocked clip := by
  unfold Works.boundaryResult
  split
  · exact h.settleRequest _ _ o
  · exact h.settlePostponed _ o
  · exact h

theorem Works.Stocked.readyCheck (h : w.Stocked clip) : (w.readyCheck e c).Stocked clip := by
  unfold Works.readyCheck
  dsimp only
  split
  · split
    · exact (h.mod _).closingCues _
    · split
      · exact (h.mod _).placeBoundary
      · exact h.abortHandback 1
  · exact h

theorem Works.Stocked.completeHandback (h : w.Stocked clip) (hLocal hPeer : Frame) :
    (w.completeHandback e c hLocal hPeer).Stocked clip :=
  ((h.closeRecord _ _).leaveAir .mirroring fun _ hv => hv).notice _ _ _

theorem Works.Stocked.handbackBoundary (h : w.Stocked clip) : (w.handbackBoundary e c).Stocked clip := by
  unfold Works.handbackBoundary
  dsimp only
  split
  · exact h.readyCheck
  · split
    · split
      · exact h.completeHandback _ _
      · exact h
    · exact h

/-! ## Port faults and take confirmation (R146 to R155) -/

theorem Works.Stocked.portSwitch (h : w.Stocked clip) (k : PortFault) : (w.portSwitch e c k).Stocked clip := by
  have hnoticed := h.notice (e := e) .portSwitch (some c) (BitVec.ofNat 32 k.code)
  have hstopped : ∀ r : Option PortRec, Works.Stocked clip
      (match r with
        | some r => (w.notice e .portSwitch (some c) (BitVec.ofNat 32 k.code)).placeCue e (r.stop e e.ahead)
        | none => w.notice e .portSwitch (some c) (BitVec.ofNat 32 k.code)) := by
    rintro (- | r)
    · exact hnoticed
    · exact hnoticed.placeCue _
  unfold Works.portSwitch
  dsimp only
  split
  · exact (hstopped _).mod _
  · split
    · exact ((hstopped _).mod _).requestImposed _ _
    · exact ((hstopped _).mod _).placeJoin _ _ _ _

theorem Works.Stocked.channelFault (h : w.Stocked clip) (k : PortFault) : (w.channelFault e c k).Stocked clip :=
  (h.notice _ _ _).leaveAir .fault fun _ hv => Works.Stocked.stopNow hv .faulted

theorem Works.Stocked.abortIfReturning (h : w.Stocked clip) (reason : Nat) :
    (w.abortIfReturning e reason c).Stocked clip := by
  unfold Works.abortIfReturning
  split
  · exact h.abortHandback reason
  · exact h

theorem Works.Stocked.portFault (h : w.Stocked clip) (k : PortFault) : (w.portFault e c k).Stocked clip := by
  have haborted := h.abortIfReturning (e := e) (c := c) 5
  unfold Works.portFault
  dsimp only
  split
  · exact haborted.portSwitch k
  · exact haborted.channelFault k

theorem Works.Stocked.cueBoundary (h : w.Stocked clip) : (w.cueBoundary e c).Stocked clip := by
  unfold Works.cueBoundary
  dsimp only
  refine Works.Stocked.repeatTake (Works.Stocked.mod ?_ _)
  split
  · exact (h.mod _).portFault _
  · exact h.mod _

theorem Works.Stocked.turnRecord (h : w.Stocked clip) (r : PortRec) (t : Take) :
    (w.turnRecord e c r t).Stocked clip := by
  unfold Works.turnRecord
  dsimp only
  refine Works.Stocked.mod ?_ _
  split
  · exact h.closeRecord _ _
  · exact h

theorem Works.Stocked.confirm (h : w.Stocked clip) (p : PortSel) (r : PortRec) (t : Take) :
    (w.confirm e c p r t).Stocked clip := by
  unfold Works.confirm
  dsimp only
  refine Works.Stocked.followJudge (Works.Stocked.notice ?_ _ _ _)
  split
  · exact (((h.turnRecord r t).mod _).moveTo .onAir).mod _
  · exact (h.turnRecord r t).mod _

theorem Works.Stocked.confirmPlaying (h : w.Stocked clip) (p : PortSel) (m : PortEntry) :
    (w.confirmPlaying e c p m).Stocked clip := by
  unfold Works.confirmPlaying
  split
  · exact h
  · split
    · split
      · exact h.confirm p _ _
      · exact h
    · exact h

theorem Works.Stocked.overtakeHold (h : w.Stocked clip) (p : PortSel) (m : PortEntry) :
    (w.overtakeHold e c p m).Stocked clip := by
  unfold Works.overtakeHold
  dsimp only
  split
  · exact h
  · split
    · split
      · exact (h.mod _).confirm p _ _
      · exact h
    · exact h

theorem Works.Stocked.faultReported (h : w.Stocked clip) (p : PortSel) (m : PortEntry) :
    (w.faultReported e c p m).Stocked clip := by
  unfold Works.faultReported
  dsimp only
  split
  · exact h
  · split
    · exact h.portFault _
    · exact h

theorem Works.Stocked.portEntry (h : w.Stocked clip) (sender : Nat) (m : PortEntry) (p : PortSel) :
    (w.portEntry e sender m c p).Stocked clip := by
  unfold Works.portEntry
  split
  · exact h
  · split
    · exact (((h.mod _).confirmPlaying p m).overtakeHold p m).faultReported p m
    · exact h

theorem Works.Stocked.takePortStatus (h : w.Stocked clip) (sender : Nat) (es : List PortEntry) :
    (w.takePortStatus e sender es).Stocked clip := by
  unfold Works.takePortStatus
  split
  · exact h.foldl (fun _ m hv => hv.foldl (fun _ _ hu =>
      (hu.portEntry sender m .primary).portEntry sender m .alternate) _) es
  · exact h

/-! ## Delivery of join results (R124) -/

theorem Works.Stocked.noticesDue (h : w.Stocked clip) (due : List (NoticeKind × BitVec 32)) :
    (w.noticesDue e c due).Stocked clip :=
  h.foldl (fun _ _ hv => hv.notice _ _ _) due

theorem Works.Stocked.followResult (h : w.Stocked clip) (f : Frame) (ev : CurEvent) :
    (w.followResult e c f ev).Stocked clip := by
  unfold Works.followResult
  dsimp only
  split
  · exact h
  · split
    · exact h.mod _
    · exact h.placeTake _ _ _

theorem Works.Stocked.actOn (h : w.Stocked clip) (f : JoinFlight) : (w.actOn e f).Stocked clip := by
  have hdue := h.noticesDue (e := e) (c := f.req.chan)
    (f.resultFor (e.entry f.req.chan).filler (w.at f.req.chan).cur).due
  unfold Works.actOn
  dsimp only
  split
  · exact (hdue.mod _).placeTake _ _ _
  · exact hdue.followResult _ _
  · exact (hdue.mod _).placeTake _ _ _
  · exact (hdue.mod _).placeTake _ _ _
  · exact (hdue.mod _).placeTake _ _ _
  · exact hdue.boundaryResult _
  · exact hdue

theorem Works.Stocked.followOwedNow (h : w.Stocked clip) : (w.followOwedNow e c).Stocked clip := by
  unfold Works.followOwedNow
  split
  · exact (h.mod _).followAfterCommit
  · exact h

theorem Works.Stocked.deliver (h : w.Stocked clip) (f : JoinFlight) : (w.deliver e f).Stocked clip := by
  unfold Works.deliver
  dsimp only
  refine Works.Stocked.followJudge (Works.Stocked.followOwedNow ?_)
  split
  · exact h
  · exact h.actOn f

theorem Works.Stocked.joinComplete (h : w.Stocked clip) : (w.joinComplete e).Stocked clip := by
  unfold Works.joinComplete
  split
  · exact h
  · rename_i f _
    have hended : ({ w with join := { w.join with flight := none } } : Works).Stocked clip := h
    exact (hended.deliver f).afterJoin.placeWaiting.kick

/-! ## Channel watch (05) -/

theorem Works.Stocked.returnOrigin (h : w.Stocked clip) : (w.returnOrigin e c).Stocked clip := by
  unfold Works.returnOrigin
  split
  · exact h.moveTo _
  · exact (h.moveTo _).notice _ _ _
  · exact (h.endBid _).notice _ _ _
  · exact (h.moveTo _).notice _ _ _
  · exact h

theorem Works.Stocked.dualAir (h : w.Stocked clip) (t : TallyEntry) (stamp : Tick) :
    (w.dualAir e c t stamp).Stocked clip := by
  unfold Works.dualAir
  dsimp only
  split
  · exact (h.mod _).notice _ _ _
  · exact h

theorem Works.Stocked.mainEntry (h : w.Stocked clip) (t : TallyEntry) (stamp : Tick) :
    (w.mainEntry e c t stamp).Stocked clip := by
  have htaken : (((w.mod c fun x => { x with seen := true, age := 0 }).returnOrigin e c).dualAir e c t stamp).Stocked
      clip := (h.mod _).returnOrigin.dualAir t stamp
  unfold Works.mainEntry
  split
  · exact h
  · dsimp only
    split
    · exact htaken
    · exact (htaken.mod _).takeReference _ _ _

theorem Works.Stocked.standbyEntry (h : w.Stocked clip) (t : TallyEntry) (stamp : Tick) :
    (w.standbyEntry e c t stamp).Stocked clip := by
  unfold Works.standbyEntry
  split
  · exact h
  · split
    · exact h
    · exact (h.mod _).takeReference _ _ _

theorem Works.Stocked.watch (h : w.Stocked clip) : (w.watch e c).Stocked clip := by
  unfold Works.watch
  dsimp only
  refine Works.Stocked.mod ?_ _
  split
  · exact (h.moveTo _).notice _ _ _
  · split
    · exact (h.notice _ _ _).lossDecide
    · exact h

theorem Works.Stocked.isolate (h : w.Stocked clip) : (w.isolate e).Stocked clip := by
  refine h.eachChannel fun c v hv => ?_
  split
  · exact hv.endBid _
  · exact hv

theorem Works.Stocked.rejoin (h : w.Stocked clip) : (w.rejoin e).Stocked clip := h.eachChannel fun _ _ hv => hv.redecide

/-! ## Claims (06) -/

theorem Works.Stocked.holdHeard (h : w.Stocked clip) (r : Rival) : (w.holdHeard e c r).Stocked clip := by
  unfold Works.holdHeard
  split
  case h_1 => exact h.yieldBid _ _
  case h_5 => exact h
  all_goals
    split
    · exact h.yieldAir r
    · exact h

theorem Works.Stocked.writeRival (h : w.Stocked clip) (r : Rival) : (w.writeRival e c r).Stocked clip := by
  unfold Works.writeRival
  split
  · exact h
  · dsimp only
    split
    · exact (h.mod _).holdHeard r
    · exact h.mod _

theorem Works.Stocked.claimEntry (h : w.Stocked clip) (station : Nat) (x : ClaimEntry) :
    (w.claimEntry e c station x).Stocked clip := by
  unfold Works.claimEntry
  split
  · exact h
  · split
    · exact h.writeRival _
    · exact h.writeRival _
    · exact h.writeRival _
    · exact h.mod _

theorem Works.Stocked.winBid (h : w.Stocked clip) : (w.winBid e c).Stocked clip :=
  (((h.notice _ _ _).moveTo _).mod _).placeJoin _ _ _ _

theorem Works.Stocked.decideBid (h : w.Stocked clip) : (w.decideBid e c).Stocked clip := by
  unfold Works.decideBid
  dsimp only
  split
  · exact h.winBid
  · split
    · exact h.winBid
    · exact h.yieldBid _ _

theorem Works.Stocked.bidBoundary (h : w.Stocked clip) : (w.bidBoundary e c).Stocked clip := by
  unfold Works.bidBoundary
  dsimp only
  split
  · exact h.decideBid
  · split
    · exact h.mod _
    · exact h

theorem Works.Stocked.yieldedBoundary (h : w.Stocked clip) : (w.yieldedBoundary e c).Stocked clip := by
  unfold Works.yieldedBoundary
  dsimp only
  split
  · exact h
  · split
    · exact h
    · split
      · exact h.moveTo _
      · exact h.lossDecide

theorem Works.Stocked.placeClaims (h : w.Stocked clip) (msgs : List OutMsg) : (w.placeClaims e msgs).Stocked clip := by
  obtain ⟨htx, -⟩ := id h
  have hnoticed := (h.withTx (htx.withClaims msgs)).foldl
    (f := fun x _ => x.notice e .txDrop none (paramBytes MsgKind.claim.code 0 0 0))
    (fun _ _ hv => hv.notice _ _ _) (List.range (w.tx.claimsDropped msgs))
  obtain ⟨htx', -⟩ := id hnoticed
  exact hnoticed.withTx (htx'.pick e.cfg)

theorem Works.Stocked.claimSet (h : w.Stocked clip) : (w.claimSet e).Stocked clip :=
  Works.Stocked.placeClaims (h.eachChannel fun _ _ hv => Works.Stocked.mod hv _) _

/-! ## Directives (10) -/

theorem Works.Stocked.arm (h : w.Stocked clip) : (w.arm e c).Stocked clip := (h.mod _).redecide

theorem Works.Stocked.disarm (h : w.Stocked clip) : (w.disarm e c).Stocked clip := by
  unfold Works.disarm
  dsimp only
  split
  · exact (h.mod _).endBid _
  · exact h.mod _

theorem Works.Stocked.forceTake (h : w.Stocked clip) : (w.forceTake e c).Stocked clip := by
  unfold Works.forceTake
  split
  case h_5 => exact h.mod _
  case h_6 => exact h
  all_goals exact h.enterBidding true

theorem Works.Stocked.handBack (h : w.Stocked clip) (sender : Nat) (number : Byte) :
    (w.handBack e sender number c).Stocked clip := (h.mod _).placeBoundary

theorem Works.Stocked.hold (h : w.Stocked clip) : (w.hold e c).Stocked clip :=
  Works.Stocked.mod (Works.Stocked.cueCancel ((h.abortIfReturning 3).mod _)) _

theorem Works.Stocked.impose (h : w.Stocked clip) (kind : JoinKind) : (w.impose e kind c).Stocked clip :=
  (h.cancelPending.mod _).requestImposed _ _

theorem Works.Stocked.skip (h : w.Stocked clip) : (w.skip e c).Stocked clip := (h.abortIfReturning 4).impose .skip

theorem Works.Stocked.retry (h : w.Stocked clip) : (w.retry e c).Stocked clip := by
  unfold Works.retry
  split
  · exact h.moveTo _
  · exact (h.moveTo _).lossDecide

theorem Works.Stocked.clearChannel (h : w.Stocked clip) : (w.clearChannel e c).Stocked clip :=
  Works.Stocked.clearMirror ((h.moveTo .mirroring).mod _)

/-- A directive keeps the bounds when its effect does. -/
theorem Works.Stocked.directive (h : w.Stocked clip) (sender : Nat) (d : Directive)
    (sixth : Env → Chan → Works → Option Nat) {effect : Chan → Works → Works}
    (heffect : ∀ c v, Works.Stocked clip v → (effect c v).Stocked clip) (noticed : Bool) :
    (w.directive e sender d sixth effect noticed).Stocked clip := by
  unfold Works.directive
  split
  · exact h
  · exact h.notice _ _ _
  · dsimp only
    split
    · exact (heffect _ _ (h.record _ _)).notice _ _ _
    · exact heffect _ _ (h.record _ _)
  · exact h

theorem Works.Stocked.retime (h : w.Stocked clip) (sender : Nat) (d : Directive) :
    (w.retime e sender d).Stocked clip := by
  unfold Works.retime
  split
  · exact h
  · exact h.notice _ _ _
  · exact (h.record _ _).notice _ _ _
  · exact h

/-! ## REPORT and AS-RUN (09, 10) -/

/-- A REPORT joins a queue with room, or takes the room of the oldest unsent one (R25). -/
theorem Works.Stocked.placeReport (h : w.Stocked clip) (payload : List Byte) :
    (w.placeReport e payload).Stocked clip := by
  obtain ⟨htx, -⟩ := id h
  obtain ⟨-, -, hroutine, -⟩ := id htx
  have hone := w.tx.flying_le_one .routine
  unfold Works.placeReport
  dsimp only
  split
  · exact h.picked (htx.withRoutine (by simp; omega) _) e.cfg
  · exact h.picked (htx.withRoutine (by simp; omega) _) e.cfg

theorem Works.Stocked.placeAsRun (h : w.Stocked clip) (hroom : w.tx.bulkRoom = true) (rs : List AsRunRec) :
    (w.placeAsRun e rs).Stocked clip := by
  obtain ⟨htx, -⟩ := id h
  have hroom' : w.tx.bulk.length + w.tx.flying .bulk < 2 := of_decide_eq_true hroom
  exact h.picked (htx.withBulk (by simp; omega)) e.cfg

theorem Works.Stocked.modStore (h : w.Stocked clip) {f : AsRunStore → AsRunStore} (hf : (f w.store).Stocked) :
    (w.modStore f).Stocked clip := by
  obtain ⟨htx, hring, -, hrest⟩ := h
  exact ⟨htx, hring, hf, hrest⟩

theorem Works.Stocked.asrunBoundary (h : w.Stocked clip) : (w.asrunBoundary e).Stocked clip := by
  obtain ⟨-, -, hstore, -⟩ := id h
  have hcounted : (w.modStore fun s => { s with period := 0 }).Stocked clip := h.modStore hstore
  unfold Works.asrunBoundary Works.dueAsRun
  split
  · dsimp only
    split
    · exact hcounted
    · split
      · rename_i hroom
        exact (hcounted.modStore hstore).placeAsRun hroom _
      · exact hcounted
  · exact h.modStore hstore

end

/-! ## The part -/

section
variable {s : State}

theorem State.onWorks_stocked {f : Works → Works} (hf : (f s.works).Stocked s.cfg.clip) :
    (s.onWorks f).Stocked := (State.stocked_iff _).mpr hf

/-- What the blocks behind the dispatcher keep at every bound is kept when they do something. -/
theorem State.Stocked.worked (h : s.Stocked) {f : Works → Works}
    (hf : ∀ clip w, Works.Stocked clip w → (f w).Stocked clip) : (s.onWorks f).Stocked :=
  State.onWorks_stocked (hf _ _ ((State.stocked_iff s).mp h))

/-- A state with the same blocks and the same clip is stocked alike. -/
theorem State.Stocked.congr {t : State} (h : s.Stocked) (hw : t.works = s.works) (hc : t.cfg = s.cfg) : t.Stocked := by
  rw [State.stocked_iff] at h ⊢
  rwa [hw, hc]

theorem State.Stocked.modLane (h : s.Stocked) (l : Lane) (f : LaneIf → LaneIf) : (s.modLane l f).Stocked :=
  h.congr (s.modLane_works l f) (s.modLane_cfg l f)

theorem State.Stocked.withDue (h : s.Stocked) (due : List Work) : ({ s with due := due } : State).Stocked := h

theorem State.Stocked.withPending (h : s.Stocked) (is : List Instr) : ({ s with pending := is } : State).Stocked := h

theorem State.Stocked.withClk (h : s.Stocked) (t : Timebase) : (s.withClk t).Stocked := h

theorem State.Stocked.dispatch (h : s.Stocked) (f : Dispatcher → Dispatcher) : (s.dispatch f).Stocked := h

/-! ## The pieces of a boundary's work -/

theorem State.Stocked.loadBoundary (h : s.Stocked) : s.loadBoundary.Stocked := by
  unfold State.loadBoundary
  split
  · exact State.Stocked.worked (s := { s with
        clk := s.clk.take, peers := shiftPeers s.clk.shift s.peers, laneA := s.laneA.shift s.clk.shift
        laneB := s.laneB.shift s.clk.shift }) h
      fun _ _ hw => (hw.notice _ _ _).foldl (fun _ _ hv => hv.notice _ _ _) _
  · split <;> exact h

theorem State.Stocked.judgeLane (h : s.Stocked) (l : Lane) : (s.judgeLane l).Stocked := by
  unfold State.judgeLane
  dsimp only
  split
  · exact h
  · exact (h.modLane l _).worked fun _ _ hw => hw.notice _ _ _

theorem State.Stocked.becomeIsolated (h : s.Stocked) : s.becomeIsolated.Stocked := by
  have hset : ({ s with isolated := true } : State).Stocked := h
  unfold State.becomeIsolated
  exact hset.worked fun _ _ hw => (hw.notice _ _ _).isolate

theorem State.Stocked.becomeRejoined (h : s.Stocked) : s.becomeRejoined.Stocked := by
  have hset : ({ s with isolated := false } : State).Stocked := h
  unfold State.becomeRejoined
  exact hset.worked fun _ _ hw => (hw.notice _ _ _).rejoin

theorem State.Stocked.judgeIsolation (h : s.Stocked) : s.judgeIsolation.Stocked := by
  unfold State.judgeIsolation
  split
  · split
    · exact h
    · exact h.becomeIsolated
  · split
    · exact h.becomeRejoined
    · exact h

/-- The half after one that is 0 or 1 is 0 or 1 (R180). -/
theorem State.turnHalf_le {s : State} (h : s.works.nextHalf ≤ 1) : s.turnHalf ≤ 1 := by
  unfold State.turnHalf
  split
  · exact h
  · exact Nat.sub_le 1 _

theorem State.Stocked.reportBoundary (h : s.Stocked) : s.reportBoundary.Stocked := by
  have hw := (State.stocked_iff s).mp h
  obtain ⟨-, -, -, -, hhalf⟩ := id hw
  unfold State.reportBoundary State.buildReport
  split
  · obtain ⟨htx, hring, hstore, htag, -⟩ := hw.placeReport (e := s.boundaryEnv) s.nextReport
    exact State.onWorks_stocked ⟨htx, hring, hstore, htag, State.turnHalf_le hhalf⟩
  · exact h

theorem State.Stocked.runWork (h : s.Stocked) (k : Work) : (runWork k s).Stocked := by
  have hw := (State.stocked_iff s).mp h
  obtain ⟨htx, -⟩ := id hw
  cases k with
  | timebase => exact h.loadBoundary
  | laneJudge l => exact h.judgeLane l
  | isolation => exact h.judgeIsolation
  | peers => exact h
  | account => exact State.onWorks_stocked (hw.withTx (htx.decay s.cfg))
  | busy l => exact State.onWorks_stocked (hw.withTx (htx.busyBoundary l))
  | watch c => exact State.onWorks_stocked hw.watch
  | handback c => exact State.onWorks_stocked hw.handbackBoundary
  | claimAge c => exact State.onWorks_stocked (hw.mod _)
  | bid c => exact State.onWorks_stocked hw.bidBoundary
  | yielded c => exact State.onWorks_stocked hw.yieldedBoundary
  | claimSet => exact State.onWorks_stocked hw.claimSet
  | cue c => exact State.onWorks_stocked hw.cueBoundary
  | follow c => exact State.onWorks_stocked hw.followJudge
  | report => exact h.reportBoundary
  | asrun => exact State.onWorks_stocked hw.asrunBoundary

theorem State.Stocked.runAll (h : s.Stocked) (ks : List Work) : (runAll ks s).Stocked :=
  runAll_keeps (P := State.Stocked) (fun k _ _ hs => hs.runWork k) s h

theorem State.Stocked.settle (h : s.Stocked) : s.settle.Stocked := (h.runAll s.due).withDue []

theorem State.Stocked.boundary (h : s.Stocked) (left : List Work) : (s.boundary left).Stocked :=
  State.Stocked.withDue
    (State.Stocked.runAll (h.worked fun _ _ hw => hw.eachChannel fun _ _ hv => Works.Stocked.mod hv _) _) _

theorem State.Stocked.slice (h : s.Stocked) (k : Work) (cond : State → Bool) : (s.slice k cond).Stocked := by
  unfold State.slice
  split
  · dsimp only
    split
    · exact State.Stocked.withDue (State.Stocked.runWork ((h.runAll _).withDue _) k) _
    · exact h
  · exact h

theorem State.Stocked.whenRunning (h : s.Stocked) {f : State → State}
    (hf : ∀ u : State, u.Stocked → (f u).Stocked) : (s.whenRunning f).Stocked := by
  unfold State.whenRunning
  split
  · exact hf _ h.settle
  · exact h

/-! ## The reference monitor (R37 to R39) -/

theorem State.Stocked.monitorNotice (h : s.Stocked) (k : NoticeKind) (n : BitVec 32) : (s.monitorNotice k n).Stocked :=
  h.worked fun _ _ hw => hw.notice _ _ _

theorem State.Stocked.refPulse (h : s.Stocked) (dt : Nat) (left : List Work) : (s.refPulse dt left).Stocked := by
  unfold State.refPulse State.lockedPulse State.freePulse
  split
  · split
    · exact h
    · exact (h.withClk _).boundary left
  · split
    · exact ((h.withClk _).boundary left).monitorNotice _ _
    · exact (h.withClk _).monitorNotice _ _

theorem State.Stocked.refLost (h : s.Stocked) (left : List Work) : (s.refLost left).Stocked := by
  unfold State.refLost
  split
  · exact ((h.withClk _).boundary left).monitorNotice _ _
  · exact h

theorem State.Stocked.freeRunBoundary (h : s.Stocked) (left : List Work) : (s.freeRunBoundary left).Stocked := by
  unfold State.freeRunBoundary
  split
  · exact (h.withClk _).boundary left
  · exact h

theorem State.Stocked.idle (h : s.Stocked) : s.idle.Stocked := by
  have hclk := h.withClk (s.clk.advance 1)
  unfold State.idle State.crystal
  split
  · exact h.settle
  · split
    · dsimp only
      split
      · split
        · exact hclk.refLost []
        · exact hclk.freeRunBoundary []
      · exact hclk
    · exact h

/-! ## Lines (R29, R30) -/

theorem Transmitter.sendingOn_flight {t : Transmitter} {l : Lane} {f : TxFlight} (h : t.sendingOn l = some f) :
    t.flight = some f := by
  obtain ⟨g, hg, hf⟩ := Option.bind_eq_some_iff.mp h
  split at hf
  · cases hf
    exact hg
  · cases hf

theorem Transmitter.waitingOn_flight {t : Transmitter} {l : Lane} {f : TxFlight} (h : t.waitingOn l = some f) :
    t.flight = some f := by
  obtain ⟨g, hg, hf⟩ := Option.bind_eq_some_iff.mp h
  split at hf
  · cases hf
    exact hg
  · cases hf

theorem State.Stocked.copyBegin (h : s.Stocked) (l : Lane) (dt : Nat) : (s.copyBegin l dt).Stocked := by
  have hw := (State.stocked_iff s).mp h
  obtain ⟨htx, -⟩ := id hw
  unfold State.copyBegin
  dsimp only
  split
  · exact h
  · rename_i f hf
    split
    · refine State.onWorks_stocked ?_
      simp only [State.modLane_works, State.modLane_cfg]
      exact hw.withTx (htx.setCopy (Transmitter.waitingOn_flight hf) l _)
    · exact h

theorem State.Stocked.copyEnd (h : s.Stocked) (l : Lane) (readBack : List Symbol) : (s.copyEnd l readBack).Stocked := by
  have hw := (State.stocked_iff s).mp h
  obtain ⟨htx, -⟩ := id hw
  unfold State.copyEnd
  split
  · exact h
  · rename_i f hf
    split
    · refine State.onWorks_stocked ?_
      simp only [State.modLane_works, State.modLane_cfg]
      exact hw.withTx (htx.copyDone (Transmitter.sendingOn_flight hf) l .sent)
    · exact h

/-! ## The dispatcher (R9 to R15) -/

theorem State.Stocked.acceptMsg (h : s.Stocked) (l : Lane) (p : Peer) (m : RxMsg) : (s.acceptMsg l p m).Stocked :=
  State.Stocked.worked (s := { s.refreshLane l with
      peers := modPeer s.peers p.station fun q => { q.accept l m with est := (s.sample p m).est } }) (h.modLane l _)
    fun _ _ hw => (hw.saturated _ _).stepped _ _

/-- The dispatcher keeps the bounds when the routing of the accepted message does. -/
theorem State.Stocked.takeRx (h : s.Stocked) (l : Lane) (names : RxMsg → Bool) {route : Nat → RxMsg → State → State}
    (hr : ∀ n m (u : State), u.Stocked → (route n m u).Stocked) : (s.takeRx l names route).Stocked := by
  have hpop : (s.popRx l).Stocked := h.modLane l _
  unfold State.takeRx
  split
  · exact h
  · split
    · dsimp only
      split
      · exact hpop.dispatch _
      · split
        · exact hpop
        · split
          · exact hpop.modLane l _
          · exact hr _ _ _ (hpop.acceptMsg l _ _)
    · exact h

theorem State.Stocked.decoded {α : Type} (h : s.Stocked) (x : Option α) {f : α → State} (hf : ∀ a, (f a).Stocked) :
    (s.decoded x f).Stocked := by
  cases x with
  | none => exact h
  | some a => exact hf a

theorem State.Stocked.tallyEntry (h : s.Stocked) (sender : Nat) (stamp : Tick) (t : TallyEntry) :
    (s.tallyEntry sender stamp t).Stocked := by
  unfold State.tallyEntry
  split
  · exact h
  · split
    · exact h.worked fun _ _ hw => hw.mainEntry _ _
    · split
      · exact h.worked fun _ _ hw => hw.standbyEntry _ _
      · exact h

theorem State.Stocked.claimEntry (h : s.Stocked) (sender : Nat) (x : ClaimEntry) : (s.claimEntry sender x).Stocked := by
  unfold State.claimEntry
  split
  · exact h
  · exact h.worked fun _ _ hw => hw.claimEntry _ _

theorem State.Stocked.routeTally (h : s.Stocked) (sender : Nat) (m : RxMsg) : (s.routeTally sender m).Stocked :=
  h.decoded _ fun ts => foldl_keeps (P := State.Stocked) (fun _ t hu => hu.tallyEntry sender m.stamp t) ts h

theorem State.Stocked.routeSegment (h : s.Stocked) (sender : Nat) (m : RxMsg) : (s.routeSegment sender m).Stocked := by
  refine h.decoded _ fun g => ?_
  split
  · exact h
  · split
    · exact h.worked fun _ _ hw => hw.takeSegment _
    · exact h

theorem State.Stocked.routeClaim (h : s.Stocked) (sender : Nat) (m : RxMsg) : (s.routeClaim sender m).Stocked :=
  h.decoded _ fun xs => foldl_keeps (P := State.Stocked) (fun _ x hu => hu.claimEntry sender x) xs h

theorem State.Stocked.routeCue (h : s.Stocked) (m : RxMsg) : (s.routeCue m).Stocked := by
  unfold State.routeCue
  split <;> exact h

theorem State.Stocked.routeReport (h : s.Stocked) (m : RxMsg) : (s.routeReport m).Stocked := by
  unfold State.routeReport
  split <;> exact h

theorem State.Stocked.routeAsRun (h : s.Stocked) (m : RxMsg) : (s.routeAsRun m).Stocked := by
  unfold State.routeAsRun
  split <;> exact h

theorem State.Stocked.takeMark (h : s.Stocked) (sender : Nat) (arrival : Tick) (m : Frame) :
    (s.takeMark sender arrival m).Stocked := by
  unfold State.takeMark State.compareMark
  split
  · exact h
  · split
    · dsimp only
      split
      · exact State.Stocked.worked (s := { s with clk := { s.clk with lastSlip := slipOf arrival m } }) h
          fun _ _ hw => hw.notice _ _ _
      · exact h
    · exact h

theorem State.Stocked.takeDirective (h : s.Stocked) (l : Lane) (k : DirKind) {unit : Nat → Directive → State → State}
    (hu : ∀ n d (u : State), u.Stocked → (unit n d u).Stocked) : (s.takeDirective l k unit).Stocked := by
  refine h.takeRx l _ fun n m u hs => hs.decoded _ fun d => ?_
  split
  · exact hu n d u hs
  · exact hs.dispatch _

/-- A directive that names a channel keeps the bounds when its effect does. -/
theorem State.Stocked.directed (h : s.Stocked) (l : Lane) (k : DirKind) (sixth : Env → Chan → Works → Option Nat)
    {effect : Env → Nat → Directive → Chan → Works → Works}
    (heffect : ∀ e n d c clip w, Works.Stocked clip w → (effect e n d c w).Stocked clip) (noticed : Bool) :
    (s.takeDirective l k (State.direct sixth effect noticed)).Stocked :=
  h.takeDirective l k fun n d _ hu => hu.worked fun _ _ hw =>
    hw.directive n d sixth (fun c _ hv => heffect _ n d c _ _ hv) noticed

theorem State.Stocked.directRetime (h : s.Stocked) (sender : Nat) (d : Directive) : (s.directRetime sender d).Stocked :=
  State.Stocked.congr (h.worked fun _ _ hw => hw.retime (e := s.env) sender d) rfl rfl

/-! ## Start-up (R183 to R189) -/

/-- Blocks at their reset values are within every bound. -/
theorem Works.reset_stocked (clip : Nat) (ctx : Vector Context 16) :
    ({ Works.reset with ctx := ctx } : Works).Stocked clip :=
  ⟨⟨Nat.zero_le clip, Nat.zero_le _, Nat.zero_le _, Nat.zero_le _⟩, Nat.zero_le _, ⟨Nat.zero_le _, Nat.zero_lt_succ _⟩,
    (by decide : (1 : Half) ≠ 0), Nat.zero_le _⟩

theorem State.start_stocked (s : State) (cfg : Config) (load : LoadState) : (s.start cfg load).Stocked :=
  (State.stocked_iff _).mpr (Works.reset_stocked cfg.clip _)

theorem State.configFault_stocked (s : State) (cause : LoadFault) : (s.configFault cause).Stocked :=
  (s.start_stocked _ _).worked fun _ _ hw => hw.notice _ _ _

theorem State.loadImage_stocked (s : State) (image : List Byte) : (s.loadImage image).Stocked := by
  unfold State.loadImage
  split
  · exact s.start_stocked _ _
  · exact s.configFault_stocked _

theorem State.Stocked.readStraps (h : s.Stocked) (straps : BitVec 6) : (s.readStraps straps).Stocked := by
  unfold State.readStraps
  dsimp only
  split
  · exact State.configFault_stocked _ _
  · exact h

theorem State.reset_stocked : State.reset.Stocked := (State.stocked_iff _).mpr (Works.reset_stocked _ _)

/-! ## Every command and every step -/

/-- Every command keeps the bounds. -/
theorem State.Stocked.exec {t : State} (h : s.Stocked) (i : Instr) (ht : exec i s = .next t) : t.Stocked := by
  cases i with
  | resetAssert => cases ht; exact State.reset_stocked.withPending _
  | resetRelease straps => cases ht; split; exacts [h.readStraps straps, h]
  | configurationLoad image => cases ht; split; exacts [s.loadImage_stocked image, h]
  | noMemory => cases ht; split; exacts [s.configFault_stocked _, h]
  | refPulse dt left => cases ht; exact h.whenRunning fun _ hu => hu.refPulse dt left
  | refLost left => cases ht; exact h.whenRunning fun _ hu => hu.refLost left
  | freeRunBoundary left => cases ht; exact h.whenRunning fun _ hu => hu.freeRunBoundary left
  | messageReceived l dt part => cases ht; exact h.whenRunning fun u hu => State.Stocked.modLane (s := u.pass dt) hu l _
  | framingLost l dt cause => cases ht; exact h.whenRunning fun u hu => State.Stocked.modLane (s := u.pass dt) hu l _
  | receiveTally l => cases ht; exact h.whenRunning fun _ hu => hu.takeRx l _ fun n m _ hv => hv.routeTally n m
  | receiveSegment l => cases ht; exact h.whenRunning fun _ hu => hu.takeRx l _ fun n m _ hv => hv.routeSegment n m
  | receiveClaim l => cases ht; exact h.whenRunning fun _ hu => hu.takeRx l _ fun n m _ hv => hv.routeClaim n m
  | receiveCue l => cases ht; exact h.whenRunning fun _ hu => hu.takeRx l _ fun _ m _ hv => hv.routeCue m
  | receivePortStatus l =>
    cases ht
    exact h.whenRunning fun _ hu => hu.takeRx l _ fun n _ _ hv => hv.decoded _ fun es =>
      hv.worked fun _ _ hw => hw.takePortStatus n es
  | receiveTimeMark l =>
    cases ht; exact h.whenRunning fun _ hu => hu.takeRx l _ fun n m _ hv => hv.decoded _ (hv.takeMark n m.arrival)
  | receiveReport l => cases ht; exact h.whenRunning fun _ hu => hu.takeRx l _ fun _ m _ hv => hv.routeReport m
  | receiveAsRun l => cases ht; exact h.whenRunning fun _ hu => hu.takeRx l _ fun _ m _ hv => hv.routeAsRun m
  | arm l => cases ht; exact h.whenRunning fun _ hu => hu.directed l _ _ (fun _ _ _ _ _ _ hw => hw.arm) _
  | disarm l => cases ht; exact h.whenRunning fun _ hu => hu.directed l _ _ (fun _ _ _ _ _ _ hw => hw.disarm) _
  | forceTake l => cases ht; exact h.whenRunning fun _ hu => hu.directed l _ _ (fun _ _ _ _ _ _ hw => hw.forceTake) _
  | handBack l =>
    cases ht; exact h.whenRunning fun _ hu => hu.directed l _ _ (fun _ n d _ _ _ hw => hw.handBack n d.number) _
  | hold l => cases ht; exact h.whenRunning fun _ hu => hu.directed l _ _ (fun _ _ _ _ _ _ hw => hw.hold) _
  | resume l => cases ht; exact h.whenRunning fun _ hu => hu.directed l _ _ (fun _ _ _ _ _ _ hw => hw.impose .resume) _
  | skip l => cases ht; exact h.whenRunning fun _ hu => hu.directed l _ _ (fun _ _ _ _ _ _ hw => hw.skip) _
  | retry l => cases ht; exact h.whenRunning fun _ hu => hu.directed l _ _ (fun _ _ _ _ _ _ hw => hw.retry) _
  | clearChannel l =>
    cases ht; exact h.whenRunning fun _ hu => hu.directed l _ _ (fun _ _ _ _ _ _ hw => hw.clearChannel) _
  | retime l => cases ht; exact h.whenRunning fun _ hu => hu.takeDirective l _ fun n d _ hv => hv.directRetime n d
  | copyBegin l dt => cases ht; exact h.whenRunning fun _ hu => hu.copyBegin l dt
  | copyEnd l readBack => cases ht; exact h.whenRunning fun _ hu => hu.copyEnd l readBack
  | joinComplete => cases ht; exact h.whenRunning fun _ hu => hu.worked fun _ _ hw => hw.joinComplete
  | copyAbandoned | originSuspect | originLost | claimExpiry | bidWindowDecided | laneQuiet | isolated | serverSilent
  | armTimeout | takeTimeout | withdrawnTakeExpiry | followDue | readyCheck | handbackDone | timeLoaded | reportBuild
  | asrunBuild => cases ht; exact h.slice _ _

end

/-- Settles O59: by the command at the front of the queue, or by the idle step. -/
theorem everyStepKeepsStocks : Obligations.EveryStepKeepsStocks := by
  intro s t h ht
  unfold step at ht
  split at ht
  · cases ht; exact h.idle
  · exact (h.withPending _).exec _ ht

end Sys2Proof.Machine
end

