-- ==== Sys2Proof/Proofs/BoundaryWork.lean ====
section
/-! SUPPORT. R31, R36, log 3: which work a boundary does and which it leaves, what it begins with, and that outstanding
work comes before the next command. -/

namespace Sys2Proof.Machine

/-! ## Work that is held back (log 3) -/

/-- Every piece of work is in the list of all work. -/
theorem mem_allWork (k : Work) : k ∈ allWork := by
  cases k with
  | laneJudge l | busy l => cases l <;> simp [allWork]
  | _ => simp [allWork]

/-- A piece of work is held back when it is left, or follows one that is. -/
theorem mem_heldBack {left : List Work} {k : Work} :
    k ∈ allWork.filter (heldBack left) ↔ k ∈ left ∨ ∃ j ∈ left, waitsFor k j = true := by
  simp [mem_allWork, heldBack]

/-! ## The contexts at a boundary -/

/-- Two states of the blocks that agree on every context have the same contexts. -/
theorem Works.ctx_ext {u v : Works} (h : ∀ c, u.at c = v.at c) : u.ctx = v.ctx :=
  Vector.ext fun i hi => h ⟨i, hi⟩

/-- Nothing of the blocks but contexts changed. -/
theorem Works.eachChannel_mod_frame (w : Works) (f : Context → Context) :
    w.eachChannel (fun c w => w.mod c f) = { w with ctx := (w.eachChannel fun c w => w.mod c f).ctx } :=
  Works.eachChannel_keeps (P := fun v => v = { w with ctx := v.ctx })
    (fun c v hv => by rw [hv]; rfl) rfl

/-- The same change of every channel's context. -/
theorem Works.eachChannel_mod (w : Works) (f : Context → Context) :
    w.eachChannel (fun c w => w.mod c f) = { w with ctx := w.ctx.map f } := by
  rw [Works.eachChannel_mod_frame]
  refine congrArg (fun ctx => { w with ctx := ctx }) (Works.ctx_ext (v := { w with ctx := w.ctx.map f }) fun c => ?_)
  rw [Works.eachChannel_at (fun c w => Works.OthersKept.rfl.mod f) (fun c u v h => by simp [h]), Works.mod_at]
  simp [Works.at]

/-- No context has entered BIDDING at the boundary that begins (R111). -/
theorem Works.newBoundary_eq (w : Works) :
    w.newBoundary = { w with ctx := w.ctx.map fun x => { x with bidNew := false } } := w.eachChannel_mod _

/-- A boundary, once its count has advanced, does the work not held back (R36, log 3). -/
theorem State.boundary_eq (s : State) (clk : Timebase) (left : List Work) :
    (s.withClk clk).boundary left =
      { runAll (allWork.filter fun k => !heldBack left k)
          { s with
            clk := clk
            works := { s.works with ctx := s.works.ctx.map fun x => { x with bidNew := false } } } with
        due := allWork.filter (heldBack left) } := by
  unfold State.boundary
  rw [State.onWorks, State.withClk_works, Works.newBoundary_eq]
  rfl

/-- A pulse half a measured period or more after the last, and at most one and a half, is accepted (R37). -/
theorem Timebase.accept_advance {t : Timebase} {dt : Nat} (hlow : t.period ≤ 2 * (t.elapsed + dt))
    (hhigh : 2 * (t.elapsed + dt) ≤ 3 * t.period) (hm : t.monitor = .locked) :
    (t.advance dt).glitch = false ∧
      (t.advance dt).accept = { t with count := t.count + 1, base := 0, elapsed := 0, period := t.elapsed + dt } := by
  have helapsed : min (t.elapsed + dt) t.deadline = t.elapsed + dt := by
    simp only [Timebase.deadline, hm]
    omega
  constructor
  · simp only [Timebase.glitch, Timebase.advance, helapsed, decide_eq_false_iff_not]
    omega
  · simp only [Timebase.accept, Timebase.roll, Timebase.advance, helapsed]

/-! ## Work left over (log 3) -/

/-- A command that is no piece of a boundary's work, and that a working part takes. -/
def TakenWhenRunning (i : Instr) : Prop := ∃ f, ∀ s, exec i s = .next (s.whenRunning f)

theorem receiveCommand_takenWhenRunning {l : Lane} {k : MsgKind} {i : Instr} (h : receiveCommand l k = some i) :
    TakenWhenRunning i := by
  cases k <;> cases h <;> exact ⟨_, fun _ => rfl⟩

theorem directiveCommand_takenWhenRunning (l : Lane) (k : DirKind) : TakenWhenRunning (directiveCommand l k) := by
  obtain ⟨unit, h⟩ := exec_directiveCommand l k
  exact ⟨_, h⟩

theorem State.settle_running (s : State) : s.settle.running = s.running := by
  have h : (runAll s.due s).load = s.load := congrArg Prod.fst (runAll_fixedPart s.due s)
  simp only [State.running, State.settle, h]

/-- Outstanding work is finished before a command that is none of it (log 3). -/
theorem TakenWhenRunning.exec_settle {i : Instr} (h : TakenWhenRunning i) {s : State} (hs : s.running = true) :
    exec i s = exec i s.settle := by
  obtain ⟨f, hf⟩ := h
  have hready : s.settle.Ready := ⟨s.settle_running.trans hs, s.settle_due⟩
  rw [hf, hf, hready.whenRunning, State.whenRunning, if_pos hs]

/-- Settles O7: a boundary by what it begins with and the list of its work, the account by its own piece, and the work
left over by the form that the other commands share. -/
theorem boundaryDoesItsWork : Obligations.BoundaryDoesItsWork := by
  refine ⟨fun s u left dt i hready hu => ⟨fun k => mem_heldBack, fun clk done hdone => ⟨?_, ?_⟩⟩, fun s => rfl,
    fun s i hs hi => TakenWhenRunning.exec_settle ?_ hs⟩
  · rintro hm hlow hhigh rfl rfl
    obtain ⟨hglitch, haccept⟩ := Timebase.accept_advance hlow hhigh hm
    show Host.Outcome.next (s.whenRunning (State.refPulse dt left)) = _
    rw [hready.whenRunning, State.refPulse, hm, State.lockedPulse, hglitch, haccept, hdone, hu]
    exact congrArg _ (s.boundary_eq _ left)
  · rintro hm rfl rfl
    show Host.Outcome.next (s.whenRunning (State.freeRunBoundary left)) = _
    rw [hready.whenRunning, State.freeRunBoundary, hm, hdone, hu]
    exact congrArg _ (s.boundary_eq _ left)
  · rcases hi with ⟨l, k, h⟩ | ⟨l, k, rfl⟩ | ⟨dt, left, rfl⟩ | ⟨left, rfl | rfl⟩ | ⟨l, dt, part, rfl⟩ |
      ⟨l, dt, cause, rfl⟩ | ⟨l, dt, rfl⟩ | ⟨l, back, rfl⟩ | rfl
    case inl => exact receiveCommand_takenWhenRunning h
    case inr.inl => exact directiveCommand_takenWhenRunning l k
    all_goals exact ⟨_, fun _ => rfl⟩

end Sys2Proof.Machine
end

