-- ==== Sys2Proof/Proofs/Carousel.lean ====
section
/-! SUPPORT. R162, R163, R26: the walk of the as-run carousel, the records that a build carries from it, and the build
at the boundary. -/

namespace Sys2Proof.Machine

/-! ## The walk (R163) -/

section
variable {w : Works}

/-- The record at a place of the walk is one of the ring, or that of an open slot behind the ring. -/
theorem Works.carouselItem_eq_some {i : Nat} {r : AsRunRec} :
    w.carouselItem i = some r ↔
      w.store.ring[i]? = some r ∨ ∃ c : Chan, i = w.store.ring.length + c.val ∧ (w.at c).openRec = some r := by
  unfold Works.carouselItem
  split
  · rename_i hi
    refine ⟨.inl, ?_⟩
    rintro (h | ⟨c, rfl, -⟩)
    · exact h
    · omega
  · rename_i hi
    have hnone : w.store.ring[i]? = none := List.getElem?_eq_none (by omega)
    rw [hnone]
    split
    · rename_i hslot
      constructor
      · exact fun h => .inr ⟨⟨_, hslot⟩, by simp only; omega, h⟩
      · rintro (h | ⟨c, rfl, h⟩)
        · cases h
        · simpa using h
    · rename_i hslot
      constructor
      · exact fun h => nomatch h
      · rintro (h | ⟨c, rfl, -⟩)
        · cases h
        · omega

/-- The records of a stretch of the walk, each with its place. -/
theorem Works.mem_carouselSpan {first stop : Nat} {q : Nat × AsRunRec} :
    q ∈ w.carouselSpan first stop ↔ first ≤ q.1 ∧ q.1 < stop ∧ w.carouselItem q.1 = some q.2 := by
  simp only [Works.carouselSpan, List.mem_filterMap, List.mem_range'_1, Option.map_eq_some_iff]
  constructor
  · rintro ⟨i, ⟨hlow, hhigh⟩, r, hr, rfl⟩
    exact ⟨hlow, by omega, hr⟩
  · rintro ⟨hlow, hhigh, hr⟩
    exact ⟨q.1, ⟨hlow, by omega⟩, q.2, hr, rfl⟩

/-- The records of a stretch stand in the order of their places. -/
theorem Works.carouselSpan_ordered (first stop : Nat) :
    (w.carouselSpan first stop).Pairwise fun p q => p.1 < q.1 := by
  refine List.Pairwise.filterMap _ ?_ (List.pairwise_lt_range' (s := first) (n := stop - first))
  intro i j hij p hp q hq
  obtain ⟨-, -, rfl⟩ := Option.map_eq_some_iff.mp hp
  obtain ⟨-, -, rfl⟩ := Option.map_eq_some_iff.mp hq
  exact hij

/-- A stretch is walked in two parts. -/
theorem Works.carouselSpan_append {first mid stop : Nat} (h1 : first ≤ mid) (h2 : mid ≤ stop) :
    w.carouselSpan first stop = w.carouselSpan first mid ++ w.carouselSpan mid stop := by
  have hsplit : List.range' first (stop - first) = List.range' first (mid - first) ++ List.range' mid (stop - mid) := by
    rw [show stop - first = (mid - first) + (stop - mid) by omega, ← List.range'_append_1,
      show first + (mid - first) = mid by omega]
  rw [Works.carouselSpan, hsplit, List.filterMap_append]
  rfl

/-- Within the ring a stretch gives the ring's records. -/
theorem Works.carouselSpan_ring {k n : Nat} (h : k + n ≤ w.store.ring.length) :
    (w.carouselSpan k (k + n)).map Prod.snd = (w.store.ring.drop k).take n ∧
      (w.carouselSpan k (k + n)).map Prod.fst = List.range' k n := by
  induction n with
  | zero => simp [Works.carouselSpan]
  | succ n ih =>
    obtain ⟨hrecords, hplaces⟩ := ih (by omega)
    have hitem : w.carouselItem (k + n) = some w.store.ring[k + n] :=
      Works.carouselItem_eq_some.mpr (.inl (List.getElem?_eq_getElem (by omega)))
    have hlast : w.carouselSpan (k + n) (k + (n + 1)) = [(k + n, w.store.ring[k + n])] := by
      simp [Works.carouselSpan, show k + (n + 1) - (k + n) = 1 by omega, hitem]
    have hdrop : n < (w.store.ring.drop k).length := by rw [List.length_drop]; omega
    rw [Works.carouselSpan_append (mid := k + n) (by omega) (by omega), hlast, List.map_append, List.map_append,
      hrecords, hplaces, List.take_succ_eq_append_getElem hdrop, List.range'_1_concat]
    simp

/-! ## The records of a build (R163) -/

/-- A build carries records of a stretch of the walk. -/
theorem Works.carouselPick_cases (w : Works) : ∃ first stop, w.carouselPick = (w.carouselSpan first stop).take 4 := by
  unfold Works.carouselPick
  dsimp only
  split
  · exact ⟨_, _, rfl⟩
  · exact ⟨_, _, rfl⟩

theorem Works.carouselPick_length_le : w.carouselPick.length ≤ 4 := by
  obtain ⟨first, stop, h⟩ := w.carouselPick_cases
  rw [h]
  exact List.length_take_le _ _

theorem Works.carouselPick_ordered : (w.carouselPick.map Prod.fst).Pairwise (· < ·) := by
  obtain ⟨first, stop, h⟩ := w.carouselPick_cases
  rw [h, List.pairwise_map]
  exact (Works.carouselSpan_ordered first stop).sublist (List.take_sublist _ _)

theorem Works.carouselPick_items {q : Nat × AsRunRec} (hq : q ∈ w.carouselPick) : w.carouselItem q.1 = some q.2 := by
  obtain ⟨first, stop, h⟩ := w.carouselPick_cases
  rw [h] at hq
  exact (Works.mem_carouselSpan.mp (List.mem_of_mem_take hq)).2.2

/-- At least one record exists, in the ring or open (R162). -/
theorem Works.anyRecord_iff : w.anyRecord = true ↔ w.store.ring ≠ [] ∨ ∃ c, (w.at c).openRec ≠ none := by
  simp [Works.anyRecord, Option.isSome_iff_ne_none]

/-- A record that exists stands at a place of the walk. -/
theorem Works.exists_carouselItem (h : w.anyRecord = true) :
    ∃ i r, i < w.store.ring.length + 16 ∧ w.carouselItem i = some r := by
  rcases Works.anyRecord_iff.mp h with hring | ⟨c, hopen⟩
  · have hpos := List.length_pos_iff.mpr hring
    exact ⟨0, w.store.ring[0], by omega, Works.carouselItem_eq_some.mpr (.inl (List.getElem?_eq_getElem hpos))⟩
  · obtain ⟨r, hr⟩ := Option.ne_none_iff_exists'.mp hopen
    exact ⟨_, r, by omega, Works.carouselItem_eq_some.mpr (.inr ⟨c, rfl, hr⟩)⟩

/-- A build finds a record when there is one: ahead of the cursor, or else from the start on (log 18). -/
theorem Works.carouselPick_ne_nil (h : w.anyRecord = true) : w.carouselPick ≠ [] := by
  obtain ⟨i, r, hi, hr⟩ := Works.exists_carouselItem h
  unfold Works.carouselPick
  dsimp only
  split
  · rename_i hempty
    have hbefore : i < w.store.place := by
      by_contra hge
      have hmem := Works.mem_carouselSpan.mpr
        (show w.store.place ≤ (i, r).1 ∧ (i, r).1 < w.store.ring.length + 16 ∧ _ from ⟨by omega, hi, hr⟩)
      rw [List.isEmpty_iff.mp hempty] at hmem
      exact List.not_mem_nil hmem
    have hmem : (i, r) ∈ w.carouselSpan 0 w.store.place := Works.mem_carouselSpan.mpr ⟨Nat.zero_le _, hbefore, hr⟩
    simpa using List.ne_nil_of_mem hmem
  · rename_i hfound
    simpa using hfound

/-- From a ring cursor with four ring records to go, these are the four (R163). -/
theorem Works.carouselPick_ring {k : Nat} (hc : w.store.cursor = .ring k) (hk : k + 4 ≤ w.store.ring.length) :
    w.carouselPick = w.carouselSpan k (k + 4) := by
  have hplace : w.store.place = k := by simp [AsRunStore.place, hc]
  have hlen : (w.carouselSpan k (k + 4)).length = 4 := by
    rw [← List.length_map (f := Prod.fst), (Works.carouselSpan_ring hk).2, List.length_range']
  have hahead := Works.carouselSpan_append (w := w) (first := k) (mid := k + 4) (stop := w.store.ring.length + 16)
    (by omega) (by omega)
  have hsome : (w.carouselSpan k (w.store.ring.length + 16)).isEmpty = false := by
    rw [hahead, List.isEmpty_eq_false_iff]
    exact List.append_ne_nil_of_left_ne_nil (List.ne_nil_of_length_pos (by omega)) _
  simp only [Works.carouselPick, hplace, hsome, Bool.false_eq_true, if_false]
  rw [hahead, List.take_left' hlen]

end

/-! ## The build at the boundary (R162, R26) -/

section
variable {s : State}

/-- The command of the build does the as-run work of the boundary. -/
theorem State.Outstanding.asrunBuild (h : s.Outstanding .asrun) (hp : s.cfg.asrunPeriod ≤ s.works.store.period + 1)
    (hr : s.works.anyRecord = true) :
    exec .asrunBuild s =
      .next { s with works := s.works.dueAsRun s.boundaryEnv, due := s.due.erase .asrun } := by
  have hdue : s.boundaryEnv.asrunDue s.works = true := decide_eq_true hp
  have hslice := h.slice (cond := fun s => s.boundaryEnv.asrunDue s.works && s.works.anyRecord) (by rw [hdue, hr]; rfl)
  have hwork : runWork .asrun s = { s with works := s.works.dueAsRun s.boundaryEnv } := by
    simp only [runWork, State.atWorks, State.onWorks, Works.asrunBoundary, hdue, if_true]
  refine congrArg Host.Outcome.next (hslice.trans ?_)
  rw [hwork]

/-- With a record and room in BULK an AS-RUN is placed, and the cursor names the item after the last of it (R163). -/
theorem Works.dueAsRun_built {w : Works} {e : Env} {last : Nat × AsRunRec} (hr : w.anyRecord = true)
    (hroom : w.tx.bulk.length + w.tx.flying .bulk < 2) (hl : w.carouselPick.getLast? = some last) :
    w.dueAsRun e =
      { w with
        store := { w.store with period := 0, cursor := w.store.cursorAfter last.1 }
        tx := { w.tx with bulk := w.tx.bulk ++ [OutMsg.asRun (w.carouselPick.map Prod.snd)] }.pick e.cfg } := by
  have hrecord : (w.modStore fun s => { s with period := 0 }).anyRecord = true := hr
  have hbulk : (w.modStore fun s => { s with period := 0 }).tx.bulkRoom = true := decide_eq_true hroom
  have hpick : (w.modStore fun s => { s with period := 0 }).carouselPick = w.carouselPick := rfl
  simp only [Works.dueAsRun, hrecord, hbulk, Bool.not_true, Bool.false_eq_true, if_false, if_true, Works.buildAsRun,
    hpick, hl]
  rfl

/-- With no room in BULK the build is counted as not made, and the cursor stays (R26). -/
theorem Works.dueAsRun_notBuilt {w : Works} {e : Env} (hr : w.anyRecord = true)
    (hfull : 2 ≤ w.tx.bulk.length + w.tx.flying .bulk) :
    w.dueAsRun e =
      { w with
        store := { w.store with period := 0 }
        tx := { w.tx with bulkNotBuilt := bump w.tx.bulkNotBuilt } } := by
  have hrecord : (w.modStore fun s => { s with period := 0 }).anyRecord = true := hr
  have hbulk : (w.modStore fun s => { s with period := 0 }).tx.bulkRoom = false :=
    decide_eq_false (Nat.not_lt.mpr hfull)
  simp only [Works.dueAsRun, hrecord, hbulk, Bool.not_true, Bool.false_eq_true, if_false]
  rfl

end

/-- Settles O42: the records by the stretch of the walk they come from, the build by the room in BULK. -/
theorem asRunIsBuilt : Obligations.AsRunIsBuilt := by
  rintro s picked hout hperiod hrecord rfl
  have hany : s.works.anyRecord = true := Works.anyRecord_iff.mpr hrecord
  have hne := Works.carouselPick_ne_nil hany
  have hexec := hout.asrunBuild hperiod hany
  refine ⟨fun hroom => ⟨List.length_pos_iff.mpr hne, Works.carouselPick_length_le,
    fun q hq => Works.carouselItem_eq_some.mp (Works.carouselPick_items hq), Works.carouselPick_ordered, ?_⟩,
    fun k hc hk => ?_, fun hfull => ?_⟩
  · have hlast := List.getLast?_eq_getLast_of_ne_nil hne
    exact ⟨_, _, hexec, ⟨rfl, rfl, rfl, rfl, rfl, rfl, rfl, rfl, rfl, rfl⟩, rfl, hlast,
      Works.dueAsRun_built hany hroom hlast⟩
  · obtain ⟨hrecords, hplaces⟩ := Works.carouselSpan_ring hk
    rw [Works.carouselPick_ring hc hk, ← List.getLast?_map, hrecords, hplaces]
    refine ⟨rfl, rfl, fun hmore => ?_, fun hend => ?_⟩
    · exact if_pos hmore
    · simp [AsRunStore.cursorAfter, ← hend]
  · rw [hexec, Works.dueAsRun_notBuilt hany hfull]

end Sys2Proof.Machine
end

