-- ==== Sys2Proof/Proofs/Urgent.lean ====
section
/-! SUPPORT. R23, R24, R32, R113: the claim set of a boundary and its place in URGENT, and the place that a CUE
takes. -/

namespace Sys2Proof.Machine

/-! ## Notices made several times over (R179) -/

/-- One notice made n times stands n times before those that were there. -/
theorem Works.notice_repeated {w : Works} (hring : w.notices.ring.length ≤ 32) (e : Env) (k : NoticeKind)
    (c : Option Chan) (param : BitVec 32) (n : Nat) :
    (List.range n).foldl (fun x _ => x.notice e k c param) w =
      { w with
        notices :=
          { ring :=
              (List.replicate n ({ kind := k, chan := c, param := param, frame := e.now } : Notice) ++
                w.notices.ring).take 32
            count := w.notices.count + BitVec.ofNat 16 n } } := by
  induction n with
  | zero => simp [List.take_of_length_le hring]
  | succ n ih =>
    rw [List.range_succ, List.foldl_append, ih]
    simp only [List.foldl_cons, List.foldl_nil, Works.notice, take_cons_take, List.replicate_succ, List.cons_append,
      BitVec.ofNat_add, BitVec.add_assoc]
    rfl

/-! ## The claim set (R112, R113) -/

/-- The entries of a claim set stand in no message, in one, or in two of which the first holds eight (R113). -/
theorem claimMessages_eq (entries : List ClaimEntry) :
    claimMessages entries =
      if entries = [] then [] else if entries.length ≤ 8 then [.claim entries]
      else [.claim (entries.take 8), .claim (entries.drop 8)] := by
  simp only [claimMessages, List.isEmpty_iff]

theorem ChState.claiming_iff (st : ChState) :
    st.claiming = true ↔ st ∈ [ChState.bidding, .cueing, .onAir, .returning] := by
  cases st <;> simp [ChState.claiming]

/-- A release count outside the claiming states falls by one (R113). -/
theorem Context.released_eq (x : Context) :
    x.released =
      if x.state ∈ [ChState.bidding, .cueing, .onAir, .returning] then x else { x with release := x.release - 1 } := by
  simp only [Context.released, ChState.claiming_iff]

section
variable {e : Env} {c : Chan} {x : Context}

theorem Env.claimOf_bidding (h : x.state = .bidding) :
    e.claimOf c x = some { bus := (e.entry c).bus, claim := .bid, prec := x.prec } := by
  simp only [Env.claimOf, h]

theorem Env.claimOf_air (h : x.state = .cueing ∨ x.state = .onAir) :
    e.claimOf c x = some { bus := (e.entry c).bus, claim := .hold, prec := x.prec } := by
  rcases h with h | h <;> simp only [Env.claimOf, h]

theorem Env.claimOf_returning_agreed (h : x.state = .returning) {ph : HandbackPhase} {hLocal hPeer : Frame}
    {succ : Ident} {n : Nat} (ha : x.handback = .agreed ph hLocal hPeer succ n) :
    e.claimOf c x = some { bus := (e.entry c).bus, claim := .handback hPeer succ, prec := x.prec } := by
  simp only [Env.claimOf, h, ha]

theorem Env.claimOf_returning_other (h : x.state = .returning)
    (ha : ∀ ph hLocal hPeer succ n, x.handback ≠ .agreed ph hLocal hPeer succ n) : e.claimOf c x = none := by
  cases hb : x.handback with
  | agreed ph hLocal hPeer succ n => exact absurd hb (ha _ _ _ _ _)
  | _ => simp only [Env.claimOf, h, hb]

/-- Outside the claiming states a plain RELEASE is sent while the release count stands (R112). -/
theorem Env.claimOf_release (h : x.state ∉ [ChState.bidding, .cueing, .onAir, .returning]) :
    e.claimOf c x =
      if 0 < x.release then some { bus := (e.entry c).bus, claim := .release, prec := (e.entry c).prec } else none := by
  cases hs : x.state <;> simp [hs] at h <;> simp only [Env.claimOf, hs]

end

/-- What a claim set sends for the channels is the table of R113. -/
theorem Works.claimEntries_eq {w : Works} {e : Env} {entry : Chan → Option ClaimEntry}
    (h : ∀ (c : Chan) (x : Context) (send : WireClaim → Nat → ClaimEntry), x = w.at c →
      (∀ claim prec, send claim prec = { bus := e.cfg.map[c].bus, claim := claim, prec := prec }) →
      (x.state = .bidding → entry c = some (send .bid x.prec)) ∧
      (x.state = .cueing ∨ x.state = .onAir → entry c = some (send .hold x.prec)) ∧
      (∀ ph h hPeer succ n, x.state = .returning → x.handback = .agreed ph h hPeer succ n →
        entry c = some (send (.handback hPeer succ) x.prec)) ∧
      (x.state = .returning → (∀ ph h hPeer succ n, x.handback ≠ .agreed ph h hPeer succ n) → entry c = none) ∧
      (x.state ∉ [.bidding, .cueing, .onAir, .returning] → 0 < x.release →
        entry c = some (send .release e.cfg.map[c].prec)) ∧
      (x.state ∉ [.bidding, .cueing, .onAir, .returning] → x.release = 0 → entry c = none)) :
    (List.finRange 16).filterMap entry = w.claimEntries e := by
  refine List.filterMap_congr fun c _ => ?_
  obtain ⟨hbid, hair, hback, hnone, hrelease, hsilent⟩ := h c _ _ rfl fun _ _ => rfl
  by_cases hclaims : (w.at c).state ∈ [ChState.bidding, .cueing, .onAir, .returning]
  · simp only [List.mem_cons, List.not_mem_nil, or_false] at hclaims
    rcases hclaims with hs | hs | hs | hs
    · rw [hbid hs, Env.claimOf_bidding hs]; rfl
    · rw [hair (.inl hs), Env.claimOf_air (.inl hs)]; rfl
    · rw [hair (.inr hs), Env.claimOf_air (.inr hs)]; rfl
    · by_cases hagreed : ∃ ph h hPeer succ n, (w.at c).handback = .agreed ph h hPeer succ n
      · obtain ⟨ph, h, hPeer, succ, n, ha⟩ := hagreed
        rw [hback _ _ _ _ _ hs ha, Env.claimOf_returning_agreed hs ha]; rfl
      · have ha : ∀ ph h hPeer succ n, (w.at c).handback ≠ .agreed ph h hPeer succ n :=
          fun ph h hPeer succ n hx => hagreed ⟨ph, h, hPeer, succ, n, hx⟩
        rw [hnone hs ha, Env.claimOf_returning_other hs ha]
  · rw [Env.claimOf_release hclaims]
    split
    · rename_i hpos
      rw [hrelease hclaims hpos]; rfl
    · rename_i hzero
      exact hsilent hclaims (Nat.eq_zero_of_not_pos hzero)

/-- The claim set takes the place of the oldest unsent CLAIM, and the messages that do not fit are counted (R23). -/
theorem Transmitter.withClaims_eq (t : Transmitter) (msgs : List OutMsg) :
    t.withClaims msgs =
      { t with
        urgent :=
          (t.urgent.filter fun m => !m.isClaim).take (t.urgent.takeWhile fun m => !m.isClaim).length ++
            msgs.take (msgs.length - t.claimsDropped msgs) ++
            (t.urgent.filter fun m => !m.isClaim).drop (t.urgent.takeWhile fun m => !m.isClaim).length
        urgentDropped := (List.replicate (t.claimsDropped msgs) ()).foldl (fun n _ => bump n) t.urgentDropped } := by
  unfold Transmitter.withClaims Transmitter.claimsDropped
  dsimp only
  generalize 16 - ((t.urgent.filter fun m => !m.isClaim).length + t.flying .urgent) = room
  have hfit : msgs.take (msgs.length - (msgs.length - room)) = msgs.take room := by
    rw [Nat.sub_sub_eq_min, List.take_eq_take_iff]
    omega
  rw [hfit, List.foldl_const, List.foldl_const, List.length_drop, List.length_take, List.length_replicate,
    show msgs.length - min room msgs.length = msgs.length - room by omega]

/-- What a claim set does to the blocks: the release counts, the transmitter and the notices (R23, R32, R113). -/
theorem Works.claimSet_eq {w : Works} {e : Env} (hring : w.notices.ring.length ≤ 32) {msgs : List OutMsg}
    (hmsgs : msgs = claimMessages (w.claimEntries e)) :
    w.claimSet e =
      { w with
        ctx := w.ctx.map Context.released
        tx := (w.tx.withClaims msgs).pick e.cfg
        notices :=
          { ring :=
              (List.replicate (w.tx.claimsDropped msgs)
                  ({ kind := .txDrop, chan := none, param := paramBytes 3 0 0 0, frame := e.now } : Notice) ++
                w.notices.ring).take 32
            count := w.notices.count + BitVec.ofNat 16 (w.tx.claimsDropped msgs) } } := by
  rw [Works.claimSet, ← hmsgs, Works.eachChannel_mod, Works.placeClaims]
  dsimp only
  rw [Works.notice_repeated (by exact hring)]
  rfl

/-! ## Cues (R24) -/

/-- The first CUE to the server and port is the one replaced. -/
theorem replaceCue_append {server port : Nat} {before after : List OutMsg} {old : OutMsg} (new : OutMsg)
    (hold : old.isCueTo server port = true) (hbefore : ∀ m ∈ before, m.isCueTo server port = false) :
    replaceCue server port new (before ++ old :: after) = before ++ new :: after := by
  induction before with
  | nil => simp [replaceCue, hold]
  | cons m before ih =>
    have hm : m.isCueTo server port = false := hbefore m (by simp)
    simp [replaceCue, hm, ih fun m hm => hbefore m (by simp [hm])]

section
variable {e : Env} {w : Works} {q : Cue}

theorem Works.placeCue_replaces {before after : List OutMsg} {old : OutMsg} (hq : w.tx.urgent = before ++ old :: after)
    (hold : old.isCueTo q.server q.port = true) (hbefore : ∀ m ∈ before, m.isCueTo q.server q.port = false) :
    w.placeCue e q = { w with tx := { w.tx with urgent := before ++ OutMsg.cue q :: after }.pick e.cfg } := by
  have hany : w.tx.urgent.any (OutMsg.isCueTo q.server q.port) = true := by simp [hq, hold]
  simp only [Works.placeCue, hany, if_true]
  rw [hq, replaceCue_append _ hold hbefore]

theorem Works.placeCue_joins (hnew : ∀ m ∈ w.tx.urgent, m.isCueTo q.server q.port = false)
    (hroom : w.tx.urgent.length + w.tx.flying .urgent < 16) :
    w.placeCue e q = { w with tx := { w.tx with urgent := w.tx.urgent ++ [OutMsg.cue q] }.pick e.cfg } := by
  have hany : w.tx.urgent.any (OutMsg.isCueTo q.server q.port) = false := by simpa using hnew
  simp only [Works.placeCue, hany, Bool.false_eq_true, if_false, if_pos hroom]

theorem Works.placeCue_drops (hnew : ∀ m ∈ w.tx.urgent, m.isCueTo q.server q.port = false)
    (hfull : 16 ≤ w.tx.urgent.length + w.tx.flying .urgent) :
    w.placeCue e q =
      ({ w with tx := { w.tx with urgentDropped := bump w.tx.urgentDropped } } : Works).notice e .txDrop none
        (paramBytes 4 q.server q.port 0) := by
  have hany : w.tx.urgent.any (OutMsg.isCueTo q.server q.port) = false := by simpa using hnew
  simp only [Works.placeCue, hany, Bool.false_eq_true, if_false, if_neg (Nat.not_lt.mpr hfull)]
  rfl

end

/-- Settles O10: the claim set by its entries and the room it finds, a CUE by what the queue holds. -/
theorem urgentPlacementsAreMade : Obligations.UrgentPlacementsAreMade := by
  refine ⟨?_, fun e w q => ⟨fun before old after hq hold hbefore => Works.placeCue_replaces hq hold hbefore,
    fun hnew => ⟨Works.placeCue_joins hnew, Works.placeCue_drops hnew⟩⟩⟩
  rintro s entry entries msgs others place dropped drop hentry rfl hmsgs rfl rfl rfl hring rfl
  rw [Works.claimEntries_eq (e := s.boundaryEnv) hentry, ← claimMessages_eq] at hmsgs
  have hset := Works.claimSet_eq (e := s.boundaryEnv) hring hmsgs
  refine ⟨_, rfl, ?_, fun c x hx => ?_, ?_, ?_, ?_⟩
  all_goals simp only [runWork, State.atWorks, State.onWorks, hset]
  · rw [hx, ← Context.released_eq]
    simp [Works.at]
  · rw [Transmitter.withClaims_eq]
    rfl
  · rfl
  · rfl

end Sys2Proof.Machine
end

