-- ==== Sys2Proof/Proofs/Report.lean ====
section
/-! SUPPORT. R25, R51, R180 to R182, R191: the fields of the two halves of a REPORT at their offsets, and the build at
the boundary. -/

namespace Sys2Proof.Machine

/-! ## Numbers laid out one after the other (R190) -/

/-- Numbers, each with its width in bytes, spelled one after the other. -/
def layout (fs : List (Nat × Nat)) : List Byte := fs.flatMap fun f => beBytes f.1 f.2

/-- The fields of a layout that begins at an offset: the offset, the width and the number of each. -/
def fieldsFrom : Nat → List (Nat × Nat) → List (Nat × Nat × Nat)
  | _, [] => []
  | o, (n, x) :: fs => (o, n, x) :: fieldsFrom (o + n) fs

theorem layout_cons (n x : Nat) (fs : List (Nat × Nat)) : layout ((n, x) :: fs) = beBytes n x ++ layout fs := rfl

/-- A field of a layout is read back at its offset, modulo what its bytes hold. -/
theorem fieldAt_layout {fs : List (Nat × Nat)} {pre : List Byte} {o n x : Nat}
    (h : (o, n, x) ∈ fieldsFrom pre.length fs) (post : List Byte) :
    fieldAt (pre ++ (layout fs ++ post)) o n = x % 256 ^ n := by
  induction fs generalizing pre with
  | nil => cases h
  | cons f fs ih =>
    rw [layout_cons, List.append_assoc]
    rcases List.mem_cons.mp h with hhere | hlater
    · cases hhere
      rw [fieldAt_append (le_refl _), Nat.sub_self, fieldAt_zero (beBytes_length _ _), beNat_beBytes]
    · rw [← List.append_assoc]
      exact ih (by rwa [List.length_append, beBytes_length])

/-- A flag bit is its weight times the flag. -/
theorem flagBit_eq (b : Bool) (n : Nat) : flagBit b n = 2 ^ n * b.toNat := by cases b <;> simp [flagBit]

theorem getElem?_zeros {pre : List Byte} {n o : Nat} (hlow : pre.length ≤ o) (hhigh : o < pre.length + n) :
    (pre ++ List.replicate n (0 : Byte))[o]? = some 0 := by
  rw [List.getElem?_append_right hlow, List.getElem?_replicate, if_pos (by omega)]

/-! ## Channel sections (R181) -/

/-- The fields of a channel section, the live revision only when there is one (log 9). -/
theorem Context.sectionBytes_fields (x : Context) (now : Frame) (half offset : Nat) :
    SectionAt (x.sectionBytes now half offset) 0 x := by
  obtain ⟨hstate, hstatus⟩ := x.sectionBytes_codes now half offset
  refine ⟨hstate, hstatus, fun v hv => ?_, ?_⟩
  · simp only [Context.sectionBytes, hv, halfBytes, List.append_assoc]
    rw [fieldAt_append (by simp), fieldAt_append (by simp)]
    exact fieldAt_beBytes v.isLt _
  · have hflags : ∀ bs : List Byte, bs.length = 2 → ∀ k, fieldAt
        (beBytes 1 x.state.code ++ beBytes 1 x.mirror.status.code ++ bs ++ beBytes 1 k) 4 1 = k % 256 := by
      intro bs hbs k
      rw [fieldAt_append (by simp [hbs])]
      simp [hbs, fieldAt_cons_zero]
    unfold Context.sectionBytes
    refine (hflags _ (by split <;> simp) _).trans ?_
    have h0 := x.armed.toNat_le
    have h1 := x.isHeld.toNat_le
    have h2 := (decide (x.active = .alternate)).toNat_le
    have h3 := x.poolShort.toNat_le
    have h4 := x.dualSeen.toNat_le
    have h5 := x.mirror.liveRev.isSome.toNat_le
    simp only [flagBit_eq]
    omega

/-- A section is read wherever its five bytes stand. -/
theorem SectionAt.moved {payload bytes : List Byte} {k : Nat} {x : Context}
    (hmoved : ∀ o n, o + n ≤ 5 → fieldAt payload (k + o) n = fieldAt bytes o n) (h : SectionAt bytes 0 x) :
    SectionAt payload k x := by
  obtain ⟨hstate, hstatus, hrev, hflags⟩ := h
  refine ⟨(hmoved 0 1 (by decide)).trans hstate, (hmoved 1 1 (by decide)).trans hstatus,
    fun v hv => (hmoved 2 2 (by decide)).trans (hrev v hv), (hmoved 4 1 (by decide)).trans hflags⟩

/-- The eight sections of a half, each at its offset. -/
theorem Works.sections_at (w : Works) (now : Frame) (half offset : Nat) {first : Nat} (hf : first + 8 ≤ 16) {c : Chan}
    (hlow : first ≤ c.val) (hhigh : c.val < first + 8) (pre post : List Byte) :
    SectionAt (pre ++ w.sections now half offset first ++ post) (pre.length + 5 * (c.val - first)) (w.at c) := by
  have hi : c.val - first < (List.range 8).length := by rw [List.length_range]; omega
  have hlen := w.sections_length now half offset hf
  have hc : first + (c.val - first) = c.val := by omega
  refine SectionAt.moved (fun o n hon => ?_)
    (Context.sectionBytes_fields (w.at c) now half (offset + 5 * (c.val - first)))
  rw [Nat.add_assoc, fieldAt_middle (by omega), Works.sections,
    fieldAt_flatMap (w.sections_place_length now half offset hf) hi hon, List.getElem_range]
  simp only [hc, c.isLt, dif_pos]

/-! ## Half 0 (R181) -/

/-- The two numbers of the configuration state (R184). -/
def LoadState.numbers : LoadState → Nat × Nat
  | .good n => (1, n)
  | .fault cause => (2, cause.code)
  | _ => (0, 0)

theorem LoadState.bytes_eq (load : LoadState) : load.bytes = beBytes 1 load.numbers.1 ++ beBytes 1 load.numbers.2 := by
  cases load <;> rfl

/-- The fields of a lane's counters, in order. -/
def LaneIf.counterFields (x : LaneIf) : List (Nat × Nat) :=
  [(2, x.checkError.toNat), (2, x.truncated.toNat), (2, x.framingLost.toNat), (2, x.overrun.toNat),
    (2, x.unknownKind.toNat), (2, x.lengthError.toNat)]

/-- The fields of half 0 before its channel sections, in order (12 section 12.5). -/
def State.half0Layout (s : State) : List (Nat × Nat) :=
  [(1, 0), (1, flagBit s.isolated 0 + flagBit s.clk.refLost 1 + flagBit s.clk.loaded 2 + flagBit s.clk.loadPending 3),
    (1, s.load.numbers.1), (1, s.load.numbers.2), (1, s.laneA.state.code + 16 * s.laneB.state.code)] ++
  s.laneA.counterFields ++ s.laneB.counterFields ++
  [(2, s.disp.badSender.toNat), (2, s.disp.malformed.toNat), (2, s.disp.cueIgnored.toNat),
    (2, s.disp.notTargeted.toNat), (2, s.disp.foreignTally.toNat), (2, s.disp.foreignSegment.toNat),
    (2, s.clk.refGlitch.toNat), (2, s.clk.foreignMark.toNat),
    (1, roleCount s.cfg.lossFrames s.peers Roles.origin), (1, roleCount s.cfg.lossFrames s.peers Roles.recovery),
    (1, roleCount s.cfg.lossFrames s.peers Roles.server), (1, roleCount s.cfg.lossFrames s.peers Roles.control),
    (1, roleCount s.cfg.lossFrames s.peers Roles.time), (2, s.works.tx.account),
    (2, s.works.tx.urgentDropped.toNat), (2, s.works.tx.routineDiscarded.toNat), (2, s.works.tx.bulkNotBuilt.toNat),
    (2, s.works.tx.busySkipA.toNat), (2, s.works.tx.busySkipB.toNat), (2, s.works.freeSlots),
    (2, s.works.counters.segmentRange.toNat), (2, s.works.counters.tallySanity.toNat),
    (2, s.works.counters.tallyStale.toNat), (2, s.works.counters.claimRange.toNat),
    (2, s.works.counters.claimTableFull.toNat), (2, s.works.counters.foreignStatus.toNat),
    (2, s.works.counters.unknownController.toNat)]

theorem State.half0Layout_length (s : State) : (layout s.half0Layout).length = 78 := by
  simp [layout, State.half0Layout, LaneIf.counterFields]

/-- Half 0 is its fields, the first eight channel sections and the fill (12 section 12.5). -/
theorem State.reportHalf0_layout (s : State) :
    s.reportHalf0 = layout s.half0Layout ++ s.works.sections s.clk.count 0 78 0 ++ List.replicate 42 0 := by
  have hzero : [(0 : Byte)] = beBytes 1 0 := rfl
  unfold State.reportHalf0
  generalize s.works.sections s.clk.count 0 78 0 = sections
  generalize List.replicate 42 (0 : Byte) = fill
  simp only [hzero, LoadState.bytes_eq, State.half0Layout, LaneIf.counterFields, layout, LaneIf.counterBytes,
    Dispatcher.counterBytes, Transmitter.counterBytes, roleSummary, halfBytes, List.flatMap_append, List.flatMap_cons,
    List.flatMap_nil, List.append_nil, List.append_assoc]

theorem State.reportHalf0_length (s : State) : s.reportHalf0.length = 160 := by
  rw [s.reportHalf0_layout, List.length_append, List.length_append, s.half0Layout_length,
    s.works.sections_length _ _ _ (by decide), List.length_replicate]

theorem State.reportHalf0_first (s : State) : s.reportHalf0.head? = some 0 := by
  rw [s.reportHalf0_layout]
  simp [State.half0Layout, layout_cons]

/-- A field of half 0 is read at its offset. -/
theorem State.reportHalf0_field {s : State} {o n x : Nat} (h : (o, n, x) ∈ fieldsFrom 0 s.half0Layout) :
    fieldAt s.reportHalf0 o n = x % 256 ^ n := by
  rw [s.reportHalf0_layout, List.append_assoc]
  exact fieldAt_layout (pre := []) h _

/-- A half 0 holds its flags, the configuration state and the lane states (R181). -/
theorem State.reportHalf0_head (s : State) :
    fieldAt s.reportHalf0 1 1 =
        s.isolated.toNat + 2 * s.clk.refLost.toNat + 4 * s.clk.loaded.toNat + 8 * s.clk.loadPending.toNat ∧
      fieldAt s.reportHalf0 2 1 = s.load.numbers.1 % 256 ∧ fieldAt s.reportHalf0 3 1 = s.load.numbers.2 % 256 ∧
      fieldAt s.reportHalf0 4 1 = s.laneA.state.code + 16 * s.laneB.state.code := by
  have ha := s.laneA.state.code_le
  have hb := s.laneB.state.code_le
  have h0 := s.isolated.toNat_le
  have h1 := s.clk.refLost.toNat_le
  have h2 := s.clk.loaded.toNat_le
  have h3 := s.clk.loadPending.toNat_le
  refine ⟨(State.reportHalf0_field (.tail _ (.head _))).trans ?_,
    State.reportHalf0_field (.tail _ (.tail _ (.head _))),
    State.reportHalf0_field (.tail _ (.tail _ (.tail _ (.head _)))),
    (State.reportHalf0_field (.tail _ (.tail _ (.tail _ (.tail _ (.head _)))))).trans ?_⟩
  · simp only [flagBit_eq]
    omega
  · omega

/-- A counter of half 0 is read at its offset (R181). -/
theorem State.reportHalf0_counter {s : State} {o : Nat} {count : Half}
    (h : (o, 2, count.toNat) ∈ fieldsFrom 0 s.half0Layout) : fieldAt s.reportHalf0 o 2 = count.toNat :=
  (State.reportHalf0_field h).trans (Nat.mod_eq_of_lt count.isLt)

/-- The six counters of each lane (R181). -/
theorem State.reportHalf0_lane {s : State} {o : Nat} {l : LaneIf} (h : (o, l) ∈ [(5, s.laneA), (17, s.laneB)]) :
    fieldAt s.reportHalf0 o 2 = l.checkError.toNat ∧ fieldAt s.reportHalf0 (o + 2) 2 = l.truncated.toNat ∧
      fieldAt s.reportHalf0 (o + 4) 2 = l.framingLost.toNat ∧ fieldAt s.reportHalf0 (o + 6) 2 = l.overrun.toNat ∧
      fieldAt s.reportHalf0 (o + 8) 2 = l.unknownKind.toNat ∧
      fieldAt s.reportHalf0 (o + 10) 2 = l.lengthError.toNat := by
  simp only [List.mem_cons, Prod.mk.injEq, List.not_mem_nil, or_false] at h
  rcases h with ⟨rfl, rfl⟩ | ⟨rfl, rfl⟩
  all_goals
    refine ⟨?_, ?_, ?_, ?_, ?_, ?_⟩
    all_goals
      refine State.reportHalf0_counter ?_
      simp [State.half0Layout, LaneIf.counterFields, fieldsFrom]

/-- The counters of half 0 besides those of the lanes, each with its offset (R181). -/
def State.half0Counters (s : State) : List (Nat × Half) :=
  [(29, s.disp.badSender), (31, s.disp.malformed), (33, s.disp.cueIgnored), (35, s.disp.notTargeted),
    (37, s.disp.foreignTally), (39, s.disp.foreignSegment), (41, s.clk.refGlitch), (43, s.clk.foreignMark),
    (52, s.works.tx.urgentDropped), (54, s.works.tx.routineDiscarded), (56, s.works.tx.bulkNotBuilt),
    (58, s.works.tx.busySkipA), (60, s.works.tx.busySkipB), (64, s.works.counters.segmentRange),
    (66, s.works.counters.tallySanity), (68, s.works.counters.tallyStale), (70, s.works.counters.claimRange),
    (72, s.works.counters.claimTableFull), (74, s.works.counters.foreignStatus),
    (76, s.works.counters.unknownController)]

theorem State.reportHalf0_counters (s : State) : ∀ p ∈ s.half0Counters, fieldAt s.reportHalf0 p.1 2 = p.2.toNat := by
  have hplaced : ∀ p ∈ s.half0Counters, (p.1, 2, p.2.toNat) ∈ fieldsFrom 0 s.half0Layout := by
    simp [State.half0Counters, State.half0Layout, LaneIf.counterFields, fieldsFrom]
  exact fun p hp => State.reportHalf0_counter (hplaced p hp)

/-- The roles of the role summary, each with its offset (R51). -/
def roleOffsets : List (Nat × (Roles → Bool)) :=
  [(45, Roles.origin), (46, Roles.recovery), (47, Roles.server), (48, Roles.control), (49, Roles.time)]

theorem State.reportHalf0_roles (s : State) :
    ∀ p ∈ roleOffsets, fieldAt s.reportHalf0 p.1 1 = roleCount s.cfg.lossFrames s.peers p.2 % 256 := by
  have hplaced : ∀ p ∈ roleOffsets, (p.1, 1, roleCount s.cfg.lossFrames s.peers p.2) ∈ fieldsFrom 0 s.half0Layout := by
    simp [roleOffsets, State.half0Layout, LaneIf.counterFields, fieldsFrom]
  exact fun p hp => State.reportHalf0_field (hplaced p hp)

/-- The account, and the free slots of the event pool (R181). -/
theorem State.reportHalf0_stocks (s : State) :
    fieldAt s.reportHalf0 50 2 = s.works.tx.account % 65536 ∧
      fieldAt s.reportHalf0 62 2 = 4096 - s.works.usedSlots := by
  have haccount : (50, 2, s.works.tx.account) ∈ fieldsFrom 0 s.half0Layout := by
    simp [State.half0Layout, LaneIf.counterFields, fieldsFrom]
  have hslots : (62, 2, s.works.freeSlots) ∈ fieldsFrom 0 s.half0Layout := by
    simp [State.half0Layout, LaneIf.counterFields, fieldsFrom]
  refine ⟨State.reportHalf0_field haccount, (State.reportHalf0_field hslots).trans ?_⟩
  unfold Works.freeSlots
  omega

/-- Channel sections 0 to 7 stand from offset 78 on, and fill of 0 behind them (R191). -/
theorem State.reportHalf0_rest (s : State) :
    (∀ c : Chan, c.val < 8 → SectionAt s.reportHalf0 (78 + 5 * c.val) (s.works.at c)) ∧
      ∀ o, 118 ≤ o → o < 160 → s.reportHalf0[o]? = some 0 := by
  have hpre : (layout s.half0Layout ++ s.works.sections s.clk.count 0 78 0).length = 118 := by
    rw [List.length_append, s.half0Layout_length, s.works.sections_length _ _ _ (by decide)]
  rw [s.reportHalf0_layout]
  refine ⟨fun c hc => ?_, fun o hlow hhigh => getElem?_zeros (by omega) (by omega)⟩
  have hat := s.works.sections_at s.clk.count 0 78 (first := 0) (by decide) (Nat.zero_le c.val) (by omega)
    (layout s.half0Layout) (List.replicate 42 0)
  rwa [s.half0Layout_length] at hat

/-! ## Half 1 (R182) -/

/-- The fields of a notice place that holds a notice (R191). -/
theorem Notice.bytes_fields (n : Notice) :
    fieldAt n.bytes 0 1 = n.kind.code ∧
      (∀ c, n.chan = some c → fieldAt n.bytes 1 1 = c.val) ∧ (n.chan = none → fieldAt n.bytes 1 1 = 255) ∧
      fieldAt n.bytes 2 4 = n.param.toNat ∧ fieldAt n.bytes 6 4 = n.frame.toNat := by
  obtain ⟨kind, chan, param, frame⟩ := n
  have hkind : kind.code < 256 := by cases kind <;> decide
  have hread : ∀ k, ∀ f ∈ fieldsFrom 0 [(1, kind.code), (1, k), (4, param.toNat), (4, frame.toNat)],
      fieldAt (beBytes 1 kind.code ++ beBytes 1 k ++ beBytes 4 param.toNat ++ beBytes 4 frame.toNat) f.1 f.2.1 =
        f.2.2 % 256 ^ f.2.1 := by
    intro k f hf
    have := fieldAt_layout (pre := []) hf []
    simpa [layout] using this
  have hparam : param.toNat % 256 ^ 4 = param.toNat := Nat.mod_eq_of_lt param.isLt
  have hframe : frame.toNat % 256 ^ 4 = frame.toNat := Nat.mod_eq_of_lt frame.isLt
  refine ⟨(hread _ _ (.head _)).trans (Nat.mod_eq_of_lt hkind), ?_, ?_,
    (hread _ _ (.tail _ (.tail _ (.head _)))).trans hparam,
    (hread _ _ (.tail _ (.tail _ (.tail _ (.head _))))).trans hframe⟩
  · rintro c rfl
    refine (hread _ _ (.tail _ (.head _))).trans (Nat.mod_eq_of_lt ?_)
    have := c.isLt
    dsimp only
    omega
  · rintro rfl
    exact hread _ _ (.tail _ (.head _))

/-- The fields of half 1 behind the notice places: the notice count, the last numbers and their marks (R182). -/
def Works.half1Layout (w : Works) (now : Frame) : List (Nat × Nat) :=
  (2, w.notices.count.toNat) :: ((List.finRange 4).map fun i => (1, (w.numberByte now i).toNat)) ++
    [(1, ((List.finRange 4).map fun i => flagBit w.lastNumbers[i].isSome i.val).sum)]

/-- Half 1 is its first byte, the last eight channel sections, the notice places, its fields and the fill. -/
theorem Works.reportHalf1_layout (w : Works) (now : Frame) :
    w.reportHalf1 now =
      [1] ++ w.sections now 1 1 8 ++ (List.range 4).flatMap (w.noticePlace now) ++
        (layout (w.half1Layout now) ++ List.replicate 72 0) := by
  have hbyte : ∀ b : Byte, beBytes 1 b.toNat = [b] := fun b => by simp
  have hnumbers : (List.finRange 4).map (w.numberByte now) =
      layout ((List.finRange 4).map fun i => (1, (w.numberByte now i).toNat)) := by
    simp only [layout, List.flatMap_map, hbyte]
    rw [List.map_eq_flatMap]
  unfold Works.reportHalf1
  rw [hnumbers]
  simp only [Works.half1Layout, layout, halfBytes, List.flatMap_append, List.flatMap_cons, List.flatMap_nil,
    List.append_nil, List.append_assoc]

section
variable (w : Works) (now : Frame)

theorem Works.noticePlaces_length : ((List.range 4).flatMap (w.noticePlace now)).length = 40 :=
  length_flatMap_const fun i _ => w.noticePlace_length now i

theorem Works.half1Places_length :
    ([1] ++ w.sections now 1 1 8 ++ (List.range 4).flatMap (w.noticePlace now)).length = 81 := by
  rw [List.length_append, List.length_append, w.sections_length _ _ _ (by decide), w.noticePlaces_length]
  rfl

theorem Works.half1Layout_length : (layout (w.half1Layout now)).length = 7 := by
  simp [layout, Works.half1Layout, Function.comp_def, List.length_flatMap]

theorem Works.reportHalf1_length : (w.reportHalf1 now).length = 160 := by
  rw [w.reportHalf1_layout, List.length_append, w.half1Places_length, List.length_append, w.half1Layout_length,
    List.length_replicate]

/-- A field of half 1 behind the notice places is read at its offset. -/
theorem Works.reportHalf1_field {o n x : Nat} (h : (o, n, x) ∈ fieldsFrom 81 (w.half1Layout now)) :
    fieldAt (w.reportHalf1 now) o n = x % 256 ^ n := by
  rw [w.reportHalf1_layout]
  exact fieldAt_layout (by rwa [w.half1Places_length]) _

/-- Channel sections 8 to 15 stand from offset 1 on (R191). -/
theorem Works.reportHalf1_sections {c : Chan} (hc : 8 ≤ c.val) :
    SectionAt (w.reportHalf1 now) (5 * c.val - 39) (w.at c) := by
  have hat := w.sections_at now 1 1 (first := 8) (by decide) hc (by omega) [1]
    ((List.range 4).flatMap (w.noticePlace now) ++ (layout (w.half1Layout now) ++ List.replicate 72 0))
  rw [← List.append_assoc, ← w.reportHalf1_layout] at hat
  rwa [show 5 * c.val - 39 = [(1 : Byte)].length + 5 * (c.val - 8) by rw [List.length_singleton]; omega]

/-- The four notice places stand from offset 41 on (R182). -/
theorem Works.reportHalf1_place {i : Nat} (hi : i < 4) {o n : Nat} (hon : o + n ≤ 10) :
    fieldAt (w.reportHalf1 now) (41 + 10 * i + o) n = fieldAt (w.noticePlace now i) o n := by
  have hpre : ([1] ++ w.sections now 1 1 8).length = 41 := by
    rw [List.length_append, w.sections_length _ _ _ (by decide)]
    rfl
  rw [w.reportHalf1_layout, Nat.add_assoc, ← hpre,
    fieldAt_middle (by rw [w.noticePlaces_length]; omega),
    fieldAt_flatMap (fun i _ => w.noticePlace_length now i) (by simpa using hi) hon, List.getElem_range]

/-- Fill of 0 ends half 1 (R191). -/
theorem Works.reportHalf1_fill {o : Nat} (hlow : 88 ≤ o) (hhigh : o < 160) : (w.reportHalf1 now)[o]? = some 0 := by
  have hpre : ([1] ++ w.sections now 1 1 8 ++ (List.range 4).flatMap (w.noticePlace now) ++
      layout (w.half1Layout now)).length = 88 := by
    rw [List.length_append, w.half1Places_length, w.half1Layout_length]
  rw [w.reportHalf1_layout, ← List.append_assoc]
  exact getElem?_zeros (by omega) (by omega)

/-- The notice count, and the last directive numbers that are not absent (R182, log 9). -/
theorem Works.reportHalf1_numbers :
    fieldAt (w.reportHalf1 now) 81 2 = w.notices.count.toNat ∧
      ∀ (i : Fin 4) (n : Byte), w.lastNumbers[i] = some n → fieldAt (w.reportHalf1 now) (83 + i.val) 1 = n.toNat := by
  refine ⟨(w.reportHalf1_field now (.head _)).trans (Nat.mod_eq_of_lt w.notices.count.isLt), fun i n hn => ?_⟩
  have hbyte : w.numberByte now i = n := by simp only [Works.numberByte, hn]
  have hplaced : ∀ j : Fin 4, (83 + j.val, 1, (w.numberByte now j).toNat) ∈ fieldsFrom 81 (w.half1Layout now) := by
    simp [Works.half1Layout, List.finRange_succ, fieldsFrom, Fin.forall_fin_succ]
  refine (w.reportHalf1_field now (hplaced i)).trans ?_
  rw [hbyte]
  exact Nat.mod_eq_of_lt n.isLt

/-- The notice at a place of half 1, and the kind byte 0 of an empty place (R182, log 9). -/
theorem Works.reportHalf1_notices {i : Nat} (hi : i < 4) :
    (∀ n, w.notices.ring[i]? = some n → ∀ o k, o + k ≤ 10 →
        fieldAt (w.reportHalf1 now) (41 + 10 * i + o) k = fieldAt n.bytes o k) ∧
      (w.notices.ring[i]? = none → fieldAt (w.reportHalf1 now) (41 + 10 * i) 1 = 0) := by
  refine ⟨fun n hn o k hok => ?_, fun hnone => ?_⟩
  · rw [w.reportHalf1_place now hi hok, Works.noticePlace, hn]
  · refine (w.reportHalf1_place now hi (o := 0) (n := 1) (by decide)).trans ?_
    rw [Works.noticePlace, hnone]
    exact fieldAt_cons_zero _ _

/-- Four flags are read back from their sum (R190). -/
theorem flagBits_testBit (b : Fin 4 → Bool) (i : Fin 4) :
    (((List.finRange 4).map fun j => flagBit (b j) j.val).sum % 256).testBit i.val = b i := by
  have hall : ∀ b0 b1 b2 b3 : Bool,
      ∀ i : Fin 4, ((flagBit b0 0 + (flagBit b1 1 + (flagBit b2 2 + flagBit b3 3))) % 256).testBit i.val =
        [b0, b1, b2, b3][i] := by decide
  have hsum : ((List.finRange 4).map fun j => flagBit (b j) j.val).sum =
      flagBit (b 0) 0 + (flagBit (b 1) 1 + (flagBit (b 2) 2 + flagBit (b 3) 3)) := by
    simp [List.finRange_succ]
  rw [hsum, hall]
  fin_cases i <;> rfl

/-- A mark says whether a last number is absent (R182). -/
theorem Works.reportHalf1_marks (i : Fin 4) :
    (fieldAt (w.reportHalf1 now) 87 1).testBit i.val = w.lastNumbers[i].isSome := by
  have hplaced : (87, 1, ((List.finRange 4).map fun i => flagBit w.lastNumbers[i].isSome i.val).sum) ∈
      fieldsFrom 81 (w.half1Layout now) := by
    simp [Works.half1Layout, List.finRange_succ, fieldsFrom]
  rw [w.reportHalf1_field now hplaced, pow_one, flagBits_testBit fun i => w.lastNumbers[i].isSome]

end

/-! ## The build (R25, R180) -/

/-- Placing a REPORT changes nothing but the transmitter (R25). -/
theorem Works.placeReport_eq (w : Works) (e : Env) (payload : List Byte) :
    w.placeReport e payload =
      { w with
        tx :=
          (if w.tx.routine.length + w.tx.flying .routine < 4 then
            { w.tx with routine := w.tx.routine ++ [OutMsg.report payload] }
          else
            { w.tx with
              routine := w.tx.routine.tail ++ [OutMsg.report payload]
              routineDiscarded := bump w.tx.routineDiscarded } : Transmitter).pick e.cfg } := by
  unfold Works.placeReport
  dsimp only
  split
  · rfl
  · rw [List.drop_one]

/-- The command of the build does the REPORT work of the boundary. -/
theorem State.Outstanding.reportBuild {s : State} (h : s.Outstanding .report)
    (hp : s.cfg.reportPeriod ≤ s.works.reportCount + 1) :
    exec .reportBuild s =
      .next { s with
              works :=
                { s.works.placeReport s.boundaryEnv s.nextReport with reportCount := 0, nextHalf := s.turnHalf }
              due := s.due.erase .report } := by
  have hdue : s.reportDue = true := decide_eq_true hp
  have hwork : runWork .report s = s.buildReport := by
    simp only [runWork, State.reportBoundary, hdue, if_true]
  refine congrArg Host.Outcome.next ((h.slice hdue).trans ?_)
  rw [hwork]
  rfl

/-- In CONFIG_FAULT half 0 is built, and otherwise the next half (R180). -/
theorem State.nextReport_cases {s : State} (h : s.works.nextHalf ≤ 1) :
    ((s.inFault = true ∨ s.works.nextHalf = 0) ∧ s.nextReport = s.reportHalf0) ∨
      (s.inFault = false ∧ s.works.nextHalf = 1 ∧ s.nextReport = s.works.reportHalf1 s.clk.count) := by
  unfold State.nextReport
  split
  · rename_i h0
    exact .inl ⟨h0, rfl⟩
  · rename_i h1
    obtain ⟨hfault, hhalf⟩ := not_or.mp h1
    exact .inr ⟨by simpa using hfault, by omega, rfl⟩

/-- Settles O50: the build by its command, and each half by its layout. -/
theorem reportIsBuilt : Obligations.ReportIsBuilt := by
  rintro s half payload hle hhalf rfl
  have hbuilt : half = if s.inFault then 0 else s.works.nextHalf := by
    rw [hhalf]
    cases hl : s.load <;> simp [State.inFault, hl]
  refine ⟨fun hout hperiod => ?_, ?_⟩
  · refine ⟨_, hout.reportBuild hperiod, ⟨rfl, rfl, rfl, rfl, rfl, rfl, rfl, rfl, rfl, rfl⟩, rfl, ?_, ?_, ?_, ?_⟩
    all_goals simp only [Works.placeReport_eq]
    · cases hl : s.load <;> simp [State.turnHalf, State.inFault, hl]
    · intro hroom
      rw [if_pos hroom]
      rfl
    · intro hfull
      rw [if_neg (Nat.not_lt.mpr hfull)]
      rfl
  rcases State.nextReport_cases hle with ⟨hzero, hpayload⟩ | ⟨hgood, hone, hpayload⟩
  all_goals rw [hpayload]
  · obtain rfl : half = 0 := by rcases hzero with h | h <;> simp [hbuilt, h]
    refine ⟨s.reportHalf0_length, s.reportHalf0_first, fun _ => ?_, fun h => absurd h (by decide)⟩
    obtain ⟨hflags, hstate, hcause, hlanes⟩ := s.reportHalf0_head
    obtain ⟨haccount, hslots⟩ := s.reportHalf0_stocks
    obtain ⟨hsections, hfill⟩ := s.reportHalf0_rest
    refine ⟨hflags, fun n hn => ?_, fun cause hc => ?_, hlanes, fun o l hl => State.reportHalf0_lane hl,
      fun o count hcount => s.reportHalf0_counters _ hcount, fun o role hrole => s.reportHalf0_roles _ hrole, haccount,
      hslots, hsections, hfill⟩
    · rw [hstate, hcause, hn]
      exact ⟨rfl, rfl⟩
    · rw [hstate, hcause, hc]
      exact ⟨rfl, Nat.mod_eq_of_lt (by cases cause <;> decide)⟩
  · obtain rfl : half = 1 := by simp [hbuilt, hgood, hone]
    refine ⟨s.works.reportHalf1_length _, rfl, fun h => absurd h (by decide), fun _ => ?_⟩
    obtain ⟨hcount, hnumbers⟩ := s.works.reportHalf1_numbers s.clk.count
    refine ⟨fun c hc => s.works.reportHalf1_sections _ hc, fun i o hi ho => ?_, hcount, hnumbers,
      s.works.reportHalf1_marks _, fun o hlow hhigh => s.works.reportHalf1_fill _ hlow hhigh⟩
    subst ho
    obtain ⟨hsome, hnone⟩ := s.works.reportHalf1_notices s.clk.count hi
    refine ⟨fun n hn => ?_, hnone⟩
    obtain ⟨hkind, hchan, hnochan, hparam, hframe⟩ := n.bytes_fields
    refine ⟨(hsome n hn 0 1 (by decide)).trans hkind, (hsome n hn 1 1 (by decide)).trans ?_,
      (hsome n hn 2 4 (by decide)).trans hparam, (hsome n hn 6 4 (by decide)).trans hframe⟩
    cases hc : n.chan with
    | none => exact hnochan hc
    | some c => exact hchan c hc

end Sys2Proof.Machine
end

