-- ==== Sys2Proof/Proofs/Reference.lean ====
section
/-! SUPPORT. R36 to R39, logs 2 to 4: how long the clock runs before the monitor acts by itself, what a REF pulse, a
lost reference and a completed period make of it, and the step of a part that no command waits for. -/

namespace Sys2Proof.Machine

/-! ## The passing of time (log 2) -/

section
variable {t : Timebase} {dt : Nat}

theorem Timebase.advance_of_le (h : t.elapsed + dt ≤ t.deadline) :
    t.advance dt = { t with elapsed := t.elapsed + dt } := by
  simp only [Timebase.advance, Nat.min_eq_left h]

/-- In LOCKED the monitor acts one and a half measured periods after the last accepted pulse (R38). -/
theorem Timebase.lt_deadline_locked (hm : t.monitor = .locked) (n : Nat) : n < t.deadline ↔ 2 * n < 3 * t.period := by
  simp only [Timebase.deadline, hm]
  omega

/-- In FREE_RUN the monitor acts when the rest of the measured period is complete (R39). -/
theorem Timebase.lt_deadline_freeRun (hm : t.monitor = .freeRun) (n : Nat) :
    n < t.deadline ↔ 1024 * n < (1024 - t.base) * t.period := by
  simp only [Timebase.deadline, hm]
  generalize (1024 - t.base) * t.period = rest
  omega

/-- A pulse less than half a measured period after the last is a glitch (R37). -/
theorem Timebase.glitch_advance (h : 2 * (t.elapsed + dt) < t.period) (hm : t.monitor = .locked) :
    (t.advance dt).glitch = true ∧ t.advance dt = { t with elapsed := t.elapsed + dt } := by
  have hle : t.elapsed + dt ≤ t.deadline := ((Timebase.lt_deadline_locked hm _).mpr (by omega)).le
  rw [Timebase.advance_of_le hle]
  exact ⟨decide_eq_true h, rfl⟩

end

/-! ## The commands of the monitor (R37 to R39) -/

section
variable {s : State} (left : List Work)

theorem State.Ready.refPulse (h : s.Ready) (dt : Nat) : exec (.refPulse dt left) s = .next (s.refPulse dt left) :=
  congrArg _ (h.whenRunning _)

theorem State.Ready.refLost (h : s.Ready) : exec (.refLost left) s = .next (s.refLost left) :=
  congrArg _ (h.whenRunning _)

theorem State.Ready.freeRunBoundary (h : s.Ready) :
    exec (.freeRunBoundary left) s = .next (s.freeRunBoundary left) := congrArg _ (h.whenRunning _)

theorem State.refPulse_locked (hm : s.clk.monitor = .locked) (dt : Nat) :
    s.refPulse dt left = s.lockedPulse left (s.clk.advance dt) := by
  simp only [State.refPulse, hm]

theorem State.refPulse_freeRun (hm : s.clk.monitor = .freeRun) (dt : Nat) :
    s.refPulse dt left = s.freePulse left (s.clk.advance dt) := by
  simp only [State.refPulse, hm]

theorem State.refLost_locked (hm : s.clk.monitor = .locked) :
    s.refLost left = ((s.withClk s.clk.lose).boundary left).monitorNotice .refLost 0 := by
  simp only [State.refLost, hm]

theorem State.freeRunBoundary_freeRun (hm : s.clk.monitor = .freeRun) :
    s.freeRunBoundary left = (s.withClk (s.clk.roll 0)).boundary left := by
  simp only [State.freeRunBoundary, hm]

/-- What a boundary does after the clock has begun a new frame (R36). -/
theorem State.newFrame_made (s : State) {t : Timebase} (h : t.loadPending = false) :
    s.BoundaryMade ((s.withClk t).boundary left) left ∧ ((s.withClk t).boundary left).clk = t :=
  (s.withClk t).boundary_made left h

/-- A boundary stays made when the monitor makes its notice after it (log 21). -/
theorem State.BoundaryMade.monitorNotice {s t : State} {left : List Work} (h : s.BoundaryMade t left)
    (kind : NoticeKind) (param : BitVec 32) : s.BoundaryMade (t.monitorNotice kind param) left := h

theorem State.monitorNotice_newest (s : State) (kind : NoticeKind) (param : BitVec 32) :
    (s.monitorNotice kind param).works.Newest kind none param s.clk.count := rfl

end

/-- Settles O4: by the interval that the clock has counted at the pulse. -/
theorem lockedPulseIsJudged : Obligations.LockedPulseIsJudged := by
  intro s dt left hready hm
  rw [hready.refPulse left dt, State.refPulse_locked left hm]
  refine ⟨fun hshort => ?_, fun hload hlow hhigh => ?_⟩
  · obtain ⟨hglitch, hadvance⟩ := Timebase.glitch_advance hshort hm
    rw [State.lockedPulse, if_pos hglitch, hadvance]
    rfl
  · obtain ⟨hglitch, haccept⟩ := Timebase.accept_advance hlow hhigh hm
    rw [State.lockedPulse, hglitch, haccept]
    exact ⟨_, rfl, s.newFrame_made left hload⟩

/-- Settles O5: each event of the monitor by the frame it begins and the notice after its boundary. -/
theorem freeRunPulsesAndBoundaries : Obligations.FreeRunPulsesAndBoundaries := by
  refine ⟨fun s dt phase left hready hm hload hphase => ?_, fun s left hready hload => ⟨fun hm => ?_, fun hm => ?_⟩⟩
  · subst hphase
    rw [hready.refPulse left dt, State.refPulse_freeRun left hm, State.freePulse]
    refine ⟨fun hlate => ?_, fun hearly => ?_⟩
    · rw [if_pos hlate]
      obtain ⟨hmade, hclk⟩ := s.newFrame_made (t := ((s.clk.advance dt).roll 0).lock) left hload
      refine ⟨_, rfl, hmade.monitorNotice _ _, hclk, ?_⟩
      have hnewest := State.monitorNotice_newest ((s.withClk ((s.clk.advance dt).roll 0).lock).boundary left)
        .refRestored (BitVec.ofInt 32 (1024 - ((s.clk.advance dt).phase : Int)))
      rwa [hclk] at hnewest
    · rw [if_neg (Nat.not_le.mpr hearly)]
      exact ⟨_, rfl, rfl, rfl, rfl, rfl⟩
  · rw [hready.refLost left, State.refLost_locked left hm]
    obtain ⟨hmade, hclk⟩ := s.newFrame_made (t := s.clk.lose) left hload
    refine ⟨_, rfl, hmade.monitorNotice _ _, hclk, ?_⟩
    have hnewest := State.monitorNotice_newest ((s.withClk s.clk.lose).boundary left) .refLost 0
    rwa [hclk] at hnewest
  · rw [hready.freeRunBoundary left, State.freeRunBoundary_freeRun left hm]
    exact ⟨_, rfl, s.newFrame_made left hload⟩

/-! ## The step (logs 2 to 4) -/

section
variable {s : State}

theorem step_idle (h : s.pending = []) : step s = .next s.idle := by
  simp only [step, h]

theorem State.idle_of_due (h : s.due ≠ []) : s.idle = s.settle := if_pos h

theorem State.idle_deaf (hd : s.due = []) (h : s.running = false) : s.idle = s := by
  simp [State.idle, hd, h]

theorem State.Ready.idle (h : s.Ready) : s.idle = s.crystal := by
  simp [State.idle, h.1, h.2]

/-- Before the deadline one crystal period passes. -/
theorem State.crystal_waits (h : s.clk.elapsed + 1 < s.clk.deadline) :
    s.crystal = { s with clk := { s.clk with elapsed := s.clk.elapsed + 1 } } := by
  have hopen : ({ s.clk with elapsed := s.clk.elapsed + 1 } : Timebase).expired = false :=
    decide_eq_false (Nat.not_le.mpr h)
  rw [State.crystal, Timebase.advance_of_le h.le, State.withClk_clk, hopen]
  rfl

theorem Timebase.advance_expired {t : Timebase} {dt : Nat} (h : t.deadline ≤ t.elapsed + dt) :
    (t.advance dt).expired = true :=
  decide_eq_true (Nat.le_min.mpr ⟨h, le_refl _⟩)

/-- At the deadline in LOCKED the reference is lost; the time counted until then is not kept (R38). -/
theorem State.crystal_locked (hm : s.clk.monitor = .locked) (h : s.clk.deadline ≤ s.clk.elapsed + 1) :
    s.crystal = s.refLost [] := by
  have hm' : (s.clk.advance 1).monitor = .locked := hm
  simp only [State.crystal, State.withClk_clk, Timebase.advance_expired h, if_true, hm']
  exact (State.refLost_locked (s := s.withClk (s.clk.advance 1)) [] hm').trans (State.refLost_locked [] hm).symm

/-- At the deadline in FREE_RUN a boundary is made; the time counted until then is not kept (R39). -/
theorem State.crystal_freeRun (hm : s.clk.monitor = .freeRun) (h : s.clk.deadline ≤ s.clk.elapsed + 1) :
    s.crystal = s.freeRunBoundary [] := by
  have hm' : (s.clk.advance 1).monitor = .freeRun := hm
  simp only [State.crystal, State.withClk_clk, Timebase.advance_expired h, if_true, hm']
  exact (State.freeRunBoundary_freeRun (s := s.withClk (s.clk.advance 1)) [] hm').trans
    (State.freeRunBoundary_freeRun [] hm).symm

end

/-- Settles O54: by the cases of the idle step, and of the crystal period by the deadline. -/
theorem stepRunsTheFrontCommand : Obligations.StepRunsTheFrontCommand := by
  refine ⟨fun i s rest => rfl, fun s hq => ?_⟩
  rw [step_idle hq]
  refine ⟨fun hdue => ?_, fun hdue hdeaf => ?_, fun hready hm => ⟨fun hopen => ?_, fun hover => ?_⟩,
    fun hready hm => ⟨fun hopen => ?_, fun hover => ?_⟩⟩
  · rw [State.idle_of_due hdue]
    rfl
  · rw [State.idle_deaf hdue hdeaf]
  · rw [hready.idle, State.crystal_waits ((Timebase.lt_deadline_locked hm _).mpr hopen)]
  · have hdeadline : ¬s.clk.elapsed + 1 < s.clk.deadline := by
      rw [Timebase.lt_deadline_locked hm]
      exact Nat.not_lt.mpr hover
    rw [hready.idle, State.crystal_locked hm (Nat.not_lt.mp hdeadline), hready.refLost]
  · rw [hready.idle, State.crystal_waits ((Timebase.lt_deadline_freeRun hm _).mpr hopen)]
  · have hdeadline : ¬s.clk.elapsed + 1 < s.clk.deadline := by
      rw [Timebase.lt_deadline_freeRun hm]
      exact Nat.not_lt.mpr hover
    rw [hready.idle, State.crystal_freeRun hm (Nat.not_lt.mp hdeadline), hready.freeRunBoundary]

end Sys2Proof.Machine
end

