-- ==== Sys2Proof/Proofs/TimeLoad.lean ====
section
/-! SUPPORT. R41 to R46, R56: when a time load is made and when it waits, how estimates, arrival ticks and notices
follow the count, and what a time mark and a RETIME do to the clock. -/

namespace Sys2Proof.Machine

/-! ## Values held to a bound (R44, R52) -/

theorem clampInt_eq {lo hi : Int} (h : lo ≤ hi) (x : Int) : clampInt lo hi x = max lo (min hi x) := by
  unfold clampInt
  split
  · omega
  · split <;> omega

theorem saturate_eq (x : Int) :
    saturate x = (max (-2147483647) (min 2147483647 x), decide (2147483647 < x.natAbs)) := by
  have hlo : -sampleBound ≤ sampleBound := by decide
  refine Prod.ext (clampInt_eq hlo x) (decide_eq_decide.mpr ?_)
  simp only [sampleBound]
  omega

/-- An estimate moves with the count and is held to its bounds (R44, R56). -/
theorem Estimator.shift_est (x : Estimator) (delta : Int) :
    (x.shift delta).1 =
      if x.valid then
        { x with
          e := max (-sampleBound) (min sampleBound (x.e + delta * 1024))
          sat := x.sat || decide (sampleBound < (x.e + delta * 1024).natAbs) }
      else x := by
  have hbound : (sampleBound < ((x.e + delta * 1024).natAbs : Int)) ↔ 2147483647 < (x.e + delta * 1024).natAbs := by
    simp only [sampleBound]
    omega
  unfold Estimator.shift
  split
  · simp only [saturate_eq, hbound]
    rfl
  · rfl

/-- A time load sets a SAT flag from clear where a valid estimate passes a bound (R56). -/
theorem Estimator.shift_satSet (x : Estimator) (delta : Int) :
    (x.shift delta).2 = (x.valid && !x.sat && decide (2147483647 < (x.e + delta * 1024).natAbs)) := by
  unfold Estimator.shift
  cases hv : x.valid with
  | false => rfl
  | true => simp only [saturate_eq, if_true, Bool.true_and, Bool.and_comm]

/-! ## Notices of one kind for several parameters (R179) -/

/-- Notices made one after the other stand newest first before those that were there. -/
theorem Works.notice_each {α : Type} (e : Env) (k : NoticeKind) (c : Option Chan) (param : α → BitVec 32) (xs : List α)
    {w : Works} {base : List Notice} (hring : w.notices.ring = base.take 32) :
    xs.foldl (fun w x => w.notice e k c (param x)) w =
      { w with
        notices :=
          { ring :=
              ((xs.reverse.map fun x => ({ kind := k, chan := c, param := param x, frame := e.now } : Notice)) ++
                base).take 32
            count := w.notices.count + BitVec.ofNat 16 xs.length } } := by
  induction xs generalizing w base with
  | nil => simp [← hring]
  | cons x xs ih =>
    have hring' : (w.notice e k c (param x)).notices.ring =
        (({ kind := k, chan := c, param := param x, frame := e.now } : Notice) :: base).take 32 := by
      rw [Works.notice_ring, hring, take_cons_take]
    rw [List.foldl_cons, ih hring']
    simp only [Works.notice, List.reverse_cons, List.map_append, List.map_cons, List.map_nil, List.append_assoc,
      List.singleton_append, List.length_cons, BitVec.ofNat_add, BitVec.add_assoc, BitVec.add_comm (1 : BitVec 16)]
    rfl

/-! ## The load at a boundary (R43, R44) -/

/-- A channel is engaged (R43, R175). -/
theorem Works.engaged_iff (w : Works) :
    w.engaged = true ↔ ∃ c, (w.at c).state ∈ [ChState.bidding, .cueing, .onAir, .returning] := by
  simp only [Works.engaged, List.any_eq_true, List.mem_finRange, true_and, ChState.claiming_iff]

theorem Works.engaged_eq_false {w : Works} (h : ∀ c, (w.at c).state ∉ [ChState.bidding, .cueing, .onAir, .returning]) :
    w.engaged = false := by
  rw [← Bool.not_eq_true, Works.engaged_iff, not_exists]
  exact h

section
variable {s : State}

theorem State.loadDue_of_disengaged (hp : s.clk.loadPending = true)
    (h : ∀ c, (s.works.at c).state ∉ [ChState.bidding, .cueing, .onAir, .returning]) : s.loadDue = true := by
  simp only [State.loadDue, hp, Works.engaged_eq_false h, Bool.not_false, Bool.and_self]

theorem State.loadBoundary_made (h : s.loadDue = true) : s.loadBoundary = s.makeLoad := if_pos h

/-- While a channel is engaged the load waits, and V goes on with the count (R43). -/
theorem State.loadBoundary_waits (hp : s.clk.loadPending = true)
    (h : ∃ c, (s.works.at c).state ∈ [ChState.bidding, .cueing, .onAir, .returning]) :
    s.loadBoundary = { s with clk := s.clk.wait } := by
  have hdue : s.loadDue = false := by
    simp only [State.loadDue, (Works.engaged_iff _).mpr h, Bool.not_true, Bool.and_false]
  simp only [State.loadBoundary, hdue, hp, if_true, Bool.false_eq_true, if_false]

theorem State.makeLoad_lane (s : State) (l : Lane) : s.makeLoad.lane l = (s.lane l).shift s.clk.shift := by
  cases l <;> rfl

theorem State.makeLoad_peers (s : State) : s.makeLoad.peers = shiftPeers s.clk.shift s.peers := rfl

/-- The notices of a load: TIME_LOADED, then one ESTIMATE_SATURATED for each SAT flag that it sets (R43, R56). -/
theorem State.makeLoad_works (s : State) :
    s.makeLoad.works =
      { s.works with
        notices :=
          { ring :=
              (((shiftSaturates s.clk.shift s.peers).reverse.map fun id =>
                  ({ kind := .estimateSaturated, chan := none, param := BitVec.ofNat 32 id
                     frame := s.clk.pendingValue } : Notice)) ++
                { kind := .timeLoaded, chan := none, param := s.clk.pendingValue - s.clk.count,
                  frame := s.clk.pendingValue } :: s.works.notices.ring).take 32
            count :=
              s.works.notices.count + 1 + BitVec.ofNat 16 (shiftSaturates s.clk.shift s.peers).length } } := by
  have hparam : BitVec.ofInt 32 s.clk.shift = s.clk.pendingValue - s.clk.count := BitVec.ofInt_toInt
  rw [← hparam]
  exact Works.notice_each _ _ _ _ _ rfl

end

theorem LaneIf.shift_eq (x : LaneIf) (delta : Int) :
    x.shift delta =
      { x with
        queue := x.queue.map fun m => { m with arrival := m.arrival + BitVec.ofInt 42 (delta * 1024) }
        mode := match x.mode with
          | .receiving a => .receiving (a + BitVec.ofInt 42 (delta * 1024))
          | y => y } := by
  cases hm : x.mode <;> simp only [LaneIf.shift, hm, shiftTick]

/-- Settles O6: by what a load makes of the clock, the estimates, the arrival ticks and the notices. -/
theorem timeLoadIsMade : Obligations.TimeLoadIsMade := by
  intro s hout hpending hfree
  have hdue : s.loadDue = true := State.loadDue_of_disengaged hpending fun c => by simpa using hfree c
  have hmade : runWork .timebase s = s.makeLoad := State.loadBoundary_made hdue
  have hexec : exec .timeLoaded s = .next { s.makeLoad with due := s.due.erase .timebase } := by
    rw [← hmade, ← hout.slice hdue]
    rfl
  refine ⟨_, hexec, rfl, ?_, fun l => ?_, rfl, rfl, rfl, rfl, rfl, rfl, rfl, ?_, ?_⟩
  · refine s.makeLoad_peers.trans (List.map_congr_left fun p _ => ?_)
    rw [Estimator.shift_est]
    rfl
  · rw [State.withDue_lane, State.makeLoad_lane, LaneIf.shift_eq]
    cases (s.lane l).mode <;> rfl
  · show s.makeLoad.works = { s.works with notices := s.makeLoad.works.notices }
    rw [State.makeLoad_works]
  · intro ids hids
    have hsat : shiftSaturates s.clk.shift s.peers = ids := by
      simp only [hids, shiftSaturates, Estimator.shift_satSet]
      rfl
    refine ⟨?_, ids.reverse, List.reverse_perm ids, ?_⟩
    all_goals simp only [State.makeLoad_works, hsat]

/-! ## Time marks (R41, R42, R45) -/

section
variable {s : State} {m : RxMsg} {mark : Frame}

theorem State.Accepts.receiveTimeMark {l : Lane} {p : Peer} (h : s.Accepts l m p) (hk : m.kind = .timeMark)
    (hr : readTimeMark m.payload = some mark) :
    exec (.receiveTimeMark l) s = .next ((s.heard l p m).takeMark m.sender.toNat m.arrival mark) := by
  refine congrArg _ ((h.whenRunning (by simp [RxMsg.isKind, hk]) _).trans ?_)
  simp only [State.routeTimeMark, hr, State.decoded]

/-- A mark from another station than the time station is counted (R41). -/
theorem State.takeMark_foreign {sender : Nat} (h : s.cfg.timeStation = 0 ∨ sender ≠ s.cfg.timeStation)
    (arrival : Tick) :
    s.takeMark sender arrival mark = { s with clk := { s.clk with foreignMark := bump s.clk.foreignMark } } :=
  if_pos h

section
variable {sender : Nat} (h0 : s.cfg.timeStation ≠ 0) (hs : sender = s.cfg.timeStation) (arrival : Tick)
include h0 hs

/-- A mark taken while not loaded sets a load pending (R42). -/
theorem State.takeMark_pends (hl : s.clk.loaded = false) :
    s.takeMark sender arrival mark = { s with clk := s.clk.pend mark } := by
  simp [State.takeMark, h0, hs, hl]

/-- A mark taken while loaded is compared with the count (R45). -/
theorem State.takeMark_compares (hl : s.clk.loaded = true) :
    s.takeMark sender arrival mark = s.compareMark arrival mark := by
  simp [State.takeMark, h0, hs, hl]

end

/-- A slip of 0, or the last slip again, makes no notice (R45). -/
theorem State.compareMark_silent {arrival : Tick}
    (h : slipOf arrival mark = 0 ∨ slipOf arrival mark = s.clk.lastSlip) :
    s.compareMark arrival mark = { s with clk := { s.clk with lastSlip := slipOf arrival mark } } :=
  if_neg fun hne => h.elim hne.1 hne.2

/-- A new slip is noticed (R45). -/
theorem State.compareMark_notices {arrival : Tick} (h0 : slipOf arrival mark ≠ 0)
    (hlast : slipOf arrival mark ≠ s.clk.lastSlip) :
    s.compareMark arrival mark =
      ({ s with clk := { s.clk with lastSlip := slipOf arrival mark } } : State).onWorks fun w =>
        w.notice s.env .timeSlip none (slipOf arrival mark) :=
  if_pos ⟨h0, hlast⟩

end

/-- Settles O28: by the sender, the loaded flag and the slip. -/
theorem timeMarkIsTaken : Obligations.TimeMarkIsTaken := by
  intro s s1 l m p mark ha hs1 hk hr
  have hcfg : s1.cfg = s.cfg := by rw [hs1, s.heard_cfg]
  rw [ha.receiveTimeMark hk hr, ← hs1, ← hcfg]
  refine ⟨fun hforeign => ?_, fun h0 hsender => ⟨fun hl => ?_, fun hl slip hslip => ?_⟩⟩
  · rw [State.takeMark_foreign hforeign]
  · rw [State.takeMark_pends h0 hsender _ hl]
    rfl
  · obtain rfl : slip = slipOf m.arrival mark := hslip
    rw [State.takeMark_compares h0 hsender _ hl]
    refine ⟨fun hsilent => ?_, fun hne hlast => ?_⟩
    · rw [State.compareMark_silent hsilent]
    · rw [State.compareMark_notices hne hlast]
      exact ⟨_, rfl, rfl, rfl, rfl, rfl⟩

/-! ## RETIME (R46, R175) -/

section
variable {w : Works} {e : Env} {sender : Nat} {d : Directive} {i : Fin 4}

/-- The sixth check of a RETIME from a known sender, permitted and no repeat (R175). -/
theorem Works.checkRetime_eq (hi : Config.controlOf e.cfg sender = some i) (hn : w.lastNumbers[i] ≠ some d.number)
    (hp : ControlEntry.permits e.cfg.control[i] d.kind = true) :
    w.checkRetime e sender d = if w.engaged then .refused none 3 else .takenTime i := by
  simp only [Works.checkRetime, Works.checkSender, hi, hn, hp, if_false, Bool.not_true, Bool.false_eq_true]

/-- A RETIME that passes stops the load and records its number (R46, R176, R178). -/
theorem State.directRetime_taken {s : State} (h : s.works.checkRetime s.env sender d = .takenTime i) :
    s.directRetime sender d =
      { s with
        clk := s.clk.retime
        works := (s.works.record i d.number).notice s.env .directiveTaken none
          (directiveParam sender d.number d.kind 0) } := by
  simp only [State.directRetime, Works.retimePasses, State.hand, State.onWorks, Works.retime, h, if_true]

/-- A RETIME that is refused leaves the clock (R177). -/
theorem State.directRetime_refused {s : State} {chan : Option Chan} {reason : Nat}
    (h : s.works.checkRetime s.env sender d = .refused chan reason) :
    s.directRetime sender d =
      s.onWorks fun w => w.notice s.env .directiveRefused chan (directiveParam sender d.number d.kind reason) := by
  simp only [State.directRetime, Works.retimePasses, State.hand, State.onWorks, Works.retime, h, Bool.false_eq_true,
    if_false]

end

theorem State.Directs.retime {s : State} {l : Lane} {m : RxMsg} {p : Peer} {d : Directive} (h : s.Directs l m p d)
    (hk : d.kind = .retime) :
    exec (.retime l) s = .next ((s.heard l p m).directRetime m.sender.toNat d) := by
  have hready : s.Ready := h.1.1
  refine congrArg _ ((hready.whenRunning _).trans ?_)
  rw [← hk]
  exact h.handed State.directRetime

/-- A pending load at a boundary: it waits while a channel is engaged, and is made while none is (R43). -/
theorem runWork_timebase_pending {v : State} (hp : v.clk.loadPending = true) :
    ((∃ c, (v.works.at c).state ∈ [ChState.bidding, .cueing, .onAir, .returning]) →
      runWork .timebase v = { v with clk := { v.clk with pendingValue := v.clk.pendingValue + 1 } }) ∧
    ((∀ c, (v.works.at c).state ∉ [ChState.bidding, .cueing, .onAir, .returning]) →
      (runWork .timebase v).clk.count = v.clk.pendingValue ∧ (runWork .timebase v).clk.loaded = true) := by
  refine ⟨fun h => State.loadBoundary_waits hp h, fun h => ?_⟩
  rw [runWork, State.loadBoundary_made (State.loadDue_of_disengaged hp h)]
  exact ⟨rfl, rfl⟩

/-- Settles O49: by the sixth check; then by the rules of a mark and of a pending load on the clock that RETIME
leaves. -/
theorem retimeIsTaken : Obligations.RetimeIsTaken := by
  intro s s1 l m p d i hd hs1 hkind hi hn hp
  have hcheck : s1.works.checkRetime s1.env m.sender.toNat d =
      if s1.works.engaged then .refused none 3 else .takenTime i := by
    subst hs1
    exact Works.checkRetime_eq (by simpa using hi) (by simpa using hn) (by simpa [hkind] using hp)
  have hstate : ∀ c, (s1.works.at c).state = (s.works.at c).state := fun c => by rw [hs1, State.heard_state]
  rw [hd.retime hkind, ← hs1]
  refine ⟨fun hfree => ?_, fun c hc => ?_⟩
  · have hopen : s1.works.engaged = false := Works.engaged_eq_false fun c => by rw [hstate]; exact hfree c
    rw [hopen, if_neg Bool.false_ne_true] at hcheck
    rw [State.directRetime_taken hcheck, hkind]
    refine ⟨_, rfl, rfl, rfl, ⟨rfl, rfl⟩, fun k m2 q mark ha hk hr h0 hsender => ?_⟩
    have hcfg : s1.cfg = s.cfg := by rw [hs1, s.heard_cfg]
    have hpends := ha.receiveTimeMark hk hr
    rw [State.takeMark_pends (by rw [State.heard_cfg]; simpa [hcfg] using h0)
      (by rw [State.heard_cfg]; simpa [hcfg] using hsender) _ (by rw [State.heard_clk]; rfl)] at hpends
    refine ⟨_, hpends, by rw [State.heard_clk]; rfl, fun v hv => ?_⟩
    have hv' : v.clk.loadPending = true ∧ v.clk.pendingValue = mark + 1 := by rw [hv]; exact ⟨rfl, rfl⟩
    obtain ⟨hwaits, hmade⟩ := runWork_timebase_pending hv'.1
    rw [hv'.2] at hwaits hmade
    refine ⟨fun h => ?_, hmade⟩
    rw [hwaits h, BitVec.add_assoc]
    rfl
  · have hbusy : s1.works.engaged = true := (Works.engaged_iff _).mpr ⟨c, by rw [hstate]; exact hc⟩
    rw [hbusy, if_pos rfl] at hcheck
    rw [State.directRetime_refused hcheck, hkind]
    rfl

end Sys2Proof.Machine
end

