-- ==== Sys2Proof/Proofs/Estimator.lean ====
section
/-! SUPPORT. R52 to R56: how far a rounded quotient lies from the exact one, what a sample makes of an estimator, and
what the header of an accepted message makes of the notices. -/

namespace Sys2Proof.Machine

/-! ## Rounding to the nearest (00 section 4.5) -/

/-- A rounded quotient is off by half a divisor at most, and by exactly half only when it is even. -/
theorem roundDiv_nearest (n : Int) {d : Nat} (hd : 0 < d) :
    2 * (roundDiv n d * d - n).natAbs ≤ d ∧ (2 * (roundDiv n d * d - n).natAbs = d → roundDiv n d % 2 = 0) := by
  have hdiv : (d : Int) * (n / d) + n % d = n := Int.mul_ediv_add_emod n d
  have hlo : 0 ≤ n % (d : Int) := Int.emod_nonneg n (by omega)
  have hhi : n % (d : Int) < d := Int.emod_lt_of_pos n (by omega)
  have hfloor : n / (d : Int) * d - n = -(n % (d : Int)) := by linarith
  have hceil : (n / (d : Int) + 1) * d - n = d - n % (d : Int) := by linarith
  unfold roundDiv
  dsimp only
  split
  · rw [hfloor]; omega
  · split
    · rw [hceil]; omega
    · split
      · rw [hfloor]; omega
      · rw [hceil]; omega

/-- A nearest frame, the even one of two, is the rounded quotient of the ticks. -/
theorem roundDiv_frame {ticks k : Int}
    (h : (ticks - 1024 * k).natAbs < 512 ∨ (ticks - 1024 * k).natAbs = 512 ∧ k % 2 = 0) : roundDiv ticks 1024 = k := by
  obtain ⟨hnear, heven⟩ := roundDiv_nearest ticks (d := 1024) (by decide)
  omega

/-! ## A sample meets an estimator (R53 to R56) -/

section
variable {cfg : Config} {x : Estimator} {sample : Int} {marked : Bool}

/-- An inlier moves the estimate by the rounded fraction of its difference (R54). -/
theorem Estimator.take_inlier (hv : x.valid = true) (h : (sample - x.e).natAbs ≤ cfg.outlierLimit) :
    x.take cfg sample marked =
      { est := { x with e := x.e + roundDiv (sample - x.e) (2 ^ cfg.gain), run := 0, sat := x.sat || marked }
        satSet := marked && !x.sat, step := none } := by
  simp only [Estimator.take, hv, Bool.not_true, Bool.false_eq_true, if_false, if_pos h]

/-- The first sample starts the estimator (R53). -/
theorem Estimator.take_first (hv : x.valid = false) :
    x.take cfg sample marked =
      { est := { valid := true, e := sample, run := 0, sat := x.sat || marked }, satSet := marked && !x.sat
        step := none } := by
  simp only [Estimator.take, hv, Bool.not_false, if_true]

/-- An outlier that is not the fourth in a row changes the run alone (R55). -/
theorem Estimator.take_outlier (hv : x.valid = true) (h : cfg.outlierLimit < (sample - x.e).natAbs) (hr : x.run < 3) :
    x.take cfg sample marked = { est := { x with run := x.run + 1 }, satSet := false, step := none } := by
  have hr' : x.run + 1 < 4 := by omega
  simp only [Estimator.take, hv, Bool.not_true, Bool.false_eq_true, if_false, if_neg (Nat.not_le.mpr h), if_pos hr']

/-- The fourth outlier in a row restarts the estimator at the sample (R55). -/
theorem Estimator.take_restart (hv : x.valid = true) (h : cfg.outlierLimit < (sample - x.e).natAbs) (hr : 3 ≤ x.run) :
    x.take cfg sample marked =
      { est := { valid := true, e := sample, run := 0, sat := marked }, satSet := marked && !x.sat
        step := some (max (-8388607) (min 8388607 (sample - x.e))) } := by
  have hr' : ¬x.run + 1 < 4 := by omega
  have hstep : clampInt (-8388607) 8388607 (sample - x.e) = max (-8388607) (min 8388607 (sample - x.e)) :=
    clampInt_eq (by decide) _
  simp only [Estimator.take, hv, Bool.not_true, Bool.false_eq_true, if_false, if_neg (Nat.not_le.mpr h), if_neg hr',
    hstep]

end

/-- The bounds on a step that is a difference divided by 2^g and rounded (R54): how near it lies, that it goes no
further than the difference, and its sizes with g 0 and g 7. -/
theorem roundDiv_gain (d : Int) (g : Nat) :
    2 * (roundDiv d (2 ^ g) * 2 ^ g - d).natAbs ≤ 2 ^ g ∧
      (2 * (roundDiv d (2 ^ g) * 2 ^ g - d).natAbs = 2 ^ g → roundDiv d (2 ^ g) % 2 = 0) ∧
      min 0 d ≤ roundDiv d (2 ^ g) ∧ roundDiv d (2 ^ g) ≤ max 0 d ∧ (g = 0 → roundDiv d (2 ^ g) = d) ∧
      (g = 7 → d.natAbs ≤ 64 → (roundDiv d (2 ^ g)).natAbs ≤ 1) := by
  have hpos : 0 < 2 ^ g := Nat.two_pow_pos g
  obtain ⟨hlow, hhigh⟩ := roundDiv_between d hpos
  obtain ⟨hnear, heven⟩ := roundDiv_nearest d hpos
  push_cast at hnear heven
  refine ⟨hnear, heven, hlow, hhigh, fun hg => ?_, fun hg hd => ?_⟩
  · subst hg
    simp only [pow_zero, mul_one] at hnear ⊢
    omega
  · subst hg
    norm_num at hnear ⊢
    omega

/-! ## The header of an accepted message (R12, R52, R55, R56) -/

theorem formSample_eq (linkDelay : Nat) (arrival stamp : Tick) :
    formSample linkDelay arrival stamp =
      (max (-2147483647) (min 2147483647 (tickDiff arrival stamp - linkDelay)),
        decide (2147483647 < (tickDiff arrival stamp - linkDelay).natAbs)) := saturate_eq _

/-- The blocks behind the dispatcher learn of a header by the SAT flag it sets and the step of a restart. -/
theorem State.heard_works_eq (s : State) (l : Lane) (p : Peer) (m : RxMsg) {r : Sampled}
    (hr : r = p.est.take s.cfg (formSample s.cfg.linkDelay m.arrival m.stamp).1
      (formSample s.cfg.linkDelay m.arrival m.stamp).2) :
    (s.heard l p m).works =
      (s.works.saturated (s.heard l p m).env p.station r.satSet).stepped (s.heard l p m).env p.station r.step := by
  subst hr
  cases l <;> rfl

/-- Settles O13: an inlier by the bounds of rounding, the other samples by the cases of the filter, and a message by
what its sample sets and steps. -/
theorem samplesMoveTheEstimate : Obligations.SamplesMoveTheEstimate := by
  refine ⟨fun cfg x sample step marked hv hin hstep => ?_, fun cfg x sample marked =>
    ⟨fun hv => Estimator.take_first hv, fun hv hout =>
      ⟨Estimator.take_outlier hv hout, Estimator.take_restart hv hout⟩⟩, fun s s1 l m p d r ha hs1 hd hr => ?_⟩
  · have hbounded := fun hx hs => Estimator.take_bounded (cfg := cfg) (x := x) (s := sample) (marked := marked) hx hs
    rw [Estimator.take_inlier hv hin] at hstep hbounded ⊢
    obtain rfl : step = roundDiv (sample - x.e) (2 ^ cfg.gain) := by simpa using hstep
    obtain ⟨hnear, heven, hlow, hhigh, hzero, hseven⟩ := roundDiv_gain (sample - x.e) cfg.gain
    refine ⟨rfl, rfl, by rw [hv], hnear, heven, by omega, by omega, fun hg => ?_, hseven, fun hx hs => ?_⟩
    · rw [hzero hg]
      omega
    · refine hbounded hx ?_
      simp only [sampleBound]
      omega
  · have hform : (d, decide (2147483647 < (tickDiff m.arrival m.stamp - s.cfg.linkDelay).natAbs)) =
        formSample s.cfg.linkDelay m.arrival m.stamp := by rw [formSample_eq, hd]
    have hworks := s.heard_works_eq l p m (r := r) (by rw [← hform]; exact hr)
    have hnow : s1.env.now = s.clk.count := by rw [hs1, State.env_now, State.heard_clk]
    rw [← hs1] at hworks
    refine ⟨fun hsat hrest => ?_, fun hsat hrest => ?_, fun step hsat hrest => ?_⟩
    · rw [hworks, hsat, hrest]
      rfl
    · rw [hworks, hsat, hrest, ← hnow]
      exact ⟨rfl, rfl, rfl⟩
    · rw [hworks, hsat, hrest, ← hnow]
      rfl

end Sys2Proof.Machine
end

