-- ==== Sys2Proof/Proofs/Takeover.lean ====
section
/-! SUPPORT. R57, R124, R132, R137, R139, R143: frames on another clock, a TAKE placed on a port with nothing pending,
and the delivery of a TAKEOVER result. -/

namespace Sys2Proof.Machine

/-! ## Frames on another clock (R57, R137) -/

/-- A frame on another clock is the one nearest to its ticks there (R137). -/
theorem convertFrame_of_nearest {estimate : Option Int} {l : Frame} {ticks k : Int}
    (ht : ticks = ((l.toNat : Int) * 1024 - estimate.getD 0) % 2 ^ 42)
    (hk : (ticks - 1024 * k).natAbs < 512 ∨ (ticks - 1024 * k).natAbs = 512 ∧ k % 2 = 0) :
    convertFrame estimate l = BitVec.ofInt 32 k := by
  rw [convertFrame, ← ht, roundDiv_frame hk]

/-- An estimator that is not valid leaves the frame as it is (R137). -/
theorem convertFrame_none (l : Frame) : convertFrame none l = l := by
  have hlt : l.toNat < 2 ^ 32 := l.isLt
  have hticks : (l.toNat : Int) * 1024 = ((l.toNat : Int) * 1024 - (none : Option Int).getD 0) % 2 ^ 42 := by
    simp only [Option.getD_none]
    omega
  rw [convertFrame_of_nearest (k := l.toNat) hticks (by omega), BitVec.ofInt_natCast]
  exact BitVec.eq_of_toNat_eq (by simp)

theorem Env.estimate_of_find {e : Env} {station : Nat} {p : Peer} (h : findPeer e.peers station = some p) :
    e.estimate station = if p.est.valid = true then some p.est.e else none := by
  simp only [Env.estimate, h]

/-! ## Port records -/

section
variable (x : Context) (p : PortSel) (f g : PortRec → PortRec)

@[simp] theorem Context.modRec_active : (x.modRec p f).active = x.active := by cases p <;> rfl

theorem Context.modRec_modRec : (x.modRec p f).modRec p g = x.modRec p fun r => g (f r) := by
  cases p <;> simp [Context.modRec, Function.comp_def]

/-- The active port's record changes, that port being the primary. -/
theorem Context.modRec_primary {x : Context} {r : PortRec} (ha : x.active = .primary) (hr : x.prim = some r)
    (f : PortRec → PortRec) : x.modRec x.active f = { x with prim := some (f r) } := by
  simp only [ha, Context.modRec, hr, Option.map_some]

theorem Context.modRec_activeRec : (x.modRec x.active f).activeRec = x.activeRec.map f := by
  rw [Context.activeRec, Context.modRec_active]
  cases h : x.active <;> simp only [Context.activeRec, h, Context.modRec, Context.portRec]

end

/-! ## A TAKE placed where nothing is pending (R143) -/

/-- The TAKE that R143 makes for a port, under a tag. -/
def Env.takeFor (e : Env) (tag : Half) (r : PortRec) (source : JoinKind) (takeLocal : Frame) (ev : CurEvent) : Take :=
  { tag := tag, source := source, takeLocal := takeLocal, k := convertFrame (e.estimate r.server) takeLocal
    outcome := ev, seen := false, armCount := (takeCounts e takeLocal).1, takeCount := (takeCounts e takeLocal).2 }

/-- The blocks once a TAKE is announced: the next tag (R139), and its CUE as the newest of URGENT (R24). -/
def Works.announced (w : Works) (e : Env) (r : PortRec) (t : Take) : Works :=
  { w with
    tag := nextTag w.tag
    tx := { w.tx with urgent := w.tx.urgent ++ [OutMsg.cue (t.cue r)] }.pick e.cfg }

@[simp] theorem Works.announced_at (w : Works) (e : Env) (r : PortRec) (t : Take) (c : Chan) :
    (w.announced e r t).at c = w.at c := rfl

/-- A port record that a TAKE pends in, a withdrawn one forgotten (R143). -/
def PortRec.pend (t : Take) (r : PortRec) : PortRec := { r with pending := some t, withdrawn := none }

section
variable {w : Works} {e : Env} {c : Chan} {r : PortRec}

theorem Works.cancelPending_none (hr : (w.at c).activeRec = some r) (hp : r.pending = none) :
    w.cancelPending e c = w := by
  simp only [Works.cancelPending, hr, hp]

/-- A TAKE placed on an active port with nothing pending, its CUE joining URGENT as the newest (R24, R143). -/
theorem Works.placeTake_joins (hr : (w.at c).activeRec = some r) (hp : r.pending = none)
    (hnew : ∀ m ∈ w.tx.urgent, m.isCueTo r.server r.port = false)
    (hroom : w.tx.urgent.length + w.tx.flying .urgent < 16) {source : JoinKind} {takeLocal : Frame} {ev : CurEvent}
    {t : Take} (ht : t = e.takeFor w.tag r source takeLocal ev) :
    w.placeTake e c source takeLocal ev =
      (w.mod c fun x => x.modRec x.active (PortRec.pend t)).announced e r t := by
  have hrec : ((w.mod c fun x => x.modRec x.active fun q => { q with withdrawn := none }).at c).activeRec =
      some { r with withdrawn := none } := by
    rw [Works.mod_at, Context.modRec_activeRec, hr, Option.map_some]
  have htwice : (w.mod c fun x => x.modRec x.active fun q => { q with withdrawn := none }).mod c
        (fun x => x.modRec x.active fun q => { q with pending := some t }) =
      w.mod c fun x => x.modRec x.active (PortRec.pend t) := by
    rw [Works.mod_mod]
    simp only [Context.modRec_active, Context.modRec_modRec]
    rfl
  rw [Works.placeTake, Works.cancelPending_none hr hp]
  simp only [hrec]
  rw [Works.placeCue_joins (by exact hnew) (by exact hroom), ← htwice, ht]
  rfl

end

/-! ## Delivery of a TAKEOVER (R124, R132) -/

/-- A TAKEOVER gives its anchor, whatever it finds (R129 to R131). -/
theorem JoinFlight.takeover_anchor (f : JoinFlight) (clip : Ident) :
    (f.takeover clip).anchor = some (f.req.take - f.originFrame) := by
  unfold JoinFlight.takeover
  dsimp only
  repeat' split
  all_goals rfl

/-- Nothing of a channel waits for a join: no other list, no clearing, no request, and no FOLLOW owed. -/
def Context.NothingWaits (x : Context) : Prop :=
  x.mirror.other = .absent ∧ x.mirror.clearWaits = false ∧ x.waitReq = none ∧ x.followOwed = false

section
variable {w v : Works} {e : Env} {c : Chan} {f : JoinFlight}

/-- The context of a channel whose TAKEOVER has an outcome: the current event, with its anchor (R132). -/
def Context.begins (anchor : Frame) (ev : CurEvent) (x : Context) : Context :=
  { x with anchor := some anchor, cur := some ev }

/-- A TAKEOVER result with no notice due becomes the current event with its anchor, and is cued (R132). -/
theorem Works.actOn_takeover (hk : f.req.kind = .takeover) {ev : CurEvent}
    (ho : (f.takeover (e.entry f.req.chan).filler).outcome = .take ev)
    (hd : (f.takeover (e.entry f.req.chan).filler).due = []) :
    w.actOn e f =
      (w.mod f.req.chan (Context.begins (f.req.take - f.originFrame) ev)).placeTake e f.req.chan .takeover
        f.req.take ev := by
  have hresult : ∀ cur, f.resultFor (e.entry f.req.chan).filler cur = f.takeover (e.entry f.req.chan).filler := by
    intro cur
    simp only [JoinFlight.resultFor, JoinFlight.result, hk]
  simp only [Works.actOn, hresult, hk, ho, hd, JoinFlight.takeover_anchor, Works.noticesDue, List.foldl_nil]
  rfl

/-- A result of the channel's generation that is no FOLLOW is acted on (R124 step 1). -/
theorem Works.staleResult_current (hg : f.req.gen = (w.at f.req.chan).gen) (hk : f.req.kind ≠ .follow) :
    w.staleResult f = false := by
  simp [Works.staleResult, hg, hk]

theorem Works.followOwedNow_none (h : (w.at c).followOwed = false) : w.followOwedNow e c = w := by
  simp [Works.followOwedNow, h]

/-- Follow-on cueing is judged in ON_AIR and RETURNING only (R154). -/
theorem Works.followJudge_none (h1 : (w.at c).state ≠ .onAir) (h2 : (w.at c).state ≠ .returning) :
    w.followJudge e c = w := by
  have hdue : w.followDue e c = none := by
    unfold Works.followDue
    dsimp only
    split
    · rename_i hs _; exact absurd hs h1
    · rename_i hs _; exact absurd hs h2
    · rfl
  simp only [Works.followJudge, hdue]

theorem Works.afterJoin_none (h : (w.at c).NothingWaits) : w.afterJoin e c = w := by
  obtain ⟨hother, hclear, -⟩ := h
  simp [Works.afterJoin, hother, hclear]

theorem Works.placeWaiting_none (h : (w.at c).waitReq = none) : w.placeWaiting e c = w := by
  simp only [Works.placeWaiting, h]

/-- The blocks once the engine has given up the computation it hands over (R124). -/
def Works.landed (w : Works) : Works := { w with join := { w.join with flight := none } }

/-- What a block reads while the engine hands over a result (R124). -/
def Env.handing (e : Env) : Env := { e with handover := true }

/-- The handover acts in these blocks and under this reading. -/
theorem Works.joinComplete_eq (hf : w.join.flight = some f) :
    w.joinComplete e =
      (((w.landed.deliver e.handing f).afterJoin e.handing f.req.chan).placeWaiting e.handing f.req.chan).kick
        { e with handover := false } := by
  simp only [Works.joinComplete, hf]
  rfl

/-- A handover to a channel off ON_AIR and RETURNING for which nothing waits: the result is acted on, and the engine
begins the next request (R123, R124). -/
theorem Works.joinComplete_acted (hf : w.join.flight = some f) (hg : f.req.gen = (w.at f.req.chan).gen)
    (hk : f.req.kind ≠ .follow) (hv : w.landed.actOn e.handing f = v)
    (h1 : (v.at f.req.chan).state ≠ .onAir) (h2 : (v.at f.req.chan).state ≠ .returning)
    (hw : (v.at f.req.chan).NothingWaits) :
    w.joinComplete e = v.kick { e with handover := false } := by
  obtain ⟨-, -, hreq, howed⟩ := id hw
  have hfresh : w.landed.staleResult f = false := Works.staleResult_current hg hk
  have hdeliver : w.landed.deliver e.handing f = v := by
    rw [Works.deliver, hfresh, if_neg Bool.false_ne_true, hv, Works.followOwedNow_none howed,
      Works.followJudge_none h1 h2]
  rw [Works.joinComplete_eq hf, hdeliver, Works.afterJoin_none hw, Works.placeWaiting_none hreq]

/-- The context of a channel whose TAKEOVER is cued on its primary port (R132, R143). -/
def Context.takenOver (anchor : Frame) (ev : CurEvent) (r : PortRec) (t : Take) (x : Context) : Context :=
  { x with cur := some ev, anchor := some anchor, prim := some (r.pend t) }

/-- A TAKEOVER result acted on for a primary port with nothing pending (R132, R143). -/
theorem Works.actOn_takeover_joins (hk : f.req.kind = .takeover) {ev : CurEvent}
    (ho : (f.takeover (e.entry f.req.chan).filler).outcome = .take ev)
    (hd : (f.takeover (e.entry f.req.chan).filler).due = []) {r : PortRec}
    (ha : (w.at f.req.chan).active = .primary) (hr : (w.at f.req.chan).prim = some r) (hp : r.pending = none)
    (hroom : w.tx.urgent.length + w.tx.flying .urgent < 16)
    (hnew : ∀ m ∈ w.tx.urgent, m.isCueTo r.server r.port = false) {t : Take}
    (ht : t = e.takeFor w.tag r .takeover f.req.take ev) :
    w.actOn e f =
      (w.mod f.req.chan (Context.takenOver (f.req.take - f.originFrame) ev r t)).announced e r t := by
  have hrec : (w.at f.req.chan).activeRec = some r := by rw [Context.activeRec, ha]; exact hr
  have hpend := Context.modRec_primary (x := (w.at f.req.chan).begins (f.req.take - f.originFrame) ev) ha hr
    (PortRec.pend t)
  have hplaced := Works.placeTake_joins (w := w.mod f.req.chan (Context.begins (f.req.take - f.originFrame) ev))
    (by rw [Works.mod_at]; exact hrec) hp hnew hroom ht
  rw [Works.actOn_takeover hk ho hd, hplaced, Works.mod_mod]
  exact congrArg (fun u : Works => u.announced e r t) (Works.mod_congr hpend)

end

theorem State.Ready.joinComplete {s : State} (h : s.Ready) :
    exec .joinComplete s = .next (s.hand Works.joinComplete) := congrArg _ (h.whenRunning _)

/-- Settles O35: the delivery by what the takeover places, the conversion by the nearest frame. -/
theorem takeoverIsDelivered : Obligations.TakeoverIsDelivered := by
  refine ⟨?_, fun estimate l ticks k ht hk => ⟨convertFrame_of_nearest ht hk, convertFrame_none l⟩,
    fun e station p hp => Env.estimate_of_find hp⟩
  rintro s f c x r ev hready hf rfl hk rfl hstate hgen hactive hprim hpending hother hclear hwait howed ho hd hroom hnew
  obtain ⟨t, ht⟩ : ∃ t, t = s.env.takeFor s.works.tag r .takeover f.req.take ev := ⟨_, rfl⟩
  have hacted := Works.actOn_takeover_joins (w := s.works.landed) (e := s.env.handing) hk ho hd hactive hprim hpending
    hroom hnew (t := t) ht
  obtain ⟨v, hv⟩ : ∃ v, v = (s.works.landed.mod f.req.chan
    (Context.takenOver (f.req.take - f.originFrame) ev r t)).announced s.env.handing r t := ⟨_, rfl⟩
  rw [← hv] at hacted
  have hat : v.at f.req.chan = (s.works.at f.req.chan).takenOver (f.req.take - f.originFrame) ev r t := by
    rw [hv, Works.announced_at, Works.mod_at]
    rfl
  have hcueing : (v.at f.req.chan).state = .cueing := by rw [hat]; exact hstate
  have hdone : s.works.joinComplete s.env = v.kick s.env :=
    Works.joinComplete_acted hf hgen (by rw [hk]; decide) hacted (by rw [hcueing]; decide) (by rw [hcueing]; decide)
      (by rw [hat]; exact ⟨hother, hclear, hwait, howed⟩)
  have hworks : (s.hand Works.joinComplete).works = { v with join := (v.kick s.env).join } :=
    hdone.trans (v.kick_frame s.env)
  refine ⟨_, t, hready.joinComplete, ⟨rfl, rfl, rfl, rfl, rfl, rfl, rfl, rfl, rfl, rfl⟩, rfl, ?_⟩
  rw [hworks]
  subst hv ht
  exact ⟨fun d hd => Works.mod_at_other s.works.landed _ hd, rfl, rfl, rfl, hat, rfl, rfl, rfl, rfl, rfl, rfl, rfl, rfl,
    rfl⟩

end Sys2Proof.Machine
end

