-- ==== Sys2Proof/Proofs/LossDecision.lean ====
section
/-! SUPPORT. R90 to R94, R112, R114: what a pass between channel states, an entry into BIDDING and a loss decision do to
the channel and to the notices, and the judgements of a boundary that make them. -/

namespace Sys2Proof.Machine

/-! ## Notices (R179) -/

theorem Works.notice_one (w : Works) (e : Env) (k : NoticeKind) (d : Option Chan) (n : BitVec 32) :
    w.OneNotice (w.notice e k d n) k d n e.now := ⟨rfl, rfl⟩

section
variable {w v : Works} {k : NoticeKind} {d : Option Chan} {n : BitVec 32} {f : Frame}

/-- One more notice, whatever else is changed before it. -/
theorem Works.OneNotice.before (h : v.OneNotice w k d n f) {u : Works} (hu : v.notices = u.notices) :
    u.OneNotice w k d n f := by
  rw [Works.OneNotice, ← hu]
  exact h

/-- One more notice, whatever else is changed after it. -/
theorem Works.OneNotice.after (h : w.OneNotice v k d n f) {u : Works} (hu : u.notices = v.notices) :
    w.OneNotice u k d n f := by
  rw [Works.OneNotice, hu]
  exact h

end

/-! ## What changes contexts and notices only -/

section
variable (w : Works) (e : Env) (c : Chan)

theorem Works.mod_onlyContexts (f : Context → Context) : w.OnlyContexts (w.mod c f) :=
  ⟨rfl, rfl, rfl, rfl, rfl, rfl, rfl, rfl⟩

theorem Works.notice_onlyContexts (k : NoticeKind) (d : Option Chan) (n : BitVec 32) :
    w.OnlyContexts (w.notice e k d n) := ⟨rfl, rfl, rfl, rfl, rfl, rfl, rfl, rfl⟩

theorem Works.moveTo_onlyContexts (st : ChState) : w.OnlyContexts (w.moveTo c st) := w.mod_onlyContexts c _

theorem Works.endBid_onlyContexts (st : ChState) : w.OnlyContexts (w.endBid e c st) :=
  (w.moveTo_onlyContexts c st).trans (Works.mod_onlyContexts _ c _)

theorem Works.enterBidding_onlyContexts (forced : Bool) : w.OnlyContexts (w.enterBidding e c forced) := by
  unfold Works.enterBidding
  dsimp only
  split
  · exact ⟨rfl, rfl, rfl, rfl, rfl, rfl, rfl, rfl⟩
  · exact ⟨rfl, rfl, rfl, rfl, rfl, rfl, rfl, rfl⟩

theorem Works.lossDecide_onlyContexts : w.OnlyContexts (w.lossDecide e c) := by
  rcases w.lossDecide_cases e c with ⟨code, -, h⟩ | ⟨-, h⟩ | ⟨-, h⟩ <;> rw [h]
  · exact w.moveTo_onlyContexts c _
  · exact w.moveTo_onlyContexts c _
  · exact w.enterBidding_onlyContexts e c false

end

/-! ## Passes between channel states (R112) -/

section
variable {w : Works} {e : Env} {c : Chan}

/-- A pass within the claiming states, or outside them, leaves the release count (R112). -/
theorem Works.moveTo_at_within {st : ChState} (h : (w.at c).state.claiming = st.claiming) :
    (w.moveTo c st).at c = { w.at c with state := st } := by
  rw [Works.moveTo_at, h]
  cases st.claiming <;> rfl

/-- A pass out of the claiming states owes two plain RELEASEs (R112). -/
theorem Works.moveTo_at_out {st : ChState} (h : (w.at c).state.claiming = true) (hst : st.claiming = false) :
    (w.moveTo c st).at c = { w.at c with state := st, release := 2 } := by
  rw [Works.moveTo_at, h, hst]
  rfl

/-- A channel not claiming enters BIDDING with no live rival HOLD (R112, R114). -/
theorem Works.enterBidding_open_at {forced : Bool} (h : (w.at c).state.claiming = false)
    (hbids : ∀ r ∈ (w.at c).table, r.kind = .bid) :
    (w.enterBidding e c forced).at c =
      { w.at c with
        state := .bidding, release := 0, bidCount := 0, bidNew := e.boundary
        prec := if forced then 0 else (e.entry c).prec } := by
  rw [Works.enterBidding_open hbids, Works.notice_at, Works.mod_at, h]
  rfl

theorem Works.enterBidding_open_one {forced : Bool} (hbids : ∀ r ∈ (w.at c).table, r.kind = .bid) :
    w.OneNotice (w.enterBidding e c forced) .bidStart (some c)
      (BitVec.ofNat 32 (if forced then 0 else (e.entry c).prec)) e.now := by
  rw [Works.enterBidding_open hbids]
  exact Works.notice_one (w.mod c _) e _ _ _

end

/-! ## The loss decision (R93) -/

section
variable {e : Env} {x : Context}

/-- The code of the first bid condition that fails (R93). -/
theorem Env.lossOutcome_code {code : Nat}
    (h : (x.armed = false ∧ code = 1) ∨ (x.armed = true ∧ e.isolated = true ∧ code = 2) ∨
      (x.armed = true ∧ e.isolated = false ∧ x.mirror.live = [] ∧ code = 3) ∨
      (x.armed = true ∧ e.isolated = false ∧ x.mirror.live ≠ [] ∧ x.mirror.status = .mismatch ∧ code = 4)) :
    e.lossOutcome x = .lost code := by
  rcases h with ⟨ha, rfl⟩ | ⟨ha, hi, rfl⟩ | ⟨ha, hi, hl, rfl⟩ | ⟨ha, hi, hl, hs, rfl⟩
  · simp [Env.lossOutcome, ha]
  · simp [Env.lossOutcome, ha, hi]
  · simp [Env.lossOutcome, ha, hi, hl]
  · simp [Env.lossOutcome, ha, hi, hl, hs]

/-- A bid condition that fails gives LOST (R93). -/
theorem Env.lossOutcome_denied
    (h : x.armed = false ∨ e.isolated = true ∨ x.mirror.live = [] ∨ x.mirror.status = .mismatch) :
    ∃ code, e.lossOutcome x = .lost code := by
  rcases h with h | h | h
  · exact Env.lossOutcome_lost (.inl h)
  · cases ha : x.armed with
    | false => exact Env.lossOutcome_lost (.inl ha)
    | true => exact ⟨2, Env.lossOutcome_code (.inr (.inl ⟨ha, h, rfl⟩))⟩
  · exact Env.lossOutcome_lost (.inr h)

/-- A LOST channel whose bid conditions fail stays as it is (R93, R94). -/
theorem Context.redecided_lost {c : Chan} {code : Nat} (h : e.lossOutcome x = .lost code) : x.redecided e c = x := by
  simp only [Context.redecided, h, ite_self]

end

section
variable {w : Works} {e : Env} {c : Chan}


/-- The loss decision of a channel not claiming leaves it as a LOST channel that decides again (R93, R94). -/
theorem Works.lossDecide_at (h : (w.at c).state.claiming = false) :
    (w.lossDecide e c).at c = ({ w.at c with state := .lost } : Context).redecided e c := by
  rcases w.lossDecide_cases e c with ⟨code, ho, hd⟩ | ⟨ho, hd⟩ | ⟨ho, hd⟩
  · rw [hd, Works.moveTo_at_within h]
    exact (Context.redecided_lost (x := { w.at c with state := .lost }) ho).symm
  · rw [hd, Works.moveTo_at_within h]
    exact (Context.redecided_yields (x := { w.at c with state := .lost }) rfl ho).symm
  · obtain ⟨-, -, -, -, hbids⟩ := Env.lossOutcome_bidding ho
    rw [hd, Works.enterBidding_open_at h hbids]
    exact (Context.redecided_bids (x := { w.at c with state := .lost }) rfl ho).symm

/-- A loss decision that does not bid makes no notice (R93). -/
theorem Works.lossDecide_silent (h : e.lossOutcome (w.at c) ≠ .bidding) : (w.lossDecide e c).notices = w.notices := by
  rcases w.lossDecide_cases e c with ⟨code, -, hd⟩ | ⟨-, hd⟩ | ⟨ho, -⟩
  · rw [hd, Works.moveTo_notices]
  · rw [hd, Works.moveTo_notices]
  · exact absurd ho h

/-- A loss decision that bids makes BID_START (R93, R114). -/
theorem Works.lossDecide_starts (h : e.lossOutcome (w.at c) = .bidding) :
    w.OneNotice (w.lossDecide e c) .bidStart (some c) (BitVec.ofNat 32 (e.entry c).prec) e.now := by
  obtain ⟨-, -, -, -, hbids⟩ := Env.lossOutcome_bidding h
  rw [Works.lossDecide, h]
  exact Works.enterBidding_open_one (forced := false) hbids

end

/-! ## The judgements of the boundary (R90 to R92) -/

section
variable {s : State} {c : Chan} {w : Works} {e : Env}

/-- The tally age of a mapped channel advances, and nothing else of it (R90). -/
theorem Works.ageTally_at {y : Context} (h : w.at c = y) (hy : y.state ≠ .unmapped) :
    (w.ageTally c).at c = { y with age := bump y.age } := by
  rw [Works.ageTally, Works.mod_at, h, if_neg hy]

theorem Works.watch_suspect (h : e.suspectDue (w.at c) = true) :
    w.watch e c = ((w.moveTo c .suspect).notice e .originSuspect (some c) 0).ageTally c := by
  simp only [Works.watch, h, if_true]

/-- A channel that becomes suspect: its state, its age and one notice (R91). -/
theorem Works.watch_suspect_at (h : e.suspectDue (w.at c) = true) :
    (w.watch e c).at c = { w.at c with state := .suspect, age := bump (w.at c).age } := by
  have hm : (w.at c).state = .mirroring := by
    simp only [Env.suspectDue, Bool.and_eq_true, decide_eq_true_eq] at h
    exact h.1.1
  have hat : (w.moveTo c .suspect).at c = { w.at c with state := .suspect } :=
    Works.moveTo_at_within (by rw [hm]; rfl)
  rw [Works.watch_suspect h]
  exact Works.ageTally_at hat (by simp)

theorem Works.watch_suspect_one (h : e.suspectDue (w.at c) = true) :
    w.OneNotice (w.watch e c) .originSuspect (some c) 0 e.now := by
  rw [Works.watch_suspect h]
  exact Works.notice_one (w.moveTo c _) _ _ _ _

theorem Env.lossDue_state {x : Context} (h : e.lossDue x = true) : x.state = .suspect := by
  simp only [Env.lossDue, Bool.and_eq_true, decide_eq_true_eq] at h
  exact h.1

theorem Works.watch_loss (h : e.lossDue (w.at c) = true) :
    w.watch e c =
      ((w.notice e .originLost (some c) (e.lossOutcome (w.at c)).param).lossDecide e c).ageTally c := by
  have hs : e.suspectDue (w.at c) = false := by simp [Env.suspectDue, Env.lossDue_state h]
  simp only [Works.watch, hs, h, if_true, Bool.false_eq_true, if_false]

/-- The loss decision of the boundary leaves a channel as a LOST channel that decides again, a frame older (R92 to
R94). -/
theorem Works.watch_loss_at (h : e.lossDue (w.at c) = true) {y : Context}
    (hy : ({ w.at c with state := .lost } : Context).redecided e c = y) (hm : y.state ≠ .unmapped) :
    (w.watch e c).at c = { y with age := bump y.age } := by
  have hat := Works.lossDecide_at (w := w.notice e .originLost (some c) (e.lossOutcome (w.at c)).param) (e := e)
    (c := c) (by rw [Works.notice_at, Env.lossDue_state h]; rfl)
  rw [Works.watch_loss h]
  exact Works.ageTally_at (hat.trans hy) hm

/-- A loss decision that does not bid makes ORIGIN_LOST alone (R92). -/
theorem Works.watch_loss_one (h : e.lossDue (w.at c) = true) (ho : e.lossOutcome (w.at c) ≠ .bidding) :
    w.OneNotice (w.watch e c) .originLost (some c) (e.lossOutcome (w.at c)).param e.now := by
  rw [Works.watch_loss h]
  refine (w.notice_one e _ _ _).after ?_
  exact Works.lossDecide_silent (w := w.notice e .originLost (some c) (e.lossOutcome (w.at c)).param) ho

/-- A loss decision that bids makes ORIGIN_LOST, then BID_START (R92, R114, log 37). -/
theorem Works.watch_loss_ring (h : e.lossDue (w.at c) = true) (ho : e.lossOutcome (w.at c) = .bidding) :
    (w.watch e c).notices.ring =
      ({ kind := .bidStart, chan := some c, param := BitVec.ofNat 32 (e.entry c).prec, frame := e.now } ::
        { kind := .originLost, chan := some c, param := paramBytes 1 0 0 0, frame := e.now } ::
          w.notices.ring).take 32 := by
  obtain ⟨hring, -⟩ := Works.lossDecide_starts (w := w.notice e .originLost (some c) (paramBytes 1 0 0 0)) ho
  rw [Works.notice_ring, take_cons_take] at hring
  rw [Works.watch_loss h, ho]
  exact hring

/-- The judgements of a channel keep to its context and to the notices (R90 to R93). -/
theorem Works.watch_frame (w : Works) (e : Env) (c : Chan) :
    Works.OthersKept c w (w.watch e c) ∧ w.OnlyContexts (w.watch e c) := by
  unfold Works.watch
  dsimp only
  split
  · exact ⟨((Works.OthersKept.rfl.moveTo _).notice _ _ _ _).mod _, ⟨rfl, rfl, rfl, rfl, rfl, rfl, rfl, rfl⟩⟩
  · split
    · refine ⟨((Works.OthersKept.rfl.notice _ _ _ _).lossDecide _).mod _, ?_⟩
      exact ((w.notice_onlyContexts e _ _ _).trans (Works.lossDecide_onlyContexts _ e c)).trans
        (Works.mod_onlyContexts _ c _)
    · exact ⟨Works.OthersKept.rfl.mod _, w.mod_onlyContexts c _⟩

/-- A piece of work of the blocks that is outstanding and whose condition holds is done (log 3). -/
theorem State.Outstanding.sliceWorks {k : Work} (h : s.Outstanding k) {cond : State → Bool} (hc : cond s = true)
    {f : Env → Works → Works} (hk : runWork k s = s.atWorks f) :
    s.slice k cond = { s with works := f s.boundaryEnv s.works, due := s.due.erase k } := by
  rw [h.slice hc, hk]
  rfl

/-- The part with other blocks and other work due is the same outside them. -/
theorem State.sameOutside_with (s : State) (w : Works) (due : List Work) :
    s.SameOutside { s with works := w, due := due } := ⟨rfl, rfl, rfl, rfl, rfl, rfl, rfl, rfl, rfl, rfl⟩

/-- A channel that becomes suspect at the boundary (R91). -/
theorem State.Outstanding.originSuspect (h : s.Outstanding (.watch c))
    (hd : s.boundaryEnv.suspectDue (s.works.at c) = true) :
    exec (.originSuspect c) s =
      .next { s with works := s.works.watch s.boundaryEnv c, due := s.due.erase (.watch c) } :=
  congrArg Host.Outcome.next (h.sliceWorks (cond := onChannel Env.suspectDue c) (f := fun e w => w.watch e c) hd rfl)

/-- A channel that makes its loss decision at the boundary (R92). -/
theorem State.Outstanding.originLost (h : s.Outstanding (.watch c))
    (hd : s.boundaryEnv.lossDue (s.works.at c) = true) :
    exec (.originLost c) s =
      .next { s with works := s.works.watch s.boundaryEnv c, due := s.due.erase (.watch c) } :=
  congrArg Host.Outcome.next (h.sliceWorks (cond := onChannel Env.lossDue c) (f := fun e w => w.watch e c) hd rfl)

end

/-- Settles O17: the suspect judgement by its one pass, the loss decision by its outcome. -/
theorem suspectAndLossAreJudged : Obligations.SuspectAndLossAreJudged := by
  rintro s c x ho rfl
  obtain ⟨hothers, honly⟩ := s.works.watch_frame s.boundaryEnv c
  refine ⟨fun hstate hseen hage => ?_, fun hstate hage => ?_⟩
  · have hd : s.boundaryEnv.suspectDue (s.works.at c) = true := by simp [Env.suspectDue, hstate, hseen, hage]
    exact ⟨_, ho.originSuspect hd, s.sameOutside_with _ _, rfl, hothers, honly, Works.watch_suspect_at hd,
      Works.watch_suspect_one hd⟩
  · have hd : s.boundaryEnv.lossDue (s.works.at c) = true := by simp [Env.lossDue, hstate, hage]
    refine ⟨_, ho.originLost hd, s.sameOutside_with _ _, rfl, hothers, honly, fun code hcode => ?_,
      fun ha hi hl hm => ?_⟩
    · have hout := Env.lossOutcome_code (e := s.boundaryEnv) hcode
      have hone := Works.watch_loss_one hd (by simp [hout])
      rw [hout] at hone
      exact ⟨Works.watch_loss_at hd (Context.redecided_lost hout) (by simp), hone⟩
    · obtain ⟨hyields, hbids⟩ := Env.lossOutcome_table (e := s.boundaryEnv) ha hi hl hm
      refine ⟨fun hhold => ?_, fun hbid => ?_⟩
      · have hone := Works.watch_loss_one hd (by simp [hyields hhold])
        rw [hyields hhold] at hone
        exact ⟨Works.watch_loss_at hd (Context.redecided_yields rfl (hyields hhold)) (by simp), hone⟩
      · exact ⟨Works.watch_loss_at hd (Context.redecided_bids rfl (hbids hbid)) (by simp),
          Works.watch_loss_ring hd (hbids hbid)⟩

end Sys2Proof.Machine
end

