-- ==== Sys2Proof/Proofs/BidWindow.lean ====
section
/-! SUPPORT. R98, R105, R116, R118, R122: the best entry of a claim table, a request placed for a channel, the end of a
bid window, and the judgement of a channel in YIELDED. -/

namespace Sys2Proof.Machine

/-! ## The order of claims (R105) -/

/-- The order of R105 between two BIDs. -/
theorem betterClaim_bids (p1 s1 p2 s2 : Nat) :
    betterClaim .bid p1 s1 .bid p2 s2 = true ↔ p1 < p2 ∨ (p1 = p2 ∧ s1 < s2) := by
  simp [betterClaim]

theorem betterClaim_asymm {k1 k2 : ClaimKind} {p1 s1 p2 s2 : Nat} (h : betterClaim k1 p1 s1 k2 p2 s2 = true) :
    betterClaim k2 p2 s2 k1 p1 s1 = false := by
  cases k1 <;> cases k2 <;> simp [betterClaim] at h ⊢ <;> omega

theorem bestRival_mem {table : List Rival} {b : Rival} (h : bestRival table = some b) : b ∈ table := by
  induction table generalizing b with
  | nil => cases h
  | cons r rest ih =>
    simp only [bestRival] at h
    split at h
    · cases h; exact List.mem_cons_self
    · rename_i q hq
      split at h <;> cases h
      · exact List.mem_cons_self
      · exact List.mem_cons_of_mem _ (ih hq)

/-- The entry better than every other is the best (R105). -/
theorem bestRival_of_best {table : List Rival} {b : Rival} (hb : b ∈ table)
    (h : ∀ r ∈ table, r ≠ b → b.better r = true) : bestRival table = some b := by
  induction table with
  | nil => cases hb
  | cons r rest ih =>
    have hrest : ∀ q ∈ rest, q ≠ b → b.better q = true := fun q hq => h q (List.mem_cons_of_mem _ hq)
    simp only [bestRival]
    by_cases hr : r = b
    · subst hr
      split
      · rfl
      · rename_i q hq
        by_cases hqr : q = r
        · simp [hqr]
        · rw [if_pos (hrest q (bestRival_mem hq) hqr)]
    · have hmem : b ∈ rest := (List.mem_cons.mp hb).resolve_left (Ne.symm hr)
      have hworse : r.better b = false := betterClaim_asymm (h r List.mem_cons_self hr)
      simp [ih hmem hrest, hworse]

/-! ## Requests (R122, R123) -/

section
variable {w : Works} {e : Env} {c : Chan}

/-- A placed request is its channel's queued request: it joins the queue, or takes the place of the one there (R122). -/
theorem enqueue_find (r : JoinReq) (q : List JoinReq) :
    (enqueue r q).find? (fun x => decide (x.chan = r.chan)) = some r := by
  unfold enqueue
  split
  · rename_i h
    induction q with
    | nil => simp at h
    | cons x q ih =>
      by_cases hx : x.chan = r.chan
      · simp [hx]
      · have hq : q.any (fun x => decide (x.chan = r.chan)) = true := by simpa [hx] using h
        simpa [hx] using ih hq
  · rename_i h
    have hnone : q.find? (fun x => decide (x.chan = r.chan)) = none := by simpa using h
    simp [List.find?_append, hnone]

/-- A queued request is still queued, or in flight, once the engine has begun what it can (R123). -/
theorem Works.kick_queued {r : JoinReq} (h : w.queuedJoin c = some r) (e : Env) :
    (w.kick e).queuedJoin c = some r ∨ (w.kick e).flyingJoin c = some r := by
  unfold Works.kick
  split
  · exact .inl h
  · split
    · rename_i q rest hf hq
      simp only [Works.queuedJoin, hq, List.find?_cons] at h
      by_cases hc : q.chan = c
      · simp only [hc, decide_true, Option.some.injEq] at h
        subst h
        exact .inr (if_pos hc)
      · simp only [hc, decide_false] at h
        exact .inl h
    · exact .inl h

/-- A request that ends no REQUESTED handback raises its channel's generation, stands in the engine, and changes nothing
else (R100, R122). -/
theorem Works.placeJoin_places {kind : JoinKind} (hk : kind.endsRequest = false) (take : Frame) (curEnd : Option Frame)
    (atSwitch : Bool) {v : Works} (hv : v = w.placeJoin e c kind take curEnd atSwitch) :
    v.at c = { w.at c with gen := (w.at c).gen + 1 } ∧ v.tx = w.tx ∧ v.store = w.store ∧ v.notices = w.notices ∧
      v.Requested c kind take curEnd ((w.at c).gen + 1) := by
  have heq := Works.placeJoin_eq (w := w) (e := e) (c := c) (kind := kind) (take := take) (curEnd := curEnd)
    (atSwitch := atSwitch) (by simp [hk])
  rw [← hv] at heq
  refine ⟨?_, by rw [heq]; rfl, by rw [heq]; rfl, by rw [heq]; rfl, ?_⟩
  · rw [heq]
    exact Works.mod_at w c fun x => { x with gen := x.gen + 1 }
  obtain ⟨r, hr⟩ : ∃ r : JoinReq, r = { chan := c, kind := kind, gen := (w.at c).gen + 1, take := take
                                        curEnd := curEnd, atSwitch := atSwitch } := ⟨_, rfl⟩
  obtain ⟨u, hu⟩ : ∃ u : Works, u = { w.mod c (fun x => { x with gen := x.gen + 1 }) with
    join := { w.join with queue := enqueue r w.join.queue } } := ⟨_, rfl⟩
  have hq : u.queuedJoin c = some r := by
    have hfind := enqueue_find r w.join.queue
    rw [hu, hr] at *
    exact hfind
  have hplace : v = u.kick e := by
    simp only [hv, Works.placeJoin, hk, Bool.false_eq_true, if_false, Works.mod_at, hu, hr]
    rfl
  rw [hplace]
  exact ⟨r, Works.kick_queued hq e, by rw [hr], by rw [hr], by rw [hr], by rw [hr]⟩

end

/-! ## The end of a bid window (R98, R116) -/

section
variable {w : Works} {e : Env} {c : Chan}

/-- The own BID is better than every entry of the table, which may be empty: the window is won (R116). -/
theorem Works.decideBid_wins
    (h : ∀ r ∈ (w.at c).table,
      r.kind = .bid ∧ ((w.at c).prec < r.prec ∨ ((w.at c).prec = r.prec ∧ e.own < r.station))) :
    w.decideBid e c = w.winBid e c := by
  unfold Works.decideBid
  dsimp only
  split
  · rfl
  · rename_i b hb
    obtain ⟨hk, hlt⟩ := h b (bestRival_mem hb)
    rw [hk, if_pos ((betterClaim_bids _ _ _ _).mpr hlt)]

/-- The best entry is better than the own BID: the channel yields to it (R116). -/
theorem Works.decideBid_yields {b : Rival} (hb : bestRival (w.at c).table = some b) (hk : b.kind = .bid)
    (h : b.prec < (w.at c).prec ∨ (b.prec = (w.at c).prec ∧ b.station < e.own)) :
    w.decideBid e c = w.yieldBid e c b.station .bid := by
  simp only [Works.decideBid, hb, hk, betterClaim_asymm ((betterClaim_bids _ _ _ _).mpr h), Bool.false_eq_true,
    if_false]

/-- A channel that yields a bid to a BID makes one notice (R116). -/
theorem Works.yieldBid_one (n : Nat) :
    w.OneNotice (w.yieldBid e c n .bid) .bidYielded (some c) (paramBytes n 1 0 0) e.now := by
  unfold Works.yieldBid
  rw [Works.endBid_eq]
  exact ⟨Works.notice_ring _ _ _ _ _, Works.notice_count _ _ _ _ _⟩

theorem Works.bidBoundary_due (h : e.bidDue (w.at c) = true) : w.bidBoundary e c = w.decideBid e c := by
  simp only [Works.bidBoundary, h, if_true]

/-- A window is decided at the boundary (R116). -/
theorem State.Outstanding.bidWindowDecided {s : State} (h : s.Outstanding (.bid c))
    (hd : s.boundaryEnv.bidDue (s.works.at c) = true) :
    exec (.bidWindowDecided c) s =
      .next { s with works := s.works.decideBid s.boundaryEnv c, due := s.due.erase (.bid c) } := by
  rw [← Works.bidBoundary_due hd]
  exact congrArg Host.Outcome.next (h.sliceWorks (cond := onChannel Env.bidDue c) (f := fun e w => w.bidBoundary e c)
    hd rfl)

/-- The context of a channel that wins its window, the generation apart (R98). -/
def Context.won (x : Context) : Context :=
  { x with
    state := .cueing, active := .primary, cur := none, anchor := none, handback := .absent, bidCount := 0
    prim := x.prim.map fun r => { r with pending := none }
    alt := x.alt.map fun r => { r with pending := none } }

/-- The blocks once a window is won, before the TAKEOVER is asked for (R98, R116). -/
def Works.afterWin (w : Works) (e : Env) (c : Chan) : Works :=
  ((w.notice e .bidWon (some c) (BitVec.ofNat 32 (w.at c).prec)).moveTo c .cueing).mod c Context.prepared

theorem Works.winBid_eq : w.winBid e c = (w.afterWin e c).placeJoin e c .takeover e.ahead none false := rfl

theorem Works.afterWin_at (h : (w.at c).state = .bidding) : (w.afterWin e c).at c = (w.at c).won := by
  rw [Works.afterWin, Works.mod_at, Works.moveTo_at_within (by rw [Works.notice_at, h]; rfl)]
  rfl

theorem Works.OthersKept.decideBid {u : Works} (h : Works.OthersKept c u w) (e : Env) :
    Works.OthersKept c u (w.decideBid e c) := by
  have hwin : Works.OthersKept c u (w.winBid e c) := by
    exact (((h.notice _ _ _ _).moveTo _).mod _).placeJoin e _ _ _ _
  unfold Works.decideBid
  dsimp only
  split
  · exact hwin
  · split
    · exact hwin
    · exact h.yieldBid e _ _

end

/-! ## The judgement of YIELDED (R118) -/

section
variable {w : Works} {e : Env} {c : Chan}

/-- A channel not in YIELDED, or with an entry better than its own BID, stays as it is (R118). -/
theorem Works.yieldedBoundary_stays (h : (w.at c).state ≠ .yielded ∨
      ∃ r ∈ (w.at c).table, r.kind = .hold ∨ r.prec < (w.at c).prec ∨ (r.prec = (w.at c).prec ∧ r.station < e.own)) :
    w.yieldedBoundary e c = w := by
  by_cases hs : (w.at c).state = .yielded
  · obtain ⟨r, hr, hbetter⟩ := h.resolve_left (not_not.mpr hs)
    have hrb : betterClaim r.kind r.prec r.station .bid (w.at c).prec e.own = true := by
      cases hk : r.kind with
      | hold => rfl
      | bid => exact (betterClaim_bids _ _ _ _).mpr (hbetter.resolve_left (by simp [hk]))
    have hany : ((w.at c).table.any fun r => betterClaim r.kind r.prec r.station .bid (w.at c).prec e.own) = true :=
      List.any_eq_true.mpr ⟨r, hr, hrb⟩
    simp only [Works.yieldedBoundary, hs, hany, ne_eq, not_true, if_false, if_true]
  · exact if_pos hs

/-- With no entry better than its own BID a channel returns, or makes the loss decision (R118). -/
theorem Works.yieldedBoundary_leaves (hs : (w.at c).state = .yielded)
    (h : ∀ r ∈ (w.at c).table,
      r.kind = .bid ∧ ((w.at c).prec < r.prec ∨ ((w.at c).prec = r.prec ∧ e.own ≤ r.station))) :
    (e.fresh (w.at c) = true → w.yieldedBoundary e c = w.moveTo c .mirroring) ∧
      (e.fresh (w.at c) = false → w.yieldedBoundary e c = w.lossDecide e c) := by
  have hany : ((w.at c).table.any fun r => betterClaim r.kind r.prec r.station .bid (w.at c).prec e.own) = false := by
    simp only [List.any_eq_false]
    intro r hr
    obtain ⟨hk, hlt⟩ := h r hr
    rw [hk, betterClaim_bids]
    omega
  constructor <;> intro hf <;>
    simp only [Works.yieldedBoundary, hs, hany, hf, ne_eq, not_true, Bool.false_eq_true, if_false, if_true]

/-- The YIELDED judgement keeps to its channel, contexts and notices (R118). -/
theorem Works.yieldedBoundary_frame (w : Works) (e : Env) (c : Chan) :
    Works.OthersKept c w (w.yieldedBoundary e c) ∧ w.OnlyContexts (w.yieldedBoundary e c) := by
  unfold Works.yieldedBoundary
  dsimp only
  split
  · exact ⟨.rfl, .rfl⟩
  · split
    · exact ⟨.rfl, .rfl⟩
    · split
      · exact ⟨Works.OthersKept.rfl.moveTo _, w.moveTo_onlyContexts c _⟩
      · exact ⟨Works.OthersKept.rfl.lossDecide e, w.lossDecide_onlyContexts e c⟩

end

/-- Settles O27: the window by the best entry of the table, the judgement of YIELDED by the table and the tally. -/
theorem bidsAndYieldsAreDecided : Obligations.BidsAndYieldsAreDecided := by
  refine ⟨?_, ?_⟩
  · rintro s c x ho rfl hstate hnew hcount
    have hd : s.boundaryEnv.bidDue (s.works.at c) = true := by simp [Env.bidDue, hstate, hnew, hcount]
    have hexec := ho.bidWindowDecided hd
    have hothers := (Works.OthersKept.rfl (c := c) (w := s.works)).decideBid s.boundaryEnv
    refine ⟨fun hwin => ?_, fun b hb hk hbetter hbest => ?_⟩
    · obtain ⟨v, hv⟩ : ∃ v, v = (s.works.afterWin s.boundaryEnv c).placeJoin s.boundaryEnv c .takeover
        s.boundaryEnv.ahead none false := ⟨_, rfl⟩
      obtain ⟨hat, htx, hstore, hnotices, hreq⟩ := Works.placeJoin_places rfl _ _ _ hv
      rw [Works.decideBid_wins hwin, Works.winBid_eq, ← hv] at hexec hothers
      rw [Works.afterWin_at hstate] at hat hreq
      exact ⟨_, hexec, s.sameOutside_with _ _, rfl, hothers, htx, hstore, hat, hreq,
        (s.works.notice_one s.boundaryEnv _ _ _).after hnotices⟩
    · rw [Works.decideBid_yields (bestRival_of_best hb hbest) hk hbetter] at hexec hothers
      refine ⟨_, hexec, s.sameOutside_with _ _, rfl, hothers, ?_, ?_, ?_⟩
      · exact Works.yieldBid_onlyContexts b.station .bid
      · exact Works.yieldBid_at hstate b.station .bid
      · exact Works.yieldBid_one b.station
  · rintro s c x rfl
    refine ⟨fun hstate => ?_, fun hstate hbetter => ?_, fun hstate hworse => ?_⟩
    · exact congrArg (fun w => { s with works := w }) (Works.yieldedBoundary_stays (e := s.boundaryEnv) (.inl hstate))
    · exact congrArg (fun w => { s with works := w }) (Works.yieldedBoundary_stays (e := s.boundaryEnv) (.inr hbetter))
    · obtain ⟨hothers, honly⟩ := s.works.yieldedBoundary_frame s.boundaryEnv c
      obtain ⟨hreturns, hdecides⟩ := Works.yieldedBoundary_leaves (e := s.boundaryEnv) hstate hworse
      have hclaim : (s.works.at c).state.claiming = false := by rw [hstate]; rfl
      refine ⟨_, rfl, rfl, hothers, honly, fun hseen hage => ?_, fun hold => ?_⟩
      · show (s.works.yieldedBoundary s.boundaryEnv c).at c = _ ∧ (s.works.yieldedBoundary s.boundaryEnv c).notices = _
        rw [hreturns (by simp [Env.fresh, hseen, hage])]
        exact ⟨Works.moveTo_at_within hclaim, rfl⟩
      · have hat := Works.lossDecide_at (e := s.boundaryEnv) hclaim
        have hstale : s.boundaryEnv.fresh (s.works.at c) = false := by
          rw [Env.fresh, Bool.and_eq_false_iff, decide_eq_false_iff_not, Nat.not_lt]
          exact hold
        rw [← hdecides hstale] at hat
        refine ⟨fun hdenied => ?_, fun ha hi hl hm => ?_⟩
        · obtain ⟨code, hout⟩ := Env.lossOutcome_denied (e := s.boundaryEnv) hdenied
          refine ⟨hat.trans (Context.redecided_lost hout), ?_⟩
          exact (congrArg Works.notices (hdecides hstale)).trans (Works.lossDecide_silent (by simp [hout]))
        · have hout : s.boundaryEnv.lossOutcome (s.works.at c) = .bidding :=
            (Env.lossOutcome_table ha hi hl hm).2 fun r hr => (hworse r hr).1
          refine ⟨hat.trans (Context.redecided_bids rfl hout), ?_⟩
          exact (Works.lossDecide_starts hout).after (congrArg Works.notices (hdecides hstale))

end Sys2Proof.Machine
end

