-- ==== Sys2Proof/Proofs/Arming.lean ====
section
/-! SUPPORT. R94, R97, R114, R115, R117, R172 to R178: a directive that every check passes, and what ARM, DISARM and
FORCE TAKE do to their channel. -/

namespace Sys2Proof.Machine

/-! ## A directive that every check passes (R172 to R178) -/

section
variable {s : State} {l : Lane} {m : RxMsg} {p : Peer} {d : Directive} {i : Fin 4} {c : Chan}

/-- Checks 1 to 5 hold, and so does the sixth: the directive is taken (R173 to R175). -/
theorem State.Passes.verdict (h : s.Passes l m p d i c) {sixth : Env → Chan → Works → Option Nat}
    (h6 : sixth (s.heard l p m).env c (s.heard l p m).works = none) :
    (s.heard l p m).works.checkChannel (s.heard l p m).env m.sender.toNat d sixth = .taken i c := by
  obtain ⟨-, hsender, hnumber, hpermits, hbus, hcovers⟩ := h
  simp only [Works.checkChannel, Works.checkSender, State.env_cfg, State.heard_cfg, hsender, State.heard_lastNumbers,
    hnumber, hpermits, hbus, hcovers, h6, if_false, Bool.not_true, Bool.false_eq_true]

/-- The part once a directive is taken: its number recorded, its effect, and then DIRECTIVE_TAKEN (R176, R178). -/
def State.takes (s : State) (i : Fin 4) (c : Chan) (sender : Nat) (d : Directive) (effect : Works → Works) : State :=
  s.onWorks fun w =>
    (effect (w.record i d.number)).notice s.env .directiveTaken (some c) (directiveParam sender d.number d.kind 0)

theorem State.Passes.takes (h : s.Passes l m p d i c) {sixth : Env → Chan → Works → Option Nat}
    {effect : Env → Nat → Directive → Chan → Works → Works}
    (h6 : sixth (s.heard l p m).env c (s.heard l p m).works = none) :
    s.whenRunning (State.takeDirective l d.kind (State.direct sixth effect true)) =
      (s.heard l p m).takes i c m.sender.toNat d (effect (s.heard l p m).env m.sender.toNat d c) := by
  rw [h.1.1.1.whenRunning, h.1.handed]
  simp only [State.direct, State.hand, State.takes, State.onWorks, Works.directive, h.verdict h6, if_true]

/-- A directive taken whose effect keeps to its channel's context and the notices leaves the rest as it was, its number
recorded. -/
theorem State.Passes.takes_frame (h : s.Passes l m p d i c) {s1 : State} (hs1 : s1 = s.heard l p m)
    {sixth : Env → Chan → Works → Option Nat} {effect : Env → Nat → Directive → Chan → Works → Works}
    (h6 : sixth s1.env c s1.works = none) {v : Works}
    (hv : v = effect s1.env m.sender.toNat d c (s1.works.record i d.number))
    (hframe : Works.OthersKept c (s1.works.record i d.number) v ∧ (s1.works.record i d.number).OnlyContexts v) :
    ∃ t, s.whenRunning (State.takeDirective l d.kind (State.direct sixth effect true)) = t ∧
      s1.SameOutside t ∧ t.due = s1.due ∧ s1.works.OthersKept c t.works ∧ t.works.join = s1.works.join ∧
      t.works.tx = s1.works.tx ∧ t.works.store = s1.works.store ∧ t.works.counters = s1.works.counters ∧
      t.works.lastNumbers = s1.works.lastNumbers.set i (some d.number) ∧ t.works.at c = v.at c ∧
      v.OneNotice t.works .directiveTaken (some c) (paramBytes m.sender.toNat d.number.toNat d.kind.code 0)
        s1.clk.count := by
  obtain ⟨hothers, hjoin, htx, hstore, -, hcounters, hnumbers, -, -⟩ := hframe
  subst hs1 hv
  exact ⟨_, h.takes h6, ⟨rfl, rfl, rfl, rfl, rfl, rfl, rfl, rfl, rfl, rfl⟩, rfl, hothers, hjoin, htx, hstore, hcounters,
    hnumbers, rfl, Works.notice_one _ _ _ _ _⟩

end

/-- The last of one more notice stands as the newest (R179). -/
theorem Works.OneNotice.newest {w v : Works} {k : NoticeKind} {d : Option Chan} {n : BitVec 32} {f : Frame}
    (h : w.OneNotice v k d n f) : v.Newest k d n f := by
  rw [Works.Newest, h.1]
  rfl

/-! ## ARM and DISARM (R97) -/

section
variable {w : Works} {e : Env} {c : Chan}

theorem Works.armed_at : (w.arm e c).at c = ({ w.at c with armed := true } : Context).redecided e c := by
  rw [Works.arm, (Works.redecide_cases _ e c).1, Works.mod_at]

theorem Works.armed_frame (w : Works) (e : Env) (c : Chan) :
    Works.OthersKept c w (w.arm e c) ∧ w.OnlyContexts (w.arm e c) :=
  ⟨(Works.OthersKept.rfl.mod _).redecide e, (w.mod_onlyContexts c _).trans (Works.redecide_cases _ e c).2.1⟩

/-- DISARM of a channel that does not bid clears the flag (R97). -/
theorem Works.disarm_at_idle (h : (w.at c).state ≠ .bidding) :
    (w.disarm e c).at c = { w.at c with armed := false } := by
  simp only [Works.disarm, Works.mod_at, h, if_false]

/-- DISARM of a channel that bids takes it to LOST (R97, R114). -/
theorem Works.disarm_at_bidding (h : (w.at c).state = .bidding) :
    (w.disarm e c).at c =
      { w.at c with armed := false, state := .lost, release := 2, bidCount := 0, prec := (e.entry c).prec } := by
  simp only [Works.disarm, Works.endBid_eq, Works.mod_at, h, if_true]
  rfl

theorem Works.disarm_frame (w : Works) (e : Env) (c : Chan) :
    Works.OthersKept c w (w.disarm e c) ∧ w.OnlyContexts (w.disarm e c) := by
  unfold Works.disarm
  dsimp only
  split
  · exact ⟨(Works.OthersKept.rfl.mod _).endBid e .lost, ⟨rfl, rfl, rfl, rfl, rfl, rfl, rfl, rfl⟩⟩
  · exact ⟨Works.OthersKept.rfl.mod _, w.mod_onlyContexts c _⟩

/-! ## FORCE TAKE (R117) -/

/-- Outside BIDDING, FORCE TAKE enters it at precedence 0 (R117). -/
theorem Works.forceTake_enters (h : (w.at c).state ∈ [ChState.mirroring, .suspect, .lost, .yielded]) :
    w.forceTake e c = w.enterBidding e c true := by
  simp only [List.mem_cons, List.not_mem_nil, or_false] at h
  rcases h with h | h | h | h <;> simp only [Works.forceTake, h]

/-- The states from which FORCE TAKE enters BIDDING are not claiming (R112, R117). -/
theorem ChState.claiming_of_forced {st : ChState} (h : st ∈ [ChState.mirroring, .suspect, .lost, .yielded]) :
    st.claiming = false := by
  revert h
  cases st <;> decide

theorem Works.forceTake_bidding (h : (w.at c).state = .bidding) :
    w.forceTake e c = w.mod c fun x => { x with prec := 0 } := by
  simp only [Works.forceTake, h]

/-- FORCE TAKE has its effect in five states, the part not isolated (R175). -/
theorem Works.forceTakeCheck_none (hi : e.isolated = false)
    (h : (w.at c).state ∈ [ChState.mirroring, .suspect, .lost, .yielded] ∨ (w.at c).state = .bidding) :
    w.forceTakeCheck e c = none := by
  simp only [List.mem_cons, List.not_mem_nil, or_false] at h
  rcases h with (h | h | h | h) | h <;> simp [Works.forceTakeCheck, h, hi]

theorem Works.forceTake_frame (w : Works) (e : Env) (c : Chan) :
    Works.OthersKept c w (w.forceTake e c) ∧ w.OnlyContexts (w.forceTake e c) := by
  have henter := And.intro (Works.OthersKept.rfl.enterBidding (c := c) (w := w) e true)
    (w.enterBidding_onlyContexts e c true)
  unfold Works.forceTake
  split
  · exact henter
  · exact henter
  · exact henter
  · exact henter
  · exact ⟨Works.OthersKept.rfl.mod _, w.mod_onlyContexts c _⟩
  · exact ⟨.rfl, .rfl⟩

/-- The only live rival HOLD is the best. -/
theorem bestHold_of_only {table : List Rival} {r : Rival}
    (h : table.filter (fun q => decide (q.kind = .hold)) = [r]) : bestHold table = some r := by
  simp only [bestHold, h, bestRival]

/-- A live rival HOLD yields a bid as it is made: the channel's context (R114, R115). -/
theorem Works.enterBidding_held_at {forced : Bool} {r : Rival} (h : bestHold (w.at c).table = some r) :
    ((w.enterBidding e c forced).at c).state = .yielded ∧ ((w.enterBidding e c forced).at c).prec = (e.entry c).prec ∧
      ((w.enterBidding e c forced).at c).release = 2 := by
  simp only [Works.enterBidding, Works.notice_at, Works.mod_at, Works.moveTo_at, h]
  rw [Works.yieldBid_at (by rw [Works.notice_at, Works.mod_at, Works.moveTo_at])]
  exact ⟨rfl, rfl, rfl⟩

/-- A live rival HOLD yields a bid as it is made: BID_START, then BID_YIELDED (R114, R115, log 22). -/
theorem Works.enterBidding_held_ring {r : Rival} (h : bestHold (w.at c).table = some r) :
    (w.enterBidding e c true).notices.ring =
      ({ kind := .bidYielded, chan := some c, param := paramBytes r.station 2 0 0, frame := e.now } ::
        { kind := .bidStart, chan := some c, param := 0, frame := e.now } :: w.notices.ring).take 32 := by
  simp only [Works.enterBidding, Works.notice_at, Works.mod_at, Works.moveTo_at, h]
  rw [(Works.yieldBid_oneNotice r.station).1, Works.notice_ring, take_cons_take]
  rfl

end

/-- Settles O45: ARM and DISARM by the state they meet, FORCE TAKE by the state and the live HOLDs. -/
theorem armingAndForceAreTaken : Obligations.ArmingAndForceAreTaken := by
  refine ⟨?_, ?_⟩
  · rintro s s1 l m p d i c x hp hs1 rfl hkind
    have hcfg : s1.cfg = s.cfg := by rw [hs1, State.heard_cfg]
    have hiso : s1.env.isolated = s.isolated := by rw [State.env_isolated, hs1, State.heard_isolated]
    rcases hkind with hk | hk
    · obtain ⟨t, ht, h1, h2, h3, h4, h5, h6, h7, h8, hat, hone⟩ := hp.takes_frame hs1 (sixth := Works.armCheck)
        (effect := fun e _ _ c w => w.arm e c) rfl rfl (Works.armed_frame _ _ _)
      rw [Works.armed_at, Works.record_at] at hat
      rw [hk] at ht hone ⊢
      refine ⟨t, congrArg Host.Outcome.next ht, h1, h2, h3, h4, h5, h6, h7, h8, hone.newest, fun _ => ?_, by simp⟩
      rw [hat, ← hiso, ← hcfg]
      refine ⟨fun hl => Context.redecided_stays (.inl hl), fun hl hdenied => ?_, fun hl hi hlive hm => ?_⟩
      · obtain ⟨code, hout⟩ := Env.lossOutcome_denied (x := { s1.works.at c with armed := true }) (.inr hdenied)
        exact Context.redecided_lost hout
      · obtain ⟨hy, hb⟩ := Env.lossOutcome_table (x := { s1.works.at c with armed := true }) rfl hi hlive hm
        exact ⟨fun h => Context.redecided_yields hl (hy h), fun h => Context.redecided_bids hl (hb h)⟩
    · obtain ⟨t, ht, h1, h2, h3, h4, h5, h6, h7, h8, hat, hone⟩ := hp.takes_frame hs1 (sixth := Works.armCheck)
        (effect := fun e _ _ c w => w.disarm e c) rfl rfl (Works.disarm_frame _ _ _)
      rw [hk] at ht hone ⊢
      refine ⟨t, congrArg Host.Outcome.next ht, h1, h2, h3, h4, h5, h6, h7, h8, hone.newest, by simp, fun _ => ?_⟩
      rw [hat, ← hcfg]
      exact ⟨fun h => Works.disarm_at_idle h, fun h => Works.disarm_at_bidding h⟩
  · rintro s s1 l m p d i c x taken start hp hs1 rfl hkind hi rfl rfl
    have hcfg : s1.cfg = s.cfg := by rw [hs1, State.heard_cfg]
    have hiso : s1.env.isolated = false := by rw [State.env_isolated, hs1, State.heard_isolated, hi]
    have htakes (hstate) := hp.takes_frame hs1 (sixth := Works.forceTakeCheck)
      (effect := fun e _ _ c w => w.forceTake e c) (Works.forceTakeCheck_none hiso hstate) rfl
      (Works.forceTake_frame _ _ _)
    rw [hkind] at htakes
    refine ⟨fun hstate => ?_, fun hstate => ?_⟩
    · obtain ⟨t, ht, h1, -, h3, h4, h5, -, -, h8, hat, hring, -⟩ := htakes (.inl hstate)
      rw [Works.forceTake_enters (w := s1.works.record i d.number) hstate] at hat hring
      refine ⟨fun hbids => ?_, fun r hr => ?_⟩
      · have hclaim : (s1.works.at c).state.claiming = false := ChState.claiming_of_forced hstate
        have hstart := Works.enterBidding_open_one (w := s1.works.record i d.number) (e := s1.env) (forced := true)
          hbids
        rw [Works.enterBidding_open_at (w := s1.works.record i d.number) hclaim hbids] at hat
        rw [hstart.1, take_cons_take] at hring
        exact ⟨t, congrArg Host.Outcome.next ht, h1, h3, h5, h4, h8, hat, hring⟩
      · obtain ⟨hyielded, hprec, hrelease⟩ := Works.enterBidding_held_at (w := s1.works.record i d.number) (e := s1.env)
          (forced := true) (bestHold_of_only hr)
        rw [Works.enterBidding_held_ring (w := s1.works.record i d.number) (bestHold_of_only hr), take_cons_take]
          at hring
        rw [← hat] at hyielded hprec hrelease
        rw [← hcfg]
        exact ⟨t, congrArg Host.Outcome.next ht, h1, h3, h5, h4, hyielded, hprec, hrelease, hring⟩
    · obtain ⟨t, ht, h1, -, h3, h4, h5, -, -, -, hat, hring, -⟩ := htakes (.inr hstate)
      rw [Works.forceTake_bidding (w := s1.works.record i d.number) hstate] at hat hring
      exact ⟨t, congrArg Host.Outcome.next ht, h1, h3, h5, h4, hat.trans (Works.mod_at _ _ _), hring⟩

end Sys2Proof.Machine
end

