-- ==== Sys2Proof/Proofs/Requests.lean ====
section
/-! SUPPORT. R100, R122 to R124, R154: when a FOLLOW request is due and what placing it does, the requests of a channel
that are outstanding, the start of a computation, and a result of another generation. -/

namespace Sys2Proof.Machine

section
variable {w : Works} {e : Env} {c : Chan}

/-! ## Follow-on cueing (R154) -/

/-- Nothing of a channel is queued, in flight or waiting (R122, log 13). -/
theorem Works.outstanding_nothing (hw : (w.at c).waitReq = none) (hq : ∀ j ∈ w.join.queue, j.chan ≠ c)
    (hf : ∀ g, w.join.flight = some g → g.req.chan ≠ c) (p : JoinKind → Bool) : w.outstanding c p = false := by
  have hqueued : w.queuedJoin c = none := by simpa [Works.queuedJoin] using hq
  have hflying : w.flyingJoin c = none := by
    unfold Works.flyingJoin
    split
    · rename_i g hg
      exact if_neg (hf g hg)
    · rfl
  simp [Works.outstanding, hqueued, hflying, hw]

/-- A FOLLOW is due in ON_AIR for an end at or before now + P, with no TAKE pending, no SETTLED handback and nothing
outstanding (R154). -/
theorem Works.followDue_onAir {ev : CurEvent} {f : Frame} (hs : (w.at c).state = .onAir) (hc : (w.at c).cur = some ev)
    (hf : ev.endAt = some f) (hend : 0 ≤ frameDiff e.ahead f) (hp : (w.at c).pending = none)
    (hsettled : (w.at c).settled = false) (hout : w.outstanding c (fun _ => true) = false) :
    w.followDue e c = some f := by
  have hlate : atOrLater e.ahead f = true := decide_eq_true hend
  simp only [Works.followDue, hs, hc, Option.bind_some, hf, hlate, hp, hsettled, hout, Option.isNone_none,
    Bool.not_false, Bool.and_self, if_true]

theorem Works.followJudge_due {f : Frame} (h : w.followDue e c = some f) : w.followJudge e c = w.placeFollow e c f := by
  simp only [Works.followJudge, h]

/-- With no other list, a FOLLOW request commits none (R78, R154). -/
theorem Works.placeFollow_plain (h : (w.at c).mirror.other = .absent) (f : Frame) :
    w.placeFollow e c f = w.placeJoin e c .follow f (some f) false := by
  simp only [Works.placeFollow, Works.commitDeferred, h]

theorem State.Outstanding.followDue {s : State} (h : s.Outstanding (.follow c)) {f : Frame}
    (hd : s.works.followDue s.boundaryEnv c = some f) :
    exec (.followDue c) s =
      .next { s with works := s.works.placeFollow s.boundaryEnv c f, due := s.due.erase (.follow c) } := by
  rw [← Works.followJudge_due hd]
  exact congrArg Host.Outcome.next (h.sliceWorks
    (cond := fun s => (s.works.followDue s.boundaryEnv c).isSome) (f := fun e w => w.followJudge e c)
    (by rw [hd, Option.isSome_some]) rfl)

/-! ## The next computation, and a stale result (R123, R124) -/

theorem Works.kick_empty (h : w.join.queue = []) : w.kick e = w := by
  unfold Works.kick
  split
  · rfl
  · split
    · rename_i hq
      rw [h] at hq
      cases hq
    · rfl

/-- The engine begins the oldest request with what it reads then (R123). -/
theorem Works.kick_begins (hh : e.handover = false) (hf : w.join.flight = none) {r : JoinReq} {rest : List JoinReq}
    (hq : w.join.queue = r :: rest) :
    w.kick e = { w with join := { queue := rest, flight := some (w.snapshot e r) } } := by
  simp only [Works.kick, hh, hf, hq, Bool.false_eq_true, if_false]

/-- A result of another generation reaches no block: the engine only gives up its computation and begins the next (R123,
R124). -/
theorem Works.joinComplete_discarded {f : JoinFlight} (hf : w.join.flight = some f)
    (hg : f.req.gen ≠ (w.at f.req.chan).gen) (hwait : (w.at f.req.chan).NothingWaits)
    (h1 : (w.at f.req.chan).state ≠ .onAir) (h2 : (w.at f.req.chan).state ≠ .returning) :
    w.joinComplete e = w.landed.kick { e with handover := false } := by
  obtain ⟨-, -, hreq, howed⟩ := id hwait
  have hstale : w.landed.staleResult f = true := by
    have hne : f.req.gen ≠ (w.landed.at f.req.chan).gen := hg
    simp [Works.staleResult, hne]
  have hdeliver : w.landed.deliver e.handing f = w.landed := by
    rw [Works.deliver, hstale, if_pos rfl, Works.followOwedNow_none (w := w.landed) howed,
      Works.followJudge_none (w := w.landed) h1 h2]
  rw [Works.joinComplete_eq hf, hdeliver, Works.afterJoin_none (w := w.landed) hwait,
    Works.placeWaiting_none (w := w.landed) hreq]

end

/-- Settles O34: the FOLLOW by its judgement, the stale result by what the handover passes by. -/
theorem requestsAndStaleResults : Obligations.RequestsAndStaleResults := by
  refine ⟨?_, ?_⟩
  · rintro s c x ev f ho rfl hstate hcur hend hlate hpending hsettled hwait hother hqueue hflight
    have hdue := Works.followDue_onAir (e := s.boundaryEnv) hstate hcur hend hlate hpending hsettled
      (Works.outstanding_nothing hwait hqueue hflight _)
    obtain ⟨v, hv⟩ : ∃ v, v = s.works.placeJoin s.boundaryEnv c .follow f (some f) false := ⟨_, rfl⟩
    have hexec := ho.followDue hdue
    have hothers := (Works.OthersKept.rfl (c := c) (w := s.works)).placeJoin s.boundaryEnv .follow f (some f) false
    obtain ⟨hat, htx, hstore, hnotices, hreq⟩ := Works.placeJoin_places rfl _ _ _ hv
    rw [Works.placeFollow_plain hother, ← hv] at hexec
    rw [← hv] at hothers
    exact ⟨_, hexec, s.sameOutside_with _ _, rfl, hothers, htx, hstore, hnotices, hat, hreq⟩
  · rintro s f c x hready hf rfl rfl hgen hother hclear hwait howed ⟨h1, h2⟩
    have hdone : s.works.joinComplete s.env = s.works.landed.kick s.env :=
      Works.joinComplete_discarded hf hgen ⟨hother, hclear, hwait, howed⟩ h1 h2
    have hworks : (s.hand Works.joinComplete).works =
        { s.works with join := (s.hand Works.joinComplete).works.join } := by
      rw [State.hand_works, hdone, Works.kick_frame]
      rfl
    refine ⟨_, hready.joinComplete, congrArg (fun w => { s with works := w }) hworks, fun hq => ?_, fun r rest hq => ?_⟩
    · rw [State.hand_works, hdone, Works.kick_empty (w := s.works.landed) hq]
      exact congrArg (fun q => ({ queue := q, flight := none } : JoinEngine)) hq
    · rw [State.hand_works, hdone, Works.kick_begins (w := s.works.landed) rfl rfl hq]
      exact ⟨rfl, _, rfl, rfl, rfl, rfl, rfl, rfl, rfl⟩

end Sys2Proof.Machine
end

