-- ==== Sys2Proof/Proofs/Exits.lean ====
section
/-! SUPPORT. R99, R119, R120, R138, R146, R150, R157: the cues that close a stretch of air, the exit from air, a channel
that yields to a better HOLD, and one that a port fault takes to FAULT. -/

namespace Sys2Proof.Machine

/-! ## Cues and the transmitter (R24) -/

section
variable {w v : Works} {e : Env} {c : Chan} {r : PortRec}

/-- What a CUE makes of the transmitter hangs on the transmitter alone (R24). -/
theorem Works.placeCue_tx (h : w.tx = v.tx) (q : Cue) : (w.placeCue e q).tx = (v.placeCue e q).tx := by
  unfold Works.placeCue
  dsimp only
  rw [h]
  split
  · rfl
  · split <;> rfl

theorem Works.sends_congr (h : w.tx = v.tx) (e : Env) (cues : List Cue) : w.sends e cues = v.sends e cues := by
  unfold Works.sends
  induction cues generalizing w v with
  | nil => exact h
  | cons q cues ih => exact ih (Works.placeCue_tx h q)

/-- A CUE that finds room in URGENT, or one to replace, makes no notice (R24, R32). -/
theorem Works.placeCue_silent (h : w.tx.urgent.length + w.tx.flying .urgent < 16) (q : Cue) :
    (w.placeCue e q).notices = w.notices := by
  unfold Works.placeCue
  dsimp only
  split
  · rfl
  · rfl

/-- A CUE makes URGENT longer by one at most (R24). -/
theorem Works.placeCue_length (q : Cue) :
    (w.placeCue e q).tx.urgent.length + (w.placeCue e q).tx.flying .urgent ≤
      w.tx.urgent.length + w.tx.flying .urgent + 1 := by
  have hpick (t : Transmitter) : (t.pick e.cfg).urgent.length + (t.pick e.cfg).flying .urgent =
      t.urgent.length + t.flying .urgent := (t.pick_keeps e.cfg).2 .urgent
  unfold Works.placeCue
  dsimp only
  split
  · rw [hpick, replaceCue_length]
    exact Nat.le_succ _
  · split
    · rw [hpick, List.length_append]
      simp only [List.length_singleton, Transmitter.flying]
      omega
    · exact Nat.le_succ _

/-! ## The closing cues (R138, R157) -/

/-- A pending TAKE is cancelled by its CANCEL, and ceases to be pending. -/
theorem Works.cancelPending_some (hr : (w.at c).activeRec = some r) {t : Take} (ht : r.pending = some t) :
    w.cancelPending e c =
      (w.placeCue e (cancelCue r t)).mod c fun x => x.modRec x.active fun p => { p with pending := none } := by
  simp only [Works.cancelPending, hr, ht]
  rfl

/-- After its pending TAKE is cancelled a port record holds none. -/
theorem Works.cancelPending_activeRec (hr : (w.at c).activeRec = some r) :
    ((w.cancelPending e c).at c).activeRec = some { r with pending := none } := by
  cases ht : r.pending with
  | none => rw [Works.cancelPending_none hr ht, hr, ← ht]
  | some t =>
    rw [Works.cancelPending_some hr ht, Works.mod_at, Works.placeCue_contexts, Context.modRec_activeRec, hr]
    rfl

/-- The closing cues are placed one after the other: a CANCEL for a pending TAKE, then a STOP (R157). -/
theorem Works.closingCues_sends (hr : (w.at c).activeRec = some r) (f : Frame) :
    (w.closingCues e c f).tx = w.sends e (endingCues (e.estimate r.server) r f) := by
  have hrec := Works.cancelPending_activeRec (e := e) hr
  simp only [Works.closingCues, hrec]
  cases ht : r.pending with
  | none =>
    rw [Works.cancelPending_none hr ht]
    simp only [Works.sends, endingCues, ht, Option.toList_none, List.map_nil, List.nil_append, List.foldl_cons,
      List.foldl_nil]
    rfl
  | some t =>
    rw [Works.cancelPending_some hr ht]
    simp only [Works.sends, endingCues, ht, Option.toList_some, List.map_cons, List.map_nil, List.cons_append,
      List.nil_append, List.foldl_cons, List.foldl_nil]
    exact Works.placeCue_tx (w := (w.placeCue e (cancelCue r t)).mod c _) (v := w.placeCue e (cancelCue r t)) rfl _

/-- With room for two messages in URGENT the closing cues make no notice (R24, R32). -/
theorem Works.closingCues_silent (h : w.tx.urgent.length + w.tx.flying .urgent ≤ 14) (f : Frame) :
    (w.closingCues e c f).notices = w.notices := by
  have hcancel : (w.cancelPending e c).notices = w.notices ∧
      (w.cancelPending e c).tx.urgent.length + (w.cancelPending e c).tx.flying .urgent < 16 := by
    unfold Works.cancelPending
    split
    · exact ⟨rfl, by omega⟩
    · split
      · exact ⟨rfl, by omega⟩
      · rename_i r _ _ t _
        have hlen := Works.placeCue_length (w := w) (e := e) (t.cancel r)
        exact ⟨Works.placeCue_silent (by omega) _, by rw [Works.mod_tx]; omega⟩
  unfold Works.closingCues
  dsimp only
  split
  · exact hcancel.1
  · exact (Works.placeCue_silent hcancel.2 _).trans hcancel.1

end

/-! ## The exit from air (R99) -/

section
variable {w v : Works} {e : Env} {c : Chan} {st : ChState}

/-- The blocks as the cause of an exit finds them: a HAND BACK refused, the state entered, the generation raised. -/
def Works.leaving (w : Works) (e : Env) (c : Chan) (st : ChState) : Works :=
  ((w.refuseRequested e c 3).moveTo c st).mod c fun x => { x with gen := x.gen + 1 }

/-- The context of a channel whose air fields become absent (R99, R157). -/
def Context.vacated (prec : Nat) (x : Context) : Context :=
  { x with
    prim := x.prim.map PortRec.cleared, alt := x.alt.map PortRec.cleared, cur := none, anchor := none
    handback := .absent, prec := prec, waitReq := none, followOwed := false }

theorem Works.leaveAir_eq (w : Works) (e : Env) (c : Chan) (st : ChState) (closing : Works → Works) :
    w.leaveAir e c st closing =
      ((closing (w.leaving e c st)).mod c (Context.vacated (e.entry c).prec)).exitCommit e c := rfl

/-- A REQUESTED handback refused changes the handback and the notices only (R166). -/
theorem Works.refuseRequested_frame (w : Works) (e : Env) (c : Chan) (n : Nat) :
    w.OnlyContexts (w.refuseRequested e c n) ∧
      (w.refuseRequested e c n).at c = { w.at c with handback := ((w.refuseRequested e c n).at c).handback } := by
  unfold Works.refuseRequested
  split
  · refine ⟨⟨rfl, rfl, rfl, rfl, rfl, rfl, rfl, rfl⟩, ?_⟩
    rw [Works.notice_at, Works.mod_at]
  · exact ⟨.rfl, rfl⟩

/-- With no HAND BACK REQUESTED there is none to refuse (R166). -/
theorem Works.refuseRequested_silent (h : ∀ n k, (w.at c).handback ≠ .requested n k) (reason : Nat) :
    w.refuseRequested e c reason = w := by
  unfold Works.refuseRequested
  split
  · rename_i hr
    exact absurd hr (h _ _)
  · rfl

/-- A channel that leaves air sends two RELEASEs (R112), under a new generation (R99). -/
theorem Works.leaving_frame (h : (w.at c).state.claiming = true) (hst : st.claiming = false) :
    w.OnlyContexts (w.leaving e c st) ∧
      (w.leaving e c st).at c =
        { w.at c with
          state := st, release := 2, gen := (w.at c).gen + 1
          handback := ((w.leaving e c st).at c).handback } := by
  obtain ⟨honly, hat⟩ := w.refuseRequested_frame e c 3
  refine ⟨honly.trans ⟨rfl, rfl, rfl, rfl, rfl, rfl, rfl, rfl⟩, ?_⟩
  have hclaiming : ((w.refuseRequested e c 3).at c).state.claiming = true := by rw [hat]; exact h
  rw [Works.leaving, Works.mod_at, Works.moveTo_at_out hclaiming hst, hat]

theorem Works.leaving_notices (h : ∀ n k, (w.at c).handback ≠ .requested n k) :
    (w.leaving e c st).notices = w.notices := by
  rw [Works.leaving, Works.refuseRequested_silent h]
  rfl

/-- A judgement of the mirror changes the mirror and the notices only (R82). -/
theorem Works.judgeOnly_frame (w : Works) (e : Env) (c : Chan) :
    w.OnlyContexts (w.judgeOnly e c) ∧
      (w.judgeOnly e c).at c = { w.at c with mirror := ((w.judgeOnly e c).at c).mirror } := by
  unfold Works.judgeOnly
  dsimp only
  split
  · refine ⟨⟨rfl, rfl, rfl, rfl, rfl, rfl, rfl, rfl⟩, ?_⟩
    rw [Works.notice_at, Works.modMirror_at]
  · refine ⟨⟨rfl, rfl, rfl, rfl, rfl, rfl, rfl, rfl⟩, ?_⟩
    rw [Works.modMirror_at]

/-- What the commit of an exit leaves of a channel that is not LOST: all but its mirror (R74, R79, R94). -/
theorem Works.exitCommit_frame (h : (w.at c).state ≠ .lost) :
    w.OnlyContexts (w.exitCommit e c) ∧
      (w.exitCommit e c).at c =
        { w.at c with
          poolShort := ((w.exitCommit e c).at c).poolShort, mirror := ((w.exitCommit e c).at c).mirror } := by
  have hcommit (rev : Half) (events : List EventRec) : w.OnlyContexts (w.commitList e c rev events) ∧
      (w.commitList e c rev events).at c =
        { w.at c with
          poolShort := ((w.commitList e c rev events).at c).poolShort
          mirror := ((w.commitList e c rev events).at c).mirror } := by
    unfold Works.commitList
    dsimp only
    obtain ⟨u, hu⟩ : ∃ u, u = ((w.mod c fun x =>
      { x with
        poolShort := false
        mirror :=
          { x.mirror with
            live := events, liveRev := some rev, digest := digestOf events, other := .absent, rejected := none,
            short := none, rebuilt := if x.mirror.liveRev = some rev then some rev else none } }).notice e
        .revisionCommitted (some c) (paramHalves rev (BitVec.ofNat 16 events.length))) := ⟨_, rfl⟩
    rw [← hu]
    obtain ⟨honly, hat⟩ := u.judgeOnly_frame e c
    have hfirst : u.at c = { w.at c with poolShort := (u.at c).poolShort, mirror := (u.at c).mirror } := by
      rw [hu, Works.notice_at, Works.mod_at]
    have hstate : ((u.judgeOnly e c).at c).state ≠ .lost := by rw [hat, hfirst]; exact h
    rw [Works.redecide_of_ne hstate]
    refine ⟨(show w.OnlyContexts u by rw [hu]; exact ⟨rfl, rfl, rfl, rfl, rfl, rfl, rfl, rfl⟩).trans honly, ?_⟩
    rw [hat, hfirst]
  unfold Works.exitCommit
  split
  · split
    · exact ⟨.rfl, rfl⟩
    · exact hcommit _ _
  · exact ⟨.rfl, rfl⟩

theorem Works.exitCommit_absent (h : (w.at c).mirror.other = .absent) : w.exitCommit e c = w := by
  simp only [Works.exitCommit, h]

/-- An exit from air once its closing is made: the air fields absent, and a READY list committed (R79, R99). -/
theorem Works.leaveAir_frame {closing : Works → Works} {u v : Works} (hu : u = closing (w.leaving e c st))
    (hv : v = w.leaveAir e c st closing) (h : (u.at c).state ≠ .lost) :
    u.OnlyContexts v ∧
      v.at c =
        { (u.at c).vacated (e.entry c).prec with poolShort := (v.at c).poolShort, mirror := (v.at c).mirror } := by
  rw [Works.leaveAir_eq, ← hu] at hv
  have hstate : ((u.mod c (Context.vacated (e.entry c).prec)).at c).state ≠ .lost := by rw [Works.mod_at]; exact h
  obtain ⟨honly, hat⟩ := Works.exitCommit_frame (e := e) hstate
  rw [Works.mod_at, ← hv] at hat
  rw [← hv] at honly
  exact ⟨(u.mod_onlyContexts c _).trans honly, hat⟩

theorem Context.vacated_offAir {x : Context} (hopen : x.openRec = none) (hrelease : x.release = 2) (prec : Nat) :
    (x.vacated prec).OffAir prec := by
  refine ⟨rfl, rfl, rfl, hopen, rfl, hrelease, ?_⟩
  rintro r (hr | hr) <;>
  · obtain ⟨q, -, rfl⟩ := Option.map_eq_some_iff.mp hr
    exact ⟨rfl, rfl, rfl⟩

end

/-! ## The stop at now + 1 (R120, R150) -/

section
variable {w v : Works} {e : Env} {c : Chan} {st : ChState} {status : AsRunStatus}

/-- What an exit whose stop is now + 1 makes of the blocks (R99, R120, R150, R157). -/
structure Works.StoppedNow (e : Env) (c : Chan) (st : ChState) (status : AsRunStatus) (w v : Works) : Prop where
  join : v.join = w.join
  state : (v.at c).state = st
  offAir : (v.at c).OffAir (e.entry c).prec
  gen : (v.at c).gen = (w.at c).gen + 1
  active : (v.at c).active = (w.at c).active
  dualSeen : (v.at c).dualSeen = (w.at c).dualSeen
  closed : ∀ r, (w.at c).openRec = some r →
    v.store = w.store.append { r with endAt := some (e.now + 1), status := some status }
  store : (w.at c).openRec = none → v.store = w.store
  tx : ∀ r, (w.at c).activeRec = some r →
    v.tx = w.sends e (endingCues (e.estimate r.server) r (e.now + 1))
  notices : (w.at c).openRec = none → (w.at c).handback = .absent → (w.at c).mirror.other = .absent →
    w.tx.urgent.length + w.tx.flying .urgent ≤ 14 → v.notices = w.notices

/-- The record of a channel is closed, if one is open; nothing else of the context changes (R159). -/
theorem Works.closeRecord_frame (w : Works) (e : Env) (c : Chan) (f : Frame) (status : AsRunStatus) :
    (w.closeRecord e c f status).at c = { w.at c with openRec := none } ∧
      (w.closeRecord e c f status).join = w.join ∧ (w.closeRecord e c f status).tx = w.tx ∧
      (∀ r, (w.at c).openRec = some r →
        (w.closeRecord e c f status).store = w.store.append { r with endAt := some f, status := some status }) ∧
      ((w.at c).openRec = none → w.closeRecord e c f status = w) := by
  cases h : (w.at c).openRec with
  | none =>
    rw [Works.closeRecord_none h]
    refine ⟨?_, rfl, rfl, nofun, fun _ => rfl⟩
    rw [← h]
  | some r =>
    rw [Works.closeRecord_some h]
    refine ⟨?_, rfl, rfl, ?_, nofun⟩
    · exact w.mod_at c fun x => { x with openRec := none }
    · rintro _ ⟨⟩
      rfl

/-- The closing cues and the closing of the record at now + 1, after which only the port records and the open record
differ (R120, R150, R157). -/
theorem Works.stopNow_frame {u : Works} (hu : u = w.stopNow e c status) :
    u.at c = { w.at c with openRec := none, prim := (u.at c).prim, alt := (u.at c).alt } ∧ u.join = w.join ∧
      u.tx = (w.closingCues e c (e.now + 1)).tx ∧
      (∀ r, (w.at c).openRec = some r →
        u.store = w.store.append { r with endAt := some (e.now + 1), status := some status }) ∧
      ((w.at c).openRec = none → u = w.closingCues e c (e.now + 1) ∧ u.store = w.store) := by
  obtain ⟨hjoin, hstore, -, -, -, -, hat⟩ := w.closingCues_cuesOnly e c (e.now + 1)
  obtain ⟨hat', hjoin', htx', hsome, hnone⟩ :=
    (w.closingCues e c (e.now + 1)).closeRecord_frame e c (e.now + 1) status
  have hopen : ((w.closingCues e c (e.now + 1)).at c).openRec = (w.at c).openRec := by rw [hat]
  have hclosed : (w.closingCues e c (e.now + 1)).closeRecord e c (e.now + 1) status = u := hu.symm
  rw [hclosed] at hat' hjoin' htx' hsome hnone
  refine ⟨?_, hjoin'.trans hjoin, htx', fun r hr => ?_, fun hr => ?_⟩
  · rw [hat', hat]
  · rw [hsome r (hopen.trans hr), hstore]
  · have hsame := hnone (hopen.trans hr)
    exact ⟨hsame, by rw [hsame, hstore]⟩

theorem Works.leaveAir_stopNow (h : (w.at c).state.claiming = true) (hst : st.claiming = false) (hlost : st ≠ .lost)
    (hv : v = w.leaveAir e c st fun x => x.stopNow e c status) : w.StoppedNow e c st status v := by
  obtain ⟨u, hu⟩ : ∃ u, u = (w.leaving e c st).stopNow e c status := ⟨_, rfl⟩
  obtain ⟨⟨ljoin, ltx, lstore, -⟩, lat⟩ := Works.leaving_frame (e := e) h hst
  obtain ⟨sat, sjoin, stx, ssome, snone⟩ := Works.stopNow_frame hu
  rw [lat] at sat ssome snone
  have hstate : (u.at c).state = st := congrArg Context.state sat
  obtain ⟨⟨vjoin, vtx, vstore, -⟩, vat⟩ := Works.leaveAir_frame hu hv (hstate.trans_ne hlost)
  constructor
  case join => exact vjoin.trans (sjoin.trans ljoin)
  case state => exact (congrArg Context.state vat).trans hstate
  case offAir =>
    rw [vat]
    exact Context.vacated_offAir (x := u.at c) (by rw [sat]) (by rw [sat]) _
  case gen => exact (congrArg Context.gen vat).trans (congrArg Context.gen sat :)
  case active => exact (congrArg Context.active vat).trans (congrArg Context.active sat :)
  case dualSeen => exact (congrArg Context.dualSeen vat).trans (congrArg Context.dualSeen sat :)
  case closed =>
    intro r hr
    rw [vstore, ssome r hr, lstore]
  case store =>
    intro hr
    rw [vstore, (snone hr).2, lstore]
  case tx =>
    intro r hr
    have hactive : ((w.leaving e c st).at c).activeRec = some r := by rw [lat]; exact hr
    rw [vtx, stx, Works.closingCues_sends hactive, Works.sends_congr ltx]
  case notices =>
    intro hr hback hother hroom
    have hsilent : u.notices = w.notices := by
      rw [(snone hr).1, Works.closingCues_silent (by rw [ltx]; exact hroom),
        Works.leaving_notices (by rw [hback]; nofun)]
    have habsent : ((u.mod c (Context.vacated (e.entry c).prec)).at c).mirror.other = .absent := by
      rw [Works.mod_at]
      exact (congrArg (fun x : Context => x.mirror.other) sat).trans hother
    rw [hv, Works.leaveAir_eq, ← hu, Works.exitCommit_absent habsent]
    exact hsilent

end

end Sys2Proof.Machine
end

