-- ==== Sys2Proof/Proofs/AirLost.lean ====
section
/-! SUPPORT. R99, R119, R120, R146, R148, R150: a rival HOLD heard on air, and a port fault with no port to go to. -/

namespace Sys2Proof.Machine

/-! ## A rival HOLD on air (R119, R120) -/

/-- The states of the group "on air" are claiming states (05 section 5.2, R111). -/
theorem ChState.claiming_of_onAir {st : ChState} (h : st = .cueing ∨ st = .onAir ∨ st = .returning) :
    st.claiming = true := by
  rcases h with rfl | rfl | rfl <;> rfl

section
variable {w v : Works} {e : Env} {c : Chan} {r : Rival}

theorem betterClaim_holds (p1 s1 p2 s2 : Nat) :
    betterClaim .hold p1 s1 .hold p2 s2 = true ↔ p1 < p2 ∨ (p1 = p2 ∧ s1 < s2) := by
  simp [betterClaim]

/-- A HOLD, or a handback RELEASE entered as one, is written and then heard (R107 to R109). -/
theorem Works.claimEntry_hold {y : ClaimEntry} {station : Nat} (h : y.prec ≤ 15)
    (hc : y.claim = .hold ∨ ∃ f ev, y.claim = .handback f ev) (hr : r = ⟨station, .hold, y.prec, 0⟩)
    {table : List Rival} (hw : writeClaim r (w.at c).table = some table) :
    w.claimEntry e c station y = (w.mod c fun x => { x with table := table }).holdHeard e c r := by
  have hwrite : w.claimEntry e c station y = w.writeRival e c r := by
    rcases hc with hc | ⟨f, ev, hc⟩ <;> simp only [Works.claimEntry, if_neg (Nat.not_lt.mpr h), hc, hr]
  rw [hwrite]
  subst hr
  simp only [Works.writeRival, hw]

/-- On air a HOLD is compared with the part's own (R119). -/
theorem Works.holdHeard_onAir (h : (w.at c).state = .cueing ∨ (w.at c).state = .onAir ∨ (w.at c).state = .returning) :
    w.holdHeard e c r =
      if betterClaim .hold r.prec r.station .hold (w.at c).prec e.own then w.yieldAir e c r else w := by
  rcases h with h | h | h <;> simp only [Works.holdHeard, h]

/-- A channel that yields from air makes CLAIM_LOST, and then stops at now + 1 (R119, R120). -/
theorem Works.yieldAir_stopped (h : (w.at c).state = .cueing ∨ (w.at c).state = .onAir ∨ (w.at c).state = .returning)
    (hv : v = w.yieldAir e c r) :
    (w.notice e .claimLost (some c) (paramBytes r.station r.prec 0 0)).StoppedNow e c .yielded .yielded v :=
  Works.leaveAir_stopNow (ChState.claiming_of_onAir h) rfl nofun hv

end

/-- Settles O26: the HOLD is written, and then compared with the part's own. -/
theorem betterHoldTakesAir : Obligations.BetterHoldTakesAir := by
  rintro s s1 l m p y c x ha hs1 hk hread hbus hprec hclaim rfl hstate hnew hroom
  have hcfg : s1.cfg = s.cfg := by rw [hs1, s.heard_cfg]
  have hown : s1.own = s.own := by rw [hs1, s.heard_own]
  obtain ⟨r, hr⟩ : ∃ r : Rival, r = ⟨m.sender.toNat, .hold, y.prec, 0⟩ := ⟨_, rfl⟩
  obtain ⟨w, hw⟩ : ∃ w, w = s1.works.mod c fun x => { x with table := (s1.works.at c).table ++ [r] } := ⟨_, rfl⟩
  have hat : w.at c = { s1.works.at c with table := (s1.works.at c).table ++ [r] } := by rw [hw, Works.mod_at]
  have hair : (w.at c).state = .cueing ∨ (w.at c).state = .onAir ∨ (w.at c).state = .returning := by
    rw [hat]; exact hstate
  have hentry : s1.works.claimEntry s1.env c m.sender.toNat y =
      if betterClaim .hold r.prec r.station .hold (w.at c).prec s1.own then w.yieldAir s1.env c r else w := by
    have hjoins : writeClaim r (s1.works.at c).table = some ((s1.works.at c).table ++ [r]) :=
      writeClaim_joins (by rw [hr]; exact hnew) hroom
    rw [Works.claimEntry_hold hprec hclaim hr hjoins, ← hw]
    exact Works.holdHeard_onAir hair
  have hexec : exec (.receiveClaim l) s =
      .next { s1 with works := s1.works.claimEntry s1.env c m.sender.toNat y } := by
    rw [ha.receiveOneClaim hk hread, ← hs1, State.claimEntry_mapped (by rw [hcfg]; exact hbus)]
    rfl
  have hothers : s1.works.OthersKept c w := hw ▸ Works.OthersKept.rfl.mod _
  have hcompare : betterClaim .hold r.prec r.station .hold (w.at c).prec s1.own = true ↔
      y.prec < (s1.works.at c).prec ∨ (y.prec = (s1.works.at c).prec ∧ m.sender.toNat < s.own) := by
    rw [betterClaim_holds, hat, hr, hown]
  rw [hentry] at hexec
  refine ⟨fun hbetter => ?_, fun hworse => ?_⟩
  · rw [if_pos (hcompare.mpr hbetter)] at hexec
    obtain ⟨v, hv⟩ : ∃ v, v = w.yieldAir s1.env c r := ⟨_, rfl⟩
    have hnotice : (w.notice s1.env .claimLost (some c) (paramBytes r.station r.prec 0 0)).at c = w.at c :=
      Works.notice_at _ _ _ _ _ _
    obtain ⟨hjoin, hst, hoff, hgen, hactive, hdual, hclosed, hstore, htx, hnotices⟩ := Works.yieldAir_stopped hair hv
    have hkept : s1.works.OthersKept c v := hv ▸ hothers.yieldAir s1.env r
    rw [← hv] at hexec
    rw [hnotice, hat] at hgen hactive hdual hclosed hstore htx hnotices
    refine ⟨_, hexec, ⟨rfl, rfl, rfl, rfl, rfl, rfl, rfl, rfl, rfl, rfl⟩, rfl, hkept, ?_, hst, ?_, hgen,
      hactive, hdual, ?_, ?_, ?_, ?_⟩
    · exact hjoin.trans (by rw [hw]; rfl)
    · rw [← hcfg]; exact hoff
    · exact fun q hq => (hclosed q hq).trans (by rw [hw]; rfl)
    · exact fun hq => (hstore hq).trans (by rw [hw]; rfl)
    · exact fun q hq => (htx q hq).trans (Works.sends_congr (by rw [hw]; rfl) _ _)
    · intro hopen hback hother hurgent
      have hone := (w.notice_one s1.env .claimLost (some c) (paramBytes r.station r.prec 0 0)).after
        (hnotices hopen hback hother (by rw [hw]; exact hurgent))
      rw [hr] at hone
      exact hone.before (by rw [hw]; rfl)
  · rw [if_neg (hcompare.not.mpr (by omega))] at hexec
    refine ⟨_, hexec, ?_, hothers, ?_⟩
    · rw [hw]; rfl
    · rw [← hr]; exact hat

/-! ## A port fault found at the boundary (R146, R148, R150) -/

section
variable {x : Context} {e : Env} {r : PortRec}

/-- The countdowns stand in the port records alone (R146). -/
theorem Context.lowered_frame (x : Context) :
    x.lowered = { x with prim := x.lowered.prim, alt := x.lowered.alt } := by
  unfold Context.lowered
  split <;> rfl

theorem Context.lowered_activeRec (h : x.state.air = true) (hr : x.activeRec = some r) :
    x.lowered.activeRec = some r.lower := by
  rw [Context.lowered, if_pos h]
  cases ha : x.active <;> simp only [Context.activeRec, ha, Context.portRec] at hr ⊢ <;> rw [hr] <;> rfl

/-- A server silent for loss_frames is the first fault looked for (R146). -/
theorem Env.boundaryFault_silent (h : x.state.air = true) (hr : x.activeRec = some r)
    (hs : e.cfg.lossFrames ≤ r.silent.toNat) : e.boundaryFault x = some .serverSilent := by
  have hloss : e.cfg.lossFrames ≤ r.lower.silent.toNat := hs
  simp only [Env.boundaryFault, h, if_true, Env.findFault, Context.lowered_activeRec h hr, hloss]

/-- With its server heard, the fault of a pending TAKE is that of its lowered countdowns (R146). -/
theorem Env.boundaryFault_pending (h : x.state.air = true) (hr : x.activeRec = some r)
    (hs : r.silent.toNat < e.cfg.lossFrames) {t : Take} (ht : r.pending = some t) :
    e.boundaryFault x =
      if t.armCount - 1 = 0 ∧ t.seen = false then some .armTimeout
      else if t.takeCount - 1 = 0 then some .takeTimeout else none := by
  have hloss : ¬ e.cfg.lossFrames ≤ r.lower.silent.toNat := Nat.not_le.mpr hs
  have hlow : r.lower.pending = some t.lower := by simp only [PortRec.lower, ht, Option.map_some]
  simp only [Env.boundaryFault, h, if_true, Env.findFault, Context.lowered_activeRec h hr, hloss, if_false, hlow]
  rfl

/-- The closing cues of a port hang on no countdown (R138, R146). -/
theorem endingCues_lower (est : Option Int) (r : PortRec) (f : Frame) :
    endingCues est r.lower f = endingCues est r f := by
  cases h : r.pending <;> simp only [endingCues, PortRec.lower, h] <;> rfl

/-- The silent count of a port record is no field of the air (R99, R142). -/
theorem Context.OffAir.silenced {prec : Nat} (h : x.OffAir prec) :
    { x with prim := x.prim.map PortRec.silence, alt := x.alt.map PortRec.silence }.OffAir prec := by
  obtain ⟨hcur, hanchor, hback, hopen, hprec, hrelease, hports⟩ := h
  refine ⟨hcur, hanchor, hback, hopen, hprec, hrelease, ?_⟩
  rintro r (hr | hr) <;> obtain ⟨q, hq, rfl⟩ := Option.map_eq_some_iff.mp hr
  · exact hports q (.inl hq)
  · exact hports q (.inr hq)

end

section
variable {w v : Works} {e : Env} {c : Chan} {cause : PortFault}

/-- A port fault in CUEING or ON_AIR, with no alternate to go to, gives FAULT (R148, R150). -/
theorem Works.portFault_channel (hs : (w.at c).state ≠ .returning)
    (hp : (w.at c).active = .alternate ∨ (w.at c).alt = none) : w.portFault e c cause = w.channelFault e c cause := by
  rw [Works.portFault, if_neg hs]
  split
  · rename_i q hactive halt
    rcases hp with hp | hp
    · rw [hp] at hactive; cases hactive
    · rw [hp] at halt; cases halt
  · rfl

/-- Off air no TAKE is placed again (R144). -/
theorem Works.repeatTake_none (h : (w.at c).state.air = false) : w.repeatTake e c = w := by
  unfold Works.repeatTake
  dsimp only
  split
  · rfl
  · split
    · rw [h]; rfl
    · rfl

/-- At the boundary that finds such a fault the countdowns are lowered, the fault is taken, and the silent counts of the
ports advance (R142, R146). -/
theorem Works.cueBoundary_faults (hf : e.boundaryFault (w.at c) = some cause) (hs : (w.at c).state ≠ .returning)
    (hp : (w.at c).active = .alternate ∨ (w.at c).alt = none)
    (hv : v = (w.mod c Context.lowered).channelFault e c cause) (hst : (v.at c).state = .fault) :
    w.cueBoundary e c =
      v.mod c fun x => { x with prim := x.prim.map PortRec.silence, alt := x.alt.map PortRec.silence } := by
  have hlow : (w.mod c Context.lowered).at c = (w.at c).lowered := Works.mod_at _ _ _
  have hstate : ((w.mod c Context.lowered).at c).state ≠ .returning := by
    rw [hlow, Context.lowered_frame]; exact hs
  have hport : ((w.mod c Context.lowered).at c).active = .alternate ∨
      ((w.mod c Context.lowered).at c).alt = none := by
    rw [hlow]
    refine hp.imp (fun h => by rw [Context.lowered_frame]; exact h) fun h => ?_
    unfold Context.lowered
    split <;> simp only [h, Option.map_none]
  unfold Works.cueBoundary
  simp only [hf]
  rw [Works.portFault_channel hstate hport, ← hv]
  refine Works.repeatTake_none ?_
  rw [Works.mod_at]
  exact congrArg ChState.air hst

/-- A channel that a port fault takes to FAULT makes CHANNEL_FAULT, and then stops at now + 1 (R150). -/
theorem Works.channelFault_stopped
    (h : (w.at c).state = .cueing ∨ (w.at c).state = .onAir ∨ (w.at c).state = .returning)
    (hv : v = w.channelFault e c cause) :
    (w.notice e .channelFault (some c) (paramBytes cause.code (portCode (w.at c).active) 0 0)).StoppedNow e c .fault
      .faulted v :=
  Works.leaveAir_stopNow (ChState.claiming_of_onAir h) rfl nofun hv

end

/-- Settles O32: by the fault that the boundary finds, and the exit it causes. -/
theorem portFaultFaultsChannel : Obligations.PortFaultFaultsChannel := by
  rintro s c x r i code ho rfl hstate hport hcause
  have hair : (s.works.at c).state.air = true := by rcases hstate with h | h <;> rw [h] <;> rfl
  have hrec : (s.works.at c).activeRec = some r := by
    rcases hport with ⟨ha, hr, -⟩ | ⟨ha, hr⟩ <;> rw [Context.activeRec, ha] <;> exact hr
  obtain ⟨cause, hexec, hfault, hcode⟩ : ∃ cause : PortFault,
      exec i s = .next (s.slice (.cue c) (onChannel (faultIs cause) c)) ∧
        s.boundaryEnv.boundaryFault (s.works.at c) = some cause ∧ cause.code = code := by
    rcases hcause with ⟨rfl, rfl, hs⟩ | ⟨rfl, rfl, hs, t, ht, harm⟩ | ⟨rfl, rfl, hs, t, ht, harm, htake⟩
    · exact ⟨.serverSilent, rfl, Env.boundaryFault_silent hair hrec hs, rfl⟩
    · refine ⟨.armTimeout, rfl, ?_, rfl⟩
      rw [Env.boundaryFault_pending hair hrec hs ht, if_pos ⟨by omega, harm.2⟩]
    · refine ⟨.takeTimeout, rfl, ?_, rfl⟩
      rw [Env.boundaryFault_pending hair hrec hs ht, if_neg fun h => harm ⟨by omega, h.2⟩, if_pos (by omega)]
  obtain ⟨w, hw⟩ : ∃ w, w = s.works.mod c Context.lowered := ⟨_, rfl⟩
  obtain ⟨v, hv⟩ : ∃ v, v = w.channelFault s.boundaryEnv c cause := ⟨_, rfl⟩
  have hat : w.at c = (s.works.at c).lowered := by rw [hw, Works.mod_at]
  have hwstate : (w.at c).state = .cueing ∨ (w.at c).state = .onAir ∨ (w.at c).state = .returning := by
    rw [hat, Context.lowered_frame]
    exact hstate.imp_right .inl
  obtain ⟨u, hu⟩ : ∃ u, u = w.notice s.boundaryEnv .channelFault (some c)
    (paramBytes cause.code (portCode (w.at c).active) 0 0) := ⟨_, rfl⟩
  have huat : u.at c = (s.works.at c).lowered := by rw [hu, Works.notice_at, hat]
  obtain ⟨ujoin, utx, ustore, -⟩ : s.works.OnlyContexts u := by
    rw [hu, hw]
    exact (s.works.mod_onlyContexts c _).trans (Works.notice_onlyContexts _ _ _ _ _)
  have hstop := Works.channelFault_stopped hwstate hv
  rw [← hu] at hstop
  obtain ⟨hjoin, hst, hoff, hgen, hactive, -, hclosed, hstore, htx, hnotices⟩ := hstop
  have hsent := htx r.lower (by rw [huat]; exact Context.lowered_activeRec hair hrec)
  rw [huat, Context.lowered_frame] at hgen hactive hclosed hstore hnotices
  have hwork : s.works.cueBoundary s.boundaryEnv c =
      v.mod c fun x => { x with prim := x.prim.map PortRec.silence, alt := x.alt.map PortRec.silence } :=
    Works.cueBoundary_faults hfault (by rcases hstate with h | h <;> rw [h] <;> nofun)
      (hport.symm.imp And.left fun h => h.2.2) (hw ▸ hv) hst
  have hslice := ho.sliceWorks (cond := onChannel (faultIs cause) c) (f := fun e w => w.cueBoundary e c)
    (decide_eq_true hfault) rfl
  have hothers : s.works.OthersKept c w := hw ▸ Works.OthersKept.rfl.mod _
  have hkept : s.works.OthersKept c v := hv ▸ hothers.channelFault _ _
  rw [hslice, hwork] at hexec
  refine ⟨_, hexec, s.sameOutside_with _ _, rfl, hkept.mod _, hjoin.trans ujoin, ?_, ?_, ?_, ?_, ?_, ?_, ?_, ?_⟩
  · rw [Works.mod_at]; exact hst
  · rw [Works.mod_at]; exact hoff.silenced
  · rw [Works.mod_at]; exact hgen
  · rw [Works.mod_at]; exact hactive
  · exact fun o hopen => (hclosed o hopen).trans (by rw [ustore]; rfl)
  · exact fun hopen => (hstore hopen).trans ustore
  · rw [Works.sends_congr utx, endingCues_lower] at hsent
    exact hsent
  · intro hopen hback hother hurgent
    have hone := (w.notice_one s.boundaryEnv .channelFault (some c)
      (paramBytes cause.code (portCode (w.at c).active) 0 0)).after
        ((hnotices hopen hback hother (by rw [utx]; exact hurgent)).trans (congrArg Works.notices hu))
    rw [hcode, hat, Context.lowered_frame] at hone
    exact hone.before (by rw [hw]; rfl)

end Sys2Proof.Machine
end

