-- ==== Sys2Proof/Proofs/HandbackCheck.lean ====
section
/-! SUPPORT. R99, R138, R168 to R171: the READY check and its three outcomes, and the completion of a handback. -/

namespace Sys2Proof.Machine

section
variable {w : Works} {e : Env} {c : Chan} {h hPeer : Frame} {succ : Ident} {n : Nat}

/-! ## The READY check (R168, R170, R171) -/

/-- The stored tally passes the check: READY for H peer, and fresh (R168). -/
theorem Env.readyPasses_of {x : Context} (ho : ∃ o, x.tally = some o ∧ o.phase = .ready ∧ o.readyFrame = some hPeer)
    (hs : x.seen = true) (ha : x.age.toNat < e.cfg.suspectFrames) : e.readyPasses x hPeer = true := by
  obtain ⟨o, ht, hp, hf⟩ := ho
  simp [Env.readyPasses, Env.fresh, hs, ha, ht, hp, hf]

/-- A tally not READY for H peer, or not fresh, fails the check (R168). -/
theorem Env.readyPasses_fails {x : Context}
    (h : (∀ o, x.tally = some o → o.phase ≠ .ready ∨ o.readyFrame ≠ some hPeer) ∨ x.seen = false ∨
      e.cfg.suspectFrames ≤ x.age.toNat) : e.readyPasses x hPeer = false := by
  rcases h with ho | hs | ha
  · cases ht : x.tally with
    | none => simp [Env.readyPasses, ht]
    | some o => rcases ho o ht with hp | hp <;> simp [Env.readyPasses, ht, hp]
  · simp [Env.readyPasses, Env.fresh, hs]
  · simp [Env.readyPasses, Env.fresh, Nat.not_lt.mpr ha]

theorem Works.readyCheck_settles (hb : (w.at c).handback = .agreed .set h hPeer succ n)
    (hp : e.readyPasses (w.at c) hPeer = true) :
    w.readyCheck e c =
      (w.mod c fun x => { x with handback := .agreed .settled h hPeer succ n }).closingCues e c h := by
  simp only [Works.readyCheck, hb, hp, if_true]

theorem Works.readyCheck_postpones (hb : (w.at c).handback = .agreed .set h hPeer succ n)
    (hp : e.readyPasses (w.at c) hPeer = false) (hn : n < 3) :
    w.readyCheck e c =
      (w.mod c fun x => { x with handback := .agreed .postponing h hPeer succ (n + 1) }).placeJoin e c .boundary
        (e.now + BitVec.ofNat 32 e.cfg.handbackLead) none false := by
  simp only [Works.readyCheck, hb, hp, hn, Bool.false_eq_true, if_false, if_true]
  rfl

theorem Works.readyCheck_aborts (hb : (w.at c).handback = .agreed .set h hPeer succ n)
    (hp : e.readyPasses (w.at c) hPeer = false) (hn : 3 ≤ n) : w.readyCheck e c = w.abortHandback e c 1 := by
  simp only [Works.readyCheck, hb, hp, Nat.not_lt.mpr hn, Bool.false_eq_true, if_false]

/-- After the closing cues nothing is pending (R157). -/
theorem Works.closingCues_pending (f : Frame) : ((w.closingCues e c f).at c).pending = none := by
  have hat : (w.closingCues e c f).at c = (w.cancelPending e c).at c := by
    unfold Works.closingCues
    dsimp only
    split
    · rfl
    · exact Works.placeCue_contexts _ _ _ _
  rw [hat]
  cases hr : (w.at c).activeRec with
  | none => simp only [Works.cancelPending, hr, Context.pending, Option.bind_none]
  | some r => rw [Context.pending, Works.cancelPending_activeRec hr, Option.bind_some]

/-- An aborted handback leaves its channel ON_AIR (R171). -/
theorem Works.abortHandback_at (hs : (w.at c).state = .returning) (reason : Nat) :
    (w.abortHandback e c reason).at c = { w.at c with state := .onAir, handback := .absent, dualSeen := false } := by
  have hmove := Works.moveTo_at_within (w := w) (c := c) (st := .onAir) (by rw [hs]; rfl)
  rw [Works.abortHandback, Works.notice_at, Works.mod_at, hmove]

theorem Works.abortHandback_frame (w : Works) (e : Env) (c : Chan) (reason : Nat) :
    w.OthersKept c (w.abortHandback e c reason) ∧ w.OnlyContexts (w.abortHandback e c reason) :=
  ⟨((Works.OthersKept.rfl.moveTo _).mod _).notice _ _ _ _, rfl, rfl, rfl, rfl, rfl, rfl, rfl, rfl⟩

/-! ## The completion at H (R169) -/

/-- What a completed handback makes of the blocks (R99, R169): the record closed at H, the channel off air, and no
cue. -/
structure Works.HandedBack (e : Env) (c : Chan) (h : Frame) (w v : Works) : Prop where
  others : w.OthersKept c v
  join : v.join = w.join
  tx : v.tx = w.tx
  state : (v.at c).state = .mirroring
  offAir : (v.at c).OffAir (e.entry c).prec
  gen : (v.at c).gen = (w.at c).gen + 1
  closed : ∀ r, (w.at c).openRec = some r →
    v.store = w.store.append { r with endAt := some h, status := some .handedBack }
  store : (w.at c).openRec = none → v.store = w.store

theorem Works.completeHandback_handsBack (hs : (w.at c).state = .returning) {v : Works}
    (hv : v = w.completeHandback e c h hPeer) : w.HandedBack e c h v := by
  obtain ⟨r, hr⟩ : ∃ r, r = w.closeRecord e c h .handedBack := ⟨_, rfl⟩
  obtain ⟨rat, rjoin, rtx, rsome, rnone⟩ := w.closeRecord_frame e c h .handedBack
  rw [← hr] at rat rjoin rtx rsome rnone
  have hclaiming : (r.at c).state.claiming = true := by rw [rat]; exact congrArg ChState.claiming hs
  obtain ⟨u, hu⟩ : ∃ u, u = r.leaving e c .mirroring := ⟨_, rfl⟩
  obtain ⟨⟨ujoin, utx, ustore, -⟩, uat⟩ := Works.leaving_frame (e := e) (st := .mirroring) hclaiming rfl
  rw [← hu, rat] at uat
  rw [← hu] at ujoin utx ustore
  obtain ⟨q, hq⟩ : ∃ q, q = r.leaveAir e c .mirroring id := ⟨_, rfl⟩
  obtain ⟨⟨qjoin, qtx, qstore, -⟩, qat⟩ := Works.leaveAir_frame (closing := id) hu hq (by rw [uat]; nofun)
  obtain rfl : v = q.notice e .handbackDone (some c) hPeer := by rw [hv, hq, hr]; rfl
  constructor
  case others =>
    refine Works.OthersKept.notice ?_ _ _ _ _
    rw [hq, hr]
    exact (Works.OthersKept.rfl.closeRecord e _ _).leaveAir e _ fun _ => .rfl
  case join => exact qjoin.trans (ujoin.trans rjoin)
  case tx => exact qtx.trans (utx.trans rtx)
  case state =>
    rw [Works.notice_at, qat]
    exact (congrArg Context.state uat :)
  case offAir =>
    rw [Works.notice_at, qat]
    exact Context.vacated_offAir (x := u.at c) (by rw [uat]) (by rw [uat]) _
  case gen =>
    rw [Works.notice_at, qat]
    exact (congrArg Context.gen uat :)
  case closed => exact fun o ho => (qstore.trans ustore).trans (rsome o ho)
  case store => exact fun ho => (qstore.trans ustore).trans (congrArg Works.store (rnone ho))

/-! ## The handback work of a boundary -/

/-- The boundary that begins H − 1 makes the READY check of a handback set for H (R168). -/
theorem State.Outstanding.readyCheck {s : State} (ho : s.Outstanding (.handback c))
    (hs : (s.works.at c).state = .returning) (hb : (s.works.at c).handback = .agreed .set h hPeer succ n)
    (hnow : s.clk.count = h - 1) :
    exec (.readyCheck c) s =
      .next { s with works := s.works.readyCheck s.boundaryEnv c, due := s.due.erase (.handback c) } := by
  have hdue : s.boundaryEnv.checkDue (s.works.at c) = true := by simp [Env.checkDue, hs, hb, hnow]
  have hwork : s.works.handbackBoundary s.boundaryEnv c = s.works.readyCheck s.boundaryEnv c := if_pos hdue
  rw [← hwork]
  exact congrArg Host.Outcome.next
    (ho.sliceWorks (cond := onChannel Env.checkDue c) (f := fun e w => w.handbackBoundary e c) hdue rfl)

/-- The boundary that begins H completes a SETTLED handback (R169). -/
theorem State.Outstanding.handbackDone {s : State} (ho : s.Outstanding (.handback c))
    (hs : (s.works.at c).state = .returning) (hb : (s.works.at c).handback = .agreed .settled h hPeer succ n)
    (hnow : s.clk.count = h) :
    exec (.handbackDone c) s =
      .next { s with
              works := s.works.completeHandback s.boundaryEnv c h hPeer, due := s.due.erase (.handback c) } := by
  have hdue : s.boundaryEnv.doneDue (s.works.at c) = true := by simp [Env.doneDue, hs, hb, hnow]
  have hwork : s.works.handbackBoundary s.boundaryEnv c = s.works.completeHandback s.boundaryEnv c h hPeer := by
    have hcheck : s.boundaryEnv.checkDue (s.works.at c) = false := by simp only [Env.checkDue, hs, hb]
    simp only [Works.handbackBoundary, hcheck, hdue, hb, Bool.false_eq_true, if_false, if_true]
  rw [← hwork]
  exact congrArg Host.Outcome.next
    (ho.sliceWorks (cond := onChannel Env.doneDue c) (f := fun e w => w.handbackBoundary e c) hdue rfl)

end

/-- Settles O40: the READY check by its three outcomes, and the completion by what it makes of the blocks. -/
theorem readyCheckAndCompletion : Obligations.ReadyCheckAndCompletion := by
  refine ⟨?_, ?_⟩
  · rintro s c x h hPeer succ n ho rfl hs hb hnow
    have hexec := ho.readyCheck hs hb hnow
    refine ⟨fun htally hseen hage => ?_, fun hfails => ⟨fun hn => ?_, fun hn => ?_⟩⟩
    · obtain ⟨w, hw⟩ : ∃ w, w = s.works.mod c fun x => { x with handback := .agreed .settled h hPeer succ n } :=
        ⟨_, rfl⟩
      have hat : w.at c = { s.works.at c with handback := .agreed .settled h hPeer succ n } := by rw [hw, Works.mod_at]
      rw [Works.readyCheck_settles hb (Env.readyPasses_of htally hseen hage), ← hw] at hexec
      obtain ⟨hjoin, hstore, -, -, -, -, hcues⟩ := w.closingCues_cuesOnly s.boundaryEnv c h
      have hothers : s.works.OthersKept c (w.closingCues s.boundaryEnv c h) :=
        (hw ▸ Works.OthersKept.rfl.mod _ : s.works.OthersKept c w).closingCues _ _
      have hcat := hcues c
      rw [hat] at hcat
      refine ⟨_, hexec, s.sameOutside_with _ _, rfl, hothers, hjoin.trans (by rw [hw]; rfl),
        hstore.trans (by rw [hw]; rfl), (congrArg Context.state hcat).trans hs, (congrArg Context.handback hcat :),
        Works.closingCues_pending h, (congrArg Context.cur hcat :), (congrArg Context.openRec hcat :),
        (congrArg Context.gen hcat :), fun r hr => ?_⟩
      have hactive : (w.at c).activeRec = some r := by rw [hat]; exact hr
      exact (Works.closingCues_sends hactive h).trans (Works.sends_congr (by rw [hw]; rfl) _ _)
    · obtain ⟨w, hw⟩ : ∃ w, w =
        s.works.mod c fun x => { x with handback := .agreed .postponing h hPeer succ (n + 1) } := ⟨_, rfl⟩
      obtain ⟨v, hv⟩ : ∃ v, v = w.placeJoin s.boundaryEnv c .boundary
        (s.clk.count + BitVec.ofNat 32 s.cfg.handbackLead) none false := ⟨_, rfl⟩
      have hready : s.works.readyCheck s.boundaryEnv c = v := by
        rw [Works.readyCheck_postpones hb (Env.readyPasses_fails hfails) hn, ← hw, hv]
        rfl
      rw [hready] at hexec
      obtain ⟨hat, htx, hstore, hnotices, hreq⟩ := Works.placeJoin_places rfl _ _ _ hv
      have hothers : s.works.OthersKept c v :=
        hv ▸ (hw ▸ Works.OthersKept.rfl.mod _ : s.works.OthersKept c w).placeJoin _ _ _ _ _
      have hwat : w.at c = { s.works.at c with handback := .agreed .postponing h hPeer succ (n + 1) } := by
        rw [hw, Works.mod_at]
      rw [hwat] at hat hreq
      exact ⟨_, hexec, s.sameOutside_with _ _, rfl, hothers, htx.trans (by rw [hw]; rfl),
        hstore.trans (by rw [hw]; rfl), hnotices.trans (by rw [hw]; rfl), hat, hreq⟩
    · rw [Works.readyCheck_aborts hb (Env.readyPasses_fails hfails) hn] at hexec
      obtain ⟨hothers, honly⟩ := s.works.abortHandback_frame s.boundaryEnv c 1
      exact ⟨_, hexec, s.sameOutside_with _ _, rfl, hothers, honly, Works.abortHandback_at hs 1,
        Works.notice_one _ _ _ _ _⟩
  · rintro s c x h hPeer succ n ho rfl hs hb hnow
    obtain ⟨v, hv⟩ : ∃ v, v = s.works.completeHandback s.boundaryEnv c h hPeer := ⟨_, rfl⟩
    have hexec := ho.handbackDone hs hb hnow
    rw [← hv] at hexec
    obtain ⟨hothers, hjoin, htx, hstate, hoff, hgen, hclosed, hstore⟩ := Works.completeHandback_handsBack hs hv
    refine ⟨_, hexec, s.sameOutside_with _ _, rfl, hothers, hjoin, htx, hstate, hoff, hgen, hclosed, hstore, ?_⟩
    rw [hv, Works.completeHandback]
    exact (Works.notice_one _ _ _ _ _).newest

end Sys2Proof.Machine
end

