-- ==== Sys2Proof/Proofs/MainTally.lean ====
section
/-! SUPPORT. R81, R86 to R89, R101: what a sane main-origin tally entry does to its channel: the return to MIRRORING,
the dual-air judgement, and the tally stored or counted stale. -/

namespace Sys2Proof.Machine

/-- A state from which an entry returns no channel (R89). -/
theorem returnedState_other {st : ChState} (hsuspect : st ≠ .suspect) (hlost : st ≠ .lost) (hbidding : st ≠ .bidding)
    (hyielded : st ≠ .yielded) : returnedState st = st := by
  cases st
  case suspect => contradiction
  case lost => contradiction
  case bidding => contradiction
  case yielded => contradiction
  all_goals rfl

/-! ## The context once its origin is heard (R89, R101) -/

/-- The context that a main-origin entry returns (R89); a bid ends as R114 says. -/
def Context.returned (prec : Nat) (x : Context) : Context :=
  if x.state = .bidding then { x with state := .mirroring, release := 2, prec := prec, bidCount := 0 }
  else { x with state := returnedState x.state }

/-- The context once its main origin is heard: seen, its age 0, returned (R89), and dual air judged (R101). -/
def Context.originHeard (prec : Nat) (t : TallyEntry) (stamp : Tick) (x : Context) : Context :=
  { ({ x with seen := true, age := 0 } : Context).returned prec with
    dualSeen := x.dualSeen || (x.dualCounts stamp && t.airs) }

section
variable {x : Context} {prec : Nat} {t : TallyEntry} {stamp : Tick}

theorem Context.returned_state : (x.returned prec).state = returnedState x.state := by
  unfold Context.returned
  split
  · rename_i h
    rw [h]; rfl
  · rfl

/-- A return takes no channel on air or off it, so it leaves what counts for dual air (R101). -/
theorem Context.returned_dualCounts : (x.returned prec).dualCounts stamp = x.dualCounts stamp := by
  have hback : (x.returned prec).handback = x.handback := by unfold Context.returned; split <;> rfl
  unfold Context.dualCounts
  rw [Context.returned_state, hback]
  cases x.state <;> rfl

theorem Context.returned_dualSeen : (x.returned prec).dualSeen = x.dualSeen := by
  unfold Context.returned
  split <;> rfl

/-- The fields of a context that hearing its origin leaves (R88, R89, R101). -/
theorem Context.originHeard_frame :
    x.originHeard prec t stamp =
      { x with
        state := returnedState x.state, seen := true, age := 0
        prec := (x.originHeard prec t stamp).prec, bidCount := (x.originHeard prec t stamp).bidCount
        release := (x.originHeard prec t stamp).release
        dualSeen := x.dualSeen || (x.dualCounts stamp && t.airs) } := by
  unfold Context.originHeard Context.returned
  by_cases h : x.state = .bidding <;> simp only [h, if_true, if_false, returnedState]

theorem Context.originHeard_bidding (h : x.state = .bidding) :
    (x.originHeard prec t stamp).prec = prec ∧ (x.originHeard prec t stamp).release = 2 := by
  unfold Context.originHeard Context.returned
  simp only [h, if_true, and_self]

end

/-! ## The watch's part of an entry -/

/-- The channel watch hears a main-origin entry (R88, R89, R101). -/
def Works.originHeard (w : Works) (e : Env) (c : Chan) (t : TallyEntry) (stamp : Tick) : Works :=
  ((w.mod c fun x => { x with seen := true, age := 0 }).returnOrigin e c).dualAir e c t stamp

section
variable {w v : Works} {e : Env} {c : Chan} {t : TallyEntry} {stamp : Tick}

/-- A channel in none of the four states from which its origin returns it stays as it is (R89). -/
theorem Works.returnOrigin_stays (h : returnedState (w.at c).state = (w.at c).state) : w.returnOrigin e c = w := by
  unfold Works.returnOrigin
  split
  case h_5 => rfl
  all_goals
    rename_i hs
    rw [hs] at h
    cases h

theorem Works.returnOrigin_context : (w.returnOrigin e c).at c = (w.at c).returned (e.entry c).prec := by
  by_cases hstay : returnedState (w.at c).state = (w.at c).state
  · have hbid : (w.at c).state ≠ .bidding := fun h => by rw [h] at hstay; cases hstay
    rw [Works.returnOrigin_stays hstay, Context.returned, if_neg hbid, hstay]
  · unfold Works.returnOrigin Context.returned
    split
    · rename_i h
      rw [Works.moveTo_at_within (by rw [h]; rfl), if_neg (by rw [h]; nofun), h]
      rfl
    · rename_i h
      rw [Works.notice_at, Works.moveTo_at_within (by rw [h]; rfl), if_neg (by rw [h]; nofun), h]
      rfl
    · rename_i h
      rw [Works.notice_at, Works.endBid_eq, Works.mod_at, if_pos h, h]
      rfl
    · rename_i h
      rw [Works.notice_at, Works.moveTo_at_within (by rw [h]; rfl), if_neg (by rw [h]; nofun), h]
      rfl
    · rename_i h1 h2 h3 h4
      exact absurd (returnedState_other h1 h2 h3 h4) hstay

/-- A channel that comes back from LOST, BIDDING or YIELDED makes ORIGIN_RETURNED with the state it leaves (R89). -/
theorem Works.returnOrigin_one (h : (w.at c).state = .lost ∨ (w.at c).state = .bidding ∨ (w.at c).state = .yielded) :
    w.OneNotice (w.returnOrigin e c) .originReturned (some c) (BitVec.ofNat 32 (w.at c).state.code) e.now := by
  rcases h with h | h | h <;> simp only [Works.returnOrigin, h] <;> exact (Works.notice_one _ e _ _ _).before rfl

theorem Works.returnOrigin_silent
    (h : (w.at c).state ≠ .lost ∧ (w.at c).state ≠ .bidding ∧ (w.at c).state ≠ .yielded) :
    (w.returnOrigin e c).notices = w.notices := by
  obtain ⟨hlost, hbid, hyield⟩ := h
  unfold Works.returnOrigin
  split
  case h_1 => rfl
  case h_5 => rfl
  all_goals contradiction

theorem Works.returnOrigin_frame (w : Works) (e : Env) (c : Chan) :
    w.OthersKept c (w.returnOrigin e c) ∧ w.OnlyContexts (w.returnOrigin e c) := by
  have hkept : w.OthersKept c w := .rfl
  unfold Works.returnOrigin
  split
  · exact ⟨hkept.moveTo _, w.moveTo_onlyContexts c _⟩
  · exact ⟨(hkept.moveTo _).notice _ _ _ _, (w.moveTo_onlyContexts c _).trans (Works.notice_onlyContexts _ _ _ _ _)⟩
  · exact ⟨(hkept.endBid _ _).notice _ _ _ _,
      (w.endBid_onlyContexts e c _).trans (Works.notice_onlyContexts _ _ _ _ _)⟩
  · exact ⟨(hkept.moveTo _).notice _ _ _ _, (w.moveTo_onlyContexts c _).trans (Works.notice_onlyContexts _ _ _ _ _)⟩
  · exact ⟨hkept, .rfl⟩

/-- Dual air is judged on the flag alone (R101). -/
theorem Works.dualAir_context :
    (w.dualAir e c t stamp).at c =
      { w.at c with dualSeen := (w.at c).dualSeen || ((w.at c).dualCounts stamp && t.airs) } := by
  unfold Works.dualAir
  dsimp only
  split
  · rename_i h
    obtain ⟨h, -⟩ := Bool.and_eq_true_iff.mp h
    rw [Works.notice_at, Works.mod_at, h, Bool.or_true]
  · rename_i h
    have hflag : ((w.at c).dualSeen || ((w.at c).dualCounts stamp && t.airs)) = (w.at c).dualSeen := by
      cases hd : (w.at c).dualSeen <;> simp_all
    rw [hflag]

theorem Works.dualAir_frame (w : Works) (e : Env) (c : Chan) (t : TallyEntry) (stamp : Tick) :
    w.OthersKept c (w.dualAir e c t stamp) ∧ w.OnlyContexts (w.dualAir e c t stamp) := by
  unfold Works.dualAir
  dsimp only
  split
  · exact ⟨(Works.OthersKept.rfl.mod _).notice _ _ _ _,
      (w.mod_onlyContexts c _).trans (Works.notice_onlyContexts _ _ _ _ _)⟩
  · exact ⟨.rfl, .rfl⟩

/-- The flag, once set, makes no further notice; nor does an entry that does not count (R101). -/
theorem Works.dualAir_silent (h : ((w.at c).dualCounts stamp && t.airs) = false ∨ (w.at c).dualSeen = true) :
    w.dualAir e c t stamp = w := by
  have hcond : ((w.at c).dualCounts stamp && t.airs && !(w.at c).dualSeen) = false := by
    rcases h with h | h <;> simp [h]
  simp only [Works.dualAir, hcond, Bool.false_eq_true, if_false]

theorem Works.dualAir_one (h : ((w.at c).dualCounts stamp && t.airs) = true) (hd : (w.at c).dualSeen = false) :
    w.OneNotice (w.dualAir e c t stamp) .dualAir (some c) t.event e.now := by
  simp only [Works.dualAir, h, hd, Bool.not_false, Bool.and_self, if_true]
  exact (Works.notice_one _ e _ _ _).before rfl

/-! ## The three judgements together -/

theorem Works.originHeard_at :
    (w.originHeard e c t stamp).at c = (w.at c).originHeard (e.entry c).prec t stamp := by
  rw [Works.originHeard, Works.dualAir_context, Works.returnOrigin_context, Works.mod_at, Context.returned_dualCounts,
    Context.returned_dualSeen]
  rfl

theorem Works.originHeard_frame (w : Works) (e : Env) (c : Chan) (t : TallyEntry) (stamp : Tick) :
    w.OthersKept c (w.originHeard e c t stamp) ∧ w.OnlyContexts (w.originHeard e c t stamp) := by
  obtain ⟨hothers, honly⟩ := (w.mod c fun x => { x with seen := true, age := 0 }).returnOrigin_frame e c
  obtain ⟨hothers', honly'⟩ := Works.dualAir_frame _ e c t stamp
  exact ⟨((Works.OthersKept.rfl.mod _).trans hothers).trans hothers',
    ((w.mod_onlyContexts c _).trans honly).trans honly'⟩

/-- A channel returned from LOST, BIDDING or YIELDED makes ORIGIN_RETURNED and no DUAL_AIR (R89, R101). -/
theorem Works.originHeard_returns
    (h : (w.at c).state = .lost ∨ (w.at c).state = .bidding ∨ (w.at c).state = .yielded) :
    w.OneNotice (w.originHeard e c t stamp) .originReturned (some c) (BitVec.ofNat 32 (w.at c).state.code) e.now := by
  obtain ⟨u, hu⟩ : ∃ u, u = w.mod c fun x => { x with seen := true, age := 0 } := ⟨_, rfl⟩
  have hat : u.at c = { w.at c with seen := true, age := 0 } := by rw [hu, Works.mod_at]
  have hout : (((u.returnOrigin e c).at c).dualCounts stamp && t.airs) = false := by
    rw [Works.returnOrigin_context, Context.returned_dualCounts, hat]
    rcases h with h | h | h <;> simp only [Context.dualCounts, h, Bool.false_and]
  have hone := Works.returnOrigin_one (w := u) (e := e) (c := c) (by rw [hat]; exact h)
  rw [hat] at hone
  rw [Works.originHeard, ← hu, Works.dualAir_silent (.inl hout)]
  exact hone.before (by rw [hu]; rfl)

/-- Elsewhere an entry makes no notice but for dual air (R89, R101). -/
theorem Works.originHeard_silent
    (h : (w.at c).state ≠ .lost ∧ (w.at c).state ≠ .bidding ∧ (w.at c).state ≠ .yielded)
    (hd : ((w.at c).dualCounts stamp && t.airs) = false ∨ (w.at c).dualSeen = true) :
    (w.originHeard e c t stamp).notices = w.notices := by
  obtain ⟨u, hu⟩ : ∃ u, u = w.mod c fun x => { x with seen := true, age := 0 } := ⟨_, rfl⟩
  have hat : u.at c = { w.at c with seen := true, age := 0 } := by rw [hu, Works.mod_at]
  have hjudged : (((u.returnOrigin e c).at c).dualCounts stamp && t.airs) = false ∨
      ((u.returnOrigin e c).at c).dualSeen = true := by
    rw [Works.returnOrigin_context, Context.returned_dualCounts, Context.returned_dualSeen, hat]
    exact hd
  rw [Works.originHeard, ← hu, Works.dualAir_silent hjudged, Works.returnOrigin_silent (by rw [hat]; exact h), hu]
  rfl

/-- An entry that counts makes DUAL_AIR when the flag was clear (R101). -/
theorem Works.originHeard_dual (h : ((w.at c).dualCounts stamp && t.airs) = true) (hd : (w.at c).dualSeen = false) :
    w.OneNotice (w.originHeard e c t stamp) .dualAir (some c) t.event e.now := by
  obtain ⟨u, hu⟩ : ∃ u, u = w.mod c fun x => { x with seen := true, age := 0 } := ⟨_, rfl⟩
  have hat : u.at c = { w.at c with seen := true, age := 0 } := by rw [hu, Works.mod_at]
  have hair : (w.at c).state = .onAir ∨ (w.at c).state = .returning := by
    obtain ⟨h, -⟩ := Bool.and_eq_true_iff.mp h
    unfold Context.dualCounts at h
    split at h
    · exact .inl ‹_›
    · exact .inr ‹_›
    · cases h
  have hstay : u.returnOrigin e c = u :=
    Works.returnOrigin_stays (by rw [hat]; rcases hair with h | h <;> simp only [h, returnedState])
  rw [Works.originHeard, ← hu, hstay]
  exact (Works.dualAir_one (by rw [hat]; exact h) (by rw [hat]; exact hd)).before (by rw [hu]; rfl)

/-! ## The reference (R81), and the entry as a whole (R86 to R88) -/

/-- A reference taken, or not, by a channel that is not LOST touches its mirror and the notices only (R81, R82, R94). -/
theorem Works.takeReference_mirrorOnly (h : (w.at c).state ≠ .lost) {main : Bool} {rev digest : Half}
    (hv : v = w.takeReference e c main rev digest) :
    w.OthersKept c v ∧ w.OnlyContexts v ∧ v.at c = { w.at c with mirror := (v.at c).mirror } := by
  rw [hv]
  unfold Works.takeReference
  split
  · obtain ⟨u, hu⟩ : ∃ u, u = w.modMirror c fun m => { m with reference := some (rev, digest) } := ⟨_, rfl⟩
    have hat : u.at c = { w.at c with mirror := (u.at c).mirror } := by rw [hu, Works.modMirror_at]
    have hothers : w.OthersKept c u := hu ▸ Works.OthersKept.rfl.mod _
    have honly : w.OnlyContexts u := hu ▸ w.mod_onlyContexts c _
    rw [← hu]
    unfold Works.judgeStatus
    split
    · exact ⟨hothers, honly, hat⟩
    · obtain ⟨jonly, jat⟩ := u.judgeOnly_frame e c
      have hstate : ((u.judgeOnly e c).at c).state ≠ .lost := by rw [jat, hat]; exact h
      rw [Works.redecide_of_ne hstate]
      refine ⟨hothers.judgeOnly e, honly.trans jonly, ?_⟩
      rw [jat, hat]
  · exact ⟨.rfl, .rfl, rfl⟩

/-- With the standby origin in authority a main-origin entry brings no reference (R81). -/
theorem Works.takeReference_standby (h : (w.at c).state.mainAuthority = false) (rev digest : Half) :
    w.takeReference e c true rev digest = w := by
  simp only [Works.takeReference, h, Bool.false_eq_true, if_false]

/-- A sane stale entry is heard and counted (R87). -/
theorem Works.mainEntry_counted (ht : t.insane = false)
    (hs : staleStamp ((w.at c).tally.map OriginTally.stamp) stamp = true) :
    w.mainEntry e c t stamp =
      (w.originHeard e c t stamp).count fun n => { n with tallyStale := bump n.tallyStale } := by
  simp only [Works.mainEntry, ht, hs, Bool.false_eq_true, if_false, if_true]
  rfl

/-- A sane current entry is heard, stored, and taken as the reference (R81, R88). -/
theorem Works.mainEntry_stored (ht : t.insane = false)
    (hs : staleStamp ((w.at c).tally.map OriginTally.stamp) stamp = false) :
    w.mainEntry e c t stamp =
      ((w.originHeard e c t stamp).mod c fun x => { x with tally := some (t.stored stamp) }).takeReference e c true
        t.rev t.digest := by
  simp only [Works.mainEntry, ht, hs, Bool.false_eq_true, if_false]
  rfl

/-- No channel is LOST once its main origin is heard (R89). -/
theorem Works.originHeard_notLost : ((w.originHeard e c t stamp).at c).state ≠ .lost := by
  rw [Works.originHeard_at, Context.originHeard_frame]
  cases (w.at c).state <;> simp only [returnedState] <;> nofun

/-- What a sane current entry does past the channel watch: the tally replaced whole, and the mirror told (R81, R88). -/
theorem Works.mainEntry_current (ht : t.insane = false)
    (hs : staleStamp ((w.at c).tally.map OriginTally.stamp) stamp = false) {u : Works}
    (hu : u = w.originHeard e c t stamp) (hv : v = w.mainEntry e c t stamp) :
    u.OthersKept c v ∧ u.OnlyContexts v ∧
      v.at c = { u.at c with tally := some (t.stored stamp), mirror := (v.at c).mirror } ∧
      ((u.at c).state.mainAuthority = false → v.notices = u.notices) := by
  rw [Works.mainEntry_stored ht hs, ← hu] at hv
  obtain ⟨q, hq⟩ : ∃ q, q = u.mod c fun x => { x with tally := some (t.stored stamp) } := ⟨_, rfl⟩
  have hat : q.at c = { u.at c with tally := some (t.stored stamp) } := by rw [hq, Works.mod_at]
  have hothers : u.OthersKept c q := hq ▸ Works.OthersKept.rfl.mod _
  have honly : u.OnlyContexts q := hq ▸ u.mod_onlyContexts c _
  have hlost : (q.at c).state ≠ .lost := by rw [hat, hu]; exact Works.originHeard_notLost
  rw [← hq] at hv
  obtain ⟨vothers, vonly, vat⟩ := Works.takeReference_mirrorOnly hlost hv
  rw [hat] at vat
  refine ⟨hothers.trans vothers, honly.trans vonly, vat, fun hauth => ?_⟩
  rw [hv, Works.takeReference_standby (by rw [hat]; exact hauth), hq]
  rfl

/-- What every sane entry leaves: past the channel watch only a tally, a mirror, the counters and the notices can differ
(R87, R88). -/
theorem Works.mainEntry_frame (ht : t.insane = false) {u : Works} (hu : u = w.originHeard e c t stamp)
    (hv : v = w.mainEntry e c t stamp) :
    u.OthersKept c v ∧
      (v.join = u.join ∧ v.tx = u.tx ∧ v.store = u.store ∧ v.tag = u.tag ∧ v.lastNumbers = u.lastNumbers) ∧
      v.at c = { u.at c with tally := (v.at c).tally, mirror := (v.at c).mirror } ∧
      ((u.at c).state.mainAuthority = false → v.notices = u.notices) := by
  cases hs : staleStamp ((w.at c).tally.map OriginTally.stamp) stamp with
  | true =>
    rw [Works.mainEntry_counted ht hs, ← hu] at hv
    subst hv
    exact ⟨.rfl, ⟨rfl, rfl, rfl, rfl, rfl⟩, rfl, fun _ => rfl⟩
  | false =>
    obtain ⟨hothers, ⟨hjoin, htx, hstore, htag, -, hnumbers, -, -⟩, hat, hnotices⟩ :=
      Works.mainEntry_current ht hs hu hv
    refine ⟨hothers, ⟨hjoin, htx, hstore, htag, hnumbers⟩, ?_, hnotices⟩
    rw [hat]

end

/-! ## The entry as sent -/

section
variable {t : TallyEntry} {stamp : Tick}

theorem TallyEntry.airs_iff : t.airs = true ↔ t.phase = .playing ∨ t.phase = .holding := by
  cases h : t.phase <;> simp [TallyEntry.airs, h]

/-- The sanity rule asks an event of PLAYING and HOLDING alone (R86). -/
theorem TallyEntry.insane_false (h : t.phase = .playing ∨ t.phase = .holding → t.event ≠ 0) : t.insane = false := by
  cases ha : t.airs with
  | false => simp [TallyEntry.insane, ha]
  | true => rw [TallyEntry.insane, decide_eq_false (h (TallyEntry.airs_iff.mp ha)), Bool.and_false]

/-- The stored tally carries an event in PLAYING and HOLDING, and a ready frame in READY (R88). -/
theorem TallyEntry.stored_fields :
    t.stored stamp =
      { rev := t.rev, digest := t.digest, phase := t.phase
        event := if t.phase = .playing ∨ t.phase = .holding then some (t.event, t.offset) else none
        readyFrame := if t.phase = .ready then t.readyFrame else none
        stamp := stamp } := by
  cases h : t.phase <;> simp [TallyEntry.stored, TallyEntry.airs, h]

/-- With no tally held that the stamp precedes by 4096 ticks or less, the stamp is current (R87). -/
theorem staleStamp_current {held : Option OriginTally}
    (h : ∀ o, held = some o → ¬(-4096 ≤ tickDiff stamp o.stamp ∧ tickDiff stamp o.stamp < 0)) :
    staleStamp (held.map OriginTally.stamp) stamp = false := by
  cases held with
  | none => rfl
  | some o => exact decide_eq_false (h o rfl)

end

/-- An entry of the configured main origin is taken as one (R15, R86). -/
theorem State.tallyEntry_fromOrigin {s : State} {t : TallyEntry} {c : Chan} {sender : Nat}
    (h : Config.localOf s.cfg t.bus = some c) (ho : s.cfg.map[c].origin = sender) (stamp : Tick) :
    s.tallyEntry sender stamp t = s.hand fun e w => w.mainEntry e c t stamp := by
  simp only [State.tallyEntry, h, if_pos ho]

/-- Settles O16: by what the channel watch hears, and by whether the stamp is stale. -/
theorem mainTallyIsTaken : Obligations.MainTallyIsTaken := by
  rintro s s1 l m p e c x ha hs1 hk hread hbus horigin hsane rfl
  have hcfg : s1.cfg = s.cfg := by rw [hs1, s.heard_cfg]
  obtain ⟨u, hu⟩ : ∃ u, u = s1.works.originHeard s1.env c e m.stamp := ⟨_, rfl⟩
  obtain ⟨v, hv⟩ : ∃ v, v = s1.works.mainEntry s1.env c e m.stamp := ⟨_, rfl⟩
  have ht := TallyEntry.insane_false hsane
  have hexec : exec (.receiveTally l) s = .next { s1 with works := v } := by
    rw [ha.receiveTally hk, ← hs1, State.routeTally_of_read hread, List.foldl_cons, List.foldl_nil,
      State.tallyEntry_fromOrigin (by rw [hcfg]; exact hbus) (by rw [hcfg]; exact horigin), hv]
    rfl
  obtain ⟨uothers, ujoin, utx, ustore, utag, ucounters, unumbers, -, -⟩ :
      s1.works.OthersKept c u ∧ s1.works.OnlyContexts u := hu ▸ Works.originHeard_frame _ _ _ _ _
  obtain ⟨vothers, ⟨vjoin, vtx, vstore, vtag, vnumbers⟩, vat, vquiet⟩ := Works.mainEntry_frame ht hu hv
  have huat : u.at c = (s1.works.at c).originHeard s.cfg.map[c].prec e m.stamp := by
    rw [hu, Works.originHeard_at, ← hcfg]
    rfl
  have hkeeps := Context.originHeard_frame (x := s1.works.at c) (prec := s.cfg.map[c].prec) (t := e) (stamp := m.stamp)
  rw [← huat] at hkeeps
  rw [hkeeps] at vat
  have hquiet (h : (s1.works.at c).state = .onAir ∨ (s1.works.at c).state = .returning) : v.notices = u.notices :=
    vquiet (by rw [hkeeps]; rcases h with h | h <;> simp only [h, returnedState] <;> rfl)
  have hdual (h : (s1.works.at c).state = .onAir ∨ (s1.works.at c).state = .returning)
      (hcounts : ((s1.works.at c).dualCounts m.stamp && e.airs) = true) :
      (v.at c).dualSeen = true ∧
        ((s1.works.at c).dualSeen = false → s1.works.OneNotice v .dualAir (some c) e.event s1.clk.count) ∧
        ((s1.works.at c).dualSeen = true → v.notices = s1.works.notices) := by
    refine ⟨?_, fun hd => ?_, fun hd => (hquiet h).trans ?_⟩
    · rw [vat]
      exact (congrArg _ hcounts).trans (Bool.or_true _)
    · exact (hu ▸ Works.originHeard_dual hcounts hd).after (hquiet h)
    · rw [hu]
      exact Works.originHeard_silent (by rcases h with h | h <;> rw [h] <;> decide) (.inr hd)
  refine ⟨_, hexec, ⟨rfl, rfl, rfl, rfl, rfl, rfl, rfl, rfl, rfl, rfl⟩, rfl, uothers.trans vothers, vjoin.trans ujoin,
    vtx.trans utx, vstore.trans ustore, vtag.trans utag, vnumbers.trans unumbers, (congrArg Context.state vat :),
    (congrArg Context.seen vat :), (congrArg Context.age vat :), (congrArg Context.cur vat :),
    (congrArg Context.table vat :), (congrArg Context.armed vat :), fun hbid => ?_, fun hcurrent => ?_,
    fun o ho hlow hhigh => ?_, fun hair hphase => ?_, fun ph h hPeer succ n hret hback hphase => ⟨fun hbefore => ?_,
    fun hafter => ?_⟩⟩
  · obtain ⟨hprec, hrelease⟩ := Context.originHeard_bidding (prec := s.cfg.map[c].prec) (t := e) (stamp := m.stamp) hbid
    rw [← huat] at hprec hrelease
    rw [vat]
    exact ⟨hprec, hrelease⟩
  · obtain ⟨-, ⟨-, -, -, -, hcounters, -⟩, hat, -⟩ := Works.mainEntry_current ht (staleStamp_current hcurrent) hu hv
    refine ⟨hcounters.trans ucounters, ?_⟩
    rw [hat, ← TallyEntry.stored_fields]
  · have hstale : staleStamp ((s1.works.at c).tally.map OriginTally.stamp) m.stamp = true := by
      rw [ho]
      exact decide_eq_true ⟨hlow, hhigh⟩
    have hcount : v = u.count fun n => { n with tallyStale := bump n.tallyStale } := by
      rw [hv, Works.mainEntry_counted ht hstale, hu]
    have hsame : v.at c = u.at c := by rw [hcount]; rfl
    have hnotices : v.notices = u.notices := by rw [hcount]; rfl
    refine ⟨?_, ?_, ?_, fun h => ?_, fun h => ?_⟩
    · rw [hcount, ← ucounters]; rfl
    · rw [hsame, hkeeps]
    · rw [hsame, hkeeps]
    · exact (hu ▸ Works.originHeard_returns h).after hnotices
    · rw [hnotices, hu]
      refine Works.originHeard_silent (by rcases h with h | h | h | h <;> rw [h] <;> decide) (.inl ?_)
      rcases h with h | h | h | h <;> simp only [Context.dualCounts, h, Bool.false_and]
  · refine hdual (.inl hair) ?_
    simp only [Context.dualCounts, hair, TallyEntry.airs_iff.mpr hphase, Bool.and_self]
  · refine hdual (.inr hret) ?_
    have hout : atOrLater (stampFrame m.stamp) hPeer = false := decide_eq_false (Int.not_le.mpr hbefore)
    simp only [Context.dualCounts, hret, hback, hout, TallyEntry.airs_iff.mpr hphase, Bool.not_false, Bool.and_self]
  · have hin : atOrLater (stampFrame m.stamp) hPeer = true := decide_eq_true hafter
    have hnone : ((s1.works.at c).dualCounts m.stamp && e.airs) = false := by
      simp only [Context.dualCounts, hret, hback, hin, Bool.not_true, Bool.false_and]
    refine ⟨?_, (hquiet (.inr hret)).trans ?_⟩
    · rw [vat]
      exact (congrArg _ hnone).trans (Bool.or_false _)
    · rw [hu]
      exact Works.originHeard_silent (by rw [hret]; decide) (.inl hnone)

end Sys2Proof.Machine
end

