-- ==== Sys2Proof/Proofs/ClaimOrder.lean ====
section
/-! SUPPORT. R105 to R108: the order of claims as a linear order of ranks, the best and the worst entry of a table in
it, and the bounds of R106 through every write. -/

namespace Sys2Proof.Machine

/-! ## The order of claims (R105) -/

/-- The place of a claim in the order of R105, the best lowest: a HOLD before a BID, then the precedence, then the
station. -/
def claimRank (k : ClaimKind) (p s : Nat) : ℕ ×ₗ ℕ ×ₗ ℕ :=
  toLex (match k with | .hold => 0 | .bid => 1, toLex (p, s))

/-- A claim is better than another when its rank is lower. -/
theorem betterClaim_eq (k1 : ClaimKind) (p1 s1 : Nat) (k2 : ClaimKind) (p2 s2 : Nat) :
    betterClaim k1 p1 s1 k2 p2 s2 = decide (claimRank k1 p1 s1 < claimRank k2 p2 s2) := by
  cases k1 <;> cases k2 <;> simp [betterClaim, claimRank, Prod.Lex.toLex_lt_toLex]

/-- Claims of different stations have different ranks. -/
theorem claimRank_ne {s1 s2 : Nat} (h : s1 ≠ s2) (k1 k2 : ClaimKind) (p1 p2 : Nat) :
    claimRank k1 p1 s1 ≠ claimRank k2 p2 s2 := by
  intro he
  simp only [claimRank, EmbeddingLike.apply_eq_iff_eq, Prod.mk.injEq] at he
  exact h he.2.2

/-- Of two claims of different stations exactly one is better (R105). -/
theorem betterClaim_total {s1 s2 : Nat} (h : s1 ≠ s2) (k1 k2 : ClaimKind) (p1 p2 : Nat) :
    betterClaim k1 p1 s1 k2 p2 s2 = !betterClaim k2 p2 s2 k1 p1 s1 := by
  rw [betterClaim_eq, betterClaim_eq, ← decide_not]
  exact decide_eq_decide.mpr ⟨lt_asymm, fun hn => lt_of_le_of_ne (not_lt.mp hn) (claimRank_ne h k1 k2 p1 p2)⟩

theorem betterClaim_of_prec (k : ClaimKind) {p1 p2 : Nat} (h : p1 < p2) (s1 s2 : Nat) :
    betterClaim k p1 s1 k p2 s2 = true := by
  cases k <;> simp [betterClaim, h]

theorem betterClaim_of_station (k : ClaimKind) (p : Nat) {s1 s2 : Nat} (h : s1 < s2) :
    betterClaim k p s1 k p s2 = true := by
  cases k <;> simp [betterClaim, h]

/-- The rank of an entry. -/
def Rival.rank (r : Rival) : ℕ ×ₗ ℕ ×ₗ ℕ := claimRank r.kind r.prec r.station

theorem Rival.better_iff {x y : Rival} : x.better y = true ↔ x.rank < y.rank := by
  rw [Rival.better, betterClaim_eq, decide_eq_true_eq]
  rfl

theorem Rival.better_false_iff {x y : Rival} : x.better y = false ↔ y.rank ≤ x.rank := by
  rw [← Bool.not_eq_true, Rival.better_iff, not_lt]

/-- An entry of another station that is not better is worse. -/
theorem Rival.better_of_le {x y : Rival} (hs : x.station ≠ y.station) (h : x.rank ≤ y.rank) : x.better y = true :=
  Rival.better_iff.mpr (lt_of_le_of_ne h (claimRank_ne hs _ _ _ _))

/-! ## The best and the worst entry (R105) -/

theorem bestRival_eq_none {table : List Rival} (h : bestRival table = none) : table = [] := by
  cases table with
  | nil => rfl
  | cons q rest =>
    simp only [bestRival] at h
    split at h
    · cases h
    · split at h <;> cases h

theorem worstRival_eq_none {table : List Rival} (h : worstRival table = none) : table = [] := by
  cases table with
  | nil => rfl
  | cons q rest =>
    simp only [worstRival] at h
    split at h
    · cases h
    · split at h <;> cases h

/-- The best entry has the lowest rank of its table. -/
theorem bestRival_le {table : List Rival} {b : Rival} (h : bestRival table = some b) :
    ∀ r ∈ table, b.rank ≤ r.rank := by
  induction table generalizing b with
  | nil => cases h
  | cons q rest ih =>
    rw [List.forall_mem_cons]
    simp only [bestRival] at h
    split at h
    · rename_i hrest
      cases h
      rw [bestRival_eq_none hrest]
      exact ⟨le_rfl, fun _ hr => nomatch hr⟩
    · rename_i a ha
      split at h <;> cases h
      · rename_i hq
        exact ⟨le_rfl, fun r hr => (Rival.better_iff.mp hq).le.trans (ih ha r hr)⟩
      · rename_i hq
        exact ⟨Rival.better_false_iff.mp (Bool.eq_false_iff.mpr hq), ih ha⟩

/-- The worst entry is one of its table and has the highest rank of it. -/
theorem worstRival_ge {table : List Rival} {b : Rival} (h : worstRival table = some b) :
    b ∈ table ∧ ∀ r ∈ table, r.rank ≤ b.rank := by
  induction table generalizing b with
  | nil => cases h
  | cons q rest ih =>
    rw [List.forall_mem_cons]
    simp only [worstRival] at h
    split at h
    · rename_i hrest
      cases h
      rw [worstRival_eq_none hrest]
      exact ⟨List.mem_cons_self, le_rfl, fun _ hr => nomatch hr⟩
    · rename_i a ha
      obtain ⟨hmem, hge⟩ := ih ha
      split at h <;> cases h
      · rename_i hq
        exact ⟨List.mem_cons_self, le_rfl, fun r hr => (hge r hr).trans (Rival.better_iff.mp hq).le⟩
      · rename_i hq
        exact ⟨List.mem_cons_of_mem _ hmem, Rival.better_false_iff.mp (Bool.eq_false_iff.mpr hq), hge⟩

/-! ## The bounds of a table (R106) -/

section
variable {own : Nat} {table t : List Rival}

theorem tableSound_nil (own : Nat) : TableSound own [] := ⟨Nat.zero_le 4, List.nodup_nil, fun _ hr => nomatch hr⟩

/-- A table without a station that was not in it before is within the bounds as before. -/
theorem TableSound.of_sublist (h : TableSound own table)
    (hs : (t.map Rival.station).Sublist (table.map Rival.station)) : TableSound own t := by
  obtain ⟨hlength, hnodup, hown⟩ := h
  refine ⟨?_, hs.nodup hnodup, fun r hr => ?_⟩
  · simpa using hs.length_le.trans (by simpa using hlength)
  · obtain ⟨q, hq, heq⟩ := List.mem_map.mp (hs.subset (List.mem_map_of_mem hr))
    exact heq ▸ hown q hq

/-- An entry of a new station joins a table with room. -/
theorem TableSound.append (h : TableSound own table) (hroom : table.length < 4) {r : Rival} (hr : r.station ≠ own)
    (hnew : ∀ q ∈ table, q.station ≠ r.station) : TableSound own (table ++ [r]) := by
  obtain ⟨-, hnodup, hown⟩ := h
  refine ⟨by simpa using hroom, ?_, ?_⟩
  · rw [List.map_append, List.nodup_append]
    refine ⟨hnodup, List.nodup_singleton _, fun n hn m hm => ?_⟩
    obtain ⟨q, hq, rfl⟩ := List.mem_map.mp hn
    rw [List.map_singleton, List.mem_singleton] at hm
    exact hm ▸ hnew q hq
  · intro q hq
    rcases List.mem_append.mp hq with hq | hq
    · exact hown q hq
    · exact List.mem_singleton.mp hq ▸ hr

/-- A claim takes the place of its station's entry. -/
theorem TableSound.replace (h : TableSound own table) (r : Rival) :
    TableSound own (table.map fun x => if x.station = r.station then r else x) := by
  have hstations : (table.map fun x => if x.station = r.station then r else x).map Rival.station =
      table.map Rival.station := by
    rw [List.map_map]
    refine List.map_congr_left fun x _ => ?_
    simp only [Function.comp_apply]
    split
    · rename_i hx; exact hx.symm
    · rfl
  exact h.of_sublist (hstations ▸ List.Sublist.refl _)

theorem TableSound.filter (h : TableSound own table) (p : Rival → Bool) : TableSound own (table.filter p) :=
  h.of_sublist (List.filter_sublist.map _)

/-- The entries that are left when one is removed leave a place. -/
theorem length_filter_station_lt {worst : Rival} (h : worst ∈ table) :
    (table.filter fun x => decide (x.station ≠ worst.station)).length < table.length :=
  List.length_filter_lt_length_iff_exists.mpr ⟨worst, h, by simp⟩

/-- Every write keeps at most four entries, one for a station, and the claim written is among them (R106 to R108). -/
theorem TableSound.write (h : TableSound own table) {r : Rival} (hr : r.station ≠ own)
    (hw : writeClaim r table = some t) :
    TableSound own t ∧ r ∈ t := by
  rcases writeClaim_cases r table with ⟨⟨x, hx, hxr⟩, hwr⟩ | ⟨hnew, hroom, hwr⟩ | ⟨hnew, -, worst, hworst, hwr⟩
  · cases hwr.symm.trans hw
    exact ⟨h.replace r, List.mem_map.mpr ⟨x, hx, if_pos hxr⟩⟩
  · cases hwr.symm.trans hw
    exact ⟨h.append hroom hr hnew, by simp⟩
  · rcases hwr with ⟨-, hwr⟩ | ⟨-, hwr⟩
    · cases hwr.symm.trans hw
      obtain ⟨hlength, -⟩ := id h
      have hless := length_filter_station_lt (worstRival_ge hworst).1
      exact ⟨(h.filter _).append (by omega) hr fun q hq => hnew q (List.mem_of_mem_filter hq), by simp⟩
    · cases hwr.symm.trans hw

/-- In a table with one entry for a station, the entries of the other stations are those left by removing the entry. -/
theorem TableSound.filter_station (h : TableSound own table) {worst : Rival} (hmem : worst ∈ table) :
    (table.filter fun x => decide (x.station ≠ worst.station)) = table.erase worst := by
  obtain ⟨-, hnodup, -⟩ := h
  rw [(List.Nodup.of_map _ hnodup).erase_eq_filter]
  refine List.filter_congr fun x hx => ?_
  rw [Bool.eq_iff_iff, decide_eq_true_eq, bne_iff_ne]
  exact not_congr ⟨fun hs => List.inj_on_of_nodup_map hnodup hx hmem hs, fun hs => hs ▸ rfl⟩

/-- In a table with one entry for a station, the entry that is worse than every other station's is the worst. -/
theorem TableSound.worstRival_eq (h : TableSound own table) {worst : Rival} (hmem : worst ∈ table)
    (hworst : ∀ q ∈ table, q.station ≠ worst.station → q.better worst = true) : worstRival table = some worst := by
  obtain ⟨-, hnodup, -⟩ := h
  cases hw : worstRival table with
  | none => rw [worstRival_eq_none hw] at hmem; cases hmem
  | some b =>
    obtain ⟨hb, hge⟩ := worstRival_ge hw
    by_cases hs : b.station = worst.station
    · rw [List.inj_on_of_nodup_map hnodup hb hmem hs]
    · exact absurd (Rival.better_iff.mp (hworst b hb hs)) (hge worst hmem).not_gt

/-- A claim of a new station that meets a full table takes the place of the worst entry, or is kept out (R108). -/
theorem TableSound.write_full (h : TableSound own table) {r worst : Rival} (hfull : table.length = 4)
    (hnew : ∀ q ∈ table, q.station ≠ r.station) (hmem : worst ∈ table)
    (hworst : ∀ q ∈ table, q.station ≠ worst.station → q.better worst = true) :
    writeClaim r table = if r.better worst then some (table.erase worst ++ [r]) else none := by
  rcases writeClaim_cases r table with ⟨⟨x, hx, hxr⟩, -⟩ | ⟨-, hroom, -⟩ | ⟨-, -, b, hb, hwr⟩
  · exact absurd hxr (hnew x hx)
  · omega
  · obtain rfl : worst = b := Option.some.inj ((h.worstRival_eq hmem hworst).symm.trans hb)
    rw [h.filter_station hmem] at hwr
    rcases hwr with ⟨hbetter, hwr⟩ | ⟨hbetter, hwr⟩
    · rw [hwr, if_pos hbetter]
    · rw [hwr, if_neg (Bool.eq_false_iff.mp hbetter)]

end

/-! ## A claim is written (R107, R108) -/

section
variable {w : Works} {e : Env} {c : Chan} {r : Rival} {t : List Rival}

/-- A BID written changes its channel's table only. -/
theorem Works.writeRival_bid (hw : writeClaim r (w.at c).table = some t) (hk : r.kind = .bid) :
    w.writeRival e c r = w.mod c fun x => { x with table := t } := by
  simp only [Works.writeRival, hw, hk]

/-- A HOLD written is heard. -/
theorem Works.writeRival_hold (hw : writeClaim r (w.at c).table = some t) (hk : r.kind = .hold) :
    w.writeRival e c r = (w.mod c fun x => { x with table := t }).holdHeard e c r := by
  simp only [Works.writeRival, hw, hk]

/-- A claim that a full table keeps out is counted. -/
theorem Works.writeRival_discarded (hw : writeClaim r (w.at c).table = none) :
    w.writeRival e c r = w.count fun n => { n with claimTableFull := bump n.claimTableFull } := by
  simp only [Works.writeRival, hw]

end

/-- Settles O52: the order by the ranks of claims, and the writes by the cases of R107 and R108. -/
theorem claimsAreRankedAndTheBestAreKept : Obligations.ClaimsAreRankedAndTheBestAreKept := by
  refine ⟨fun _ _ _ _ => rfl, fun k p1 s1 p2 s2 h => betterClaim_of_prec k h s1 s2,
    fun k p _ _ h => betterClaim_of_station k p h, fun k1 p1 _ k2 p2 _ h => betterClaim_total h k1 k2 p1 p2,
    fun a b c hab hbc => ?_, fun table b hb => ?_, fun table b hb => ?_,
    fun e c r worst w table htable hsound hr => ⟨fun t hw => hsound.write hr hw, fun hfull hnew hmem hworst => ?_⟩⟩
  · exact Rival.better_iff.mpr ((Rival.better_iff.mp hab).trans (Rival.better_iff.mp hbc))
  · exact ⟨bestRival_mem hb, fun r hr hs => Rival.better_of_le hs.symm (bestRival_le hb r hr)⟩
  · obtain ⟨hmem, hge⟩ := worstRival_ge hb
    exact ⟨hmem, fun r hr hs => Rival.better_of_le hs (hge r hr)⟩
  · have hwrite := hsound.write_full hfull hnew hmem hworst
    rw [htable] at hwrite
    refine ⟨fun hbetter => ?_, fun hbetter => ?_⟩
    · rw [if_pos hbetter] at hwrite
      exact ⟨_, htable ▸ List.perm_append_singleton r _, fun hk => Works.writeRival_bid hwrite hk,
        fun hk => Works.writeRival_hold hwrite hk⟩
    · rw [if_neg (Bool.eq_false_iff.mp hbetter)] at hwrite
      exact Works.writeRival_discarded hwrite

end Sys2Proof.Machine
end

