-- ==== Sys2Proof/Proofs/Tables.lean ====
section
/-! SUPPORT. R106: the claim tables are the claim unit's own. Every operation of the blocks leaves them as they are,
but for a claim written, the ageing of a table, and CLEAR CHANNEL. -/

namespace Sys2Proof.Machine

/-- The claim tables of all channels. -/
def Works.tables (w : Works) (c : Chan) : List Rival := (w.at c).table

/-- A change of a context that leaves its table leaves the tables. -/
@[simp] theorem Works.tables_mod {w : Works} {c : Chan} {f : Context → Context}
    (h : (f (w.at c)).table = (w.at c).table) :
    (w.mod c f).tables = w.tables := by
  funext d
  simp only [Works.tables, Works.mod_at_eq]
  split
  · subst d; exact h
  · rfl

theorem Works.CuesOnly.tables {w v : Works} (h : w.CuesOnly v) : v.tables = w.tables := by
  obtain ⟨-, -, -, -, -, -, hat⟩ := h
  funext c
  rw [Works.tables, hat c]
  rfl

@[simp] theorem Context.modRec_table (x : Context) (p : PortSel) (f : PortRec → PortRec) :
    (x.modRec p f).table = x.table := by
  cases p <;> rfl

theorem Works.tables_foldl {α : Type} {f : Works → α → Works} (hf : ∀ v a, (f v a).tables = v.tables) (l : List α)
    (w : Works) : (l.foldl f w).tables = w.tables :=
  foldl_keeps (P := fun v => v.tables = w.tables) (fun v a hv => (hf v a).trans hv) l rfl

theorem Works.tables_eachChannel {f : Chan → Works → Works} (hf : ∀ c v, (f c v).tables = v.tables) (w : Works) :
    (w.eachChannel f).tables = w.tables :=
  Works.tables_foldl (fun v c => hf c v) _ w

section
variable (w : Works) (e : Env) (c : Chan)

/-! ## Bids and loss decisions -/

@[simp] theorem Works.tables_notice (k : NoticeKind) (d : Option Chan) (n : BitVec 32) :
    (w.notice e k d n).tables = w.tables := rfl

@[simp] theorem Works.tables_count (f : BlockCounters → BlockCounters) : (w.count f).tables = w.tables := rfl

@[simp] theorem Works.tables_record (i : Fin 4) (n : Byte) : (w.record i n).tables = w.tables := rfl

@[simp] theorem Works.tables_modMirror (f : Mirror → Mirror) : (w.modMirror c f).tables = w.tables :=
  Works.tables_mod rfl

@[simp] theorem Works.tables_moveTo (st : ChState) : (w.moveTo c st).tables = w.tables := Works.tables_mod rfl

@[simp] theorem Works.tables_endBid (st : ChState) : (w.endBid e c st).tables = w.tables := by simp [Works.endBid]

@[simp] theorem Works.tables_yieldBid (n : Nat) (k : ClaimKind) : (w.yieldBid e c n k).tables = w.tables := by
  simp [Works.yieldBid]

@[simp] theorem Works.tables_enterBidding (forced : Bool) : (w.enterBidding e c forced).tables = w.tables := by
  unfold Works.enterBidding
  dsimp only
  split <;> simp

@[simp] theorem Works.tables_lossDecide : (w.lossDecide e c).tables = w.tables := by
  unfold Works.lossDecide
  split <;> simp

@[simp] theorem Works.tables_redecide : (w.redecide e c).tables = w.tables := by
  unfold Works.redecide
  split <;> simp

/-! ## Join requests (R122, R123) -/

@[simp] theorem Works.tables_refuseRequested (n : Nat) : (w.refuseRequested e c n).tables = w.tables := by
  unfold Works.refuseRequested
  split <;> simp

@[simp] theorem Works.tables_kick : (w.kick e).tables = w.tables := by
  rw [Works.kick_frame]
  rfl

@[simp] theorem Works.tables_placeJoin (kind : JoinKind) (take : Frame) (curEnd : Option Frame) (atSwitch : Bool) :
    (w.placeJoin e c kind take curEnd atSwitch).tables = w.tables := by
  unfold Works.placeJoin
  rw [Works.tables_kick]
  refine (Works.tables_mod (c := c) (f := fun x => { x with gen := x.gen + 1 }) rfl).trans ?_
  split <;> simp

/-! ## Cues and takes (R24, R143, R145) -/

@[simp] theorem Works.tables_placeCue (q : Cue) : (w.placeCue e q).tables = w.tables := (w.placeCue_cuesOnly e q).tables

@[simp] theorem Works.tables_cancelPending : (w.cancelPending e c).tables = w.tables :=
  (w.cancelPending_cuesOnly e c).tables

@[simp] theorem Works.tables_closingCues (f : Frame) : (w.closingCues e c f).tables = w.tables :=
  (w.closingCues_cuesOnly e c f).tables

@[simp] theorem Works.tables_stepped (station : Nat) (step : Option Int) :
    (w.stepped e station step).tables = w.tables := (w.stepped_cuesOnly e station step).tables

@[simp] theorem Works.tables_saturated (station : Nat) (set : Bool) : (w.saturated e station set).tables = w.tables :=
  (w.saturated_cuesOnly e station set).tables

@[simp] theorem Works.tables_cueCancel : (w.cueCancel e c).tables = w.tables := by
  unfold Works.cueCancel
  split
  · rfl
  · split <;> simp

@[simp] theorem Works.tables_placeTake (k : JoinKind) (f : Frame) (ev : CurEvent) :
    (w.placeTake e c k f ev).tables = w.tables := by
  have hcancelled : ((w.cancelPending e c).mod c fun x =>
      x.modRec x.active fun p => { p with withdrawn := none }).tables = w.tables := by simp
  unfold Works.placeTake
  dsimp only
  split
  · exact hcancelled
  · rw [Works.tables_mod (Context.modRec_table _ _ _), Works.tables_placeCue]
    exact hcancelled

@[simp] theorem Works.tables_repeatTake : (w.repeatTake e c).tables = w.tables := by
  unfold Works.repeatTake
  dsimp only
  split
  · rfl
  · split
    · split <;> simp
    · rfl

/-! ## As-run records (R159 to R161) -/

@[simp] theorem Works.tables_appendRecord (r : AsRunRec) : (w.appendRecord e r).tables = w.tables := by
  rw [Works.appendRecord_frame]
  rfl

@[simp] theorem Works.tables_closeRecord (f : Frame) (st : AsRunStatus) :
    (w.closeRecord e c f st).tables = w.tables := by
  unfold Works.closeRecord
  split <;> simp

/-! ## The schedule mirror (04) -/

@[simp] theorem Works.tables_judgeOnly : (w.judgeOnly e c).tables = w.tables := by
  unfold Works.judgeOnly
  dsimp only
  split <;> simp

@[simp] theorem Works.tables_judgeStatus : (w.judgeStatus e c).tables = w.tables := by
  unfold Works.judgeStatus
  split <;> simp

@[simp] theorem Works.tables_commitList (rev : Half) (events : List EventRec) :
    (w.commitList e c rev events).tables = w.tables := by
  simp [Works.commitList]

@[simp] theorem Works.tables_commitDeferred : (w.commitDeferred e c).tables = w.tables := by
  unfold Works.commitDeferred
  split <;> simp

@[simp] theorem Works.tables_followAfterCommit : (w.followAfterCommit e c).tables = w.tables := by
  have hplaced : ∀ f, (if !(w.at c).successorPending || (w.at c).settled then w
      else if (w.queuedJoin c).isSome then w.mod c fun y => { y with followOwed := true }
      else (w.commitDeferred e c).placeJoin e c .follow f (some f) false).tables = w.tables := fun f => by
    split
    · rfl
    · split <;> simp
  unfold Works.followAfterCommit
  dsimp only
  split
  · exact hplaced _
  · exact hplaced _
  · rfl

@[simp] theorem Context.refill_table (x : Context) (ev : CurEvent) (events : List EventRec) :
    (x.refill e ev events).table = x.table := by
  unfold Context.refill
  split <;> rfl

@[simp] theorem Works.tables_commitByState (rev : Half) (events : List EventRec) :
    (w.commitByState e c rev events).tables = w.tables := by
  unfold Works.commitByState
  dsimp only
  split
  · simp
  · split
    · simp
    · split
      · simp
      · split
        · rw [Works.tables_followAfterCommit, Works.tables_mod rfl, Works.tables_commitList]
        · simp

@[simp] theorem Works.tables_exitCommit : (w.exitCommit e c).tables = w.tables := by
  unfold Works.exitCommit
  split
  · split <;> simp
  · rfl

@[simp] theorem Works.tables_clearMirror : (w.clearMirror c).tables = w.tables := by
  unfold Works.clearMirror
  split <;> simp

@[simp] theorem Works.tables_afterJoin : (w.afterJoin e c).tables = w.tables := by
  unfold Works.afterJoin
  dsimp only
  split
  · simp
  · split
    · simp
    · split
      · simp
      · split <;> simp
    · rfl

theorem Works.tables_dropOther (f : Mirror → Mirror) {after : Works → Works}
    (hafter : ∀ v, (after v).tables = v.tables) : (w.dropOther e c f after).tables = w.tables := by
  unfold Works.dropOther
  dsimp only
  split <;> simp [hafter]

@[simp] theorem Works.tables_reject (rev : Half) (reason : Nat) : (w.reject e c rev reason).tables = w.tables :=
  w.tables_dropOther e c _ fun v => v.tables_notice e _ _ _

@[simp] theorem Works.tables_abandon (rev : Half) : (w.abandon e c rev).tables = w.tables :=
  w.tables_dropOther e c _ fun v => by simp

@[simp] theorem Works.tables_complete (rev : Half) (events : List EventRec) :
    (w.complete e c rev events).tables = w.tables := by
  unfold Works.complete
  split
  · simp
  · dsimp only
    split <;> simp

@[simp] theorem Works.tables_addSegment (m : SegmentMsg) : (w.addSegment e c m).tables = w.tables := by
  unfold Works.addSegment
  split
  · split
    · simp
    · split
      · simp
      · dsimp only
        split <;> simp
  · rfl

@[simp] theorem Works.tables_startBuilding (m : SegmentMsg) : (w.startBuilding e c m).tables = w.tables := by
  unfold Works.startBuilding
  dsimp only
  split <;> simp

@[simp] theorem Works.tables_startIfWanted (m : SegmentMsg) : (w.startIfWanted e c m).tables = w.tables := by
  unfold Works.startIfWanted
  dsimp only
  split
  · simp
  · split
    · simp
    · split <;> simp

@[simp] theorem Works.tables_supersede (m : SegmentMsg) : (w.supersede e c m).tables = w.tables := by
  rw [Works.supersede, Works.tables_startBuilding]
  exact w.tables_dropOther e c _ fun _ => rfl

@[simp] theorem Works.tables_freshSegment (m : SegmentMsg) : (w.freshSegment e c m).tables = w.tables := by
  unfold Works.freshSegment
  split
  · simp
  · dsimp only
    split
    · split <;> simp
    · split <;> simp

@[simp] theorem Works.tables_routeSegment (m : SegmentMsg) : (w.routeSegment e c m).tables = w.tables := by
  unfold Works.routeSegment
  split
  · split
    · split
      · rfl
      · split <;> simp
    · split <;> simp
  · split <;> simp
  · simp

@[simp] theorem Works.tables_takeSegment (m : SegmentMsg) : (w.takeSegment e c m).tables = w.tables := by
  unfold Works.takeSegment
  split
  · rfl
  · split
    · split <;> simp
    · simp

@[simp] theorem Works.tables_takeReference (main : Bool) (rev digest : Half) :
    (w.takeReference e c main rev digest).tables = w.tables := by
  unfold Works.takeReference
  split <;> simp

/-! ## On air (08, 09) -/

@[simp] theorem Works.tables_stopNow (st : AsRunStatus) : (w.stopNow e c st).tables = w.tables := by
  simp [Works.stopNow]

theorem Works.tables_leaveAir (st : ChState) {closing : Works → Works} (hclosing : ∀ v, (closing v).tables = v.tables) :
    (w.leaveAir e c st closing).tables = w.tables := by
  simp [Works.leaveAir, hclosing]

@[simp] theorem Works.tables_yieldAir (r : Rival) : (w.yieldAir e c r).tables = w.tables :=
  Works.tables_leaveAir _ e c .yielded fun v => v.tables_stopNow e c .yielded

@[simp] theorem Works.tables_followJudge : (w.followJudge e c).tables = w.tables := by
  unfold Works.followJudge Works.placeFollow
  split <;> simp

@[simp] theorem Works.tables_requestImposed (kind : JoinKind) (atSwitch : Bool) :
    (w.requestImposed e c kind atSwitch).tables = w.tables := by
  unfold Works.requestImposed
  split <;> simp

@[simp] theorem Works.tables_placeWaiting : (w.placeWaiting e c).tables = w.tables := by
  unfold Works.placeWaiting
  split
  · rfl
  · dsimp only
    split <;> simp

@[simp] theorem Works.tables_abortHandback (n : Nat) : (w.abortHandback e c n).tables = w.tables := by
  simp [Works.abortHandback]

@[simp] theorem Works.tables_placeBoundary : (w.placeBoundary e c).tables = w.tables := by simp [Works.placeBoundary]

@[simp] theorem Works.tables_settleRequest (sender : Nat) (number : Byte) (o : JoinOutcome) :
    (w.settleRequest e c sender number o).tables = w.tables := by
  unfold Works.settleRequest
  dsimp only
  split
  · simp
  · split
    · simp
    · split
      · split <;> simp
      · simp

@[simp] theorem Works.tables_settlePostponed (count : Nat) (o : JoinOutcome) :
    (w.settlePostponed e c count o).tables = w.tables := by
  unfold Works.settlePostponed
  split
  · dsimp only
    split <;> simp
  · simp

@[simp] theorem Works.tables_boundaryResult (o : JoinOutcome) : (w.boundaryResult e c o).tables = w.tables := by
  unfold Works.boundaryResult
  split <;> simp

@[simp] theorem Works.tables_readyCheck : (w.readyCheck e c).tables = w.tables := by
  unfold Works.readyCheck
  dsimp only
  split
  · split
    · simp
    · split <;> simp
  · rfl

@[simp] theorem Works.tables_completeHandback (hLocal hPeer : Frame) :
    (w.completeHandback e c hLocal hPeer).tables = w.tables := by
  rw [Works.completeHandback, Works.tables_notice, Works.tables_leaveAir, Works.tables_closeRecord]
  exact fun _ => rfl

@[simp] theorem Works.tables_handbackBoundary : (w.handbackBoundary e c).tables = w.tables := by
  unfold Works.handbackBoundary
  dsimp only
  split
  · simp
  · split
    · split <;> simp
    · rfl

/-! ## Port faults and take confirmation (R146 to R155) -/

@[simp] theorem Works.tables_portSwitch (k : PortFault) : (w.portSwitch e c k).tables = w.tables := by
  have hstopped : ∀ r : Option PortRec,
      (match r with
        | some r => (w.notice e .portSwitch (some c) (BitVec.ofNat 32 k.code)).placeCue e (r.stop e e.ahead)
        | none => w.notice e .portSwitch (some c) (BitVec.ofNat 32 k.code)).tables = w.tables := by
    rintro (- | r) <;> simp
  unfold Works.portSwitch
  dsimp only
  split
  · exact (Works.tables_mod (by rfl)).trans (hstopped _)
  · split
    · rw [Works.tables_requestImposed]
      exact (Works.tables_mod (by rfl)).trans (hstopped _)
    · rw [Works.tables_placeJoin]
      exact (Works.tables_mod (by rfl)).trans (hstopped _)

@[simp] theorem Works.tables_channelFault (k : PortFault) : (w.channelFault e c k).tables = w.tables :=
  Works.tables_leaveAir _ e c .fault fun v => v.tables_stopNow e c .faulted

@[simp] theorem Works.tables_abortIfReturning (n : Nat) : (w.abortIfReturning e n c).tables = w.tables := by
  unfold Works.abortIfReturning
  split <;> simp

@[simp] theorem Works.tables_portFault (k : PortFault) : (w.portFault e c k).tables = w.tables := by
  have haborted := w.tables_abortIfReturning e c 5
  unfold Works.portFault
  dsimp only
  split
  · rw [Works.tables_portSwitch]
    exact haborted
  · rw [Works.tables_channelFault]
    exact haborted

@[simp] theorem Context.lowered_table (x : Context) : x.lowered.table = x.table := by
  unfold Context.lowered
  split <;> rfl

@[simp] theorem Works.tables_cueBoundary : (w.cueBoundary e c).tables = w.tables := by
  unfold Works.cueBoundary
  dsimp only
  rw [Works.tables_repeatTake]
  split <;> simp

@[simp] theorem Works.tables_turnRecord (r : PortRec) (t : Take) : (w.turnRecord e c r t).tables = w.tables := by
  unfold Works.turnRecord
  dsimp only
  split <;> simp

@[simp] theorem Works.tables_confirm (p : PortSel) (r : PortRec) (t : Take) :
    (w.confirm e c p r t).tables = w.tables := by
  unfold Works.confirm
  dsimp only
  rw [Works.tables_followJudge, Works.tables_notice]
  split <;> simp

@[simp] theorem Works.tables_confirmPlaying (p : PortSel) (m : PortEntry) :
    (w.confirmPlaying e c p m).tables = w.tables := by
  unfold Works.confirmPlaying
  split
  · rfl
  · split
    · split <;> simp
    · rfl

@[simp] theorem Works.tables_overtakeHold (p : PortSel) (m : PortEntry) :
    (w.overtakeHold e c p m).tables = w.tables := by
  unfold Works.overtakeHold
  dsimp only
  split
  · rfl
  · split
    · split <;> simp
    · rfl

@[simp] theorem Works.tables_faultReported (p : PortSel) (m : PortEntry) :
    (w.faultReported e c p m).tables = w.tables := by
  unfold Works.faultReported
  dsimp only
  split
  · rfl
  · split <;> simp

@[simp] theorem Works.tables_portEntry (sender : Nat) (m : PortEntry) (p : PortSel) :
    (w.portEntry e sender m c p).tables = w.tables := by
  unfold Works.portEntry
  split
  · rfl
  · split <;> simp

@[simp] theorem Works.tables_takePortStatus (sender : Nat) (es : List PortEntry) :
    (w.takePortStatus e sender es).tables = w.tables := by
  unfold Works.takePortStatus
  split
  · exact Works.tables_foldl (fun v m => Works.tables_foldl (fun u d => by simp) _ v) es w
  · rfl

/-! ## Delivery of join results (R124) -/

@[simp] theorem Works.tables_noticesDue (due : List (NoticeKind × BitVec 32)) :
    (w.noticesDue e c due).tables = w.tables := by
  unfold Works.noticesDue
  exact Works.tables_foldl (fun v n => v.tables_notice e n.1 (some c) n.2) due w

@[simp] theorem Works.tables_followResult (f : Frame) (ev : CurEvent) :
    (w.followResult e c f ev).tables = w.tables := by
  unfold Works.followResult
  dsimp only
  split
  · rfl
  · split <;> simp

@[simp] theorem Works.tables_actOn (f : JoinFlight) : (w.actOn e f).tables = w.tables := by
  unfold Works.actOn
  dsimp only
  split <;> simp

@[simp] theorem Works.tables_followOwedNow : (w.followOwedNow e c).tables = w.tables := by
  unfold Works.followOwedNow
  split <;> simp

@[simp] theorem Works.tables_deliver (f : JoinFlight) : (w.deliver e f).tables = w.tables := by
  unfold Works.deliver
  dsimp only
  rw [Works.tables_followJudge, Works.tables_followOwedNow]
  split <;> simp

@[simp] theorem Works.tables_joinComplete : (w.joinComplete e).tables = w.tables := by
  unfold Works.joinComplete
  split
  · rfl
  · simp only [Works.tables_kick, Works.tables_placeWaiting, Works.tables_afterJoin, Works.tables_deliver]
    rfl

/-! ## Channel watch (05) -/

@[simp] theorem Works.tables_returnOrigin : (w.returnOrigin e c).tables = w.tables := by
  unfold Works.returnOrigin
  split <;> simp

@[simp] theorem Works.tables_dualAir (t : TallyEntry) (stamp : Tick) : (w.dualAir e c t stamp).tables = w.tables := by
  unfold Works.dualAir
  dsimp only
  split <;> simp

@[simp] theorem Works.tables_mainEntry (t : TallyEntry) (stamp : Tick) :
    (w.mainEntry e c t stamp).tables = w.tables := by
  unfold Works.mainEntry
  split
  · simp
  · dsimp only
    split <;> simp

@[simp] theorem Works.tables_standbyEntry (t : TallyEntry) (stamp : Tick) :
    (w.standbyEntry e c t stamp).tables = w.tables := by
  unfold Works.standbyEntry
  split
  · simp
  · split <;> simp

@[simp] theorem Works.tables_ageTally : (w.ageTally c).tables = w.tables := by
  refine Works.tables_mod ?_
  split <;> rfl

@[simp] theorem Works.tables_watch : (w.watch e c).tables = w.tables := by
  unfold Works.watch
  dsimp only
  rw [Works.tables_ageTally]
  split
  · simp
  · split <;> simp

@[simp] theorem Works.tables_isolate : (w.isolate e).tables = w.tables := by
  refine Works.tables_eachChannel (fun d v => ?_) w
  split <;> simp

@[simp] theorem Works.tables_rejoin : (w.rejoin e).tables = w.tables :=
  Works.tables_eachChannel (fun d v => v.tables_redecide e d) w

/-! ## Claims (06) -/

/-- A rival HOLD heard writes no table: the write that it follows has been made (R115, R119). -/
@[simp] theorem Works.tables_holdHeard (r : Rival) : (w.holdHeard e c r).tables = w.tables := by
  unfold Works.holdHeard
  split
  case h_1 => simp
  case h_5 => rfl
  all_goals split <;> simp

@[simp] theorem Works.tables_winBid : (w.winBid e c).tables = w.tables := by simp [Works.winBid, Context.prepared]

@[simp] theorem Works.tables_decideBid : (w.decideBid e c).tables = w.tables := by
  unfold Works.decideBid
  dsimp only
  split
  · simp
  · split <;> simp

@[simp] theorem Works.tables_bidBoundary : (w.bidBoundary e c).tables = w.tables := by
  unfold Works.bidBoundary
  dsimp only
  split
  · simp
  · split <;> simp

@[simp] theorem Works.tables_yieldedBoundary : (w.yieldedBoundary e c).tables = w.tables := by
  unfold Works.yieldedBoundary
  dsimp only
  split
  · rfl
  · split
    · rfl
    · split <;> simp

@[simp] theorem Works.tables_placeClaims (msgs : List OutMsg) : (w.placeClaims e msgs).tables = w.tables :=
  Works.tables_foldl (fun v _ => v.tables_notice e _ _ _) (List.range (w.tx.claimsDropped msgs))
    { w with tx := w.tx.withClaims msgs }

@[simp] theorem Works.tables_claimSet : (w.claimSet e).tables = w.tables := by
  rw [Works.claimSet, Works.tables_placeClaims]
  refine Works.tables_eachChannel (fun d v => Works.tables_mod ?_) w
  unfold Context.released
  split <;> rfl

/-! ## Directives (10) -/

@[simp] theorem Works.tables_arm : (w.arm e c).tables = w.tables := by simp [Works.arm]

@[simp] theorem Works.tables_disarm : (w.disarm e c).tables = w.tables := by
  unfold Works.disarm
  dsimp only
  split <;> simp

@[simp] theorem Works.tables_forceTake : (w.forceTake e c).tables = w.tables := by
  unfold Works.forceTake
  split <;> simp

@[simp] theorem Works.tables_handBack (sender : Nat) (number : Byte) :
    (w.handBack e sender number c).tables = w.tables := by
  simp [Works.handBack]

@[simp] theorem Works.tables_hold : (w.hold e c).tables = w.tables := by simp [Works.hold]

@[simp] theorem Works.tables_impose (kind : JoinKind) : (w.impose e kind c).tables = w.tables := by
  simp [Works.impose]

@[simp] theorem Works.tables_skip : (w.skip e c).tables = w.tables := by simp [Works.skip]

@[simp] theorem Works.tables_retry : (w.retry e c).tables = w.tables := by
  unfold Works.retry
  split <;> simp

@[simp] theorem Works.tables_retime (sender : Nat) (d : Directive) : (w.retime e sender d).tables = w.tables := by
  unfold Works.retime
  split <;> simp

/-! ## REPORT and AS-RUN (09, 10) -/

@[simp] theorem Works.tables_placeReport (payload : List Byte) : (w.placeReport e payload).tables = w.tables := by
  unfold Works.placeReport
  dsimp only
  split <;> rfl

@[simp] theorem Works.tables_asrunBoundary : (w.asrunBoundary e).tables = w.tables := by
  unfold Works.asrunBoundary Works.dueAsRun
  split
  · dsimp only
    split
    · rfl
    · split <;> rfl
  · rfl

end

end Sys2Proof.Machine
end

