-- ==== Sys2Proof/Proofs/TablesKept.lean ====
section
/-! SUPPORT. R10, R106: no station joins a claim table but by a claim of another station than the part, and a claim is
written within the bounds of the table; so every step keeps the claim tables within their bounds. -/

namespace Sys2Proof.Machine

/-! ## Tables that no station joins -/

/-- No station joins a claim table: the stations of each are among those it had, in their order. -/
def Works.NoneJoins (w v : Works) : Prop :=
  ∀ c, ((v.tables c).map Rival.station).Sublist ((w.tables c).map Rival.station)

theorem Works.NoneJoins.of_tables {w v : Works} (h : v.tables = w.tables) : w.NoneJoins v := fun c => by rw [h]

theorem Works.NoneJoins.trans {u v w : Works} (h : u.NoneJoins v) (k : v.NoneJoins w) : u.NoneJoins w :=
  fun c => (k c).trans (h c)

theorem Works.mod_noneJoins {w : Works} {c : Chan} {f : Context → Context}
    (h : ((f (w.at c)).table.map Rival.station).Sublist ((w.at c).table.map Rival.station)) :
    w.NoneJoins (w.mod c f) := by
  intro d
  simp only [Works.tables, Works.mod_at_eq]
  split
  · subst d; exact h
  · exact List.Sublist.refl _

/-- The ageing of a table removes stations at most (R110). -/
theorem aged_stations (expiry : Nat) (table : List Rival) :
    ((table.filterMap (Rival.aged expiry)).map Rival.station).Sublist (table.map Rival.station) := by
  induction table with
  | nil => exact List.Sublist.refl _
  | cons q rest ih =>
    rw [List.filterMap_cons]
    split
    · exact ih.cons _
    · rename_i r hr
      obtain ⟨-, rfl⟩ := Rival.aged_eq_some.mp hr
      exact ih.cons_cons _

theorem Works.claimAge_noneJoins (w : Works) (e : Env) (c : Chan) : w.NoneJoins (w.claimAge e c) :=
  Works.mod_noneJoins (aged_stations _ _)

/-- CLEAR CHANNEL empties its channel's table (R103, R106). -/
theorem Works.clearChannel_noneJoins (w : Works) (e : Env) (c : Chan) : w.NoneJoins (w.clearChannel e c) := by
  refine (Works.NoneJoins.of_tables (w.tables_moveTo c .mirroring)).trans (.trans ?_
    (.of_tables (Works.tables_clearMirror _ c)))
  exact Works.mod_noneJoins (List.nil_sublist _)

/-- No station joins a table by a directive when none does by its effect. -/
theorem Works.directive_noneJoins (w : Works) (e : Env) (sender : Nat) (d : Directive)
    (sixth : Env → Chan → Works → Option Nat) {effect : Chan → Works → Works}
    (heffect : ∀ c (v : Works), v.NoneJoins (effect c v)) (noticed : Bool) :
    w.NoneJoins (w.directive e sender d sixth effect noticed) := by
  unfold Works.directive
  split
  · exact .of_tables rfl
  · exact .of_tables rfl
  · rename_i i c _
    have htaken : w.NoneJoins (effect c (w.record i d.number)) := heffect c (w.record i d.number)
    dsimp only
    split
    · exact htaken.trans (.of_tables rfl)
    · exact htaken
  · exact .of_tables rfl

/-! ## A claim (R104 to R109) -/

/-- The tables of all channels within the bounds of R106. -/
def Works.TablesSound (own : Nat) (w : Works) : Prop := ∀ c, TableSound own (w.tables c)

section
variable {own : Nat} {w v : Works} {e : Env} {c : Chan}

theorem Works.TablesSound.noneJoins (h : w.TablesSound own) (hj : w.NoneJoins v) : v.TablesSound own :=
  fun c => (h c).of_sublist (hj c)

theorem Works.TablesSound.withTable (h : w.TablesSound own) {table : List Rival} (ht : TableSound own table) :
    (w.mod c fun x => { x with table := table }).TablesSound own := by
  intro d
  simp only [Works.tables, Works.mod_at_eq]
  split
  · exact ht
  · exact h d

/-- A BID or HOLD of another station is written within the bounds, or discarded (R107, R108). -/
theorem Works.TablesSound.writeRival (h : w.TablesSound own) {r : Rival} (hr : r.station ≠ own) :
    (w.writeRival e c r).TablesSound own := by
  cases hw : writeClaim r (w.at c).table with
  | none => rw [Works.writeRival_discarded hw]; exact h
  | some table =>
    have hwritten := h.withTable (c := c) ((h c).write hr hw).1
    cases hk : r.kind with
    | bid => rw [Works.writeRival_bid hw hk]; exact hwritten
    | hold =>
      rw [Works.writeRival_hold hw hk]
      exact hwritten.noneJoins (.of_tables (Works.tables_holdHeard _ e c r))

/-- A CLAIM entry of another station keeps the tables within their bounds. -/
theorem Works.TablesSound.claimEntry (h : w.TablesSound own) {station : Nat} (hs : station ≠ own) (x : ClaimEntry) :
    (w.claimEntry e c station x).TablesSound own := by
  unfold Works.claimEntry
  split
  · exact h
  · split
    · exact h.writeRival hs
    · exact h.writeRival hs
    · exact h.writeRival hs
    · exact h.noneJoins (Works.mod_noneJoins (List.filter_sublist.map _))

end

/-! ## The part -/

/-- No station joins a claim table, and neither the load state nor the own id changes. -/
def State.NoneJoins (s t : State) : Prop := t.load = s.load ∧ t.own = s.own ∧ s.works.NoneJoins t.works

section
variable {s t u : State}

theorem State.NoneJoins.rfl : s.NoneJoins s := ⟨by rfl, by rfl, .of_tables (by rfl)⟩

theorem State.NoneJoins.trans (h : s.NoneJoins t) (k : t.NoneJoins u) : s.NoneJoins u := by
  obtain ⟨hload, hown, hj⟩ := h
  obtain ⟨kload, kown, kj⟩ := k
  exact ⟨kload.trans hload, kown.trans hown, hj.trans kj⟩

theorem State.NoneJoins.worked (h : s.NoneJoins t) {f : Works → Works} (hf : ∀ w : Works, w.NoneJoins (f w)) :
    s.NoneJoins (t.onWorks f) := h.trans ⟨by rfl, by rfl, hf t.works⟩

theorem State.NoneJoins.onWorks (h : s.NoneJoins t) {f : Works → Works} (hf : ∀ w : Works, (f w).tables = w.tables) :
    s.NoneJoins (t.onWorks f) := h.worked fun w => .of_tables (hf w)

theorem State.NoneJoins.modLane (h : s.NoneJoins t) (l : Lane) (f : LaneIf → LaneIf) : s.NoneJoins (t.modLane l f) :=
  h.trans ⟨t.modLane_load l f, t.modLane_own l f, .of_tables (by rw [t.modLane_works])⟩

theorem State.NoneJoins.withClk (h : s.NoneJoins t) (k : Timebase) : s.NoneJoins (t.withClk k) := h

theorem State.NoneJoins.dispatch (h : s.NoneJoins t) (f : Dispatcher → Dispatcher) : s.NoneJoins (t.dispatch f) := h

theorem State.NoneJoins.withDue (h : s.NoneJoins t) (due : List Work) : s.NoneJoins { t with due := due } := h

theorem State.NoneJoins.running (h : s.NoneJoins t) : t.running = s.running := by
  obtain ⟨hload, -⟩ := h
  rw [State.running, hload]
  rfl

/-- Tables that no station joins stay within their bounds, and empty before the load has ended. -/
theorem State.TablesSound.noneJoins (h : s.TablesSound) (hj : s.NoneJoins t) : t.TablesSound := by
  obtain ⟨hsound, hempty⟩ := h
  have hrunning := hj.running
  obtain ⟨-, hown, hworks⟩ := hj
  refine ⟨fun c => hown ▸ (hsound c).of_sublist (hworks c), fun hr c => ?_⟩
  have hnone : (s.works.at c).table = [] := hempty (hrunning ▸ hr) c
  have hsub := hworks c
  rw [Works.tables, Works.tables, hnone] at hsub
  exact List.map_eq_nil_iff.mp (List.sublist_nil.mp hsub)

/-! ## The pieces of a boundary's work -/

theorem State.loadBoundary_tables (s : State) : s.loadBoundary.works.tables = s.works.tables := by
  unfold State.loadBoundary
  split
  · exact Works.tables_foldl (fun v n => v.tables_notice _ _ _ _) _ _
  · split <;> rfl

theorem State.judgeLane_tables (s : State) (l : Lane) : (s.judgeLane l).works.tables = s.works.tables := by
  unfold State.judgeLane
  dsimp only
  split
  · rfl
  · simp

theorem State.judgeIsolation_tables (s : State) : s.judgeIsolation.works.tables = s.works.tables := by
  unfold State.judgeIsolation
  split
  · split
    · rfl
    · simp [State.becomeIsolated]
  · split
    · simp [State.becomeRejoined]
    · rfl

theorem State.reportBoundary_tables (s : State) : s.reportBoundary.works.tables = s.works.tables := by
  unfold State.reportBoundary State.buildReport
  split
  · exact s.works.tables_placeReport s.boundaryEnv s.nextReport
  · rfl

/-- No station joins a table by a piece of a boundary's work (R36). -/
theorem runWork_noneJoins (k : Work) (s : State) : s.NoneJoins (runWork k s) := by
  have hfixed := runWork_fixedPart k s
  simp only [State.fixedPart, Prod.mk.injEq] at hfixed
  obtain ⟨hload, hown, -⟩ := hfixed
  refine ⟨hload, hown, ?_⟩
  cases k with
  | timebase => exact .of_tables s.loadBoundary_tables
  | laneJudge l => exact .of_tables (s.judgeLane_tables l)
  | isolation => exact .of_tables s.judgeIsolation_tables
  | peers | account | busy => exact .of_tables rfl
  | watch c => exact .of_tables (Works.tables_watch _ _ c)
  | handback c => exact .of_tables (Works.tables_handbackBoundary _ _ c)
  | claimAge c => exact Works.claimAge_noneJoins _ _ c
  | bid c => exact .of_tables (Works.tables_bidBoundary _ _ c)
  | yielded c => exact .of_tables (Works.tables_yieldedBoundary _ _ c)
  | claimSet => exact .of_tables (Works.tables_claimSet _ _)
  | cue c => exact .of_tables (Works.tables_cueBoundary _ _ c)
  | follow c => exact .of_tables (Works.tables_followJudge _ _ c)
  | report => exact .of_tables s.reportBoundary_tables
  | asrun => exact .of_tables (Works.tables_asrunBoundary _ _)

theorem State.NoneJoins.runAll (h : s.NoneJoins t) (ks : List Work) : s.NoneJoins (runAll ks t) :=
  runAll_keeps (P := s.NoneJoins) (fun k _ v hv => hv.trans (runWork_noneJoins k v)) t h

theorem State.NoneJoins.settle (h : s.NoneJoins t) : s.NoneJoins t.settle := (h.runAll t.due).withDue []

theorem State.NoneJoins.boundary (h : s.NoneJoins t) (left : List Work) : s.NoneJoins (t.boundary left) := by
  have hnew : s.NoneJoins (t.onWorks Works.newBoundary) :=
    h.onWorks (Works.tables_eachChannel fun _ _ => Works.tables_mod (by rfl))
  exact (hnew.runAll _).withDue _

theorem State.slice_noneJoins (s : State) (k : Work) (cond : State → Bool) : s.NoneJoins (s.slice k cond) := by
  have hprepared : s.NoneJoins (s.prepare k) := (State.NoneJoins.rfl.runAll _).withDue _
  unfold State.slice
  split
  · dsimp only
    split
    · exact (hprepared.trans (runWork_noneJoins k _)).withDue _
    · exact .rfl
  · exact .rfl

theorem State.whenRunning_noneJoins (s : State) {f : State → State} (hf : ∀ v : State, v.NoneJoins (f v)) :
    s.NoneJoins (s.whenRunning f) := by
  unfold State.whenRunning
  split
  · exact State.NoneJoins.rfl.settle.trans (hf _)
  · exact .rfl

/-! ## The reference monitor and the lines (01 to 03) -/

theorem State.NoneJoins.monitorNotice (h : s.NoneJoins t) (k : NoticeKind) (n : BitVec 32) :
    s.NoneJoins (t.monitorNotice k n) := h.onWorks fun w => w.tables_notice _ _ _ _

theorem State.refPulse_noneJoins (s : State) (dt : Nat) (left : List Work) : s.NoneJoins (s.refPulse dt left) := by
  unfold State.refPulse State.lockedPulse State.freePulse
  split
  · split
    · exact State.NoneJoins.rfl.withClk _
    · exact (State.NoneJoins.rfl.withClk _).boundary left
  · split
    · exact ((State.NoneJoins.rfl.withClk _).boundary left).monitorNotice _ _
    · exact (State.NoneJoins.rfl.withClk _).monitorNotice _ _

theorem State.refLost_noneJoins (s : State) (left : List Work) : s.NoneJoins (s.refLost left) := by
  unfold State.refLost
  split
  · exact ((State.NoneJoins.rfl.withClk _).boundary left).monitorNotice _ _
  · exact .rfl

theorem State.freeRunBoundary_noneJoins (s : State) (left : List Work) : s.NoneJoins (s.freeRunBoundary left) := by
  unfold State.freeRunBoundary
  split
  · exact (State.NoneJoins.rfl.withClk _).boundary left
  · exact .rfl

theorem State.idle_noneJoins (s : State) : s.NoneJoins s.idle := by
  have hclk : s.NoneJoins (s.withClk (s.clk.advance 1)) := State.NoneJoins.rfl.withClk _
  unfold State.idle State.crystal
  split
  · exact State.NoneJoins.rfl.settle
  · split
    · dsimp only
      split
      · split
        · exact hclk.trans (State.refLost_noneJoins _ [])
        · exact hclk.trans (State.freeRunBoundary_noneJoins _ [])
      · exact hclk
    · exact .rfl

theorem State.NoneJoins.pass (h : s.NoneJoins t) (dt : Nat) : s.NoneJoins (t.pass dt) := h

theorem State.copyBegin_noneJoins (s : State) (l : Lane) (dt : Nat) : s.NoneJoins (s.copyBegin l dt) := by
  unfold State.copyBegin
  dsimp only
  split
  · exact .rfl
  · split
    · exact ((State.NoneJoins.rfl.pass dt).modLane l _).onWorks fun _ => rfl
    · exact .rfl

theorem State.copyEnd_noneJoins (s : State) (l : Lane) (readBack : List Symbol) :
    s.NoneJoins (s.copyEnd l readBack) := by
  unfold State.copyEnd
  split
  · exact .rfl
  · split
    · exact (State.NoneJoins.rfl.modLane l _).onWorks fun _ => rfl
    · exact .rfl

/-! ## The dispatcher (R9 to R15) -/

theorem State.NoneJoins.acceptMsg (h : s.NoneJoins t) (l : Lane) (p : Peer) (m : RxMsg) :
    s.NoneJoins (t.acceptMsg l p m) := by
  have hheader : s.NoneJoins { t.refreshLane l with
      peers := modPeer t.peers p.station fun q => { q.accept l m with est := (t.sample p m).est } } :=
    h.modLane l _
  exact hheader.onWorks fun w => by simp

/-- What the dispatcher does with a queue's oldest entry: nothing that writes a table, or it routes a message of
another station than the part (R10 to R14). -/
theorem State.takeRx_cases (s : State) (l : Lane) (names : RxMsg → Bool) (route : Nat → RxMsg → State → State) :
    s.NoneJoins (s.takeRx l names route) ∨
      ∃ n m v, s.NoneJoins v ∧ n ≠ s.own ∧ s.takeRx l names route = route n m v := by
  have hpop : s.NoneJoins (s.popRx l) := State.NoneJoins.rfl.modLane l _
  unfold State.takeRx
  split
  · exact .inl .rfl
  · rename_i m rest _
    split
    · dsimp only
      split
      · exact .inl (hpop.dispatch _)
      · rename_i hgood
        have hother : m.sender.toNat ≠ s.own := by
          intro hown
          rw [State.popRx_badSender] at hgood
          simp [State.badSender, hown] at hgood
        split
        · exact .inl hpop
        · rename_i p _
          split
          · exact .inl (hpop.modLane l _)
          · exact .inr ⟨m.sender.toNat, m, _, hpop.acceptMsg l p m, hother, rfl⟩
    · exact .inl .rfl

theorem State.takeRx_noneJoins (s : State) (l : Lane) (names : RxMsg → Bool) {route : Nat → RxMsg → State → State}
    (hr : ∀ n m (v : State), v.NoneJoins (route n m v)) : s.NoneJoins (s.takeRx l names route) := by
  rcases s.takeRx_cases l names route with h | ⟨n, m, v, hv, -, hroute⟩
  · exact h
  · rw [hroute]
    exact hv.trans (hr n m v)

theorem State.decoded_noneJoins {α : Type} (s : State) (x : Option α) {f : α → State} (hf : ∀ a, s.NoneJoins (f a)) :
    s.NoneJoins (s.decoded x f) := by
  cases x with
  | none => exact State.NoneJoins.rfl.dispatch _
  | some a => exact hf a

theorem State.hand_noneJoins (s : State) {f : Env → Works → Works} (hf : ∀ e w, (f e w).tables = w.tables) :
    s.NoneJoins (s.hand f) := State.NoneJoins.rfl.onWorks (hf s.env)

theorem State.tallyEntry_noneJoins (s : State) (sender : Nat) (stamp : Tick) (x : TallyEntry) :
    s.NoneJoins (s.tallyEntry sender stamp x) := by
  unfold State.tallyEntry
  split
  · exact .rfl
  · split
    · exact s.hand_noneJoins fun e w => w.tables_mainEntry e _ x stamp
    · split
      · exact s.hand_noneJoins fun e w => w.tables_standbyEntry e _ x stamp
      · exact State.NoneJoins.rfl.dispatch _

theorem State.routeTally_noneJoins (s : State) (sender : Nat) (m : RxMsg) : s.NoneJoins (s.routeTally sender m) :=
  s.decoded_noneJoins _ fun xs => foldl_keeps (P := s.NoneJoins)
    (fun v x hv => hv.trans (v.tallyEntry_noneJoins sender m.stamp x)) xs .rfl

theorem State.routeSegment_noneJoins (s : State) (sender : Nat) (m : RxMsg) :
    s.NoneJoins (s.routeSegment sender m) := by
  refine s.decoded_noneJoins _ fun g => ?_
  split
  · exact .rfl
  · split
    · exact s.hand_noneJoins fun e w => w.tables_takeSegment e _ g
    · exact State.NoneJoins.rfl.dispatch _

theorem State.routeCue_noneJoins (s : State) (m : RxMsg) : s.NoneJoins (s.routeCue m) := by
  unfold State.routeCue
  split <;> exact State.NoneJoins.rfl.dispatch _

theorem State.routeReport_noneJoins (s : State) (m : RxMsg) : s.NoneJoins (s.routeReport m) := by
  unfold State.routeReport
  split
  · exact .rfl
  · exact State.NoneJoins.rfl.dispatch _

theorem State.routeAsRun_noneJoins (s : State) (m : RxMsg) : s.NoneJoins (s.routeAsRun m) := by
  unfold State.routeAsRun
  split
  · exact .rfl
  · exact State.NoneJoins.rfl.dispatch _

theorem State.routePortStatus_noneJoins (s : State) (sender : Nat) (m : RxMsg) :
    s.NoneJoins (s.routePortStatus sender m) :=
  s.decoded_noneJoins _ fun xs => s.hand_noneJoins fun e w => w.tables_takePortStatus e sender xs

theorem State.takeMark_noneJoins (s : State) (sender : Nat) (arrival : Tick) (f : Frame) :
    s.NoneJoins (s.takeMark sender arrival f) := by
  have hslip : s.NoneJoins { s with clk := { s.clk with lastSlip := slipOf arrival f } } :=
    State.NoneJoins.rfl.withClk _
  unfold State.takeMark State.compareMark
  split
  · exact State.NoneJoins.rfl.withClk _
  · split
    · dsimp only
      split
      · exact hslip.onWorks fun w => w.tables_notice _ _ _ _
      · exact hslip
    · exact State.NoneJoins.rfl.withClk _

theorem State.takeDirective_noneJoins (s : State) (l : Lane) (k : DirKind) {unit : Nat → Directive → State → State}
    (hu : ∀ n d (v : State), v.NoneJoins (unit n d v)) : s.NoneJoins (s.takeDirective l k unit) := by
  refine s.takeRx_noneJoins l _ fun n m v => v.decoded_noneJoins _ fun d => ?_
  split
  · exact hu n d v
  · exact State.NoneJoins.rfl.dispatch _

/-- No station joins a table by a directive that names a channel when none does by its effect. -/
theorem State.directed_noneJoins (s : State) (l : Lane) (k : DirKind) (sixth : Env → Chan → Works → Option Nat)
    {effect : Env → Nat → Directive → Chan → Works → Works}
    (heffect : ∀ e n d c (w : Works), w.NoneJoins (effect e n d c w)) (noticed : Bool) :
    s.NoneJoins (s.takeDirective l k (State.direct sixth effect noticed)) :=
  s.takeDirective_noneJoins l k fun n d _ => State.NoneJoins.rfl.worked fun w =>
    w.directive_noneJoins _ n d sixth (heffect _ n d) noticed

theorem State.directRetime_noneJoins (s : State) (sender : Nat) (d : Directive) :
    s.NoneJoins (s.directRetime sender d) :=
  (s.hand_noneJoins fun e w => w.tables_retime e sender d).withClk _

/-! ## A CLAIM message (R10, R104 to R109) -/

/-- A part that works, with tables within their bounds, and a station that is not the part. -/
def State.HearsClaims (n : Nat) (s : State) : Prop := s.running = true ∧ n ≠ s.own ∧ s.works.TablesSound s.own

theorem State.HearsClaims.tablesSound {n : Nat} (h : s.HearsClaims n) : s.TablesSound := by
  obtain ⟨hrunning, -, hsound⟩ := h
  exact ⟨hsound, fun hr => absurd (hrunning.symm.trans hr) (by decide)⟩

theorem State.HearsClaims.claimEntry {n : Nat} (h : s.HearsClaims n) (x : ClaimEntry) :
    (s.claimEntry n x).HearsClaims n := by
  cases hc : Config.localOf s.cfg x.bus with
  | none => rw [State.claimEntry_unmapped hc]; exact h
  | some c =>
    rw [State.claimEntry_mapped hc]
    obtain ⟨hrunning, hn, hsound⟩ := h
    exact ⟨hrunning, hn, hsound.claimEntry hn x⟩

/-- The entries of a CLAIM of another station are written within the bounds of the tables. -/
theorem State.HearsClaims.routeClaim {n : Nat} (h : s.HearsClaims n) (m : RxMsg) :
    (s.routeClaim n m).TablesSound := by
  unfold State.routeClaim State.decoded
  split
  · exact h.tablesSound.noneJoins (State.NoneJoins.rfl.dispatch _)
  · exact State.HearsClaims.tablesSound
      (foldl_keeps (P := State.HearsClaims n) (fun _ x hv => hv.claimEntry x) _ h)

/-- RECEIVE_CLAIM keeps the tables within their bounds: a claim of the part's own id does not reach them (R10). -/
theorem State.TablesSound.receiveClaim (h : s.TablesSound) (l : Lane) :
    (s.whenRunning (State.takeRx l (RxMsg.isKind .claim) State.routeClaim)).TablesSound := by
  unfold State.whenRunning
  split
  · rename_i hrunning
    have hsettled : s.NoneJoins s.settle := State.NoneJoins.rfl.settle
    rcases s.settle.takeRx_cases l (RxMsg.isKind .claim) State.routeClaim with hj | ⟨n, m, v, hv, hn, hroute⟩
    · exact h.noneJoins (hsettled.trans hj)
    · have hj := hsettled.trans hv
      obtain ⟨-, hown, -⟩ := hv
      obtain ⟨hsound, -⟩ := h.noneJoins hj
      rw [hroute]
      exact State.HearsClaims.routeClaim ⟨hj.running.trans hrunning, hown ▸ hn, hsound⟩ m
  · exact h

/-! ## Start-up (R183 to R189) -/

theorem State.tablesSound_of_empty (h : ∀ c, (s.works.at c).table = []) : s.TablesSound :=
  ⟨fun c => h c ▸ tableSound_nil s.own, fun _ => h⟩

theorem installed_table (x : MapEntry) : (installed x).table = [] := by
  unfold installed
  split <;> rfl

theorem State.start_table (s : State) (cfg : Config) (load : LoadState) (c : Chan) :
    ((s.start cfg load).works.at c).table = [] := by
  simp [State.start, Works.at, installed_table]

theorem State.start_tablesSound (s : State) (cfg : Config) (load : LoadState) : (s.start cfg load).TablesSound :=
  State.tablesSound_of_empty (s.start_table cfg load)

theorem State.configFault_tablesSound (s : State) (cause : LoadFault) : (s.configFault cause).TablesSound :=
  (s.start_tablesSound _ _).noneJoins (State.NoneJoins.rfl.onWorks fun w => w.tables_notice _ _ _ _)

theorem State.loadImage_tablesSound (s : State) (image : List Byte) : (s.loadImage image).TablesSound := by
  unfold State.loadImage
  split
  · exact s.start_tablesSound _ _
  · exact s.configFault_tablesSound _

/-- The own id is read while the tables are empty (R183). -/
theorem State.TablesSound.readStraps (h : s.TablesSound) (hload : s.load = .reset) (straps : BitVec 6) :
    (s.readStraps straps).TablesSound := by
  obtain ⟨-, hempty⟩ := h
  unfold State.readStraps
  dsimp only
  split
  · exact State.configFault_tablesSound _ _
  · exact State.tablesSound_of_empty (hempty (by rw [State.running, hload]))

theorem State.reset_tablesSound : State.reset.TablesSound :=
  State.tablesSound_of_empty fun c => by simp [State.reset, Works.reset, Works.at, Context.reset]

/-! ## Every command and every step -/

theorem State.TablesSound.withPending (h : s.TablesSound) (is : List Instr) :
    ({ s with pending := is } : State).TablesSound := h

/-- No station joins a table by a command of a part that works, when none does by what the command does there. -/
theorem State.TablesSound.whenRunning (h : s.TablesSound) {f : State → State} (hf : ∀ v : State, v.NoneJoins (f v)) :
    (s.whenRunning f).TablesSound := h.noneJoins (s.whenRunning_noneJoins hf)

/-- No station joins a table by a message, when none does by its routing. -/
theorem State.TablesSound.received (h : s.TablesSound) (l : Lane) (names : RxMsg → Bool)
    {route : Nat → RxMsg → State → State} (hr : ∀ n m (v : State), v.NoneJoins (route n m v)) :
    (s.whenRunning (State.takeRx l names route)).TablesSound := h.whenRunning fun v => v.takeRx_noneJoins l names hr

/-- No station joins a table by a directive command, when none does by the directive's effect. -/
theorem State.TablesSound.directed (h : s.TablesSound) (l : Lane) (k : DirKind)
    (sixth : Env → Chan → Works → Option Nat) {effect : Env → Nat → Directive → Chan → Works → Works}
    (heffect : ∀ e n d c (w : Works), w.NoneJoins (effect e n d c w)) (noticed : Bool) :
    (s.whenRunning (State.takeDirective l k (State.direct sixth effect noticed))).TablesSound :=
  h.whenRunning fun v => v.directed_noneJoins l k sixth heffect noticed

/-- Every command keeps the tables within their bounds. -/
theorem State.TablesSound.exec (h : s.TablesSound) (i : Instr) (ht : exec i s = .next t) : t.TablesSound := by
  cases i with
  | resetAssert => cases ht; exact State.reset_tablesSound.withPending _
  | resetRelease straps =>
    cases ht
    split
    · rename_i hload; exact h.readStraps hload straps
    · exact h
  | configurationLoad image => cases ht; split; exacts [s.loadImage_tablesSound image, h]
  | noMemory => cases ht; split; exacts [s.configFault_tablesSound _, h]
  | refPulse dt left => cases ht; exact h.whenRunning fun v => v.refPulse_noneJoins dt left
  | refLost left => cases ht; exact h.whenRunning fun v => v.refLost_noneJoins left
  | freeRunBoundary left => cases ht; exact h.whenRunning fun v => v.freeRunBoundary_noneJoins left
  | messageReceived l dt | framingLost l dt =>
    cases ht; exact h.whenRunning fun v => (State.NoneJoins.rfl.pass dt).modLane l _
  | receiveTally l => cases ht; exact h.received l _ fun n m v => v.routeTally_noneJoins n m
  | receiveSegment l => cases ht; exact h.received l _ fun n m v => v.routeSegment_noneJoins n m
  | receiveClaim l => cases ht; exact h.receiveClaim l
  | receiveCue l => cases ht; exact h.received l _ fun _ m v => v.routeCue_noneJoins m
  | receivePortStatus l => cases ht; exact h.received l _ fun n m v => v.routePortStatus_noneJoins n m
  | receiveTimeMark l =>
    cases ht; exact h.received l _ fun n m v => v.decoded_noneJoins _ (v.takeMark_noneJoins n m.arrival)
  | receiveReport l => cases ht; exact h.received l _ fun _ m v => v.routeReport_noneJoins m
  | receiveAsRun l => cases ht; exact h.received l _ fun _ m v => v.routeAsRun_noneJoins m
  | arm l => cases ht; exact h.directed l _ _ (fun e _ _ c w => .of_tables (w.tables_arm e c)) _
  | disarm l => cases ht; exact h.directed l _ _ (fun e _ _ c w => .of_tables (w.tables_disarm e c)) _
  | forceTake l => cases ht; exact h.directed l _ _ (fun e _ _ c w => .of_tables (w.tables_forceTake e c)) _
  | handBack l => cases ht; exact h.directed l _ _ (fun e n d c w => .of_tables (w.tables_handBack e c n d.number)) _
  | hold l => cases ht; exact h.directed l _ _ (fun e _ _ c w => .of_tables (w.tables_hold e c)) _
  | resume l => cases ht; exact h.directed l _ _ (fun e _ _ c w => .of_tables (w.tables_impose e c .resume)) _
  | skip l => cases ht; exact h.directed l _ _ (fun e _ _ c w => .of_tables (w.tables_skip e c)) _
  | retry l => cases ht; exact h.directed l _ _ (fun e _ _ c w => .of_tables (w.tables_retry e c)) _
  | clearChannel l => cases ht; exact h.directed l _ _ (fun e _ _ c w => w.clearChannel_noneJoins e c) _
  | retime l =>
    cases ht; exact h.whenRunning fun v => v.takeDirective_noneJoins l _ fun n d u => u.directRetime_noneJoins n d
  | copyBegin l dt => cases ht; exact h.whenRunning fun v => v.copyBegin_noneJoins l dt
  | copyEnd l readBack => cases ht; exact h.whenRunning fun v => v.copyEnd_noneJoins l readBack
  | joinComplete => cases ht; exact h.whenRunning fun v => v.hand_noneJoins fun e w => w.tables_joinComplete e
  | copyAbandoned | originSuspect | originLost | claimExpiry | bidWindowDecided | laneQuiet | isolated | serverSilent
  | armTimeout | takeTimeout | withdrawnTakeExpiry | followDue | readyCheck | handbackDone | timeLoaded | reportBuild
  | asrunBuild => cases ht; exact h.noneJoins (s.slice_noneJoins _ _)

end

/-- Settles O58: by the command at the front of the queue, or by the idle step. -/
theorem everyStepKeepsTables : Obligations.EveryStepKeepsTables := by
  intro s t h ht
  unfold step at ht
  split at ht
  · cases ht; exact h.noneJoins s.idle_noneJoins
  · exact (h.withPending _).exec _ ht

end Sys2Proof.Machine
end

