-- ==== Sys2Proof/Proofs/Placing.lean ====
section
/-! SUPPORT. R24, R78, R100, R122, R156: a CUE that finds room, a request of a channel without a HAND BACK in hand, and
a request that imposes an end where no other list waits. -/

namespace Sys2Proof.Machine

section
variable {w v : Works} {e : Env} {c : Chan}

/-- A change that leaves its channel's context as it was changes nothing. -/
theorem Works.mod_fixed {f : Context → Context} (h : f (w.at c) = w.at c) : w.mod c f = w := by
  have hctx : (w.mod c f).ctx = w.ctx := Works.ctx_ext fun d => by
    rw [Works.mod_at_eq]
    split
    · rename_i hd; rw [h, hd]
    · rfl
  calc w.mod c f = { w with ctx := (w.mod c f).ctx } := rfl
    _ = w := by rw [hctx]

/-- A CUE that finds room in URGENT changes nothing but the transmitter (R24). -/
theorem Works.placeCue_room (h : w.tx.urgent.length + w.tx.flying .urgent < 16) (q : Cue) :
    w.placeCue e q = { w with tx := (w.placeCue e q).tx } := by
  unfold Works.placeCue
  dsimp only
  rw [if_pos h]
  split <;> rfl

/-- A request of a channel without a REQUESTED handback stands in the engine under the next generation (R100, R122). -/
theorem Works.placeJoin_stands (h : ∀ a b, (w.at c).handback ≠ .requested a b) (kind : JoinKind) (take : Frame)
    (curEnd : Option Frame) (atSwitch : Bool) :
    (w.placeJoin e c kind take curEnd atSwitch).Requested c kind take curEnd ((w.at c).gen + 1) := by
  simp only [Works.placeJoin, Works.refuseRequested_silent h, ite_self, Works.mod_at]
  have hfind (r : JoinReq) (hr : r.chan = c) :
      (enqueue r w.join.queue).find? (fun x => decide (x.chan = c)) = some r := hr ▸ enqueue_find r w.join.queue
  refine ⟨{ chan := c, kind := kind, gen := (w.at c).gen + 1, take := take, curEnd := curEnd, atSwitch := atSwitch },
    Works.kick_queued ?_ e, rfl, rfl, rfl, rfl⟩
  exact hfind _ rfl

theorem Works.commitDeferred_absent (h : (w.at c).mirror.other = .absent) : w.commitDeferred e c = w := by
  simp only [Works.commitDeferred, h]

/-- With no other list a RESUME or SKIP is a request for now + P, and takes the place of one that waited (R78, R156). -/
theorem Works.requestImposed_absent (ho : (w.at c).mirror.other = .absent) (kind : JoinKind) (atSwitch : Bool) :
    w.requestImposed e c kind atSwitch =
      (w.mod c fun x => { x with waitReq := none }).placeJoin e c kind e.ahead (some e.ahead) atSwitch := by
  have hdeferred : (w.at c).deferred = false := by simp only [Context.deferred, ho]
  have habsent : ((w.mod c fun x => { x with waitReq := none }).at c).mirror.other = .absent := by
    rw [Works.mod_at]
    exact ho
  rw [Works.requestImposed, hdeferred, Bool.false_and, if_neg Bool.false_ne_true, Works.commitDeferred_absent habsent]

theorem Works.requestImposed_plain (ho : (w.at c).mirror.other = .absent) (hw : (w.at c).waitReq = none)
    (kind : JoinKind) (atSwitch : Bool) :
    w.requestImposed e c kind atSwitch = w.placeJoin e c kind e.ahead (some e.ahead) atSwitch := by
  rw [Works.requestImposed_absent ho, Works.mod_fixed (f := fun x => { x with waitReq := none }) (by rw [← hw])]

end

/-! ## Something done for each port of each channel (R141, R145, log 37) -/

/-- Each port's turn in order of local channel, the primary before the alternate (log 37). -/
def Works.eachPort (f : Chan → PortSel → Works → Works) (w : Works) : Works :=
  (List.finRange 16).foldl (fun w c => f c .alternate (f c .primary w)) w

theorem foldl_idle {α β : Type} {f : β → α → β} {l : List α} {b : β} (h : ∀ a ∈ l, f b a = b) : l.foldl f b = b := by
  induction l with
  | nil => rfl
  | cons a l ih => rw [List.foldl_cons, h a List.mem_cons_self, ih fun a ha => h a (List.mem_cons_of_mem _ ha)]

section
variable {f : Chan → PortSel → Works → Works} {w v : Works} {c : Chan} {p : PortSel}

theorem Works.eachPort_idle (h : ∀ d q, f d q w = w) : w.eachPort f = w :=
  foldl_idle fun d _ => by rw [h, h]

/-- When the turn of every other port changes nothing, before and after the turn of one, what is done is that turn. -/
theorem Works.eachPort_one (hone : f c p w = v) (hbefore : ∀ d q, ¬(d = c ∧ q = p) → f d q w = w)
    (hafter : ∀ d q, ¬(d = c ∧ q = p) → f d q v = v) : w.eachPort f = v := by
  obtain ⟨ahead, rest, hsplit⟩ := List.append_of_mem (List.mem_finRange c)
  have hnodup : (ahead ++ c :: rest).Nodup := hsplit ▸ List.nodup_finRange 16
  rw [List.nodup_middle, List.nodup_cons, List.mem_append, not_or] at hnodup
  obtain ⟨⟨hahead, hrest⟩, -⟩ := hnodup
  have hidle {u : Works} (hu : ∀ d q, ¬(d = c ∧ q = p) → f d q u = u) {ds : List Chan} (hc : c ∉ ds) :
      ds.foldl (fun w c => f c .alternate (f c .primary w)) u = u :=
    foldl_idle fun d hd => by
      have hne : d ≠ c := fun h => hc (h ▸ hd)
      rw [hu d _ fun h => hne h.1, hu d _ fun h => hne h.1]
  have hturn : f c .alternate (f c .primary w) = v := by
    cases p with
    | primary => rw [hone, hafter c .alternate (by simp)]
    | alternate => rw [hbefore c .primary (by simp), hone]
  rw [Works.eachPort, hsplit, List.foldl_append, List.foldl_cons, hidle hbefore hahead, hturn, hidle hafter hrest]

end

/-- A change of one port record leaves the others. -/
theorem Context.modRec_portRec_other {x : Context} {p q : PortSel} (f : PortRec → PortRec) (h : q ≠ p) :
    (x.modRec p f).portRec q = x.portRec q := by
  cases p with
  | primary =>
    cases q with
    | primary => exact absurd rfl h
    | alternate => rfl
  | alternate =>
    cases q with
    | primary => rfl
    | alternate => exact absurd rfl h

theorem Works.modRec_portRec_other {w : Works} {c d : Chan} {p q : PortSel} (f : PortRec → PortRec)
    (h : ¬(d = c ∧ q = p)) : ((w.mod c fun x => x.modRec p f).at d).portRec q = (w.at d).portRec q := by
  by_cases hd : d = c
  · subst hd
    rw [Works.mod_at, Context.modRec_portRec_other f fun hq => h ⟨rfl, hq⟩]
  · rw [Works.mod_at_other w _ hd]

end Sys2Proof.Machine
end

