-- ==== Sys2Proof/Proofs/Steering.lean ====
section
/-! SUPPORT. R155, R156, R171, R175, R176: the abort that a HOLD or SKIP makes first in RETURNING, the CANCEL of a pending
TAKE, and what HOLD, RESUME and SKIP do to their channel. -/

namespace Sys2Proof.Machine

/-! ## Check 6 of HOLD, RESUME and SKIP (R175) -/

section
variable {w : Works} {e : Env} {c : Chan} {x : Context}

theorem Context.isHeld_of {ev : CurEvent} (hc : x.cur = some ev) : x.isHeld = ev.held := by
  simp only [Context.isHeld, hc]

/-- A channel ON_AIR, or in RETURNING with its handback SET or POSTPONING, can be steered (R175). -/
theorem Context.steerable_of
    (h : x.state = .onAir ∨ x.state = .returning ∧ ∃ hl hp succ n,
      x.handback = .agreed .set hl hp succ n ∨ x.handback = .agreed .postponing hl hp succ n) : x.steerable = true := by
  rcases h with h | ⟨h, hl, hp, succ, n, hb | hb⟩
  · simp only [Context.steerable, h]
  · simp only [Context.steerable, h, hb]
  · simp only [Context.steerable, h, hb]

/-- FILLER has a successor, and so has an event with one after it in the live list (R175). -/
theorem Context.hasSuccessor_of {ev : CurEvent} (hc : x.cur = some ev)
    (h : ev.place = .filler ∨ ev.place = .beforeZero ∧ x.mirror.live ≠ [] ∨
      ∃ k, ev.place = .at k ∧ k + 1 < x.mirror.live.length) : x.hasSuccessor = true := by
  rcases h with h | ⟨h, hl⟩ | ⟨k, h, hl⟩
  · simp [Context.hasSuccessor, hc, h]
  · simp [Context.hasSuccessor, hc, h, hl]
  · simp [Context.hasSuccessor, hc, h, hl]

/-- No request that a port switch placed is outstanding (R175). -/
theorem Works.switchOutstanding_none (hw : (w.at c).waitReq = none)
    (hq : ∀ j ∈ w.join.queue, j.chan = c → j.atSwitch = false)
    (hf : ∀ f, w.join.flight = some f → f.req.chan = c → f.req.atSwitch = false) : w.switchOutstanding c = false := by
  have hqueued : (w.queuedJoin c).any (fun r => r.atSwitch) = false := by
    cases h : w.queuedJoin c with
    | none => rfl
    | some j => exact hq j (List.mem_of_find?_eq_some h) (of_decide_eq_true (List.find?_some h :))
  have hflying : (w.flyingJoin c).any (fun r => r.atSwitch) = false := by
    unfold Works.flyingJoin
    split
    · rename_i f hflight
      split
      · rename_i hc; exact hf f hflight hc
      · rfl
    · rfl
  simp only [Works.switchOutstanding, hqueued, hflying, hw, Option.any_none, Bool.or_self]

theorem Works.holdCheck_none (hs : (w.at c).steerable = true) (hh : (w.at c).isHeld = false) :
    w.holdCheck e c = none := by
  simp only [Works.holdCheck, hs, hh, Bool.not_false, Bool.and_self, if_true]

theorem Works.resumeCheck_none (hs : (w.at c).state = .onAir) (hh : (w.at c).isHeld = true)
    (ho : w.switchOutstanding c = false) : w.resumeCheck e c = none := by
  simp only [Works.resumeCheck, hs, hh, ho, decide_true, Bool.not_false, Bool.and_self, if_true]

theorem Works.skipCheck_none (hs : (w.at c).steerable = true) (ho : w.switchOutstanding c = false)
    (hn : (w.at c).hasSuccessor = true) : w.skipCheck e c = none := by
  simp only [Works.skipCheck, hs, ho, hn, Bool.not_true, Bool.or_self, Bool.false_eq_true, if_false]

end

/-! ## The abort of a handback (R171) -/

/-- What a HOLD or SKIP finds once it has aborted the handback of a channel in RETURNING: the context, and the notice of
the abort (R171). -/
def Context.Freed (x : Context) (now : Frame) (c : Chan) (reason : Nat) (y : Context) (aborted : List Notice) : Prop :=
  x.state ≠ .returning ∧ y = x ∧ aborted = [] ∨
    x.state = .returning ∧ y = { x with state := .onAir, handback := .absent, dualSeen := false } ∧
      aborted = [{ kind := .handbackAborted, chan := some c, param := BitVec.ofNat 32 reason, frame := now }]

theorem Context.exists_freed (x : Context) (now : Frame) (c : Chan) (reason : Nat) :
    ∃ y aborted, x.Freed now c reason y aborted := by
  by_cases h : x.state = .returning
  · exact ⟨_, _, .inr ⟨h, rfl, rfl⟩⟩
  · exact ⟨_, _, .inl ⟨h, rfl, rfl⟩⟩

theorem Context.Freed.returning {x y : Context} {now : Frame} {c : Chan} {reason : Nat} {aborted : List Notice}
    (h : x.Freed now c reason y aborted) (hs : x.state = .returning) :
    y = { x with state := .onAir, handback := .absent, dualSeen := false } ∧
      aborted = [{ kind := .handbackAborted, chan := some c, param := BitVec.ofNat 32 reason, frame := now }] :=
  h.elim (fun h => absurd hs h.1) And.right

section
variable {w v : Works} {e : Env} {c : Chan} {reason : Nat} {y : Context} {aborted : List Notice}

theorem Works.abortIfReturning_frees (h : (w.at c).Freed e.now c reason y aborted)
    (hv : v = w.abortIfReturning e reason c) :
    w.OthersKept c v ∧ w.OnlyContexts v ∧ v.at c = y ∧ v.notices.count = w.notices.count + BitVec.ofNat 16 aborted.length ∧
      ∀ n, (n :: v.notices.ring).take 32 = (n :: aborted ++ w.notices.ring).take 32 := by
  rcases h with ⟨hs, rfl, rfl⟩ | ⟨hs, rfl, rfl⟩
  · obtain rfl : v = w := hv.trans (if_neg hs)
    exact ⟨.rfl, .rfl, rfl, (BitVec.add_zero _).symm, fun _ => rfl⟩
  · obtain rfl : v = w.abortHandback e c reason := hv.trans (if_pos hs)
    obtain ⟨hothers, honly⟩ := w.abortHandback_frame e c reason
    exact ⟨hothers, honly, Works.abortHandback_at hs reason, rfl, fun n => take_cons_take n _ 32⟩

end

/-! ## The CANCEL of a pending TAKE (R155, R156) -/

/-- What an operation that cancels the TAKE of a port leaves as it was, and the CANCEL that joins URGENT (R24, R138). -/
structure Works.Cancelled (e : Env) (c : Chan) (r : PortRec) (w v : Works) : Prop where
  others : w.OthersKept c v
  store : v.store = w.store
  numbers : v.lastNumbers = w.lastNumbers
  notices : v.notices = w.notices
  idle : r.pending = none → v.tx = w.tx
  joins : ∀ u, r.pending = some u → (∀ q ∈ w.tx.urgent, q.isCueTo r.server r.port = false) →
    v.tx = { w.tx with urgent := w.tx.urgent ++ [OutMsg.cue (cancelCue r u)] }.pick e.cfg

section
variable {w v : Works} {e : Env} {c : Chan} {r : PortRec}

/-- The CANCEL for a pending TAKE changes nothing but the transmitter. -/
theorem Works.cueCancel_cancels (hr : (w.at c).activeRec = some r)
    (hroom : r.pending ≠ none → w.tx.urgent.length + w.tx.flying .urgent < 16) :
    w.Cancelled e c r (w.cueCancel e c) ∧ w.cueCancel e c = { w with tx := (w.cueCancel e c).tx } := by
  cases ht : r.pending with
  | none =>
    have hsame : w.cueCancel e c = w := by simp only [Works.cueCancel, hr, ht]
    rw [hsame]
    exact ⟨⟨.rfl, rfl, rfl, rfl, fun _ => rfl, by simp [ht]⟩, rfl⟩
  | some t =>
    have hspace := hroom (by simp [ht])
    have hcue : w.cueCancel e c = w.placeCue e (cancelCue r t) := by
      simp only [Works.cueCancel, hr, ht]
      rfl
    have hframe := Works.placeCue_room (e := e) hspace (cancelCue r t)
    rw [hcue]
    refine ⟨⟨Works.OthersKept.rfl.placeCue e _, ?_, ?_, ?_, by simp [ht], fun u hu hnew => ?_⟩, hframe⟩
    · rw [hframe]
    · rw [hframe]
    · rw [hframe]
    · obtain rfl : t = u := Option.some.inj (ht.symm.trans hu)
      rw [Works.placeCue_joins (q := cancelCue r t) hnew hspace]

/-- A change of the channel's own context after it. -/
theorem Works.Cancelled.mod (h : w.Cancelled e c r v) (f : Context → Context) : w.Cancelled e c r (v.mod c f) :=
  ⟨h.others.mod f, h.store, h.numbers, h.notices, h.idle, h.joins⟩

/-- A change of the channel's own context before it. -/
theorem Works.Cancelled.of_mod {u : Works} {f : Context → Context} (hu : u = w.mod c f) (h : u.Cancelled e c r v) :
    w.Cancelled e c r v := by
  subst hu
  exact ⟨(Works.OthersKept.rfl.mod f).trans h.others, h.store, h.numbers, h.notices, h.idle, h.joins⟩

/-- A change that leaves a port record as it was leaves its context so. -/
theorem Context.modRec_fixed {x : Context} {p : PortSel} {f : PortRec → PortRec} (hr : x.portRec p = some r)
    (hf : f r = r) : x.modRec p f = x := by
  cases p
  · rw [Context.modRec, show x.prim = some r from hr, Option.map_some, hf, ← show x.prim = some r from hr]
  · rw [Context.modRec, show x.alt = some r from hr, Option.map_some, hf, ← show x.alt = some r from hr]

/-- A pending TAKE that is cancelled ceases to be pending (R138). -/
theorem Works.cancelPending_eq (hr : (w.at c).activeRec = some r) :
    w.cancelPending e c =
      (w.cueCancel e c).mod c fun x => x.modRec x.active fun q => { q with pending := none } := by
  cases ht : r.pending with
  | none =>
    have hsame : w.cueCancel e c = w := by simp only [Works.cueCancel, hr, ht]
    rw [Works.cancelPending_none hr ht, hsame, Works.mod_fixed (Context.modRec_fixed hr (by rw [← ht]))]
  | some t => simp only [Works.cancelPending, Works.cueCancel, hr, ht]

/-! ## HOLD (R155) -/

theorem PortRec.withdraw_none (h : r.pending = none) : r.withdraw = r := by
  simp only [PortRec.withdraw, h]

theorem PortRec.withdraw_some {u : Take} (h : r.pending = some u) :
    r.withdraw = { r with pending := none, withdrawn := some u } := by
  simp only [PortRec.withdraw, h]

/-- A HOLD opens the end of the current event, and withdraws a pending TAKE (R155). -/
theorem Works.hold_holds {y : Context} {ev : CurEvent} (hw : (w.abortIfReturning e 3 c).at c = y)
    (hc : y.cur = some ev) (ha : y.active = .primary) (hr : y.prim = some r)
    (hroom : r.pending ≠ none →
      (w.abortIfReturning e 3 c).tx.urgent.length + (w.abortIfReturning e 3 c).tx.flying .urgent < 16) :
    (w.abortIfReturning e 3 c).Cancelled e c r (w.hold e c) ∧
      (w.hold e c).join = (w.abortIfReturning e 3 c).join ∧
      (w.hold e c).at c =
        { y with cur := some { ev with held := true, endAt := none }, prim := some r.withdraw } := by
  obtain ⟨u, hu⟩ : ∃ u, u = (w.abortIfReturning e 3 c).mod c fun x =>
    { x with cur := x.cur.map fun ev => { ev with held := true, endAt := none } } := ⟨_, rfl⟩
  have hat : u.at c = { y with cur := some { ev with held := true, endAt := none } } := by
    rw [hu, Works.mod_at, hw, hc, Option.map_some]
  have hrec : (u.at c).activeRec = some r := by rw [hat, Context.activeRec, ha]; exact hr
  obtain ⟨hcancel, hframe⟩ := Works.cueCancel_cancels (e := e) hrec (by rw [hu]; exact hroom)
  have hhold : w.hold e c = (u.cueCancel e c).mod c fun x => x.modRec x.active PortRec.withdraw := by rw [hu]; rfl
  rw [hhold]
  refine ⟨(hcancel.of_mod hu).mod _, ?_, ?_⟩
  · rw [Works.mod_join, hframe, hu]
    rfl
  · have hsame : (u.cueCancel e c).at c = u.at c := by rw [hframe]; rfl
    rw [Works.mod_at, hsame, hat]
    exact Context.modRec_primary (x := { y with cur := some { ev with held := true, endAt := none } }) ha hr _

/-! ## RESUME and SKIP (R156) -/

/-- A RESUME or SKIP cancels the pending TAKE, forgets a withdrawn one, and places its request for now + P (R156). -/
theorem Works.impose_imposes (ha : (w.at c).active = .primary) (hr : (w.at c).prim = some r)
    (ho : (w.at c).mirror.other = .absent) (hwait : (w.at c).waitReq = none)
    (hback : ∀ a b, (w.at c).handback ≠ .requested a b)
    (hroom : w.tx.urgent.length + w.tx.flying .urgent < 16) (kind : JoinKind) :
    w.Cancelled e c r (w.impose e kind c) ∧
      (w.impose e kind c).at c =
        { w.at c with gen := (w.at c).gen + 1, prim := some { r with pending := none, withdrawn := none } } ∧
      (w.impose e kind c).Requested c kind e.ahead (some e.ahead) ((w.at c).gen + 1) := by
  have hrec : (w.at c).activeRec = some r := by rw [Context.activeRec, ha]; exact hr
  obtain ⟨hcancel, hframe⟩ := Works.cueCancel_cancels (e := e) hrec fun _ => hroom
  obtain ⟨u, hu⟩ : ∃ u, u = (w.cancelPending e c).mod c fun x =>
    x.modRec x.active fun q => { q with withdrawn := none } := ⟨_, rfl⟩
  have hcancelled : w.Cancelled e c r u := by
    rw [hu, Works.cancelPending_eq hrec]
    exact (hcancel.mod _).mod _
  have hat : u.at c = { w.at c with prim := some { r with pending := none, withdrawn := none } } := by
    have hsame : (w.cueCancel e c).at c = w.at c := by rw [hframe]; rfl
    rw [hu, Works.cancelPending_eq hrec, Works.mod_at, Works.mod_at, hsame, Context.modRec_active,
      Context.modRec_modRec, Context.modRec_primary ha hr]
  have huback : ∀ a b, (u.at c).handback ≠ .requested a b := by rw [hat]; exact hback
  have himpose : w.impose e kind c = u.placeJoin e c kind e.ahead (some e.ahead) false := by
    rw [hu] at hat ⊢
    exact Works.requestImposed_plain (by rw [hat]; exact ho) (by rw [hat]; exact hwait) kind false
  have hplaced := Works.placeJoin_eq (e := e) (kind := kind) (take := e.ahead) (curEnd := some e.ahead)
    (atSwitch := false) fun _ => huback
  have hreq := Works.placeJoin_stands (e := e) huback kind e.ahead (some e.ahead) false
  rw [himpose]
  rw [hat] at hreq
  refine ⟨⟨hcancelled.others.placeJoin e _ _ _ _, ?_, ?_, ?_, ?_, ?_⟩, ?_, hreq⟩
  · rw [hplaced]; exact hcancelled.store
  · rw [hplaced]; exact hcancelled.numbers
  · rw [hplaced]; exact hcancelled.notices
  · rw [hplaced]; exact hcancelled.idle
  · rw [hplaced]; exact hcancelled.joins
  · rw [hplaced]
    refine (Works.mod_at u c fun x => { x with gen := x.gen + 1 }).trans ?_
    rw [hat]

end

/-! ## The directives -/

/-- What a steering directive does besides its effect on the channel and the join engine: the number recorded, the
notices of the abort and of the directive, and the CANCEL of a pending TAKE (R171, R176, R178). -/
theorem State.takes_steers {s1 : State} {i : Fin 4} {c : Chan} {sender : Nat} {d : Directive} {effect : Works → Works}
    {reason : Nat} {y : Context} {aborted : List Notice} {r : PortRec}
    (hfreed : (s1.works.at c).Freed s1.clk.count c reason y aborted)
    (hcancel : ((s1.works.record i d.number).abortIfReturning s1.env reason c).Cancelled s1.env c r
      (effect (s1.works.record i d.number))) {t : State} (ht : t = s1.takes i c sender d effect) :
    s1.SameOutside t ∧ t.due = s1.due ∧ s1.works.OthersKept c t.works ∧ t.works.store = s1.works.store ∧
      t.works.lastNumbers = s1.works.lastNumbers.set i (some d.number) ∧
      t.works.notices.ring =
        (({ kind := .directiveTaken, chan := some c, param := directiveParam sender d.number d.kind 0
            frame := s1.clk.count } : Notice) :: aborted ++ s1.works.notices.ring).take 32 ∧
      t.works.notices.count = s1.works.notices.count + 1 + BitVec.ofNat 16 aborted.length ∧
      (r.pending = none → t.works.tx = s1.works.tx) ∧
      ∀ u, r.pending = some u → (∀ q ∈ s1.works.tx.urgent, q.isCueTo r.server r.port = false) →
        t.works.tx =
          { s1.works.tx with urgent := s1.works.tx.urgent ++ [OutMsg.cue (cancelCue r u)] }.pick s1.cfg := by
  obtain ⟨v, hv⟩ : ∃ v, v = (s1.works.record i d.number).abortIfReturning s1.env reason c := ⟨_, rfl⟩
  obtain ⟨hothers, ⟨-, htx, hstore, -, -, hnumbers, -, -⟩, -, hcount, hring⟩ :=
    Works.abortIfReturning_frees (w := s1.works.record i d.number) (e := s1.env) hfreed hv
  rw [← hv] at hcancel
  obtain ⟨cothers, cstore, cnumbers, cnotices, cidle, cjoins⟩ := hcancel
  rw [htx] at cidle cjoins
  subst ht
  refine ⟨⟨rfl, rfl, rfl, rfl, rfl, rfl, rfl, rfl, rfl, rfl⟩, rfl, hothers.trans cothers, cstore.trans hstore,
    cnumbers.trans hnumbers, ?_, ?_, cidle, cjoins⟩
  · refine Eq.trans ?_ (hring _)
    rw [← cnotices]
    rfl
  · have hmade : (s1.takes i c sender d effect).works.notices.count =
        (effect (s1.works.record i d.number)).notices.count + 1 := rfl
    rw [hmade, cnotices, hcount, BitVec.add_assoc, BitVec.add_assoc, BitVec.add_comm (BitVec.ofNat 16 _)]
    rfl

/-- A directive is what its effect makes of the blocks it meets. -/
theorem State.takes_congr {s1 : State} {i : Fin 4} {c : Chan} {sender : Nat} {d : Directive} {f g : Works → Works}
    (h : f (s1.works.record i d.number) = g (s1.works.record i d.number)) :
    s1.takes i c sender d f = s1.takes i c sender d g := by
  simp only [State.takes, State.onWorks, h]

/-- Settles O47: the check, the abort if one is made, and then the effect on the channel. -/
theorem holdResumeAndSkipAreTaken : Obligations.HoldResumeAndSkipAreTaken := by
  refine ⟨?_, ?_⟩
  · rintro s s1 l m p d i c x y ev r taken aborted hp hs1 rfl hkind hcur hheld hactive hprim hroom rfl hstate
    have hcfg : s1.cfg = s.cfg := by rw [hs1, State.heard_cfg]
    have hfreed : (s1.works.at c).Freed s1.clk.count c 3 y aborted := by
      rcases hstate with ⟨hs, hy, hn⟩ | ⟨hs, -, hy, hn⟩
      · exact .inl ⟨by rw [hs]; nofun, hy, hn⟩
      · exact .inr ⟨hs, hy, hn⟩
    have hsteer : (s1.works.at c).steerable = true :=
      Context.steerable_of (hstate.imp And.left fun h => ⟨h.1, h.2.1⟩)
    have hcheck : s1.works.holdCheck s1.env c = none :=
      Works.holdCheck_none hsteer ((Context.isHeld_of hcur).trans hheld)
    have hy : y.cur = some ev ∧ y.active = .primary ∧ y.prim = some r := by
      rcases hstate with ⟨-, rfl, -⟩ | ⟨-, -, rfl, -⟩ <;> exact ⟨hcur, hactive, hprim⟩
    obtain ⟨hycur, hyactive, hyprim⟩ := hy
    obtain ⟨-, ⟨hjoin, htx, -⟩, hat, -⟩ :=
      Works.abortIfReturning_frees (w := s1.works.record i d.number) (e := s1.env) hfreed rfl
    obtain ⟨hcancel, hkept, hctx⟩ := Works.hold_holds hat hycur hyactive hyprim (by rw [htx]; exact hroom)
    have hexec := hp.takes (sixth := Works.holdCheck) (effect := fun e _ _ c w => w.hold e c) (hs1 ▸ hcheck)
    rw [← hs1, hkind] at hexec
    obtain ⟨houtside, hdue, hothers, hstore, hnumbers, hring, -, hidle, hjoins⟩ :=
      State.takes_steers (sender := m.sender.toNat) (effect := Works.hold s1.env c) hfreed hcancel rfl
    rw [hkind] at hring
    refine ⟨_, congrArg Host.Outcome.next hexec, houtside, hdue, hothers, hkept.trans hjoin, hstore, hnumbers, ?_, hring,
      hidle, ?_⟩
    · cases ht : r.pending with
      | none => rw [PortRec.withdraw_none ht] at hctx; exact hctx
      | some u => rw [PortRec.withdraw_some ht] at hctx; exact hctx
    · rw [← hcfg]; exact hjoins
  · rintro s s1 l m p d i c x y ev r kind taken aborted hp hs1 rfl hcur hactive hprim hother hwait hqueue hflight hroom
      hkind rfl hstate
    have hcfg : s1.cfg = s.cfg := by rw [hs1, State.heard_cfg]
    have hfreed : (s1.works.at c).Freed s1.clk.count c 4 y aborted := by
      rcases hstate with ⟨hs, -, hy, hn⟩ | ⟨hs, -, -, hy, hn⟩
      · exact .inl ⟨by rw [hs]; nofun, hy, hn⟩
      · exact .inr ⟨hs, hy, hn⟩
    have hswitch : s1.works.switchOutstanding c = false := Works.switchOutstanding_none hwait hqueue hflight
    have hexec : exec (directiveCommand l d.kind) s =
        .next (s1.takes i c m.sender.toNat d fun w => (w.abortIfReturning s1.env 4 c).impose s1.env kind c) := by
      rcases hkind with ⟨hk, rfl, hheld⟩ | ⟨hk, rfl, hsucc⟩
      · have hs : (s1.works.at c).state = .onAir := by
          rcases hstate with ⟨hs, -⟩ | ⟨-, hk', -⟩
          · exact hs
          · rw [hk] at hk'; cases hk'
        have hcheck : s1.works.resumeCheck s1.env c = none :=
          Works.resumeCheck_none hs ((Context.isHeld_of hcur).trans hheld) hswitch
        have htakes := hp.takes (sixth := Works.resumeCheck) (effect := fun e _ _ c w => w.resume e c) (hs1 ▸ hcheck)
        have hstays : (s1.works.record i d.number).abortIfReturning s1.env 4 c = s1.works.record i d.number :=
          if_neg (show (s1.works.at c).state ≠ .returning by rw [hs]; nofun)
        rw [← hs1, State.takes_congr (g := fun w => (w.abortIfReturning s1.env 4 c).impose s1.env .resume c)
          (by rw [hstays]; rfl), hk] at htakes
        rw [hk]
        exact congrArg Host.Outcome.next htakes
      · have hsteer : (s1.works.at c).steerable = true :=
          Context.steerable_of (hstate.imp And.left fun h => ⟨h.1, h.2.2.1⟩)
        have hcheck : s1.works.skipCheck s1.env c = none :=
          Works.skipCheck_none hsteer hswitch (Context.hasSuccessor_of hcur hsucc)
        have htakes := hp.takes (sixth := Works.skipCheck) (effect := fun e _ _ c w => w.skip e c) (hs1 ▸ hcheck)
        rw [← hs1, hk] at htakes
        rw [hk]
        exact congrArg Host.Outcome.next htakes
    obtain ⟨-, ⟨-, htx, -⟩, hat, -⟩ :=
      Works.abortIfReturning_frees (w := s1.works.record i d.number) (e := s1.env) hfreed rfl
    have hy : y.active = .primary ∧ y.prim = some r ∧ y.mirror.other = .absent ∧ y.waitReq = none ∧
        y.gen = (s1.works.at c).gen ∧ ∀ a b, y.handback ≠ .requested a b := by
      rcases hstate with ⟨-, hb, rfl, -⟩ | ⟨-, -, -, rfl, -⟩
      · exact ⟨hactive, hprim, hother, hwait, rfl, by rw [hb]; nofun⟩
      · exact ⟨hactive, hprim, hother, hwait, rfl, nofun⟩
    obtain ⟨hyactive, hyprim, hyother, hywait, hygen, hyback⟩ := hy
    rw [← hat] at hyactive hyprim hyother hywait hyback
    obtain ⟨hcancel, hctx, hreq⟩ := Works.impose_imposes (e := s1.env) hyactive hyprim hyother hywait hyback
      (by rw [htx]; exact hroom) kind
    rw [hat, hygen] at hctx hreq
    obtain ⟨houtside, hdue, hothers, hstore, hnumbers, hring, hcount, hidle, hjoins⟩ :=
      State.takes_steers (sender := m.sender.toNat)
        (effect := fun w => (w.abortIfReturning s1.env 4 c).impose s1.env kind c) hfreed hcancel rfl
    rw [← hcfg]
    exact ⟨_, hexec, houtside, hdue, hothers, hstore, hnumbers, hctx, hreq, hring, hcount, hidle, hjoins⟩

end Sys2Proof.Machine
end

