-- ==== Sys2Proof/Proofs/PortSwitch.lean ====
section
/-! SUPPORT. R142, R146, R148, R149, log 41: the port switch of a channel with an alternate, the request that it places, and
the boundary that finds the fault. -/

namespace Sys2Proof.Machine

/-! ## What placing a request leaves as it was (R78, R122) -/

section
variable (w : Works) (e : Env) (c : Chan)

theorem Works.commitList_onlyContexts (rev : Half) (events : List EventRec) :
    w.OnlyContexts (w.commitList e c rev events) :=
  (((w.mod_onlyContexts c _).trans (Works.notice_onlyContexts _ e _ _ _)).trans (Works.judgeOnly_frame _ e c).1).trans
    (Works.redecide_cases _ e c).2.1

theorem Works.commitDeferred_onlyContexts : w.OnlyContexts (w.commitDeferred e c) := by
  unfold Works.commitDeferred
  split
  · exact (w.commitList_onlyContexts e c _ _).trans (Works.mod_onlyContexts _ c _)
  · exact .rfl

/-- A request leaves the transmitter and the as-run store, whatever it ends (R122). -/
theorem Works.placeJoin_keeps (kind : JoinKind) (take : Frame) (curEnd : Option Frame) (atSwitch : Bool) :
    (w.placeJoin e c kind take curEnd atSwitch).tx = w.tx ∧
      (w.placeJoin e c kind take curEnd atSwitch).store = w.store := by
  have hrefused : w.OnlyContexts (if kind.endsRequest then w.refuseRequested e c 3 else w) := by
    split
    · exact (w.refuseRequested_frame e c 3).1
    · exact .rfl
  obtain ⟨-, htx, hstore, -⟩ := hrefused
  unfold Works.placeJoin
  rw [Works.kick_frame]
  exact ⟨htx, hstore⟩

theorem Works.requestImposed_keeps (kind : JoinKind) (atSwitch : Bool) :
    (w.requestImposed e c kind atSwitch).tx = w.tx ∧ (w.requestImposed e c kind atSwitch).store = w.store := by
  unfold Works.requestImposed
  split
  · exact ⟨rfl, rfl⟩
  · obtain ⟨-, htx, hstore, -⟩ := Works.commitDeferred_onlyContexts (w.mod c fun x => { x with waitReq := none }) e c
    obtain ⟨jtx, jstore⟩ := Works.placeJoin_keeps
      ((w.mod c fun x => { x with waitReq := none }).commitDeferred e c) e c kind e.ahead (some e.ahead) atSwitch
    exact ⟨jtx.trans htx, jstore.trans hstore⟩

end

theorem Works.OthersKept.requestImposed {c : Chan} {u w : Works} (h : Works.OthersKept c u w) (e : Env)
    (kind : JoinKind) (atSwitch : Bool) : Works.OthersKept c u (w.requestImposed e c kind atSwitch) := by
  unfold Works.requestImposed
  split
  · exact h.mod _
  · exact ((h.mod _).commitDeferred e).placeJoin e _ _ _ _

/-- The active port of a channel, and its alternate with what pends there. -/
def Context.alternatePart (x : Context) : PortSel × Option PortRec := (x.active, x.alt)

theorem Context.redecided_alternatePart (x : Context) (e : Env) (c : Chan) :
    (x.redecided e c).alternatePart = x.alternatePart := by
  unfold Context.redecided
  split
  · split <;> rfl
  · rfl

section
variable (w : Works) (e : Env) (c : Chan)

theorem Works.alternatePart_mod {f : Context → Context} (h : ∀ x, (f x).alternatePart = x.alternatePart) :
    ((w.mod c f).at c).alternatePart = (w.at c).alternatePart := by rw [Works.mod_at, h]

theorem Works.judgeOnly_alternatePart : ((w.judgeOnly e c).at c).alternatePart = (w.at c).alternatePart := by
  rw [(w.judgeOnly_frame e c).2]
  rfl

theorem Works.commitDeferred_alternatePart :
    ((w.commitDeferred e c).at c).alternatePart = (w.at c).alternatePart := by
  unfold Works.commitDeferred
  split
  · rw [Works.alternatePart_mod, Works.commitList, (Works.redecide_cases _ e c).1, Context.redecided_alternatePart,
      Works.judgeOnly_alternatePart, Works.notice_at, Works.alternatePart_mod]
    all_goals exact fun _ => rfl
  · rfl

theorem Works.placeJoin_alternatePart (kind : JoinKind) (take : Frame) (curEnd : Option Frame) (atSwitch : Bool) :
    ((w.placeJoin e c kind take curEnd atSwitch).at c).alternatePart = (w.at c).alternatePart := by
  obtain ⟨u, hu⟩ : ∃ u, u = if kind.endsRequest then w.refuseRequested e c 3 else w := ⟨_, rfl⟩
  have hrefused : (u.at c).alternatePart = (w.at c).alternatePart := by
    rw [hu]
    split
    · rw [(w.refuseRequested_frame e c 3).2]
      rfl
    · rfl
  unfold Works.placeJoin
  rw [Works.kick_at, ← hu, ← hrefused]
  exact u.alternatePart_mod c (f := fun x => { x with gen := x.gen + 1 }) fun _ => rfl

theorem Works.requestImposed_alternatePart (kind : JoinKind) (atSwitch : Bool) :
    ((w.requestImposed e c kind atSwitch).at c).alternatePart = (w.at c).alternatePart := by
  unfold Works.requestImposed
  split
  · exact w.alternatePart_mod c fun _ => rfl
  · rw [Works.placeJoin_alternatePart, Works.commitDeferred_alternatePart]
    exact w.alternatePart_mod c fun _ => rfl

end

/-! ## The newest RESUME or SKIP (R149, log 41) -/

section
variable {w : Works} {c : Chan}

theorem Works.queuedJoin_none (h : ∀ j ∈ w.join.queue, j.chan ≠ c) : w.queuedJoin c = none := by
  simpa [Works.queuedJoin] using h

theorem Works.flyingJoin_none (h : ∀ f, w.join.flight = some f → f.req.chan ≠ c) : w.flyingJoin c = none := by
  unfold Works.flyingJoin
  split
  · rename_i f hf
    exact if_neg (h f hf)
  · rfl

theorem Works.imposedKind_none (hw : (w.at c).waitReq = none) (hq : ∀ j ∈ w.join.queue, j.chan ≠ c)
    (hf : ∀ f, w.join.flight = some f → f.req.chan ≠ c) : w.imposedKind c = none := by
  simp [Works.imposedKind, hw, Works.queuedJoin_none hq, Works.flyingJoin_none hf]

/-- A RESUME or SKIP that is queued, or else in flight, is the newest when none waits (log 41). -/
theorem Works.imposedKind_some {kind : JoinKind} (hk : kind = .resume ∨ kind = .skip) (hw : (w.at c).waitReq = none)
    (h : (∃ j, w.queuedJoin c = some j ∧ j.kind = kind) ∨
      ((∀ j ∈ w.join.queue, j.chan ≠ c) ∧ ∃ f, w.join.flight = some f ∧ f.req.chan = c ∧ f.req.kind = kind)) :
    w.imposedKind c = some kind := by
  have himposes : kind.imposes = true := by rcases hk with rfl | rfl <;> rfl
  rcases h with ⟨j, hj, rfl⟩ | ⟨hq, f, hf, hc, rfl⟩
  · simp [Works.imposedKind, hw, hj, himposes]
  · simp [Works.imposedKind, hw, Works.queuedJoin_none hq, Works.flyingJoin, hf, hc, himposes]

end

/-! ## The port switch (R149) -/

/-- The blocks once PORT_SWITCH is made, the primary port stopped at now + P and cleared, and the alternate active. -/
def Works.switched (e : Env) (c : Chan) (cause : PortFault) (r : PortRec) (w : Works) : Works :=
  ((w.notice e .portSwitch (some c) (BitVec.ofNat 32 cause.code)).placeCue e (r.stop e e.ahead)).mod c fun x =>
    { x with prim := x.prim.map PortRec.cleared, active := .alternate }

section
variable {w : Works} {e : Env} {c : Chan} {cause : PortFault} {r : PortRec}

theorem Works.switched_others : w.OthersKept c (w.switched e c cause r) :=
  ((Works.OthersKept.rfl.notice e _ _ _).placeCue e _).mod _

theorem Works.switched_at (hr : (w.at c).prim = some r) :
    (w.switched e c cause r).at c = { w.at c with prim := some r.cleared, active := .alternate } := by
  rw [Works.switched, Works.mod_at, Works.placeCue_contexts, Works.notice_at, hr, Option.map_some]

theorem Works.switched_tx : (w.switched e c cause r).tx = w.sends e [stopCue (e.estimate r.server) r e.ahead] :=
  Works.placeCue_tx (w := w.notice e .portSwitch (some c) (BitVec.ofNat 32 cause.code)) (v := w) rfl _

theorem Works.switched_frame :
    (w.switched e c cause r).store = w.store ∧ (w.switched e c cause r).join = w.join := by
  obtain ⟨hjoin, hstore, -⟩ := Works.placeCue_cuesOnly e (r.stop e e.ahead)
    (w.notice e .portSwitch (some c) (BitVec.ofNat 32 cause.code))
  exact ⟨hstore, hjoin⟩

theorem Works.switched_one (hroom : w.tx.urgent.length + w.tx.flying .urgent < 16) :
    w.OneNotice (w.switched e c cause r) .portSwitch (some c) (BitVec.ofNat 32 cause.code) e.now :=
  (w.notice_one e _ _ _).after
    (Works.placeCue_silent (w := w.notice e .portSwitch (some c) (BitVec.ofNat 32 cause.code)) hroom _)

theorem Works.portSwitch_eq (hr : (w.at c).prim = some r) :
    w.portSwitch e c cause =
      match ((w.switched e c cause r).at c).cur with
      | none => w.switched e c cause r
      | some _ =>
        match (w.switched e c cause r).imposedKind c with
        | some kind => (w.switched e c cause r).requestImposed e c kind true
        | none => (w.switched e c cause r).placeJoin e c .rejoin e.ahead none true := by
  have hprim : ((w.notice e .portSwitch (some c) (BitVec.ofNat 32 cause.code)).at c).prim = some r := hr
  simp only [Works.portSwitch, hprim]
  rfl

/-- A switch that has a request placed keeps to its channel, the transmitter and the store as they then are (R149). -/
theorem Works.portSwitch_keeps (hr : (w.at c).prim = some r) :
    w.OthersKept c (w.portSwitch e c cause) ∧ (w.portSwitch e c cause).tx = (w.switched e c cause r).tx ∧
      (w.portSwitch e c cause).store = w.store := by
  have hothers : w.OthersKept c (w.switched e c cause r) := Works.switched_others
  obtain ⟨hstore, -⟩ := Works.switched_frame (w := w) (e := e) (c := c) (cause := cause) (r := r)
  rw [Works.portSwitch_eq hr]
  split
  · exact ⟨hothers, rfl, hstore⟩
  · split
    · obtain ⟨htx, hkept⟩ := (w.switched e c cause r).requestImposed_keeps e c ‹JoinKind› true
      exact ⟨hothers.requestImposed e _ _, htx, hkept.trans hstore⟩
    · obtain ⟨htx, hkept⟩ := (w.switched e c cause r).placeJoin_keeps e c .rejoin e.ahead none true
      exact ⟨hothers.placeJoin e _ _ _ _, htx, hkept.trans hstore⟩

/-- A switch leaves the alternate active, its record as it was (R149). -/
theorem Works.portSwitch_alternatePart (hr : (w.at c).prim = some r) :
    ((w.portSwitch e c cause).at c).alternatePart = (.alternate, (w.at c).alt) := by
  have hat : ((w.switched e c cause r).at c).alternatePart = (.alternate, (w.at c).alt) := by
    rw [Works.switched_at hr]
    rfl
  rw [Works.portSwitch_eq hr]
  split
  · exact hat
  · split
    · rw [Works.requestImposed_alternatePart, hat]
    · rw [Works.placeJoin_alternatePart, hat]

/-- A channel without a current event has nothing to join (R149). -/
theorem Works.portSwitch_idle (hr : (w.at c).prim = some r) (hc : (w.at c).cur = none) :
    w.portSwitch e c cause = w.switched e c cause r := by
  have hcur : ((w.switched e c cause r).at c).cur = none := by rw [Works.switched_at hr]; exact hc
  rw [Works.portSwitch_eq hr, hcur]

/-- What a request does that is placed at a switch for a channel without a HAND BACK in hand. -/
theorem Works.switched_places {v : Works} (hr : (w.at c).prim = some r)
    (hback : ∀ a b, (w.at c).handback ≠ .requested a b) {kind : JoinKind} {curEnd : Option Frame}
    (hv : v = (w.switched e c cause r).placeJoin e c kind e.ahead curEnd true) :
    v.at c = { w.at c with gen := (w.at c).gen + 1, prim := some r.cleared, active := .alternate } ∧
      v.notices = (w.switched e c cause r).notices ∧ v.Requested c kind e.ahead curEnd ((w.at c).gen + 1) := by
  have hat := Works.switched_at (e := e) (cause := cause) hr
  have hstill : ∀ a b, ((w.switched e c cause r).at c).handback ≠ .requested a b := by rw [hat]; exact hback
  have hplaced := Works.placeJoin_eq (e := e) (kind := kind) (take := e.ahead) (curEnd := curEnd) (atSwitch := true)
    fun _ => hstill
  have hreq := Works.placeJoin_stands (e := e) hstill kind e.ahead curEnd true
  rw [hat] at hreq
  rw [hv]
  refine ⟨?_, by rw [hplaced]; rfl, hreq⟩
  rw [hplaced]
  refine (Works.mod_at (w.switched e c cause r) c fun x => { x with gen := x.gen + 1 }).trans ?_
  rw [hat]

/-- A channel with a current event and no RESUME or SKIP outstanding has a REJOIN placed (R149). -/
theorem Works.portSwitch_rejoins (hr : (w.at c).prim = some r) {ev : CurEvent} (hc : (w.at c).cur = some ev)
    (hwait : (w.at c).waitReq = none) (hq : ∀ j ∈ w.join.queue, j.chan ≠ c)
    (hf : ∀ f, w.join.flight = some f → f.req.chan ≠ c) :
    w.portSwitch e c cause = (w.switched e c cause r).placeJoin e c .rejoin e.ahead none true := by
  have hat := Works.switched_at (e := e) (cause := cause) hr
  obtain ⟨-, hjoin⟩ := Works.switched_frame (w := w) (e := e) (c := c) (cause := cause) (r := r)
  have hcur : ((w.switched e c cause r).at c).cur = some ev := by rw [hat]; exact hc
  have hkind : (w.switched e c cause r).imposedKind c = none :=
    Works.imposedKind_none (by rw [hat]; exact hwait) (by rw [hjoin]; exact hq) (by rw [hjoin]; exact hf)
  rw [Works.portSwitch_eq hr, hcur]
  dsimp only
  rw [hkind]

/-- A RESUME or SKIP that is queued, or else in flight, is placed again (R149). -/
theorem Works.portSwitch_imposes (hr : (w.at c).prim = some r) {ev : CurEvent} (hc : (w.at c).cur = some ev)
    (hwait : (w.at c).waitReq = none) (hother : (w.at c).mirror.other = .absent) {kind : JoinKind}
    (hk : kind = .resume ∨ kind = .skip)
    (h : (∃ j, w.queuedJoin c = some j ∧ j.kind = kind) ∨
      ((∀ j ∈ w.join.queue, j.chan ≠ c) ∧ ∃ f, w.join.flight = some f ∧ f.req.chan = c ∧ f.req.kind = kind)) :
    w.portSwitch e c cause = (w.switched e c cause r).placeJoin e c kind e.ahead (some e.ahead) true := by
  have hat := Works.switched_at (e := e) (cause := cause) hr
  obtain ⟨-, hjoin⟩ := Works.switched_frame (w := w) (e := e) (c := c) (cause := cause) (r := r)
  have hcur : ((w.switched e c cause r).at c).cur = some ev := by rw [hat]; exact hc
  have hwait' : ((w.switched e c cause r).at c).waitReq = none := by rw [hat]; exact hwait
  have hkind : (w.switched e c cause r).imposedKind c = some kind :=
    Works.imposedKind_some hk hwait' (by simpa only [Works.queuedJoin, hjoin] using h)
  rw [Works.portSwitch_eq hr, hcur]
  dsimp only
  rw [hkind]
  dsimp only
  rw [Works.requestImposed_plain (by rw [hat]; exact hother) hwait']

/-- With no other list and no HAND BACK in hand, what a switch places makes no notice (R78, R166). -/
theorem Works.portSwitch_silent (hr : (w.at c).prim = some r) (hother : (w.at c).mirror.other = .absent)
    (hback : ∀ a b, (w.at c).handback ≠ .requested a b) :
    (w.portSwitch e c cause).notices = (w.switched e c cause r).notices := by
  have hat := Works.switched_at (e := e) (cause := cause) hr
  have hplace (u : Works) (hu : u.at c = { (w.switched e c cause r).at c with waitReq := (u.at c).waitReq })
      (kind : JoinKind) (curEnd : Option Frame) :
      (u.placeJoin e c kind e.ahead curEnd true).notices = u.notices := by
    rw [Works.placeJoin_eq fun _ => by rw [hu, hat]; exact hback]
    rfl
  rw [Works.portSwitch_eq hr]
  split
  · rfl
  · split
    · rw [Works.requestImposed_absent (by rw [hat]; exact hother)]
      exact hplace _ (by rw [Works.mod_at]) _ _
    · exact hplace _ rfl _ _

end

/-! ## The boundary that finds the fault (R146, R148) -/

/-- The silent counts of a channel's ports once they have advanced (R142). -/
def Context.silenced (x : Context) : Context :=
  { x with prim := x.prim.map PortRec.silence, alt := x.alt.map PortRec.silence }

/-- An alternate with no TAKE has no countdown to lower (R146). -/
theorem PortRec.lower_idle {q : PortRec} (hp : q.pending = none) (hw : q.withdrawn = none) : q.lower = q := by
  cases q
  cases hp
  cases hw
  rfl

section
variable {w v : Works} {e : Env} {c : Chan} {cause : PortFault}

/-- A port fault on the primary port of a channel with an alternate switches the port, the handback of a channel in
RETURNING aborted first (R148, R149). -/
theorem Works.portFault_switches {y : Context} {aborted : List Notice}
    (hfreed : (w.at c).Freed e.now c 5 y aborted) {q : PortRec} (ha : (w.at c).active = .primary)
    (hq : (w.at c).alt = some q) :
    w.portFault e c cause = (w.abortIfReturning e 5 c).portSwitch e c cause := by
  obtain ⟨-, -, hat, -⟩ := Works.abortIfReturning_frees hfreed rfl
  have hports : y.active = .primary ∧ y.alt = some q := by
    rcases hfreed with ⟨-, rfl, -⟩ | ⟨-, rfl, -⟩ <;> exact ⟨ha, hq⟩
  rw [← hat] at hports
  obtain ⟨hactive, halt⟩ := hports
  simp only [Works.abortIfReturning] at hactive halt ⊢
  simp only [Works.portFault, hactive, halt]

/-- Nothing is repeated on a port with no TAKE pending (R144). -/
theorem Works.repeatTake_idle {q : PortRec} (hr : (w.at c).activeRec = some q) (hp : q.pending = none) :
    w.repeatTake e c = w := by
  simp only [Works.repeatTake, hr, hp]

/-- The boundary that finds a fault: the countdowns are lowered, the fault is taken, and the silent counts advance; no
TAKE is repeated on a port that then has none (R142, R144, R146). -/
theorem Works.cueBoundary_found (hf : e.boundaryFault (w.at c) = some cause)
    (hv : v = (w.mod c Context.lowered).portFault e c cause) {q : PortRec} (ha : (v.at c).active = .alternate)
    (hq : (v.at c).alt = some q) (hp : q.pending = none) : w.cueBoundary e c = v.mod c Context.silenced := by
  have hrec : ((v.mod c Context.silenced).at c).activeRec = some q.silence := by
    rw [Works.mod_at, Context.activeRec, show (v.at c).silenced.active = .alternate from ha]
    exact congrArg (Option.map PortRec.silence) hq
  unfold Works.cueBoundary
  simp only [hf]
  rw [← hv]
  exact Works.repeatTake_idle hrec hp

/-- The boundary that finds a fault on the primary port of a channel with an alternate that has no TAKE (R146, R149). -/
theorem Works.cueBoundary_switches {r q : PortRec} {y : Context} {aborted : List Notice}
    (hf : e.boundaryFault (w.at c) = some cause)
    (hat : (w.mod c Context.lowered).at c = { w.at c with prim := some r, alt := some q })
    (ha : (w.at c).active = .primary) (hp : q.pending = none)
    (hfreed : ((w.mod c Context.lowered).at c).Freed e.now c 5 y aborted) :
    w.cueBoundary e c =
      (((w.mod c Context.lowered).abortIfReturning e 5 c).portSwitch e c cause).mod c Context.silenced := by
  have hports : y.prim = some r ∧ y.alt = some q := by
    rcases hfreed with ⟨-, rfl, -⟩ | ⟨-, rfl, -⟩ <;> rw [hat] <;> exact ⟨rfl, rfl⟩
  obtain ⟨-, -, uat, -⟩ := Works.abortIfReturning_frees hfreed rfl
  rw [← uat] at hports
  have hpart := Works.portSwitch_alternatePart (e := e) (cause := cause) hports.1
  refine Works.cueBoundary_found hf ?_ (congrArg Prod.fst hpart) ((congrArg Prod.snd hpart).trans hports.2) hp
  rw [Works.portFault_switches hfreed (by rw [hat]; exact ha) (by rw [hat])]

end

/-- The command of each cause that a boundary can find, and the fault that it then finds (R146). -/
theorem State.fault_of_cause {s : State} {c : Chan} {r : PortRec} {i : Instr} {code : Nat}
    (hair : (s.works.at c).state.air = true) (hrec : (s.works.at c).activeRec = some r)
    (hcause : (i = .serverSilent c ∧ code = 1 ∧ s.cfg.lossFrames ≤ r.silent.toNat) ∨
      (i = .armTimeout c ∧ code = 2 ∧ r.silent.toNat < s.cfg.lossFrames ∧
        ∃ t, r.pending = some t ∧ t.armCount ≤ 1 ∧ t.seen = false) ∨
      (i = .takeTimeout c ∧ code = 3 ∧ r.silent.toNat < s.cfg.lossFrames ∧
        ∃ t, r.pending = some t ∧ ¬(t.armCount ≤ 1 ∧ t.seen = false) ∧ t.takeCount ≤ 1)) :
    ∃ cause : PortFault, exec i s = .next (s.slice (.cue c) (onChannel (faultIs cause) c)) ∧
      s.boundaryEnv.boundaryFault (s.works.at c) = some cause ∧ cause.code = code := by
  rcases hcause with ⟨rfl, rfl, hs⟩ | ⟨rfl, rfl, hs, t, ht, harm⟩ | ⟨rfl, rfl, hs, t, ht, harm, htake⟩
  · exact ⟨.serverSilent, rfl, Env.boundaryFault_silent hair hrec hs, rfl⟩
  · refine ⟨.armTimeout, rfl, ?_, rfl⟩
    rw [Env.boundaryFault_pending hair hrec hs ht, if_pos ⟨by omega, harm.2⟩]
  · refine ⟨.takeTimeout, rfl, ?_, rfl⟩
    rw [Env.boundaryFault_pending hair hrec hs ht, if_neg fun h => harm ⟨by omega, h.2⟩, if_pos (by omega)]

/-- Settles O31: the fault that the boundary finds, the handback aborted if one is agreed, and then the switch by what it
has placed. -/
theorem portFaultSwitchesPort : Obligations.PortFaultSwitchesPort := by
  rintro s c x y r q i code ahead ho rfl hactive hprim halt hqp hqw hback hroom rfl rfl hcause hstate
  have hair : (s.works.at c).state.air = true := by rcases hstate with h | h | h <;> rw [h] <;> rfl
  have hrec : (s.works.at c).activeRec = some r := by rw [Context.activeRec, hactive]; exact hprim
  obtain ⟨cause, hexec, hfault, rfl⟩ := State.fault_of_cause hair hrec hcause
  obtain ⟨w, hw⟩ : ∃ w, w = s.works.mod c Context.lowered := ⟨_, rfl⟩
  have hwat : w.at c = { s.works.at c with prim := some r.lower, alt := some q } := by
    rw [hw, Works.mod_at, Context.lowered, if_pos hair, hprim, halt]
    simp only [Option.map_some, PortRec.lower_idle hqp hqw]
  obtain ⟨z, aborted, hfreed⟩ := (w.at c).exists_freed s.clk.count c 5
  obtain ⟨u, hu⟩ : ∃ u, u = w.abortIfReturning s.boundaryEnv 5 c := ⟨_, rfl⟩
  obtain ⟨uothers, ⟨ujoin, utx, ustore, -⟩, uat, -, uring⟩ := Works.abortIfReturning_frees hfreed hu
  have hz : z = { w.at c with state := z.state, handback := z.handback, dualSeen := z.dualSeen } ∧
      ∀ a b, z.handback ≠ .requested a b := by
    rcases hfreed with ⟨-, rfl, -⟩ | ⟨-, rfl, -⟩
    · exact ⟨rfl, by rw [hwat]; exact hback⟩
    · exact ⟨rfl, nofun⟩
  obtain ⟨hz, zback⟩ := hz
  rw [← uat, hwat] at hz
  rw [← uat] at zback
  have uprim : (u.at c).prim = some r.lower := by rw [hz]
  have uroom : u.tx.urgent.length + u.tx.flying .urgent < 16 := by rw [utx, hw]; exact hroom
  obtain ⟨v, hv⟩ : ∃ v, v = u.portSwitch s.boundaryEnv c cause := ⟨_, rfl⟩
  obtain ⟨vothers, vtx, vstore⟩ := Works.portSwitch_keeps (e := s.boundaryEnv) (cause := cause) uprim
  rw [← hv] at vothers vtx vstore
  have hwork : s.works.cueBoundary s.boundaryEnv c = v.mod c Context.silenced := by
    rw [hv, hu, hw]
    exact Works.cueBoundary_switches hfault (hw ▸ hwat) hactive hqp (hw ▸ hfreed)
  have hslice := ho.sliceWorks (cond := onChannel (faultIs cause) c) (f := fun e w => w.cueBoundary e c)
    (decide_eq_true hfault) rfl
  rw [hslice, hwork] at hexec
  have hothers : s.works.OthersKept c w := hw ▸ Works.OthersKept.rfl.mod _
  have hstay (hs : (s.works.at c).state ≠ .returning) : u = w := by
    refine hu.trans (if_neg ?_)
    rw [hwat]
    exact hs
  refine ⟨_, hexec, s.sameOutside_with _ _, rfl, ((hothers.trans uothers).trans vothers).mod _, ?_, ?_, ?_, ?_, ?_, ?_⟩
  · exact vstore.trans (ustore.trans (by rw [hw]; rfl))
  · refine vtx.trans (Works.switched_tx.trans (Works.sends_congr (utx.trans ?_) _ _))
    rw [hw]
    rfl
  · intro hs hother
    have hsilent := Works.portSwitch_silent (e := s.boundaryEnv) (cause := cause) uprim (by rw [hz]; exact hother) zback
    have hone := (Works.switched_one (e := s.boundaryEnv) (c := c) (cause := cause) (r := r.lower) uroom).after
      (hsilent ▸ congrArg Works.notices hv : v.notices = _)
    exact hone.before (by rw [hstay hs, hw]; rfl)
  · intro hs hcur
    rw [Works.portSwitch_idle uprim (by rw [hz]; exact hcur)] at hv
    obtain ⟨-, hjoin⟩ := Works.switched_frame (w := u) (e := s.boundaryEnv) (c := c) (cause := cause) (r := r.lower)
    have hat := Works.switched_at (e := s.boundaryEnv) (cause := cause) uprim
    rw [← hv] at hjoin hat
    refine ⟨hjoin.trans (ujoin.trans (by rw [hw]; rfl)), ?_⟩
    rw [Works.mod_at, hat, hstay hs, hwat]
    rfl
  · intro ev hcur hwait hqueue hflight
    rw [Works.portSwitch_rejoins uprim (by rw [hz]; exact hcur) (by rw [hz]; exact hwait)
      (by rw [ujoin, hw]; exact hqueue) (by rw [ujoin, hw]; exact hflight)] at hv
    obtain ⟨vat, vnotices, vreq⟩ := Works.switched_places uprim zback hv
    rw [hz] at vreq
    refine ⟨vreq, fun hs => ?_, fun hs => ⟨?_, ?_⟩⟩
    · rw [Works.mod_at, vat, hstay hs, hwat]
      rfl
    · rw [Works.mod_at, vat, uat, (hfreed.returning (by rw [hwat]; exact hs)).1, hwat]
      rfl
    · have hone := (Works.switched_one (e := s.boundaryEnv) (c := c) (cause := cause) (r := r.lower) uroom).1
      rw [uring, (hfreed.returning (by rw [hwat]; exact hs)).2, hw] at hone
      exact (congrArg Notices.ring vnotices).trans hone
  · intro ev kind hs hcur hwait hother hkind hout
    rw [Works.portSwitch_imposes uprim (by rw [hz]; exact hcur) (by rw [hz]; exact hwait) (by rw [hz]; exact hother) hkind
      (by rw [hstay hs, hw]; exact hout)] at hv
    obtain ⟨vat, -, vreq⟩ := Works.switched_places uprim zback hv
    rw [hz] at vreq
    refine ⟨vreq, ?_⟩
    rw [Works.mod_at, vat, hstay hs, hwat]
    rfl

end Sys2Proof.Machine
end

