-- ==== Sys2Proof/Proofs/StandingCues.lean ====
section
/-! SUPPORT. R142, R144 to R146: a boundary at which no port fault is found, and the TAKEs that are converted again after
a CLOCK_STEP. -/

namespace Sys2Proof.Machine

/-! ## A boundary with no port fault (R142, R144, R146) -/

section
variable {w : Works} {e : Env} {c : Chan} {x : Context} {r : PortRec}

/-- With its server heard and nothing pending, a port has no fault (R146). -/
theorem Env.boundaryFault_idle (h : x.state.air = true) (hr : x.activeRec = some r)
    (hs : r.silent.toNat < e.cfg.lossFrames) (hp : r.pending = none) : e.boundaryFault x = none := by
  have hloss : ¬ e.cfg.lossFrames ≤ r.lower.silent.toNat := Nat.not_le.mpr hs
  have hlow : r.lower.pending = none := by simp only [PortRec.lower, hp, Option.map_none]
  simp only [Env.boundaryFault, h, if_true, Env.findFault, Context.lowered_activeRec h hr, hloss, if_false, hlow]

/-- With no fault found the countdowns are lowered, the silent counts advance, and a TAKE is repeated (R142, R144). -/
theorem Works.cueBoundary_quiet (h : e.boundaryFault (w.at c) = none) :
    w.cueBoundary e c = (w.mod c fun x => x.lowered.silenced).repeatTake e c := by
  rw [Works.cueBoundary, h]
  dsimp only
  rw [Works.mod_mod]
  rfl

/-- The port records of a channel on air with a primary port alone, its countdowns lowered and its silent count
advanced (R142, R146). -/
theorem Context.lowered_silenced (h : x.state.air = true) (hr : x.prim = some r) (ha : x.alt = none) :
    x.lowered.silenced = { x with prim := some r.lower.silence } := by
  rw [Context.lowered, if_pos h, Context.silenced, hr, ha]
  rfl

/-- A TAKE not yet seen armed is placed again (R144). -/
theorem Works.repeatTake_repeats (hs : (w.at c).state.air = true) (hr : (w.at c).activeRec = some r) {t : Take}
    (ht : r.pending = some t) (hseen : t.seen = false) : w.repeatTake e c = w.placeCue e (takeCue r t) := by
  simp only [Works.repeatTake, hr, ht, hs, hseen, Bool.not_false, Bool.and_self, if_true]
  rfl

/-- A TAKE seen armed is not (R144). -/
theorem Works.repeatTake_seen (hr : (w.at c).activeRec = some r) {t : Take} (ht : r.pending = some t)
    (hseen : t.seen = true) : w.repeatTake e c = w := by
  simp only [Works.repeatTake, hr, ht, hseen, Bool.not_true, Bool.and_false, Bool.false_eq_true, if_false]

/-- A withdrawn TAKE whose countdown ends at the boundary (R146). -/
theorem Context.withdrawnDue_primary (h : x.state.air = true) (hr : x.prim = some r) {t : Take}
    (ht : r.withdrawn = some t) (hcount : t.takeCount ≤ 1) : x.withdrawnDue = true := by
  have hends : t.takeCount - 1 = 0 := by omega
  simp [Context.withdrawnDue, h, hr, ht, hends]

end

/-! ## Conversion after a CLOCK_STEP (R145) -/

section
variable {w : Works} {e : Env} {station : Nat} {c : Chan} {p : PortSel} {r : PortRec}

theorem Works.clockStep_eq (w : Works) (e : Env) (station : Nat) :
    w.clockStep e station = w.eachPort fun c p w => w.reconvert e station c p := rfl

/-- A port with no TAKE pending to the station stays as it is, and so does one whose TAKE keeps its K (R145). -/
theorem Works.reconvert_stands
    (h : ∀ q t, (w.at c).portRec p = some q → q.server = station → q.pending = some t →
      convertFrame (e.estimate station) t.takeLocal = t.k) : w.reconvert e station c p = w := by
  unfold Works.reconvert
  split
  · rfl
  · rename_i q hq
    split
    · rfl
    · rename_i t ht
      exact if_neg fun hk => hk.2 (h q t hq hk.1 ht)

/-- A TAKE whose K changes is placed under a new tag, not seen armed, its countdowns kept (R145). -/
theorem Works.reconvert_replaces (hr : (w.at c).portRec p = some r) (hs : r.server = station) {u v : Take}
    (hu : r.pending = some u)
    (hv : v = { u with tag := w.tag, k := convertFrame (e.estimate station) u.takeLocal, seen := false })
    (hk : v.k ≠ u.k) :
    w.reconvert e station c p =
      ({ w with tag := tagAfter w.tag }.placeCue e (takeCue r v)).mod c fun y =>
        y.modRec p fun q => { q with pending := some v } := by
  subst hv
  have hchanged : r.server = station ∧ convertFrame (e.estimate station) u.takeLocal ≠ u.k := ⟨hs, hk⟩
  simp only [Works.reconvert, hr, hu, if_pos hchanged]
  rfl

end

/-- Settles O33: the boundary's cue work with no fault found, and the turn of the one port with a TAKE to convert. -/
theorem standingCuesAreKept : Obligations.StandingCuesAreKept := by
  refine ⟨?_, ?_, ?_⟩
  · rintro s c x r t ho rfl hstate hactive hprim hsilent hpending hwithdrawn hcount halt
    have hair : (s.works.at c).state.air = true := by rw [hstate]; rfl
    have hrec : (s.works.at c).activeRec = some r := by rw [Context.activeRec, hactive]; exact hprim
    have hlow : r.lower.silence = { r with withdrawn := none, silent := bump r.silent } := by
      have hends : t.takeCount - 1 = 0 := by omega
      simp [PortRec.lower, PortRec.silence, hpending, hwithdrawn, Take.lowerWithdrawn, hends]
    have hcontext : (s.works.at c).lowered.silenced =
        { s.works.at c with prim := some { r with withdrawn := none, silent := bump r.silent } } := by
      rw [Context.lowered_silenced hair hprim halt, hlow]
    have hidle : (s.works.mod c fun x => x.lowered.silenced).repeatTake s.boundaryEnv c =
        s.works.mod c fun x => x.lowered.silenced := by
      refine Works.repeatTake_idle (q := { r with withdrawn := none, silent := bump r.silent }) ?_ hpending
      rw [Works.mod_at, hcontext, Context.activeRec, hactive]
      rfl
    have hslice := ho.sliceWorks (cond := onChannel (fun _ x => x.withdrawnDue) c) (f := fun e w => w.cueBoundary e c)
      (Context.withdrawnDue_primary hair hprim hwithdrawn hcount) rfl
    rw [Works.cueBoundary_quiet (Env.boundaryFault_idle hair hrec hsilent hpending), hidle,
      Works.mod_congr (g := fun y => { y with prim := some { r with withdrawn := none, silent := bump r.silent } })
        hcontext] at hslice
    exact congrArg Host.Outcome.next hslice
  · rintro s c x r u w rfl hstate hactive hprim halt hsilent hwithdrawn hpending htake hw
    have hair : (s.works.at c).state.air = true := by rcases hstate with h | h | h <;> rw [h] <;> rfl
    have hrec : (s.works.at c).activeRec = some r := by rw [Context.activeRec, hactive]; exact hprim
    have hlow : r.lower.silence = { r with silent := bump r.silent, pending := some u.lower } := by
      simp [PortRec.lower, PortRec.silence, hpending, hwithdrawn]
    have hwork (hquiet : s.boundaryEnv.boundaryFault (s.works.at c) = none) :
        runWork (.cue c) s = { s with works := w.repeatTake s.boundaryEnv c } := by
      have hmod : w = s.works.mod c fun x => x.lowered.silenced := by
        rw [hw]
        refine Works.mod_congr ?_
        rw [Context.lowered_silenced hair hprim halt, hlow]
        rfl
      rw [hmod, ← Works.cueBoundary_quiet hquiet]
      rfl
    have hwrec : (w.at c).activeRec = some { r with silent := bump r.silent, pending := some u.lower } := by
      rw [hw, Works.mod_at, Context.activeRec, hactive]
      rfl
    refine ⟨fun hseen harm => ?_, fun hseen => ?_⟩
    · have hwair : (w.at c).state.air = true := by rw [hw, Works.mod_at]; exact hair
      have hquiet : s.boundaryEnv.boundaryFault (s.works.at c) = none := by
        rw [Env.boundaryFault_pending hair hrec hsilent hpending, if_neg (by omega), if_neg (by omega)]
      rw [hwork hquiet, Works.repeatTake_repeats hwair hwrec rfl hseen]
      rfl
    · have hquiet : s.boundaryEnv.boundaryFault (s.works.at c) = none := by
        rw [Env.boundaryFault_pending hair hrec hsilent hpending, if_neg (by simp [hseen]), if_neg (by omega)]
      rw [hwork hquiet, Works.repeatTake_seen hwrec rfl hseen]
  · intro e w station
    refine ⟨fun hidle => ?_, ?_⟩
    · rw [Works.clockStep_eq]
      refine Works.eachPort_idle fun d q => Works.reconvert_stands fun r t hr hs ht => ?_
      rw [hidle d q r hr hs] at ht
      cases ht
    · rintro c side r u v hr hs hu honly hv
      have hothers {z : Works} (hkept : ∀ d q, ¬(d = c ∧ q = side) → (z.at d).portRec q = (w.at d).portRec q) (d : Chan)
          (q : PortSel) (hne : ¬(d = c ∧ q = side)) : z.reconvert e station d q = z := by
        refine Works.reconvert_stands fun y t hy hserver ht => absurd ?_ hne
        rw [hkept d q hne] at hy
        exact honly d q y hy hserver (by rw [ht]; nofun)
      rw [Works.clockStep_eq]
      refine ⟨fun hk => ?_, fun hk => ?_⟩
      · have hstands : w.reconvert e station c side = w := by
          refine Works.reconvert_stands fun y t hy _ ht => ?_
          obtain rfl : r = y := Option.some.inj (hr.symm.trans hy)
          obtain rfl : u = t := Option.some.inj (hu.symm.trans ht)
          rw [hv] at hk
          exact hk
        exact Works.eachPort_one hstands (hothers fun _ _ _ => rfl) (hothers fun _ _ _ => rfl)
      · refine Works.eachPort_one (Works.reconvert_replaces hr hs hu hv hk) (hothers fun _ _ _ => rfl)
          (hothers fun d q hne => ?_)
        rw [Works.modRec_portRec_other _ hne, Works.placeCue_contexts]
        rfl

end Sys2Proof.Machine
end

