-- ==== Sys2Proof/Proofs/PortStatus.lean ====
section
/-! SUPPORT. R141, R147, R148, R152 to R155: a PORT STATUS of one entry that one port record answers to, the take that it
confirms, and the port fault that it reports. -/

namespace Sys2Proof.Machine

/-! ## The one port that an entry names (R141) -/

section
variable {w v : Works} {e : Env} {c : Chan} {p : PortSel} {sender : Nat} {m : PortEntry} {r : PortRec}

/-- An entry leaves a port that it does not name (R141). -/
theorem Works.portEntry_other (h : ∀ q, (w.at c).portRec p = some q → ¬(q.server = sender ∧ q.port = m.port)) :
    w.portEntry e sender m c p = w := by
  unfold Works.portEntry
  split
  · rfl
  · rename_i q hq
    exact if_neg (h q hq)

/-- The records of all ports but one name the server and port that they named. -/
def Works.OtherPortsStand (c : Chan) (p : PortSel) (w v : Works) : Prop :=
  ∀ d q y, ¬(d = c ∧ q = p) → (v.at d).portRec q = some y →
    ∃ z, (w.at d).portRec q = some z ∧ z.server = y.server ∧ z.port = y.port

theorem Works.portsStand_of_kept (h : w.OthersKept c v)
    (hown : ∀ q y, q ≠ p → (v.at c).portRec q = some y →
      ∃ z, (w.at c).portRec q = some z ∧ z.server = y.server ∧ z.port = y.port) : w.OtherPortsStand c p v := by
  intro d q y hne hy
  by_cases hd : d = c
  · subst hd
    exact hown q y (fun hq => hne ⟨rfl, hq⟩) hy
  · rw [h d hd] at hy
    exact ⟨y, hy, rfl, rfl⟩

/-- A PORT STATUS of one entry that names one port is what the entry does to that port (R141). -/
theorem Works.takePortStatus_alone (hr : (w.at c).portRec p = some r) (hserver : r.server = sender)
    (honly : ∀ d q y, (w.at d).portRec q = some y → y.server = sender → y.port = m.port → d = c ∧ q = p)
    (hv : w.portEntry e sender m c p = v) (hstand : w.OtherPortsStand c p v) :
    w.takePortStatus e sender [m] = v := by
  have hknown : w.knowsServer sender = true := hserver ▸ Works.knowsServer_of_portRec hr
  have hturns : w.takePortStatus e sender [m] = w.eachPort fun c p w => w.portEntry e sender m c p := by
    simp only [Works.takePortStatus, hknown, if_true, List.foldl_cons, List.foldl_nil, Works.eachPort]
  have hidle : ∀ u : Works, w.OtherPortsStand c p u → ∀ d q, ¬(d = c ∧ q = p) → u.portEntry e sender m d q = u := by
    intro u hu d q hne
    refine Works.portEntry_other fun y hy hnamed => hne ?_
    obtain ⟨z, hz, hzs, hzp⟩ := hu d q y hne hy
    exact honly d q z hz (hzs.trans hnamed.1) (hzp.trans hnamed.2)
  rw [hturns]
  exact Works.eachPort_one hv (hidle w fun _ _ y _ hy => ⟨y, hy, rfl, rfl⟩) (hidle v hstand)

/-- A PORT STATUS from a station that is the server of no port record is counted (R141). -/
theorem Works.takePortStatus_foreign
    (h : ∀ d q, (w.at d).prim = some q ∨ (w.at d).alt = some q → q.server ≠ sender) (es : List PortEntry) :
    w.takePortStatus e sender es =
      { w with counters := { w.counters with foreignStatus := bump w.counters.foreignStatus } } := by
  refine if_neg ?_
  simp only [Works.knowsServer, List.any_eq_true, not_exists, not_and, Bool.not_eq_true, Bool.or_eq_false_iff,
    Option.any_eq_false, decide_eq_false_iff_not]
  exact fun d _ => ⟨fun q hq => h d q (.inl hq), fun q hq => h d q (.inr hq)⟩

end

/-! ## The steps of R141 -/

section
variable {w : Works} {e : Env} {c : Chan} {p : PortSel} {sender : Nat} {m : PortEntry} {r : PortRec}

/-- The port that an entry names is heard: its silent count is clear, and a pending TAKE that it carries is seen (steps 1
and 2 of R141). -/
def Works.reported (c : Chan) (p : PortSel) (m : PortEntry) (w : Works) : Works :=
  w.mod c fun x => x.modRec p (PortRec.report m)

theorem Context.modRec_portRec {x : Context} (f : PortRec → PortRec) : (x.modRec p f).portRec p = (x.portRec p).map f := by
  cases p <;> rfl

theorem Works.reported_portRec (hr : (w.at c).portRec p = some r) :
    ((w.reported c p m).at c).portRec p = some (r.report m) := by
  rw [Works.reported, Works.mod_at, Context.modRec_portRec, hr, Option.map_some]

theorem Works.portEntry_named (hr : (w.at c).portRec p = some r) (hserver : r.server = sender) (hport : r.port = m.port) :
    w.portEntry e sender m c p =
      (((w.reported c p m).confirmPlaying e c p m).overtakeHold e c p m).faultReported e c p m := by
  simp only [Works.portEntry, hr, hserver, hport, and_self, if_true]
  rfl

theorem Works.confirmPlaying_none (hr : (w.at c).portRec p = some r) (h : r.pending = none ∨ m.state ≠ .playing) :
    w.confirmPlaying e c p m = w := by
  simp only [Works.confirmPlaying, hr]
  split
  · rename_i t ht
    refine if_neg fun hp => ?_
    rcases h with h | h
    · rw [h] at ht; cases ht
    · exact h hp.1
  · rfl

theorem Works.overtakeHold_none (hr : (w.at c).portRec p = some r) (h : r.withdrawn = none ∨ m.state ≠ .playing) :
    w.overtakeHold e c p m = w := by
  simp only [Works.overtakeHold, hr]
  split
  · rename_i t ht
    refine if_neg fun hp => ?_
    rcases h with h | h
    · rw [h] at ht; cases ht
    · exact h hp.1
  · rfl

/-- An entry that reports no fault of the port's is none (R147). -/
theorem Works.faultReported_none (h : ∀ r, (w.at c).portRec p = some r → m.isFault r = false) :
    w.faultReported e c p m = w := by
  unfold Works.faultReported
  dsimp only
  split
  · rfl
  · rename_i r hr
    rw [h r hr]
    exact if_neg fun hf => Bool.false_ne_true hf.2.2

theorem PortEntry.isFault_not (h : m.state ≠ .fault) (r : PortRec) : m.isFault r = false := by
  simp [PortEntry.isFault, h]

end

/-! ## The record turned by a take (R153) -/

section
variable {w v : Works} {e : Env} {c : Chan} {p : PortSel} {r : PortRec} {t : Take}

theorem closingStatus_eq (takeLocal : Frame) (natEnd : Option Frame) :
    closingStatus takeLocal natEnd =
      match natEnd with
      | none => .complete
      | some n => if takeLocal = n then .complete else if 0 < frameDiff n takeLocal then .shortened else .extended := by
  cases natEnd <;> simp [closingStatus, later]

/-- What the turning of a record does: the open record is closed at the take local, if there is one, and a new one is
opened (R153). -/
theorem Works.turnRecord_frame (hv : v = w.turnRecord e c r t) :
    v.at c = { w.at c with openRec := some (openRecord e c r t) } ∧ w.OthersKept c v ∧
      v = { w with ctx := v.ctx, store := v.store, notices := v.notices } ∧
      ((w.at c).openRec = none → v.store = w.store ∧ v.notices = w.notices) ∧
      ∀ o, (w.at c).openRec = some o →
        v.store =
          w.store.append { o with endAt := some t.takeLocal, status := some (confirmStatus r t (w.at c).cur o) } := by
  cases ho : (w.at c).openRec with
  | none =>
    obtain rfl : v = w.mod c fun y => { y with openRec := some (openRecord e c r t) } := by
      simp only [hv, Works.turnRecord, ho]
    exact ⟨Works.mod_at _ _ _, Works.OthersKept.rfl.mod _, rfl, fun _ => ⟨rfl, rfl⟩, nofun⟩
  | some o =>
    obtain ⟨k, hk⟩ : ∃ k, k = w.closeRecord e c t.takeLocal (confirmStatus r t (w.at c).cur o) := ⟨_, rfl⟩
    obtain rfl : v = k.mod c fun y => { y with openRec := some (openRecord e c r t) } := by
      simp only [hv, Works.turnRecord, ho, hk]
    have hothers : w.OthersKept c k := hk ▸ Works.OthersKept.rfl.closeRecord e _ _
    have hclosed := Works.closeRecord_some (e := e) (f := t.takeLocal) (st := confirmStatus r t (w.at c).cur o) ho
    obtain ⟨hat, -⟩ := w.closeRecord_frame e c t.takeLocal (confirmStatus r t (w.at c).cur o)
    rw [← hk] at hclosed hat
    refine ⟨?_, hothers.mod _, ?_, nofun, ?_⟩
    · rw [Works.mod_at, hat]
    · rw [hclosed]
      rfl
    · rintro _ ⟨⟩
      rw [Works.mod_store, hclosed]

/-! ## A take confirmed (R152) -/

/-- An end that is later than now + P is not at or before it (R125, R154). -/
theorem atOrLater_of_later {f ahead : Frame} (h : later f ahead = true) : atOrLater ahead f = false := by
  simp only [later, atOrLater, frameDiff, decide_eq_true_eq, decide_eq_false_iff_not, BitVec.toInt_eq_toNat_cond,
    BitVec.toNat_sub] at h ⊢
  have hf := f.isLt
  have ha := ahead.isLt
  omega

/-- No FOLLOW is due for an end that is open or later than now + P (R154). -/
theorem Works.followJudge_later
    (h : ∀ f, (w.at c).cur.bind CurEvent.endAt = some f → later f e.ahead = true) : w.followJudge e c = w := by
  have hdue : w.followDue e c = none := by
    unfold Works.followDue
    dsimp only
    split
    · rename_i f _ hf
      rw [atOrLater_of_later (h f hf)]
      rfl
    · rename_i f _ hf
      rw [atOrLater_of_later (h f hf)]
      rfl
    · rfl
  simp only [Works.followJudge, hdue]

/-- A port record whose TAKE is confirmed: it is on air under its tag, and pends no longer (R152). -/
def PortRec.confirmed (t : Take) (q : PortRec) : PortRec := { q with onAirTag := t.tag, pending := none }

/-- The context of a channel whose TAKE is confirmed on a port (R152, R153). -/
def Context.confirmed (e : Env) (c : Chan) (p : PortSel) (r : PortRec) (t : Take) (x : Context) : Context :=
  { x.modRec p (PortRec.confirmed t) with
    cur := t.currentAfter x.cur
    openRec := some (openRecord e c r t)
    state := if x.state = .cueing then .onAir else x.state
    dualSeen := if x.state = .cueing then false else x.dualSeen }

/-- What a confirmation does whose new end calls for no FOLLOW: the record turned, the channel on air with its event, and
TAKE_CONFIRMED (R152, R153). -/
theorem Works.confirm_frame (hv : v = w.confirm e c p r t)
    (hend : ∀ f, (t.currentAfter (w.at c).cur).bind CurEvent.endAt = some f → later f e.ahead = true) :
    v.at c = (w.at c).confirmed e c p r t ∧ w.OthersKept c v ∧
      v = { w with ctx := v.ctx, store := (w.turnRecord e c r t).store, notices := v.notices } ∧
      (w.turnRecord e c r t).OneNotice v .takeConfirmed (some c) t.outcome.event e.now := by
  obtain ⟨k, hk⟩ : ∃ k, k = w.turnRecord e c r t := ⟨_, rfl⟩
  obtain ⟨kat, kothers, kframe, -⟩ := Works.turnRecord_frame hk
  obtain ⟨u, hu⟩ : ∃ u, u = k.mod c fun x =>
    { x.modRec p fun q => { q with onAirTag := t.tag, pending := none } with cur := t.currentAfter x.cur } := ⟨_, rfl⟩
  obtain ⟨z, hz⟩ : ∃ z, z =
    if (u.at c).state = .cueing then (u.moveTo c .onAir).mod c fun x => { x with dualSeen := false } else u := ⟨_, rfl⟩
  have uat : u.at c = { (w.at c).modRec p (PortRec.confirmed t) with
      cur := t.currentAfter (w.at c).cur, openRec := some (openRecord e c r t) } := by
    rw [hu, Works.mod_at, kat]
    cases p <;> rfl
  have ustate : (u.at c).state = (w.at c).state := by
    rw [uat]
    cases p <;> rfl
  have zat : z.at c = (w.at c).confirmed e c p r t := by
    rw [hz, Context.confirmed, ustate]
    split
    · rename_i hs
      rw [Works.mod_at, Works.moveTo_at_within (by rw [ustate, hs]; rfl), uat]
    · rw [uat]
      cases p <;> rfl
  have zframe : k.OthersKept c z ∧ z = { k with ctx := z.ctx } := by
    rw [hz, hu]
    split
    · exact ⟨((Works.OthersKept.rfl.mod _).moveTo _).mod _, rfl⟩
    · exact ⟨Works.OthersKept.rfl.mod _, rfl⟩
  obtain ⟨zothers, zframe⟩ := zframe
  have hconfirm : v = z.notice e .takeConfirmed (some c) t.outcome.event := by
    have hjudged : v = (z.notice e .takeConfirmed (some c) t.outcome.event).followJudge e c := by
      rw [hv, hz, hu, hk]
      rfl
    rw [hjudged]
    refine Works.followJudge_later fun f hf => hend f ?_
    rw [Works.notice_at, zat] at hf
    exact hf
  rw [hconfirm, ← hk]
  refine ⟨zat, (kothers.trans zothers).notice e _ _ _, ?_, (z.notice_one e _ _ _).before (by rw [zframe])⟩
  rw [zframe, kframe]
  rfl

/-! ## A TAKE reported playing (R141, R152 to R155) -/

/-- A port record whose TAKE is reported playing: it is on air under its tag, and no TAKE pends or is withdrawn. -/
def PortRec.airs (t : Take) (q : PortRec) : PortRec :=
  { q with pending := none, withdrawn := none, onAirTag := t.tag, silent := 0 }

/-- The context of a channel whose TAKE is reported playing on a port (R152, R153). -/
def Context.aired (e : Env) (c : Chan) (p : PortSel) (r : PortRec) (t : Take) (x : Context) : Context :=
  { x.modRec p (PortRec.airs t) with
    cur := t.currentAfter x.cur
    openRec := some (openRecord e c r t)
    state := if x.state = .cueing then .onAir else x.state
    dualSeen := if x.state = .cueing then false else x.dualSeen }

/-- What a TAKE reported playing does to the blocks, its new end calling for no FOLLOW (R152, R153). -/
structure Works.Aired (e : Env) (c : Chan) (p : PortSel) (r : PortRec) (t : Take) (w v : Works) : Prop where
  context : v.at c = (w.at c).aired e c p r t
  others : w.OthersKept c v
  frame : v = { w with ctx := v.ctx, store := v.store, notices := v.notices }
  opens : (w.at c).openRec = none →
    v.store = w.store ∧ w.OneNotice v .takeConfirmed (some c) t.outcome.event e.now
  closes : ∀ o, (w.at c).openRec = some o →
    v.store = w.store.append { o with endAt := some t.takeLocal, status := some (confirmStatus r t (w.at c).cur o) }
  newest : v.Newest .takeConfirmed (some c) t.outcome.event e.now

theorem Context.modRec_congr {x : Context} {f g : PortRec → PortRec} (hr : x.portRec p = some r) (h : f r = g r) :
    x.modRec p f = x.modRec p g := by
  cases p
  · simp only [Context.modRec, show x.prim = some r from hr, Option.map_some, h]
  · simp only [Context.modRec, show x.alt = some r from hr, Option.map_some, h]

theorem Context.modRec_keeps (x : Context) (p : PortSel) (f : PortRec → PortRec) :
    (x.modRec p f).state = x.state ∧ (x.modRec p f).cur = x.cur ∧ (x.modRec p f).openRec = x.openRec ∧
      (x.modRec p f).dualSeen = x.dualSeen := by
  cases p <;> exact ⟨rfl, rfl, rfl, rfl⟩

/-- A confirmation of a TAKE, whether or not seen, after its port record alone has changed. -/
theorem Works.confirm_airs {g : PortRec → PortRec} {q : PortRec} {seen : Bool} (hr : (w.at c).portRec p = some r)
    (hq : q.server = r.server ∧ q.port = r.port) (hg : (g r).confirmed t = r.airs t)
    (hend : ∀ f, (t.currentAfter (w.at c).cur).bind CurEvent.endAt = some f → later f e.ahead = true)
    (hv : v = (w.mod c fun x => x.modRec p g).confirm e c p q { t with seen := seen }) : w.Aired e c p r t v := by
  obtain ⟨u, hu⟩ : ∃ u, u = w.mod c fun x => x.modRec p g := ⟨_, rfl⟩
  rw [← hu] at hv
  have uat : u.at c = (w.at c).modRec p g := by rw [hu, Works.mod_at]
  obtain ⟨gstate, gcur, gopen, gdual⟩ := (w.at c).modRec_keeps p g
  rw [← uat] at gstate gcur gopen gdual
  obtain ⟨vat, vothers, vframe, vone⟩ := Works.confirm_frame hv (by rw [gcur]; exact hend)
  obtain ⟨k, hk⟩ : ∃ k, k = u.turnRecord e c q { t with seen := seen } := ⟨_, rfl⟩
  obtain ⟨-, -, -, kopens, kcloses⟩ := Works.turnRecord_frame hk
  rw [gopen, gcur] at kcloses
  rw [gopen] at kopens
  rw [← hk] at vframe vone
  have hrecord : openRecord e c q { t with seen := seen } = openRecord e c r t := by
    simp only [openRecord, hq.1, hq.2]
  have hstatus (o : AsRunRec) : confirmStatus q { t with seen := seen } (w.at c).cur o =
      confirmStatus r t (w.at c).cur o := by
    simp only [confirmStatus, hq.1, hq.2]
  have vstore : v.store = k.store := by rw [vframe]
  constructor
  case context =>
    rw [vat, Context.confirmed, hrecord, gcur, gstate, gdual, uat, Context.modRec_modRec,
      Context.modRec_congr (g := PortRec.airs t) hr hg]
    cases p <;> rfl
  case others => exact (hu ▸ Works.OthersKept.rfl.mod _ : w.OthersKept c u).trans vothers
  case frame =>
    rw [vframe, hu]
    rfl
  case opens =>
    intro ho
    obtain ⟨kstore, knotices⟩ := kopens ho
    exact ⟨vstore.trans (kstore.trans (by rw [hu]; rfl)), vone.before (knotices.trans (by rw [hu]; rfl))⟩
  case closes =>
    intro o ho
    rw [vstore, kcloses o ho, hstatus, hu]
    rfl
  case newest => exact vone.newest

/-- An entry that reports a pending TAKE playing, or a withdrawn one while the event is held, confirms it (R141, R155). -/
theorem Works.portEntry_airs {sender : Nat} {m : PortEntry} (hr : (w.at c).portRec p = some r)
    (hserver : r.server = sender) (hport : r.port = m.port) (hs : m.state = .playing) (htag : m.playingTag = t.tag)
    (htake : (r.pending = some t ∧ r.withdrawn = none) ∨
      (r.pending = none ∧ r.withdrawn = some t ∧ (w.at c).isHeld = true))
    (hend : ∀ f, (t.currentAfter (w.at c).cur).bind CurEvent.endAt = some f → later f e.ahead = true)
    (hv : v = w.portEntry e sender m c p) : w.Aired e c p r t v := by
  have hfault : m.state ≠ .fault := by rw [hs]; nofun
  have hreported := Works.reported_portRec (m := m) hr
  rw [Works.portEntry_named hr hserver hport] at hv
  rcases htake with ⟨hp, hw⟩ | ⟨hp, hw, hheld⟩
  · have hseen : (r.report m).pending = some { t with seen := true } := by
      simp [PortRec.report, hp, PortEntry.carries, htag]
    obtain ⟨k, hk⟩ : ∃ k, k = (w.reported c p m).confirm e c p (r.report m) { t with seen := true } := ⟨_, rfl⟩
    have hplaying : (w.reported c p m).confirmPlaying e c p m = k := by
      simp only [Works.confirmPlaying, hreported, hseen, hs, htag, and_self, if_true, hk]
    have haired : w.Aired e c p r t k := by
      refine Works.confirm_airs (g := PortRec.report m) hr ⟨rfl, rfl⟩ ?_ hend hk
      simp only [PortRec.confirmed, PortRec.airs, PortRec.report, hw]
    have hrec : (k.at c).portRec p = some (r.airs t) := by
      rw [haired.context]
      have := Context.modRec_portRec (x := w.at c) (p := p) (PortRec.airs t)
      rw [hr] at this
      cases p <;> exact this
    rw [hplaying, Works.overtakeHold_none hrec (.inl rfl),
      Works.faultReported_none fun q _ => PortEntry.isFault_not hfault q] at hv
    exact hv ▸ haired
  · obtain ⟨k, hk⟩ : ∃ k, k = (w.mod c fun x => x.modRec p fun q => { q.report m with withdrawn := none }).confirm e c p
      (r.report m) { t with seen := t.seen } := ⟨_, rfl⟩
    have hidle : (r.report m).pending = none := by simp only [PortRec.report, hp, Option.map_none]
    have hwithdrawn : (r.report m).withdrawn = some t := hw
    have hstill : ((w.reported c p m).at c).isHeld = true := by
      rw [Works.reported, Works.mod_at, Context.isHeld, ((w.at c).modRec_keeps p _).2.1]
      exact hheld
    have hforgotten : ((w.reported c p m).mod c fun y => y.modRec p fun q => { q with withdrawn := none }) =
        w.mod c fun x => x.modRec p fun q => { q.report m with withdrawn := none } := by
      simp only [Works.reported, Works.mod_mod, Context.modRec_modRec]
    have hovertaken : (w.reported c p m).overtakeHold e c p m = k := by
      simp only [Works.overtakeHold, hreported, hwithdrawn, hs, htag, hstill, and_self, if_true, hforgotten, hk]
    have haired : w.Aired e c p r t k := by
      refine Works.confirm_airs (g := fun q => { q.report m with withdrawn := none }) hr ⟨rfl, rfl⟩ ?_ hend hk
      simp only [PortRec.confirmed, PortRec.airs, PortRec.report]
    rw [Works.confirmPlaying_none hreported (.inl hidle), hovertaken,
      Works.faultReported_none fun q _ => PortEntry.isFault_not hfault q] at hv
    exact hv ▸ haired

theorem Works.Aired.portsStand (h : w.Aired e c p r t v) : w.OtherPortsStand c p v := by
  refine Works.portsStand_of_kept h.others fun q y hq hy => ⟨y, ?_, rfl, rfl⟩
  rw [h.context] at hy
  rw [← Context.modRec_portRec_other (PortRec.airs t) hq, ← hy]
  cases q <;> rfl

end

/-- A PORT STATUS of one entry that names one port is what the entry does to that port (R141). -/
theorem State.Accepts.portStatus_alone {s s1 : State} {l : Lane} {m : RxMsg} {p : Peer} (h : s.Accepts l m p)
    (hs1 : s1 = s.heard l p m) (hk : m.kind = .portStatus) {y : PortEntry} (hread : readPortStatus m.payload = some [y])
    {c : Chan} {side : PortSel} {r : PortRec} (hr : (s1.works.at c).portRec side = some r)
    (hserver : r.server = m.sender.toNat)
    (honly : ∀ d q z, (s1.works.at d).portRec q = some z → z.server = m.sender.toNat → z.port = y.port →
      d = c ∧ q = side)
    {v : Works} (hv : s1.works.portEntry s1.env m.sender.toNat y c side = v)
    (hstand : s1.works.OtherPortsStand c side v) : exec (.receivePortStatus l) s = .next { s1 with works := v } := by
  rw [h.receivePortStatus hk, ← hs1, State.routePortStatus_of_read hread]
  exact congrArg (fun w => Host.Outcome.next { s1 with works := w })
    (Works.takePortStatus_alone hr hserver honly hv hstand)

/-- Settles O29: the entry meets one port, whose TAKE it confirms; a station that no port names is counted. -/
theorem playingReportConfirmsTake : Obligations.PlayingReportConfirmsTake := by
  rintro s s1 l m p ha hs1 hk
  have hcfg : s1.cfg = s.cfg := by rw [hs1, State.heard_cfg]
  refine ⟨fun es hread hforeign => ?_, ?_⟩
  · rw [ha.receivePortStatus hk, ← hs1, State.routePortStatus_of_read hread]
    exact congrArg (fun w => Host.Outcome.next { s1 with works := w })
      (Works.takePortStatus_foreign (fun d q hq => hforeign d q hq) es)
  · rintro y c x r t hread rfl hstate hopen hprim hactive hserver hport hpending hwithdrawn hsource hplaying htag hothers
      hend
    have honly : ∀ d q z, (s1.works.at d).portRec q = some z → z.server = m.sender.toNat → z.port = y.port →
        d = c ∧ q = .primary := by
      intro d q z hz hzs hzp
      cases q with
      | primary => exact ⟨by_contra fun hd => hothers d z (.inl ⟨hz, hd⟩) ⟨hzs, hzp⟩, rfl⟩
      | alternate => exact absurd ⟨hzs, hzp⟩ (hothers d z (.inr hz))
    have hcur : t.currentAfter (s1.works.at c).cur = (s1.works.at c).cur := by simp only [Take.currentAfter, hsource]
    have haired := Works.portEntry_airs (e := s1.env) (p := .primary) hprim hserver hport hplaying htag
      (.inl ⟨hpending, hwithdrawn⟩) (by
        rw [hcur]
        intro f hf
        obtain ⟨ev, hev, hevf⟩ := Option.bind_eq_some_iff.mp hf
        rw [Env.ahead, State.env_cfg, hcfg]
        exact hend ev f hev hevf) rfl
    have hexec := ha.portStatus_alone hs1 hk hread (side := .primary) hprim hserver honly rfl haired.portsStand
    obtain ⟨hat, hkept, hframe, hopens, -, -⟩ := haired
    obtain ⟨hstore, hone⟩ := hopens hopen
    refine ⟨_, hexec, ⟨rfl, rfl, rfl, rfl, rfl, rfl, rfl, rfl, rfl, rfl⟩, rfl, hkept, ?_, ?_, hone⟩
    · rw [hframe]
      exact ⟨rfl, rfl, hstore, rfl, rfl, rfl, rfl, rfl⟩
    · rw [hat, Context.aired, hcur, hstate, ← hcfg]
      simp only [Context.modRec, hprim, Option.map_some, PortRec.airs, if_true, hwithdrawn]
      rfl

end Sys2Proof.Machine
end

