-- ==== Sys2Proof/Proofs/PortReports.lean ====
section
/-! SUPPORT. R141, R147 to R150, R153: the status of a record that a take turns, and what a FAULT report of the active port
does with an alternate and without. -/

namespace Sys2Proof.Machine

/-! ## The event and the record after a take (R152, R153) -/

theorem Take.currentAfter_eq (t : Take) (ev : CurEvent) :
    t.currentAfter (some ev) =
      some (if t.source = .takeover ∨ t.source = .rejoin then ev else { t.outcome with held := false }) := by
  cases h : t.source <;> simp [Take.currentAfter, h]

/-- The status of a record on the port that takes over, by the natural end of its event (R153). -/
theorem confirmStatus_same {o : AsRunRec} {r : PortRec} (h : o.server = r.server ∧ o.port = r.port) (t : Take)
    (ev : CurEvent) : confirmStatus r t (some ev) o = closingStatus t.takeLocal ev.natEnd := if_pos h

/-- The status of a record on another port (R153). -/
theorem confirmStatus_other {o : AsRunRec} {r : PortRec} (h : ¬(o.server = r.server ∧ o.port = r.port)) (t : Take)
    (cur : Option CurEvent) : confirmStatus r t cur o = .faulted := if_neg h

/-! ## A FAULT report (R147) -/

section
variable {w v : Works} {e : Env} {c : Chan} {p : PortSel} {sender : Nat} {m : PortEntry} {r : PortRec}

/-- A FAULT entry is the port's when it carries the pending tag, the on-air tag or no tag (R147). -/
theorem PortEntry.isFault_iff (h : m.state = .fault) :
    m.isFault r = true ↔
      (∃ u, r.pending = some u ∧ (m.armedTag = u.tag ∨ m.playingTag = u.tag)) ∨
        (r.onAirTag ≠ 0 ∧ (m.armedTag = r.onAirTag ∨ m.playingTag = r.onAirTag)) ∨
        (m.armedTag = 0 ∧ m.playingTag = 0) := by
  simp [PortEntry.isFault, PortEntry.carries, h, Option.any_eq_true, or_assoc]

/-- Hearing a port changes no tag (R141). -/
theorem PortEntry.isFault_report (m : PortEntry) (r : PortRec) : m.isFault (r.report m) = m.isFault r := by
  have htags : (r.report m).pending.any (fun t => m.carries t.tag) = r.pending.any fun t => m.carries t.tag := by
    cases h : r.pending with
    | none => simp only [PortRec.report, h, Option.map_none]
    | some t =>
      simp only [PortRec.report, h, Option.map_some, Option.any_some]
      split <;> rfl
  simp only [PortEntry.isFault, htags]
  rfl

theorem endingCues_report (est : Option Int) (r : PortRec) (f : Frame) :
    endingCues est (r.report m) f = endingCues est r f := by
  cases h : r.pending with
  | none => simp only [endingCues, PortRec.report, h]; rfl
  | some t =>
    simp only [endingCues, PortRec.report, h, Option.map_some, Option.toList_some, List.map_cons, cancelCue]
    split <;> rfl

/-- An entry that carries no pending TAKE's tag only clears the silent count (R141). -/
theorem PortRec.report_silent (h : ∀ u, r.pending = some u → m.carries u.tag = false) :
    r.report m = { r with silent := 0 } := by
  cases hp : r.pending with
  | none => simp only [PortRec.report, hp, Option.map_none]
  | some u => simp only [PortRec.report, hp, Option.map_some, h u hp, Bool.false_eq_true, if_false]

theorem Works.reported_at : (w.reported c p m).at c = (w.at c).modRec p (PortRec.report m) := Works.mod_at _ _ _

/-- A FAULT entry confirms nothing (R141). -/
theorem Works.portEntry_fault (hr : (w.at c).portRec p = some r) (hserver : r.server = sender) (hport : r.port = m.port)
    (hs : m.state = .fault) : w.portEntry e sender m c p = (w.reported c p m).faultReported e c p m := by
  have hplaying : m.state ≠ .playing := by rw [hs]; nofun
  have hreported := Works.reported_portRec (m := m) hr
  rw [Works.portEntry_named hr hserver hport, Works.confirmPlaying_none hreported (.inr hplaying),
    Works.overtakeHold_none hreported (.inr hplaying)]

/-- A FAULT entry of the active port on air is a port fault (R147). -/
theorem Works.faultReported_faults (hr : (w.at c).portRec p = some r) (hp : p = (w.at c).active)
    (hair : (w.at c).state.air = true) (hf : m.isFault r = true) :
    w.faultReported e c p m = w.portFault e c .serverFault := by
  simp only [Works.faultReported, hr, ← hp, hair, hf, and_self, if_true]

/-! ## The ports that a fault leaves (R149, R150) -/

/-- The closing cues leave the records of other ports than the active one (R157). -/
theorem Works.closingCues_portRec (h : p ≠ (w.at c).active) (f : Frame) :
    ((w.closingCues e c f).at c).portRec p = (w.at c).portRec p := by
  have hcancel : ((w.cancelPending e c).at c).portRec p = (w.at c).portRec p := by
    unfold Works.cancelPending
    split
    · rfl
    · split
      · rfl
      · rw [Works.mod_at, Works.placeCue_contexts, Context.modRec_portRec_other _ h]
  unfold Works.closingCues
  dsimp only
  split
  · exact hcancel
  · rw [Works.placeCue_contexts, hcancel]

/-- A channel that a port fault takes to FAULT leaves the server and port of its other record (R150). -/
theorem Works.channelFault_portRec (hs : (w.at c).state.claiming = true) (h : p ≠ (w.at c).active) {k : PortFault}
    {y : PortRec} (hy : ((w.channelFault e c k).at c).portRec p = some y) :
    ∃ z, (w.at c).portRec p = some z ∧ z.server = y.server ∧ z.port = y.port := by
  obtain ⟨u, hu⟩ : ∃ u, u = w.notice e .channelFault (some c) (paramBytes k.code (portCode (w.at c).active) 0 0) :=
    ⟨_, rfl⟩
  have uat : u.at c = w.at c := by rw [hu, Works.notice_at]
  obtain ⟨-, lat⟩ := Works.leaving_frame (w := u) (e := e) (st := .fault) (by rw [uat]; exact hs) rfl
  obtain ⟨z, hz⟩ : ∃ z, z = (u.leaving e c .fault).stopNow e c .faulted := ⟨_, rfl⟩
  have zat : (z.at c).portRec p = (w.at c).portRec p := by
    have hactive : p ≠ ((u.leaving e c .fault).at c).active := by rw [lat, uat]; exact h
    rw [hz, Works.stopNow, (Works.closeRecord_frame _ e c _ _).1]
    have hclosed := Works.closingCues_portRec (e := e) hactive (e.now + 1)
    rw [lat, uat] at hclosed
    cases p <;> exact hclosed
  have zstate : (z.at c).state ≠ .lost := by
    rw [(Works.stopNow_frame hz).1, lat]
    nofun
  obtain ⟨-, vat⟩ := Works.leaveAir_frame (closing := fun x => x.stopNow e c .faulted) hz rfl zstate
  have hv : w.channelFault e c k = u.leaveAir e c .fault fun x => x.stopNow e c .faulted := by rw [hu]; rfl
  rw [hv, vat] at hy
  have hcleared : ((w.at c).portRec p).map PortRec.cleared = some y := by
    rw [← zat]
    cases p <;> exact hy
  obtain ⟨q, hq, rfl⟩ := Option.map_eq_some_iff.mp hcleared
  exact ⟨q, hq, rfl, rfl⟩

/-! ## What the FAULT report of a port does -/

/-- A FAULT entry that is not the port's only clears the silent count (R141, R147). -/
theorem Works.portEntry_stray (hr : (w.at c).portRec p = some r) (hserver : r.server = sender) (hport : r.port = m.port)
    (hs : m.state = .fault) (hf : m.isFault r = false) :
    w.portEntry e sender m c p = w.mod c fun x => x.modRec p fun q => { q with silent := 0 } := by
  have hnone : ∀ q, ((w.reported c p m).at c).portRec p = some q → m.isFault q = false := by
    rw [Works.reported_portRec hr]
    rintro _ ⟨⟩
    rw [PortEntry.isFault_report]
    exact hf
  have hcarries : ∀ u, r.pending = some u → m.carries u.tag = false := fun u hu =>
    Bool.eq_false_iff.mpr fun h => by simp [PortEntry.isFault, hs, hu, h] at hf
  rw [Works.portEntry_fault hr hserver hport hs, Works.faultReported_none hnone]
  exact Works.mod_congr (Context.modRec_congr hr (PortRec.report_silent hcarries))

/-- A FAULT entry that is the active port's is a port fault (R147). -/
theorem Works.portEntry_faults (hr : (w.at c).portRec p = some r) (hserver : r.server = sender) (hport : r.port = m.port)
    (hs : m.state = .fault) (hp : p = (w.at c).active) (hair : (w.at c).state.air = true) (hf : m.isFault r = true) :
    w.portEntry e sender m c p = (w.reported c p m).portFault e c .serverFault := by
  rw [Works.portEntry_fault hr hserver hport hs]
  refine Works.faultReported_faults (Works.reported_portRec hr) ?_ ?_ (by rw [PortEntry.isFault_report]; exact hf)
  · rw [Works.reported_at, Context.modRec_frame]
    exact hp
  · rw [Works.reported_at, Context.modRec_frame]
    exact hair

/-- What changes the blocks after a port is heard, and leaves the other ports of its channel, leaves all other ports. -/
theorem Works.portsStand_reported (hk : (w.reported c p m).OthersKept c v)
    (h : ∀ q y, q ≠ p → (v.at c).portRec q = some y →
      ∃ z, ((w.reported c p m).at c).portRec q = some z ∧ z.server = y.server ∧ z.port = y.port) :
    w.OtherPortsStand c p v := by
  have hothers : w.OthersKept c (w.reported c p m) := Works.OthersKept.rfl.mod _
  refine Works.portsStand_of_kept (hothers.trans hk) fun q y hq hy => ?_
  obtain ⟨z, hz, hnames⟩ := h q y hq hy
  rw [Works.reported_at, Context.modRec_portRec_other _ hq] at hz
  exact ⟨z, hz, hnames⟩

theorem Works.sends_reported (cues : List Cue) : (w.reported c p m).sends e cues = w.sends e cues :=
  Works.sends_congr (w := w.reported c p m) (v := w) rfl e cues

theorem Works.sends_notice (k : NoticeKind) (d : Option Chan) (n : BitVec 32) (cues : List Cue) :
    (w.notice e k d n).sends e cues = w.sends e cues :=
  Works.sends_congr (w := w.notice e k d n) (v := w) rfl e cues

/-- A stop at now + 1 is the same whether or not the active port has been heard first (R141, R150). -/
theorem Works.StoppedNow.unheard {st : ChState} {status : AsRunStatus}
    (h : (w.reported c (w.at c).active m).StoppedNow e c st status v) : w.StoppedNow e c st status v := by
  obtain ⟨hjoin, hst, hoff, hgen, hactive, hdual, hclosed, hstore, htx, hnotices⟩ := h
  have hrec (q : PortRec) (hq : (w.at c).activeRec = some q) :
      ((w.reported c (w.at c).active m).at c).activeRec = some (q.report m) := by
    have hheard := Works.reported_portRec (m := m) hq
    rw [Works.reported_at] at hheard ⊢
    rw [Context.activeRec, Context.modRec_frame]
    exact hheard
  rw [Works.reported_at, Context.modRec_frame] at hgen hactive hdual hclosed hstore hnotices
  exact
    { join := hjoin, state := hst, offAir := hoff, gen := hgen, active := hactive, dualSeen := hdual
      closed := hclosed, store := hstore, notices := hnotices
      tx := fun q hq => by
        rw [htx _ (hrec q hq), endingCues_report, Works.sends_reported]
        rfl }

/-- What the FAULT report of the active port does that has no alternate to go to (R150). -/
theorem Works.heard_channelFault {k : PortFault} (hs : (w.at c).state = .cueing ∨ (w.at c).state = .onAir)
    (hp : (w.at c).active = .alternate ∨ (w.at c).alt = none)
    (hv : v = (w.reported c (w.at c).active m).portFault e c k) :
    w.OthersKept c v ∧ w.OtherPortsStand c (w.at c).active v ∧
      (w.notice e .channelFault (some c) (paramBytes k.code (portCode (w.at c).active) 0 0)).StoppedNow e c .fault .faulted
        v := by
  obtain ⟨z, hz⟩ : ∃ z, z = w.reported c (w.at c).active m := ⟨_, rfl⟩
  have hat : z.at c = (w.at c).modRec (w.at c).active (PortRec.report m) := by rw [hz, Works.reported_at]
  have hstate : (z.at c).state = (w.at c).state := by rw [hat, Context.modRec_frame]
  have hactive : (z.at c).active = (w.at c).active := by rw [hat, Context.modRec_frame]
  have hclaiming : (z.at c).state.claiming = true := by rw [hstate]; rcases hs with h | h <;> rw [h] <;> rfl
  have hport : (z.at c).active = .alternate ∨ (z.at c).alt = none := by
    rw [hactive]
    refine hp.imp_right fun h => ?_
    rw [hat]
    cases (w.at c).active <;> simp [Context.modRec, h]
  rw [← hz, Works.portFault_channel (by rw [hstate]; rcases hs with h | h <;> rw [h] <;> nofun) hport] at hv
  have hstopped := Works.channelFault_stopped (by rw [hstate]; exact hs.imp_right .inl) hv
  have hkept : z.OthersKept c v := hv ▸ Works.OthersKept.rfl.channelFault e k
  have hothers : w.OthersKept c z := hz ▸ Works.OthersKept.rfl.mod _
  refine ⟨hothers.trans hkept, Works.portsStand_reported (hz ▸ hkept) fun q y hq hy => ?_, ?_⟩
  · rw [← hz]
    exact Works.channelFault_portRec hclaiming (hactive ▸ hq) (hv ▸ hy)
  · rw [hactive, hz] at hstopped
    exact Works.StoppedNow.unheard (w := w.notice e _ _ _) hstopped

/-- What the FAULT report of the primary port does that has an alternate to go to, with no RESUME or SKIP outstanding
(R149). -/
theorem Works.heard_portSwitch {k : PortFault} {q : PortRec} {ev : CurEvent} (hs : (w.at c).state ≠ .returning)
    (ha : (w.at c).active = .primary) (hr : (w.at c).prim = some r) (hq : (w.at c).alt = some q)
    (hcur : (w.at c).cur = some ev) (hwait : (w.at c).waitReq = none) (hqueue : ∀ j ∈ w.join.queue, j.chan ≠ c)
    (hflight : ∀ f, w.join.flight = some f → f.req.chan ≠ c) (hback : ∀ a b, (w.at c).handback ≠ .requested a b)
    (hroom : w.tx.urgent.length + w.tx.flying .urgent < 16) (hv : v = (w.reported c .primary m).portFault e c k) :
    w.OthersKept c v ∧ w.OtherPortsStand c .primary v ∧ v.store = w.store ∧
      v.tx = w.sends e [stopCue (e.estimate r.server) r e.ahead] ∧
      v.at c = { w.at c with
        active := .alternate, gen := (w.at c).gen + 1
        prim := some { r with pending := none, onAirTag := 0, withdrawn := none, silent := 0 } } ∧
      v.Requested c .rejoin e.ahead none ((w.at c).gen + 1) ∧
      w.OneNotice v .portSwitch (some c) (BitVec.ofNat 32 k.code) e.now := by
  obtain ⟨z, hz⟩ : ∃ z, z = w.reported c .primary m := ⟨_, rfl⟩
  have hat : z.at c = { w.at c with prim := some (r.report m) } := by
    rw [hz, Works.reported_at, Context.modRec, hr, Option.map_some]
  have hprim : (z.at c).prim = some (r.report m) := by rw [hat]
  have hstays : z.abortIfReturning e 5 c = z := if_neg (by rw [hat]; exact hs)
  have hswitch : v = z.portSwitch e c k := by
    rw [hv, ← hz, Works.portFault_switches (.inl ⟨by rw [hat]; exact hs, rfl, rfl⟩) (by rw [hat]; exact ha)
      (by rw [hat]; exact hq), hstays]
  obtain ⟨hkept, htx, hstore⟩ := Works.portSwitch_keeps (e := e) (cause := k) hprim
  have hpart := Works.portSwitch_alternatePart (e := e) (cause := k) hprim
  rw [← hswitch] at hkept htx hstore hpart
  obtain ⟨vat, vnotices, vreq⟩ := Works.switched_places (e := e) (cause := k) hprim (by rw [hat]; exact hback)
    (hswitch.trans (Works.portSwitch_rejoins hprim (by rw [hat]; exact hcur) (by rw [hat]; exact hwait)
      (by rw [hz]; exact hqueue) (by rw [hz]; exact hflight)))
  have hone := (Works.switched_one (e := e) (c := c) (cause := k) (r := r.report m) (w := z)
    (by rw [hz]; exact hroom)).after vnotices
  have hothers : w.OthersKept c z := hz ▸ Works.OthersKept.rfl.mod _
  refine ⟨hothers.trans hkept, ?_, hstore.trans (by rw [hz]; rfl), ?_, ?_, ?_, hone.before (by rw [hz]; rfl)⟩
  · refine Works.portsStand_reported (hz ▸ hkept) fun p y hp hy => ⟨y, ?_, rfl, rfl⟩
    cases p with
    | primary => exact absurd rfl hp
    | alternate =>
      rw [← hz]
      exact (congrArg Prod.snd hpart).symm.trans hy
  · rw [htx, Works.switched_tx, hz, Works.sends_reported]
    rfl
  · rw [vat, hat]
    rfl
  · rw [hat] at vreq
    exact vreq

end

/-- Settles O30: a PLAYING entry by the take that it confirms, a FAULT entry by whose tag it carries and by the ports that
the channel has. -/
theorem portReportsTurnTheRecord : Obligations.PortReportsTurnTheRecord := by
  rintro s s1 l m p y c x r ahead ha hs1 hk hread rfl hr hserver hport honly rfl
  have hcfg : s1.cfg = s.cfg := by rw [hs1, State.heard_cfg]
  have halone {v : Works} (hv : s1.works.portEntry s1.env m.sender.toNat y c (s1.works.at c).active = v)
      (hstand : s1.works.OtherPortsStand c (s1.works.at c).active v) :
      exec (.receivePortStatus l) s = .next { s1 with works := v } :=
    ha.portStatus_alone hs1 hk hread hr hserver honly hv hstand
  refine ⟨?_, ?_⟩
  · rintro u o ev new status hstate hopen hcur htake hplaying htag rfl hend hsame hother
    have hafter : u.currentAfter (s1.works.at c).cur =
        some (if u.source = .takeover ∨ u.source = .rejoin then ev else { u.outcome with held := false }) := by
      rw [hcur, Take.currentAfter_eq]
    have haired := Works.portEntry_airs (e := s1.env) hr hserver hport hplaying htag
      (htake.imp_right fun ⟨hp, hw, hheld, _⟩ => ⟨hp, hw, (Context.isHeld_of hcur).trans hheld⟩) (by
        rw [hafter, Option.bind_some, Env.ahead, State.env_cfg, hcfg]
        exact hend) rfl
    have hexec := halone rfl haired.portsStand
    obtain ⟨hat, hkept, hframe, -, hcloses, hnewest⟩ := haired
    have hstatus : confirmStatus r u (s1.works.at c).cur o = status := by
      rw [hcur]
      by_cases h : o.server = r.server ∧ o.port = r.port
      · rw [confirmStatus_same h, closingStatus_eq]
        exact (hsame h.1 h.2).symm
      · rw [confirmStatus_other h]
        exact (hother (not_and_or.mp h)).2.symm
    refine ⟨_, hexec, rfl, hkept, ?_, ?_, hnewest⟩
    · have hstore := hcloses o hopen
      rw [hstatus] at hstore
      rw [← hstore]
      exact hframe
    · have hcueing : (s1.works.at c).state ≠ .cueing := by rcases hstate with h | h <;> rw [h] <;> nofun
      rw [hat, Context.aired, hafter, if_neg hcueing, if_neg hcueing, ← hcfg]
      cases (s1.works.at c).active <;> rfl
  · rintro Ours hfault hstate hours
    have hair : (s1.works.at c).state.air = true := by rcases hstate with h | h <;> rw [h] <;> rfl
    have hours : y.isFault r = true ↔ Ours := (PortEntry.isFault_iff hfault).trans hours.symm
    obtain ⟨w, hw⟩ : ∃ w, w = s1.works.reported c (s1.works.at c).active y := ⟨_, rfl⟩
    have hfaults (ho : Ours) : s1.works.portEntry s1.env m.sender.toNat y c (s1.works.at c).active =
        w.portFault s1.env c .serverFault :=
      hw ▸ Works.portEntry_faults hr hserver hport hfault rfl hair (hours.mpr ho)
    refine ⟨fun hn => ?_, fun ho hports => ?_, ?_⟩
    · refine halone (Works.portEntry_stray hr hserver hport hfault (Bool.eq_false_iff.mpr fun h => hn (hours.mp h))) ?_
      refine Works.portsStand_of_kept (Works.OthersKept.rfl.mod _) fun q z hq hz => ⟨z, ?_, rfl, rfl⟩
      rw [Works.mod_at, Context.modRec_portRec_other _ hq] at hz
      exact hz
    · obtain ⟨v, hv⟩ : ∃ v, v = w.portFault s1.env c .serverFault := ⟨_, rfl⟩
      obtain ⟨hkept, hstand, hstopped⟩ := Works.heard_channelFault hstate hports (hw ▸ hv)
      obtain ⟨vjoin, vst, voff, vgen, -, -, vclosed, vstore, vtx, vnotices⟩ := hstopped
      refine ⟨_, halone ((hfaults ho).trans hv.symm) hstand, rfl, hkept, vjoin, vst, ?_, vgen, ?_, vstore, vclosed, ?_⟩
      · rw [← hcfg]
        exact voff
      · have hsent := vtx r hr
        rw [Works.sends_notice] at hsent
        exact hsent
      · intro hopen hback hother hurgent
        exact (s1.works.notice_one s1.env .channelFault _ _).after (vnotices hopen hback hother hurgent)
    · intro q ev ho hactive halt hcur hwait hqueue hflight hback hroom
      obtain ⟨v, hv⟩ : ∃ v, v = w.portFault s1.env c .serverFault := ⟨_, rfl⟩
      have hprim : (s1.works.at c).prim = some r := by rw [hactive] at hr; exact hr
      have hreturning : (s1.works.at c).state ≠ .returning := by rcases hstate with h | h <;> rw [h] <;> nofun
      rw [hactive] at hw
      obtain ⟨hkept, hstand, vstore, vtx, vat, vreq, vone⟩ :=
        Works.heard_portSwitch hreturning hactive hprim halt hcur hwait hqueue hflight hback hroom (hw ▸ hv)
      rw [← hcfg]
      exact ⟨_, halone ((hfaults ho).trans hv.symm) (hactive ▸ hstand), rfl, hkept, vstore, vtx, vat, vreq, vone⟩

end Sys2Proof.Machine
end

/-! SUPPORT. R160, R161: what n records leave in the as-run ring, its write position and its closing number, and the
notices of the half and of the wrap. -/

namespace Sys2Proof.Machine

/-! ## The ring (R160) -/

/-- What n records leave of an as-run store that was empty: the write position goes round, the ring fills up and then
discards its oldest record, and the closing number counts on (R160). -/
def AsRunStore.Counts (n : Nat) (s : AsRunStore) : Prop :=
  s.writePos = n % 512 ∧ s.ring.length = min n 512 ∧ s.closing = BitVec.ofNat 16 n

theorem AsRunStore.append_ring_length (r : AsRunRec) {s : AsRunStore} (h : s.ring.length ≤ 512) :
    (s.append r).ring.length = min (s.ring.length + 1) 512 := by
  by_cases hfull : 512 ≤ s.ring.length
  · simp only [AsRunStore.append, hfull, decide_true, if_true, List.length_append, List.length_drop,
      List.length_singleton]
    omega
  · simp only [AsRunStore.append, hfull, decide_false, Bool.false_eq_true, if_false, List.length_append,
      List.length_singleton]
    omega

theorem AsRunStore.append_newest (r : AsRunRec) (s : AsRunStore) :
    (s.append r).ring.getLast? = some { r with closing := some s.closing } :=
  List.getLast?_concat

theorem AsRunStore.Counts.append {n : Nat} {s : AsRunStore} (h : s.Counts n) (r : AsRunRec) :
    (s.append r).Counts (n + 1) := by
  obtain ⟨hpos, hring, hclosing⟩ := h
  have hnext : (s.append r).writePos = (s.writePos + 1) % 512 := rfl
  have hnumber : (s.append r).closing = s.closing + 1 := rfl
  refine ⟨?_, ?_, ?_⟩
  · rw [hnext, hpos, Nat.mod_add_mod]
  · rw [AsRunStore.append_ring_length r (by omega), hring]
    omega
  · rw [hnumber, hclosing, BitVec.ofNat_add]
    rfl

theorem AsRunStore.Counts.foldl {n : Nat} {s : AsRunStore} (h : s.Counts n) (rs : List AsRunRec) :
    (rs.foldl (fun st r => AsRunStore.append r st) s).Counts (n + rs.length) := by
  induction rs generalizing n s with
  | nil => exact h
  | cons r rs ih =>
    rw [List.foldl_cons, List.length_cons, Nat.add_comm rs.length 1, ← Nat.add_assoc]
    exact ih (h.append r)

/-! ## The notices of the half and of the wrap (R161) -/

section
variable {w : Works} (e : Env) (r : AsRunRec)

theorem Works.appendRecord_half (h : w.store.writePos = 255) :
    w.appendRecord e r =
      Works.notice e .asrunHalf none (w.store.closing.setWidth 32) { w with store := w.store.append r } := by
  have hpos : (w.store.append r).writePos = 256 := by simp only [AsRunStore.append, h]
  simp only [Works.appendRecord, hpos, if_true]

theorem Works.appendRecord_wrap (h : w.store.writePos = 511) :
    w.appendRecord e r =
      Works.notice e .asrunWrap none (w.store.closing.setWidth 32) { w with store := w.store.append r } := by
  have hpos : (w.store.append r).writePos = 0 := by simp only [AsRunStore.append, h]
  have hhalf : ¬(0 = 256) := by decide
  simp only [Works.appendRecord, hpos, hhalf, if_false, if_true]

/-- A write position within the ring reaches 256 and 0 from 255 and 511 only. -/
theorem Works.appendRecord_quiet (hpos : w.store.writePos < 512) (hhalf : w.store.writePos ≠ 255)
    (hwrap : w.store.writePos ≠ 511) : w.appendRecord e r = { w with store := w.store.append r } := by
  have hnext : (w.store.append r).writePos = (w.store.writePos + 1) % 512 := rfl
  have hhalf' : (w.store.append r).writePos ≠ 256 := by omega
  have hwrap' : (w.store.append r).writePos ≠ 0 := by omega
  simp only [Works.appendRecord, hhalf', hwrap', if_false]

end

/-- Settles O41: the counts by induction on the records, the notices by the write position that an append finds. -/
theorem asRunRingIsNoticed : Obligations.AsRunRingIsNoticed := by
  refine ⟨fun rs => ?_, fun e w r hpos _ => ⟨?_, fun h => ?_, fun h => ?_, fun hhalf hwrap => ?_⟩⟩
  · have hempty : Works.reset.store.Counts 0 := ⟨rfl, rfl, rfl⟩
    have hcounts := hempty.foldl rs
    rw [Nat.zero_add] at hcounts
    exact hcounts
  · rw [Works.appendRecord_frame]
    exact AsRunStore.append_newest r w.store
  · rw [Works.appendRecord_half e r h]
    exact (Works.notice_one _ _ _ _ _).before rfl
  · rw [Works.appendRecord_wrap e r h]
    exact (Works.notice_one _ _ _ _ _).before rfl
  · rw [Works.appendRecord_quiet e r hpos hhalf hwrap]

end Sys2Proof.Machine

/-! SUPPORT. R165, R172 to R178: what stands in the join engine for a channel, the sixth check of each directive, its
refusal, and a HAND BACK taken in hand. -/

namespace Sys2Proof.Machine

/-! ## Requests outstanding (R78, R122, R175) -/

section
variable {w : Works} {c : Chan}

theorem Works.mem_of_queuedJoin {j : JoinReq} (h : w.queuedJoin c = some j) : j ∈ w.join.queue ∧ j.chan = c :=
  ⟨List.mem_of_find?_eq_some h, of_decide_eq_true (List.find?_some h :)⟩

theorem Works.flight_of_flyingJoin {j : JoinReq} (h : w.flyingJoin c = some j) :
    ∃ f, w.join.flight = some f ∧ f.req = j ∧ f.req.chan = c := by
  unfold Works.flyingJoin at h
  split at h
  · rename_i f hf
    split at h
    · rename_i hc
      exact ⟨f, hf, Option.some.inj h, hc⟩
    · cases h
  · cases h

/-- A request is outstanding while it is queued, in flight, or waits with a deferred commit (log 13). -/
theorem Works.outstanding_iff {p : JoinKind → Bool} :
    w.outstanding c p = true ↔
      (∃ j : JoinReq, (w.queuedJoin c = some j ∨ w.flyingJoin c = some j) ∧ p j.kind = true) ∨
        ∃ q, (w.at c).waitReq = some q ∧ p q.kind = true := by
  simp only [Works.outstanding, Bool.or_eq_true, Option.any_eq_true, or_and_right, exists_or]

theorem Works.switchOutstanding_iff :
    w.switchOutstanding c = true ↔
      (∃ j : JoinReq, (w.queuedJoin c = some j ∨ w.flyingJoin c = some j) ∧ j.atSwitch = true) ∨
        ∃ q, (w.at c).waitReq = some q ∧ q.atSwitch = true := by
  simp only [Works.switchOutstanding, Bool.or_eq_true, Option.any_eq_true, or_and_right, exists_or]

theorem JoinKind.endsRequest_iff {k : JoinKind} :
    k.endsRequest = true ↔ k = .resume ∨ k = .skip ∨ k = .rejoin := by
  cases k <;> decide

/-- No request of a channel is of a kind that ends a REQUESTED handback (R165, R166). -/
theorem Works.outstanding_endsRequest_none (hw : (w.at c).waitReq = none)
    (hq : ∀ j ∈ w.join.queue, j.chan = c → j.kind ≠ .resume ∧ j.kind ≠ .skip ∧ j.kind ≠ .rejoin)
    (hf : ∀ f, w.join.flight = some f → f.req.chan = c →
      f.req.kind ≠ .resume ∧ f.req.kind ≠ .skip ∧ f.req.kind ≠ .rejoin) :
    w.outstanding c JoinKind.endsRequest = false := by
  refine Bool.eq_false_iff.mpr fun h => ?_
  simp only [← not_or, ← JoinKind.endsRequest_iff] at hq hf
  rcases Works.outstanding_iff.mp h with ⟨j, hj | hj, hends⟩ | ⟨q, hwait, -⟩
  · obtain ⟨hmem, hc⟩ := Works.mem_of_queuedJoin hj
    exact hq j hmem hc hends
  · obtain ⟨f, hflight, rfl, hc⟩ := Works.flight_of_flyingJoin hj
    exact hf f hflight hc hends
  · rw [hw] at hwait
    cases hwait

end

/-! ## The sixth check (R165, R175) -/

section
variable {x : Context} {e : Env}

/-- A tally never heard, or heard suspect_frames ago or longer, is not fresh (R90). -/
theorem Env.fresh_eq_false (h : x.seen = false ∨ e.cfg.suspectFrames ≤ x.age.toNat) : e.fresh x = false := by
  rcases h with h | h
  · simp only [Env.fresh, h, Bool.false_and]
  · simp only [Env.fresh, decide_eq_false (Nat.not_lt.mpr h), Bool.and_false]

theorem Env.fresh_eq_true (hs : x.seen = true) (ha : x.age.toNat < e.cfg.suspectFrames) : e.fresh x = true := by
  simp only [Env.fresh, hs, ha, decide_true, Bool.and_self]

/-- Off air nothing can be steered, and in RETURNING nothing once SETTLED (R175). -/
theorem Context.steerable_eq_false
    (h : x.state ∉ [ChState.onAir, .returning] ∨ x.state = .returning ∧ x.settled = true) : x.steerable = false := by
  rcases h with h | ⟨hs, hb⟩
  · obtain ⟨hair, hreturning⟩ : x.state ≠ .onAir ∧ x.state ≠ .returning := by simpa using h
    unfold Context.steerable
    split
    · exact absurd ‹_› hair
    · exact absurd ‹_› hreturning
    · exact absurd ‹_› hreturning
    · rfl
  · unfold Context.settled at hb
    split at hb
    · rename_i hback
      simp only [Context.steerable, hs, hback]
    · cases hb

theorem Context.deferredEvent_eq_false (h : ∀ rev events, x.mirror.other = .ready rev events true → events = []) :
    x.deferredEvent = false := by
  unfold Context.deferredEvent
  split
  · rename_i rev events hother
    rw [h rev events hother]
    rfl
  · rfl

/-- The last event of the live list has no successor, and none before an empty list has one, unless a deferred list
holds an event (R175). -/
theorem Context.hasSuccessor_eq_false {ev : CurEvent} (hc : x.cur = some ev)
    (h : (∃ k, ev.place = .at k ∧ x.mirror.live.length ≤ k + 1) ∨ ev.place = .beforeZero ∧ x.mirror.live = [])
    (hd : ∀ rev events, x.mirror.other = .ready rev events true → events = []) : x.hasSuccessor = false := by
  have hdeferred := Context.deferredEvent_eq_false hd
  rcases h with ⟨k, hp, hl⟩ | ⟨hp, hl⟩
  · simp only [Context.hasSuccessor, hc, hp, hdeferred, decide_eq_false (Nat.not_lt.mpr hl), Bool.or_self]
  · simp only [Context.hasSuccessor, hc, hp, hdeferred, hl, List.isEmpty_nil, Bool.not_true, Bool.or_self]

end

section
variable {w : Works} (e : Env) {c : Chan}

theorem Works.forceTakeCheck_wrongState
    (h : (w.at c).state ∉ [ChState.mirroring, .suspect, .lost, .yielded, .bidding]) :
    w.forceTakeCheck e c = some 3 := by
  unfold Works.forceTakeCheck
  split
  case h_6 => rfl
  all_goals
    rename_i hs
    exact absurd (by rw [hs]; decide) h

theorem Works.forceTakeCheck_isolated
    (h : (w.at c).state ∈ [ChState.mirroring, .suspect, .lost, .yielded, .bidding]) (hi : e.isolated = true) :
    w.forceTakeCheck e c = some 4 := by
  simp only [List.mem_cons, List.not_mem_nil, or_false] at h
  rcases h with h | h | h | h | h <;> simp only [Works.forceTakeCheck, h, hi, if_true]

theorem Works.handBackCheck_wrongState
    (h : ((w.at c).state ≠ .onAir ∨ (w.at c).isHeld = true ∨ (w.at c).handback ≠ .absent) ∨
      w.outstanding c JoinKind.endsRequest = true) : w.handBackCheck e c = some 3 := by
  rcases h with (h | h | h) | h <;> simp [Works.handBackCheck, h]

/-- In the states in which a HAND BACK may be taken, the tally decides (R165). -/
theorem Works.handBackCheck_eq (hs : (w.at c).state = .onAir) (hh : (w.at c).isHeld = false)
    (hb : (w.at c).handback = .absent) (ho : w.outstanding c JoinKind.endsRequest = false) :
    w.handBackCheck e c = if e.fresh (w.at c) then none else some 5 := by
  cases hf : e.fresh (w.at c) <;> simp [Works.handBackCheck, hs, hh, hb, ho, hf]

theorem Works.holdCheck_wrongState (h : (w.at c).steerable = false ∨ (w.at c).isHeld = true) :
    w.holdCheck e c = some 3 := by
  rcases h with h | h <;> simp [Works.holdCheck, h]

theorem Works.resumeCheck_wrongState
    (h : ((w.at c).state ≠ .onAir ∨ (w.at c).isHeld = false) ∨ w.switchOutstanding c = true) :
    w.resumeCheck e c = some 3 := by
  rcases h with (h | h) | h <;> simp [Works.resumeCheck, h]

theorem Works.skipCheck_wrongState (h : (w.at c).steerable = false ∨ w.switchOutstanding c = true) :
    w.skipCheck e c = some 3 := by
  rcases h with h | h <;> simp [Works.skipCheck, h]

theorem Works.skipCheck_noSuccessor (hs : (w.at c).steerable = true) (ho : w.switchOutstanding c = false)
    (hn : (w.at c).hasSuccessor = false) : w.skipCheck e c = some 7 := by
  simp [Works.skipCheck, hs, ho, hn]

theorem Works.clearCheck_wrongState
    (h : (w.at c).state ∉ [ChState.mirroring, .suspect, .lost, .yielded, .fault]) : w.clearCheck e c = some 3 := by
  unfold Works.clearCheck
  split
  case h_6 => rfl
  all_goals
    rename_i hs
    exact absurd (by rw [hs]; decide) h

end

/-! ## A directive that the sixth check refuses (R175, R177) -/

/-- The sixth check of each kind that names a channel (R175). A RETIME names none. -/
def DirKind.sixth : DirKind → Env → Chan → Works → Option Nat
  | .arm => Works.armCheck
  | .disarm => Works.armCheck
  | .forceTake => Works.forceTakeCheck
  | .handBack => Works.handBackCheck
  | .hold => Works.holdCheck
  | .resume => Works.resumeCheck
  | .skip => Works.skipCheck
  | .retry => Works.retryCheck
  | .clearChannel => Works.clearCheck
  | .retime => fun _ _ _ => none

/-- The command of a directive that names a channel asks the sixth check of its kind. -/
theorem exec_directiveCommand_sixth {k : DirKind} (h : k ≠ .retime) (l : Lane) :
    ∃ effect noticed, ∀ s, exec (directiveCommand l k) s =
      .next (s.whenRunning (State.takeDirective l k (State.direct k.sixth effect noticed))) := by
  cases k
  case retime => exact absurd rfl h
  all_goals exact ⟨_, _, fun _ => rfl⟩

section
variable {s s1 : State} {l : Lane} {m : RxMsg} {p : Peer} {d : Directive} {i : Fin 4} {c : Chan}

/-- Checks 1 to 5 hold, and the sixth gives a reason (R173 to R175). -/
theorem State.Passes.verdict_refused (h : s.Passes l m p d i c) (hs1 : s1 = s.heard l p m)
    {sixth : Env → Chan → Works → Option Nat} {reason : Nat} (h6 : sixth s1.env c s1.works = some reason) :
    s1.works.checkChannel s1.env m.sender.toNat d sixth = .refused (some c) reason := by
  obtain ⟨-, hsender, hnumber, hpermits, hbus, hcovers⟩ := h
  subst hs1
  simp only [Works.checkChannel, Works.checkSender, State.env_cfg, State.heard_cfg, hsender, State.heard_lastNumbers,
    hnumber, hpermits, hbus, hcovers, h6, if_false, Bool.not_true, Bool.false_eq_true]

/-- A directive that the sixth check refuses is noticed with the reason, and that is all (R177). -/
theorem State.Passes.refuses (h : s.Passes l m p d i c) (hs1 : s1 = s.heard l p m) {reason : Nat}
    (h6 : d.kind.sixth s1.env c s1.works = some reason) :
    exec (directiveCommand l d.kind) s =
      .next (s1.onWorks fun w => w.notice s1.env .directiveRefused (some c)
        (paramBytes m.sender.toNat d.number.toNat d.kind.code reason)) := by
  have hchannel : d.kind ≠ .retime := fun hk => by rw [hk] at h6; cases h6
  obtain ⟨effect, noticed, hexec⟩ := exec_directiveCommand_sixth hchannel l
  rw [hexec, h.1.1.1.whenRunning, h.1.handed, ← hs1]
  simp only [State.direct, State.hand, State.onWorks, Works.directive, h.verdict_refused hs1 h6, directiveParam]

end

/-- Settles O44: each clause by the sixth check of its kind. -/
theorem sixthCheckRefuses : Obligations.SixthCheckRefuses := by
  rintro s s1 l m p d i c x reason hp hs1 rfl hrefused
  have hcfg : s1.env.cfg = s.cfg := by rw [State.env_cfg, hs1, State.heard_cfg]
  have hiso : s1.env.isolated = s.isolated := by rw [State.env_isolated, hs1, State.heard_isolated]
  refine hp.refuses hs1 ?_
  rcases hrefused with ⟨hk, hstate, rfl⟩ | ⟨hk, hstate, hisolated, rfl⟩ | ⟨hk, hwrong, rfl⟩ | ⟨hk, hout, rfl⟩ |
    ⟨hk, hstate, hheld, hback, hout, hstale, rfl⟩ | ⟨hk, hwrong, rfl⟩ | ⟨hk, hwrong, rfl⟩ | ⟨hk, hstate, rfl⟩ |
    ⟨hk, hswitch, rfl⟩ | ⟨hk, hstate, hsettled, rfl⟩ | ⟨hk, hstate, hswitch, ⟨ev, hcur, hlast⟩, hdeferred, rfl⟩ |
    ⟨hk, hstate, rfl⟩ | ⟨hk, hstate, rfl⟩
  · rw [hk]
    exact Works.forceTakeCheck_wrongState s1.env hstate
  · rw [hk]
    exact Works.forceTakeCheck_isolated s1.env hstate (hiso.trans hisolated)
  · rw [hk]
    exact Works.handBackCheck_wrongState s1.env (.inl hwrong)
  · rw [hk]
    refine Works.handBackCheck_wrongState s1.env (.inr (Works.outstanding_iff.mpr ?_))
    simp only [JoinKind.endsRequest_iff]
    exact hout.imp_right fun ⟨q, hq, hkind⟩ => ⟨q, hq, hkind.imp_right .inl⟩
  · rw [hk]
    refine (Works.handBackCheck_eq s1.env hstate hheld hback hout).trans ?_
    rw [Env.fresh_eq_false (hcfg ▸ hstale), if_neg Bool.false_ne_true]
  · rw [hk]
    exact Works.holdCheck_wrongState s1.env (hwrong.imp_left fun h => Context.steerable_eq_false (.inl h))
  · rw [hk]
    exact Works.resumeCheck_wrongState s1.env (.inl hwrong)
  · rw [hk]
    exact Works.skipCheck_wrongState s1.env (.inl (Context.steerable_eq_false (.inl hstate)))
  · have hswitch := Works.switchOutstanding_iff.mpr hswitch
    rcases hk with hk | hk <;> rw [hk]
    · exact Works.resumeCheck_wrongState s1.env (.inr hswitch)
    · exact Works.skipCheck_wrongState s1.env (.inr hswitch)
  · have hsteer := Context.steerable_eq_false (.inr ⟨hstate, hsettled⟩)
    rcases hk with hk | hk <;> rw [hk]
    · exact Works.holdCheck_wrongState s1.env (.inl hsteer)
    · exact Works.skipCheck_wrongState s1.env (.inl hsteer)
  · rw [hk]
    exact Works.skipCheck_noSuccessor s1.env (Context.steerable_of (.inl hstate)) hswitch
      (Context.hasSuccessor_eq_false hcur hlast hdeferred)
  · rw [hk]
    exact if_neg hstate
  · rw [hk]
    exact Works.clearCheck_wrongState s1.env hstate

/-! ## HAND BACK taken in hand (R165, R176, R178) -/

/-- A directive that is taken without DIRECTIVE_TAKEN: its number recorded, and its effect (R176, R178). -/
theorem State.Passes.takes_silently {s s1 : State} {l : Lane} {m : RxMsg} {p : Peer} {d : Directive} {i : Fin 4}
    {c : Chan} (h : s.Passes l m p d i c) (hs1 : s1 = s.heard l p m) {sixth : Env → Chan → Works → Option Nat}
    {effect : Env → Nat → Directive → Chan → Works → Works} (h6 : sixth s1.env c s1.works = none) :
    s.whenRunning (State.takeDirective l d.kind (State.direct sixth effect false)) =
      s1.onWorks fun w => effect s1.env m.sender.toNat d c (w.record i d.number) := by
  subst hs1
  rw [h.1.1.1.whenRunning, h.1.handed]
  simp only [State.direct, State.hand, State.onWorks, Works.directive, h.verdict h6, Bool.false_eq_true, if_false]

/-- A HAND BACK taken in hand makes the handback REQUESTED and places its BOUNDARY request, and changes nothing else
(R165). -/
theorem Works.handBack_requests {w v : Works} {e : Env} {sender : Nat} {number : Byte} {c : Chan}
    (hv : v = w.handBack e sender number c) :
    w.OthersKept c v ∧ v.tx = w.tx ∧ v.store = w.store ∧ v.notices = w.notices ∧ v.lastNumbers = w.lastNumbers ∧
      v.at c = { w.at c with handback := .requested sender number, gen := (w.at c).gen + 1 } ∧
      v.Requested c .boundary (e.now + BitVec.ofNat 32 e.cfg.handbackLead) none ((w.at c).gen + 1) := by
  obtain ⟨u, hu⟩ : ∃ u, u = w.mod c fun x => { x with handback := .requested sender number } := ⟨_, rfl⟩
  have hplace : v = u.placeJoin e c .boundary (e.now + BitVec.ofNat 32 e.cfg.handbackLead) none false := by
    rw [hv, hu]
    rfl
  have huat : u.at c = { w.at c with handback := .requested sender number } := by rw [hu, Works.mod_at]
  have hukept : w.OthersKept c u := hu ▸ Works.OthersKept.rfl.mod _
  have hnumbers : v.lastNumbers = u.lastNumbers := by
    rw [hplace, Works.placeJoin_eq (by nofun)]
    rfl
  obtain ⟨hat, htx, hstore, hnotices, hrequested⟩ := Works.placeJoin_places rfl _ none false hplace
  rw [huat] at hat hrequested
  subst hu
  exact ⟨hplace ▸ hukept.placeJoin e _ _ _ _, htx, hstore, hnotices, hnumbers, hat, hrequested⟩

/-- Settles O46: by the sixth check, and then the request that HAND BACK places. -/
theorem handBackIsTakenInHand : Obligations.HandBackIsTakenInHand := by
  rintro s s1 l m p d i c x hp hs1 rfl hkind hstate hheld hback hwait hqueue hflight hseen hage
  have hcfg : s1.cfg = s.cfg := by rw [hs1, State.heard_cfg]
  have hcheck : s1.works.handBackCheck s1.env c = none := by
    rw [Works.handBackCheck_eq s1.env hstate hheld hback (Works.outstanding_endsRequest_none hwait hqueue hflight),
      Env.fresh_eq_true hseen (by rw [State.env_cfg, hcfg]; exact hage), if_pos rfl]
  have hexec := hp.takes_silently hs1 (sixth := Works.handBackCheck)
    (effect := fun e sender d c w => w.handBack e sender d.number c) hcheck
  rw [hkind] at hexec
  obtain ⟨hothers, htx, hstore, hnotices, hnumbers, hat, hrequested⟩ :=
    Works.handBack_requests (w := s1.works.record i d.number) (e := s1.env) (sender := m.sender.toNat)
      (number := d.number) (c := c) rfl
  rw [← hcfg]
  exact ⟨_, congrArg Host.Outcome.next hexec, ⟨rfl, rfl, rfl, rfl, rfl, rfl, rfl, rfl, rfl, rfl⟩, rfl, hothers, htx,
    hstore, hnotices, hnumbers, hat, hrequested⟩

end Sys2Proof.Machine

/-! SUPPORT. R172 to R174, R177: checks 1 to 5 of a directive, and what a directive leaves that they do not pass. -/

namespace Sys2Proof.Machine

/-! ## The control-station entry of a sender (R173) -/

section
variable {cfg : Config} {sender : Nat}

theorem Config.controlOf_eq_none (h : ∀ j : Fin 4, cfg.control[j].id = 0 ∨ cfg.control[j].id ≠ sender) :
    Config.controlOf cfg sender = none := by
  refine List.find?_eq_none.mpr fun j _ => ?_
  rw [Bool.and_eq_true, decide_eq_true_iff, decide_eq_true_iff, not_and_or, not_not]
  exact h j

/-- The earliest entry that carries the sender's id is its entry. -/
theorem Config.controlOf_eq_some {i : Fin 4} (h0 : cfg.control[i].id ≠ 0) (hi : cfg.control[i].id = sender)
    (hfirst : ∀ j : Fin 4, j < i → cfg.control[j].id ≠ sender) : Config.controlOf cfg sender = some i := by
  refine List.find?_eq_some_iff_getElem.mpr ⟨?_, i, by rw [List.length_finRange]; exact i.isLt, ?_, fun j hj => ?_⟩
  · rw [Bool.and_eq_true, decide_eq_true_iff, decide_eq_true_iff]
    exact ⟨h0, hi⟩
  · exact List.getElem_finRange _
  · rw [List.getElem_finRange, Bool.not_eq_true', Bool.and_eq_false_iff]
    exact .inr (decide_eq_false (hfirst _ hj))

end

/-! ## The verdict of the checks (R173, R174) -/

/-- The six checks of a directive of any kind: those of RETIME name no channel (R173 to R175). -/
def Works.checkDirective (e : Env) (sender : Nat) (d : Directive) (w : Works) : DirVerdict :=
  if d.kind = .retime then w.checkRetime e sender d else w.checkChannel e sender d d.kind.sixth

section
variable {w : Works} {e : Env} {sender : Nat} {d : Directive} {i : Fin 4}

theorem Works.checkDirective_unknown (h : Config.controlOf e.cfg sender = none) :
    w.checkDirective e sender d = .unknownSender := by
  simp only [Works.checkDirective, Works.checkRetime, Works.checkChannel, Works.checkSender, h, ite_self]

theorem Works.checkDirective_repeated (hi : Config.controlOf e.cfg sender = some i)
    (hn : w.lastNumbers[i] = some d.number) : w.checkDirective e sender d = .ignored := by
  simp only [Works.checkDirective, Works.checkRetime, Works.checkChannel, Works.checkSender, hi, hn, if_true, ite_self]

/-- Check 3 refuses for the mapped channel, if there is one; a RETIME names none (log 26). -/
theorem Works.checkDirective_forbidden (hi : Config.controlOf e.cfg sender = some i)
    (hn : w.lastNumbers[i] ≠ some d.number) (hp : ControlEntry.permits e.cfg.control[i] d.kind = false) :
    w.checkDirective e sender d =
      .refused (if d.kind = .retime then none else Config.localOf e.cfg d.bus) 1 := by
  by_cases hk : d.kind = .retime
  · simp only [Works.checkDirective, Works.checkRetime, Works.checkSender, hi, hn, hp, if_pos hk, if_false,
      Bool.not_false, if_true]
  · simp only [Works.checkDirective, Works.checkChannel, Works.checkSender, hi, hn, hp, if_neg hk, if_false,
      Bool.not_false, if_true]

/-- Checks 4 and 5 of a directive that names a channel, the first three passed (R174). -/
theorem Works.checkDirective_channel (hk : d.kind ≠ .retime) (hi : Config.controlOf e.cfg sender = some i)
    (hn : w.lastNumbers[i] ≠ some d.number) (hp : ControlEntry.permits e.cfg.control[i] d.kind = true) :
    (Config.localOf e.cfg d.bus = none →
      w.checkDirective e sender d = if d.target = e.own then .refused none 2 else .ignored) ∧
    ∀ c, Config.localOf e.cfg d.bus = some c → ControlEntry.covers e.cfg.control[i] c = false →
      w.checkDirective e sender d = .refused (some c) 1 := by
  refine ⟨fun hbus => ?_, fun c hbus hcovers => ?_⟩
  · simp only [Works.checkDirective, Works.checkChannel, Works.checkSender, hi, hn, hp, hbus, if_neg hk, if_false,
      Bool.not_true, Bool.false_eq_true]
  · simp only [Works.checkDirective, Works.checkChannel, Works.checkSender, hi, hn, hp, hbus, hcovers, if_neg hk,
      if_false, Bool.not_true, Bool.false_eq_true, Bool.not_false, if_true]

end

/-! ## What a directive leaves that is not taken (R173, R177) -/

/-- A directive that is not taken does what its verdict says to the counters or the notices, and nothing else. -/
theorem State.Directs.not_taken {s s1 : State} {l : Lane} {m : RxMsg} {p : Peer} {d : Directive}
    (h : s.Directs l m p d) (hs1 : s1 = s.heard l p m) :
    (s1.works.checkDirective s1.env m.sender.toNat d = .unknownSender →
      exec (directiveCommand l d.kind) s =
        .next (s1.onWorks fun w => w.count fun n => { n with unknownController := bump n.unknownController })) ∧
    (s1.works.checkDirective s1.env m.sender.toNat d = .ignored → exec (directiveCommand l d.kind) s = .next s1) ∧
    ∀ chan reason, s1.works.checkDirective s1.env m.sender.toNat d = .refused chan reason →
      exec (directiveCommand l d.kind) s =
        .next (s1.onWorks fun w => w.notice s1.env .directiveRefused chan
          (directiveParam m.sender.toNat d.number d.kind reason)) := by
  by_cases hk : d.kind = .retime
  · have hexec : exec (directiveCommand l d.kind) s = .next (s1.directRetime m.sender.toNat d) := by
      rw [hs1, hk]
      exact h.retime hk
    simp only [Works.checkDirective, if_pos hk]
    rw [hexec]
    refine ⟨fun hv => ?_, fun hv => ?_, fun chan reason hv => congrArg _ (State.directRetime_refused hv)⟩ <;>
      simp only [State.directRetime, Works.retimePasses, State.hand, State.onWorks, Works.retime, hv,
        Bool.false_eq_true, if_false]
  · obtain ⟨effect, noticed, hcommand⟩ := exec_directiveCommand_sixth hk l
    have hexec : exec (directiveCommand l d.kind) s =
        .next (State.direct d.kind.sixth effect noticed m.sender.toNat d s1) := by
      rw [hcommand, h.1.1.whenRunning, h.handed, hs1]
    simp only [Works.checkDirective, if_neg hk]
    rw [hexec]
    refine ⟨fun hv => ?_, fun hv => ?_, fun chan reason hv => ?_⟩ <;>
      simp only [State.direct, State.hand, State.onWorks, Works.directive, hv]

/-- Settles O43: each clause by the verdict of the checks. -/
theorem directiveChecksOneToFive : Obligations.DirectiveChecksOneToFive := by
  intro s s1 l m p d hd hs1
  obtain ⟨hunknown, hignored, hrefused⟩ := hd.not_taken hs1
  have hcfg : s1.env.cfg = s.cfg := by rw [State.env_cfg, hs1, State.heard_cfg]
  have hown : s1.env.own = s.own := by rw [State.env_own, hs1, State.heard_own]
  have hlast : s1.works.lastNumbers = s.works.lastNumbers := by rw [hs1, State.heard_lastNumbers]
  rw [← hcfg, ← hown, ← hlast]
  refine ⟨fun hnone => hunknown (Works.checkDirective_unknown (Config.controlOf_eq_none hnone)),
    fun i h0 hid hfirst => ?_⟩
  have hi := Config.controlOf_eq_some h0 hid hfirst
  refine ⟨fun hn => hignored (Works.checkDirective_repeated hi hn), fun hn =>
    ⟨fun hp => hrefused _ _ (Works.checkDirective_forbidden hi hn hp), fun hp hk => ?_⟩⟩
  obtain ⟨hunmapped, hmasked⟩ := Works.checkDirective_channel hk hi hn hp
  exact ⟨fun hbus hto => hrefused _ _ ((hunmapped hbus).trans (if_pos hto)),
    fun hbus hto => hignored ((hunmapped hbus).trans (if_neg hto)),
    fun c hbus hmask => hrefused _ _ (hmasked c hbus hmask)⟩

end Sys2Proof.Machine

/-! SUPPORT. R184: the reset values, the invariants that they meet, the commands that a part in RESET or LOADING is deaf
to, and the queue of commands, which no command touches. -/

namespace Sys2Proof.Machine

/-! ## Reset values (R184) -/

@[simp] theorem Works.reset_at (c : Chan) : Works.reset.at c = Context.reset := by simp [Works.reset, Works.at]

@[simp] theorem State.reset_lane (l : Lane) : State.reset.lane l = LaneIf.reset := by cases l <;> rfl

@[simp] theorem Timebase.reset_phase : Timebase.reset.phase = 0 := by simp [Timebase.phase, Timebase.reset]

/-- The peer records are built with their reset values (R48). -/
theorem eq_reset_of_mem_peerTable {own : Nat} {p : Peer} (h : p ∈ peerTable own) : ∃ n, p = Peer.reset n := by
  obtain ⟨n, -, hn⟩ := List.mem_map.mp h
  exact ⟨n, hn.symm⟩

/-- Settles O1: the state after RESET_ASSERT is the reset state, its queue apart, and its contexts, lanes and peer
records are the reset ones. -/
theorem resetAssertGivesResetValues : Obligations.ResetAssertGivesResetValues := by
  intro s
  obtain ⟨t, ht⟩ : ∃ t, t = { State.reset with pending := s.pending } := ⟨_, rfl⟩
  have hlane (l : Lane) : t.lane l = LaneIf.reset := by rw [ht]; exact State.reset_lane l
  have hat (c : Chan) : t.works.at c = Context.reset := by rw [ht]; exact Works.reset_at c
  have hpeer : ∀ p ∈ t.peers, ∃ n, p = Peer.reset n := by rw [ht]; exact fun _ => eq_reset_of_mem_peerTable
  have hnumber (i : Fin 4) : t.works.lastNumbers[i] = none := by rw [ht]; simp [State.reset, Works.reset]
  refine ⟨t, by rw [ht]; rfl, ?_⟩
  simp only [hlane, hat]
  subst ht
  refine ⟨rfl, rfl, rfl, rfl, ⟨rfl, Timebase.reset_phase, rfl, rfl, rfl, rfl, rfl, rfl, rfl, rfl, rfl⟩,
    fun _ => ⟨rfl, rfl, rfl, rfl, rfl, rfl, rfl, rfl, rfl, rfl, rfl⟩, rfl, ⟨rfl, rfl, rfl, rfl, rfl, rfl⟩, ?_,
    fun _ => ⟨rfl, rfl, rfl, rfl, rfl, rfl, rfl, rfl, rfl, rfl, rfl, rfl, rfl, rfl, rfl, rfl, rfl, rfl, rfl, rfl, rfl⟩,
    fun _ => ⟨rfl, rfl, rfl, rfl, rfl, rfl, rfl, rfl, rfl, rfl⟩, ⟨rfl, rfl⟩,
    ⟨rfl, rfl, rfl, rfl, rfl, rfl, rfl, rfl, rfl, rfl, rfl⟩, ⟨rfl, rfl, rfl, rfl, rfl⟩,
    ⟨rfl, rfl, rfl, rfl, rfl, rfl, rfl⟩, rfl, ⟨rfl, rfl⟩, hnumber, rfl, rfl⟩
  intro p hp
  obtain ⟨n, rfl⟩ := hpeer p hp
  exact ⟨rfl, rfl, rfl, rfl, rfl, rfl, rfl, rfl, rfl, rfl⟩

/-- No list holds a slot of the event pool after reset (R60, R61). -/
theorem Works.reset_usedSlots : Works.reset.usedSlots = 0 := by
  simp [Works.usedSlots, Works.reset, Context.reset, Mirror.reset, Mirror.slots, OtherList.slots]

/-- Settles O56: by the reset values of the clock and the peer records, of the claim tables, of the transmitter and the
rings, and of the mirrors. -/
theorem resetMeetsTheInvariants : Obligations.ResetMeetsTheInvariants :=
  ⟨State.reset_sound, State.reset_tablesSound, State.reset_stocked, Works.reset_usedSlots.trans_le (Nat.zero_le 4096)⟩

/-! ## The queue of commands (log 4) -/

@[simp] theorem runWork_pending (k : Work) (s : State) : (runWork k s).pending = s.pending := by
  have h := runWork_fixedPart k s
  simp only [State.fixedPart, Prod.mk.injEq] at h
  obtain ⟨-, -, -, -, -, hpending⟩ := h
  exact hpending

@[simp] theorem runAll_pending (ks : List Work) (s : State) : (runAll ks s).pending = s.pending :=
  runAll_component State.pending (fun k _ => runWork_pending k) s

@[simp] theorem State.settle_pending (s : State) : s.settle.pending = s.pending := runAll_pending s.due s

@[simp] theorem State.boundary_pending (s : State) (left : List Work) : (s.boundary left).pending = s.pending := by
  simp [State.boundary]

@[simp] theorem State.slice_pending (s : State) (k : Work) (cond : State → Bool) :
    (s.slice k cond).pending = s.pending := by
  have hprepared : (s.prepare k).pending = s.pending := runAll_pending _ s
  unfold State.slice
  split
  · dsimp only
    split
    · exact (runWork_pending k _).trans hprepared
    · rfl
  · rfl

/-- A command leaves the queue when what it does in a part that works leaves it. -/
theorem State.whenRunning_pending (s : State) {f : State → State} (hf : ∀ v : State, (f v).pending = v.pending) :
    (s.whenRunning f).pending = s.pending := by
  unfold State.whenRunning
  split
  · exact (hf _).trans s.settle_pending
  · rfl

/-! ### The reference monitor and the lines (01 to 03) -/

@[simp] theorem State.monitorNotice_pending (s : State) (k : NoticeKind) (n : BitVec 32) :
    (s.monitorNotice k n).pending = s.pending := rfl

theorem State.refPulse_pending (s : State) (dt : Nat) (left : List Work) : (s.refPulse dt left).pending = s.pending := by
  unfold State.refPulse State.lockedPulse State.freePulse
  split <;> split <;> simp

theorem State.refLost_pending (s : State) (left : List Work) : (s.refLost left).pending = s.pending := by
  unfold State.refLost
  split <;> simp

theorem State.freeRunBoundary_pending (s : State) (left : List Work) : (s.freeRunBoundary left).pending = s.pending := by
  unfold State.freeRunBoundary
  split <;> simp

theorem State.copyBegin_pending (s : State) (l : Lane) (dt : Nat) : (s.copyBegin l dt).pending = s.pending := by
  unfold State.copyBegin
  dsimp only
  split
  · rfl
  · split <;> simp

theorem State.copyEnd_pending (s : State) (l : Lane) (readBack : List Symbol) :
    (s.copyEnd l readBack).pending = s.pending := by
  unfold State.copyEnd
  split
  · rfl
  · split <;> simp

/-! ### The dispatcher (R9 to R15) -/

@[simp] theorem State.malformed_pending (s : State) : s.malformed.pending = s.pending := rfl

@[simp] theorem State.acceptMsg_pending (s : State) (l : Lane) (p : Peer) (m : RxMsg) :
    (s.acceptMsg l p m).pending = s.pending := s.modLane_pending l _

theorem State.takeRx_pending (s : State) (l : Lane) (names : RxMsg → Bool) {route : Nat → RxMsg → State → State}
    (hr : ∀ n m (v : State), (route n m v).pending = v.pending) : (s.takeRx l names route).pending = s.pending := by
  have hpop : (s.popRx l).pending = s.pending := s.modLane_pending l _
  unfold State.takeRx
  split
  · rfl
  · split
    · dsimp only
      split
      · exact hpop
      · split
        · exact hpop
        · split
          · exact ((s.popRx l).modLane_pending l _).trans hpop
          · rw [hr, State.acceptMsg_pending, hpop]
    · rfl

theorem State.decoded_pending {α : Type} (s : State) (x : Option α) {f : α → State}
    (hf : ∀ a, (f a).pending = s.pending) : (s.decoded x f).pending = s.pending := by
  cases x with
  | none => rfl
  | some a => exact hf a

/-- Entries that are taken one after the other leave the queue when each leaves it. -/
theorem State.foldl_pending {α : Type} {f : State → α → State} (hf : ∀ v a, (f v a).pending = v.pending) (xs : List α)
    (s : State) : (xs.foldl f s).pending = s.pending :=
  foldl_keeps (P := fun v => v.pending = s.pending) (fun v a hv => (hf v a).trans hv) xs rfl

theorem State.routeTally_pending (s : State) (sender : Nat) (m : RxMsg) :
    (s.routeTally sender m).pending = s.pending := by
  refine s.decoded_pending _ fun xs => State.foldl_pending (fun v x => ?_) xs s
  unfold State.tallyEntry
  split
  · rfl
  · split
    · rfl
    · split <;> rfl

theorem State.routeSegment_pending (s : State) (sender : Nat) (m : RxMsg) :
    (s.routeSegment sender m).pending = s.pending := by
  refine s.decoded_pending _ fun g => ?_
  split
  · rfl
  · split <;> rfl

theorem State.routeClaim_pending (s : State) (sender : Nat) (m : RxMsg) :
    (s.routeClaim sender m).pending = s.pending := by
  refine s.decoded_pending _ fun xs => State.foldl_pending (fun v x => ?_) xs s
  unfold State.claimEntry
  split <;> rfl

theorem State.routeCue_pending (s : State) (m : RxMsg) : (s.routeCue m).pending = s.pending := by
  unfold State.routeCue
  split <;> rfl

theorem State.routeReport_pending (s : State) (m : RxMsg) : (s.routeReport m).pending = s.pending := by
  unfold State.routeReport
  split <;> rfl

theorem State.routeAsRun_pending (s : State) (m : RxMsg) : (s.routeAsRun m).pending = s.pending := by
  unfold State.routeAsRun
  split <;> rfl

theorem State.takeMark_pending (s : State) (sender : Nat) (arrival : Tick) (f : Frame) :
    (s.takeMark sender arrival f).pending = s.pending := by
  unfold State.takeMark State.compareMark
  split
  · rfl
  · split
    · dsimp only
      split <;> rfl
    · rfl

theorem State.takeDirective_pending (s : State) (l : Lane) (k : DirKind) {unit : Nat → Directive → State → State}
    (hu : ∀ n d (v : State), (unit n d v).pending = v.pending) : (s.takeDirective l k unit).pending = s.pending := by
  refine s.takeRx_pending l _ fun n m v => v.decoded_pending _ fun d => ?_
  split
  · exact hu n d v
  · rfl

/-! ### Start-up (R183 to R189) -/

theorem State.loadImage_pending (s : State) (image : List Byte) : (s.loadImage image).pending = s.pending := by
  unfold State.loadImage
  split <;> rfl

theorem State.readStraps_pending (s : State) (straps : BitVec 6) : (s.readStraps straps).pending = s.pending := by
  unfold State.readStraps
  dsimp only
  split <;> rfl

/-! ## Every command -/

/-- No command touches the queue. -/
theorem exec_pending {s t : State} (i : Instr) (ht : exec i s = .next t) : t.pending = s.pending := by
  cases i with
  | resetAssert => cases ht; rfl
  | resetRelease straps => cases ht; split; exacts [s.readStraps_pending straps, rfl]
  | configurationLoad image => cases ht; split; exacts [s.loadImage_pending image, rfl]
  | noMemory => cases ht; split <;> rfl
  | refPulse dt left => cases ht; exact s.whenRunning_pending fun v => v.refPulse_pending dt left
  | refLost left => cases ht; exact s.whenRunning_pending fun v => v.refLost_pending left
  | freeRunBoundary left => cases ht; exact s.whenRunning_pending fun v => v.freeRunBoundary_pending left
  | messageReceived l dt | framingLost l dt =>
    cases ht; exact s.whenRunning_pending fun v => (v.pass dt).modLane_pending l _
  | receiveTally l =>
    cases ht; exact s.whenRunning_pending fun v => v.takeRx_pending l _ fun n m u => u.routeTally_pending n m
  | receiveSegment l =>
    cases ht; exact s.whenRunning_pending fun v => v.takeRx_pending l _ fun n m u => u.routeSegment_pending n m
  | receiveClaim l =>
    cases ht; exact s.whenRunning_pending fun v => v.takeRx_pending l _ fun n m u => u.routeClaim_pending n m
  | receiveCue l =>
    cases ht; exact s.whenRunning_pending fun v => v.takeRx_pending l _ fun _ m u => u.routeCue_pending m
  | receivePortStatus l =>
    cases ht; exact s.whenRunning_pending fun v => v.takeRx_pending l _ fun _ _ u => u.decoded_pending _ fun _ => rfl
  | receiveTimeMark l =>
    cases ht
    exact s.whenRunning_pending fun v => v.takeRx_pending l _ fun n m u =>
      u.decoded_pending _ (u.takeMark_pending n m.arrival)
  | receiveReport l =>
    cases ht; exact s.whenRunning_pending fun v => v.takeRx_pending l _ fun _ m u => u.routeReport_pending m
  | receiveAsRun l =>
    cases ht; exact s.whenRunning_pending fun v => v.takeRx_pending l _ fun _ m u => u.routeAsRun_pending m
  | arm l | disarm l | forceTake l | handBack l | hold l | resume l | skip l | retry l | clearChannel l | retime l =>
    cases ht; exact s.whenRunning_pending fun v => v.takeDirective_pending l _ fun _ _ _ => rfl
  | copyBegin l dt => cases ht; exact s.whenRunning_pending fun v => v.copyBegin_pending l dt
  | copyEnd l readBack => cases ht; exact s.whenRunning_pending fun v => v.copyEnd_pending l readBack
  | joinComplete => cases ht; exact s.whenRunning_pending fun _ => rfl
  | copyAbandoned | originSuspect | originLost | claimExpiry | bidWindowDecided | laneQuiet | isolated | serverSilent
  | armTimeout | takeTimeout | withdrawnTakeExpiry | followDue | readyCheck | handbackDone | timeLoaded | reportBuild
  | asrunBuild => cases ht; exact s.slice_pending _ _

/-- No command stops the part (log 33). -/
theorem exec_completes (i : Instr) (s : State) : ∃ t, exec i s = .next t := by
  cases i <;> exact ⟨_, rfl⟩

/-- A part that does not work and has no outstanding work answers none but the four commands of start-up (R184). -/
theorem exec_deaf {s : State} (hrunning : s.running = false) (hdue : s.due = []) {i : Instr} (hassert : i ≠ .resetAssert)
    (hmemory : i ≠ .noMemory) (hrelease : ∀ n, i ≠ .resetRelease n) (hload : ∀ image, i ≠ .configurationLoad image) :
    exec i s = .next s := by
  have hslice (k : Work) (cond : State → Bool) : s.slice k cond = s :=
    State.slice_idle (.inl (by rw [hdue]; exact List.not_mem_nil))
  cases i with
  | resetAssert => exact absurd rfl hassert
  | noMemory => exact absurd rfl hmemory
  | resetRelease n => exact absurd rfl (hrelease n)
  | configurationLoad image => exact absurd rfl (hload image)
  | copyAbandoned | originSuspect | originLost | claimExpiry | bidWindowDecided | laneQuiet | isolated | serverSilent
  | armTimeout | takeTimeout | withdrawnTakeExpiry | followDue | readyCheck | handbackDone | timeLoaded | reportBuild
  | asrunBuild => exact congrArg Host.Outcome.next (hslice _ _)
  | _ => exact congrArg Host.Outcome.next (State.whenRunning_deaf hrunning _)

/-- A part in RESET or LOADING does not work yet (R184). -/
theorem State.running_eq_false {s : State} (h : s.load = .reset ∨ s.load = .loading) : s.running = false := by
  rcases h with h | h <;> rw [State.running, h]

/-- Settles O55: by the commands, and the part that is deaf by its load state. -/
theorem everyCommandCompletes : Obligations.EveryCommandCompletes := by
  refine ⟨fun i s => ?_, fun i s hload hdue hassert hmemory hrelease himage =>
    exec_deaf (State.running_eq_false hload) hdue hassert hmemory hrelease himage⟩
  obtain ⟨t, ht⟩ := exec_completes i s
  exact ⟨t, ht, exec_pending i ht⟩

end Sys2Proof.Machine

/-! SUPPORT. R183, R185, R188, R189: the peer table that the straps give, what every block holds as it begins, and the
four ways in which a load goes on or ends. -/

namespace Sys2Proof.Machine

/-! ## The peer table (R48, R183) -/

/-- The peer table holds a record for each id from 1 to 62 but the part's own. -/
theorem exists_mem_peerTable (own n : Nat) : (∃ p ∈ peerTable own, p.station = n) ↔ 1 ≤ n ∧ n ≤ 62 ∧ n ≠ own := by
  simp only [peerTable, List.mem_map, List.mem_filter, List.mem_range'_1, decide_eq_true_iff]
  constructor
  · rintro ⟨_, ⟨k, hk, rfl⟩, rfl⟩
    change 1 ≤ k ∧ k ≤ 62 ∧ k ≠ own
    omega
  · intro h
    exact ⟨Peer.reset n, ⟨n, by omega, rfl⟩, rfl⟩

theorem peerTable_length (own : Nat) : (peerTable own).length = if 1 ≤ own ∧ own ≤ 62 then 61 else 62 := by
  have herase : (List.range' 1 62).filter (· ≠ own) = (List.range' 1 62).erase own := by
    rw [(List.nodup_range' (s := 1) (n := 62)).erase_eq_filter]
    exact List.filter_congr fun n _ => by rw [Bool.eq_iff_iff]; simp
  rw [peerTable, List.length_map, herase, List.length_erase, List.length_range']
  exact if_congr (by simp [List.mem_range'_1]; omega) rfl rfl

/-! ## Beginning work (R188) -/

section
variable (s : State) (cfg : Config) (load : LoadState)

@[simp] theorem State.start_at (c : Chan) : (s.start cfg load).works.at c = installed cfg.map[c] := by
  simp [State.start, Works.at]

/-- A lane interface begins with its counters and its queue as they are (R21). -/
theorem State.start_lane (l : Lane) : (s.start cfg load).lane l =
    { s.lane l with mode := .hunting false, echoRun := 0, quietCount := 0, state := .up } := by
  cases l <;> rfl

end

/-- An entry that is not enabled leaves its context at the reset values (R85). -/
theorem installed_disabled {x : MapEntry} (h : x.enabled = false) : installed x = Context.reset := by
  rw [installed, h, if_neg Bool.false_ne_true]

/-- An enabled entry gives a context in MIRRORING, with the port records of the entry (R85, R140). -/
theorem installed_enabled {x : MapEntry} (h : x.enabled = true) :
    installed x =
      { Context.reset with
        state := .mirroring, armed := x.armed, prec := x.prec, prim := some (newPort x.primary),
        alt := x.alternate.map newPort } := by
  rw [installed, h, if_pos rfl]

theorem installed_mirror (x : MapEntry) : (installed x).mirror = Mirror.reset := by
  unfold installed
  split <;> rfl

/-! ## CONFIG_FAULT (R189) -/

theorem Config.default_controlOf (sender : Nat) : Config.controlOf Config.default sender = none :=
  Config.controlOf_eq_none fun j => .inl (by simp [Config.default])

theorem Config.default_map (c : Chan) : Config.default.map[c] = MapEntry.blank := by simp [Config.default]

theorem Config.default_localOf (bus : Byte) : Config.localOf Config.default bus = none :=
  List.find?_eq_none.mpr fun c _ => by rw [Config.default_map]; simp [MapEntry.blank]

theorem State.configFault_at (s : State) (cause : LoadFault) (c : Chan) :
    (s.configFault cause).works.at c = Context.reset := by
  have hstart := s.start_at Config.default (.fault cause) c
  rw [Config.default_map, installed_disabled rfl] at hstart
  exact hstart

/-- CONFIG_FAULT is entered as R189 lays down. -/
theorem State.configFault_enters (s : State) (cause : LoadFault) : s.EntersFault (s.configFault cause) cause := by
  refine ⟨rfl, rfl, rfl, rfl, rfl, ⟨rfl, rfl, rfl, rfl, rfl, rfl, rfl, rfl, rfl, rfl, rfl, rfl⟩,
    Config.default_controlOf, Config.default_localOf, fun c => ?_, s.start_lane Config.default (.fault cause),
    ⟨rfl, Timebase.reset_phase, rfl, rfl, rfl, rfl, rfl⟩, rfl⟩
  rw [State.configFault_at]
  exact ⟨rfl, rfl, rfl, rfl, rfl⟩

/-! ## The straps (R183) -/

theorem State.readStraps_valid (s : State) {straps : BitVec 6} (h1 : 1 ≤ straps.toNat) (h2 : straps.toNat ≤ 62) :
    s.readStraps straps = { s with own := straps.toNat, peers := peerTable straps.toNat, load := .loading } := by
  have hvalid : ¬(straps = 0 ∨ straps = 63) := by
    rintro (rfl | rfl)
    · exact absurd h1 (by decide)
    · exact absurd h2 (by decide)
  rw [State.readStraps, if_neg hvalid]

theorem State.readStraps_invalid (s : State) {straps : BitVec 6} (h : straps.toNat = 0 ∨ straps.toNat = 63) :
    s.readStraps straps =
      { s with own := straps.toNat, peers := peerTable straps.toNat : State }.configFault .strapInvalid := by
  rw [State.readStraps, if_pos (h.imp BitVec.eq_of_toNat_eq BitVec.eq_of_toNat_eq)]

/-! ## The image (R185) -/

section
variable {image : List Byte}

theorem imageGood_iff : imageGood image = true ↔ (crc16 (image.take 252)).toNat = fieldAt image 252 2 :=
  decide_eq_true_iff

theorem State.loadImage_good (s : State) (h : (crc16 (image.take 252)).toNat = fieldAt image 252 2) :
    s.loadImage image =
      s.start (correctImage (readImage image)).1 (.good (correctImage (readImage image)).2) := by
  rw [State.loadImage, if_pos (imageGood_iff.mpr h)]

theorem State.loadImage_bad (s : State) (h : (crc16 (image.take 252)).toNat ≠ fieldAt image 252 2) :
    s.loadImage image = s.configFault .checkFailed := by
  rw [State.loadImage, if_neg (mt imageGood_iff.mp h)]

end

/-! ## The commands of start-up -/

section
variable {s : State}

theorem exec_resetRelease (h : s.load = .reset) (straps : BitVec 6) :
    exec (.resetRelease straps) s = .next (s.readStraps straps) := congrArg Host.Outcome.next (if_pos h)

theorem exec_configurationLoad (h : s.load = .loading) (image : List Byte) :
    exec (.configurationLoad image) s = .next (s.loadImage image) := congrArg Host.Outcome.next (if_pos h)

theorem exec_noMemory (h : s.load = .loading) : exec .noMemory s = .next (s.configFault .noMemory) :=
  congrArg Host.Outcome.next (if_pos h)

end

/-- Settles O2: the straps by their value, the image by its check, and CONFIG_FAULT by the one entry into it. -/
theorem strapsAndImageDecideTheLoad : Obligations.StrapsAndImageDecideTheLoad := by
  refine ⟨fun s straps => ⟨fun hload h1 h2 => ?_, fun hload h => ?_, fun hload => ?_⟩, fun s hload =>
    ⟨fun image hbad => ?_, ?_, fun image hgood => ?_⟩⟩
  · have hvalid := s.readStraps_valid h1 h2
    refine ⟨_, (exec_resetRelease hload straps).trans (congrArg _ hvalid), rfl, ?_, exists_mem_peerTable _⟩
    exact (peerTable_length _).trans (if_pos ⟨h1, h2⟩)
  · have hinvalid := s.readStraps_invalid h
    refine ⟨_, (exec_resetRelease hload straps).trans (congrArg _ hinvalid), State.configFault_enters _ _, rfl, ?_,
      fun n => ?_⟩
    · exact (peerTable_length _).trans (if_neg (by omega))
    · exact (exists_mem_peerTable _ n).trans (by omega)
  · exact congrArg Host.Outcome.next (if_neg hload)
  · exact ⟨_, (exec_configurationLoad hload image).trans (congrArg _ (s.loadImage_bad hbad)),
      s.configFault_enters _, rfl, rfl⟩
  · exact ⟨_, exec_noMemory hload, s.configFault_enters _, rfl, rfl⟩
  · have hexec := (exec_configurationLoad hload image).trans (congrArg Host.Outcome.next (s.loadImage_good hgood))
    generalize correctImage (readImage image) = r at hexec ⊢
    refine ⟨_, hexec, rfl, rfl, rfl, rfl, rfl,
      rfl, rfl, rfl, fun c hc => ?_, fun c hc => ?_, fun c => ?_, s.start_lane _ _,
      ⟨rfl, Timebase.reset_phase, rfl, rfl, rfl, rfl⟩, rfl, rfl, rfl⟩
    · rw [State.start_at, installed_enabled (x := r.1.map[c]) hc]
      refine ⟨rfl, rfl, rfl, rfl, rfl, rfl, ?_⟩
      exact (Option.map_map _ _ _).trans Option.map_id'
    · rw [State.start_at, installed_disabled (x := r.1.map[c]) hc]
      exact ⟨rfl, rfl, rfl⟩
    · rw [State.start_at, installed_table, installed_mirror]
      exact ⟨rfl, rfl⟩

end Sys2Proof.Machine

/-! SUPPORT. R186, R187: the corrections of one number and of one entry, what the two passes and the map's correction
make of a configuration, how corrections are counted, and why a corrected configuration stays as it is. -/

namespace Sys2Proof.Machine

/-! ## One number, one entry (R186) -/

/-- A number takes the nearer bound of its range. -/
theorem clampNat_eq {lo hi : Nat} (h : lo ≤ hi) (x : Nat) : clampNat lo hi x = max lo (min hi x) := by
  unfold clampNat
  split
  · omega
  · split <;> omega

/-- A number within its range stays. -/
theorem clampNat_of_mem {lo hi x : Nat} (h : lo ≤ x) (h' : x ≤ hi) : clampNat lo hi x = x := by
  rw [clampNat, if_neg h.not_gt, if_neg h'.not_gt]

theorem clampControl_unused {x : ControlEntry} (h : x.id = 0) : clampControl x = { id := 0, perm := 0, mask := 0 } := by
  rw [clampControl, if_pos h]

theorem clampControl_used {x : ControlEntry} (h : x.id ≠ 0) :
    clampControl x = { x with id := min 62 x.id, perm := x.perm &&& 0x3FF } := by
  rw [clampControl, if_neg h, clampNat_eq (by decide), Nat.zero_max]

@[simp] theorem clampControl_id (x : ControlEntry) : (clampControl x).id = min 62 x.id := by
  by_cases h : x.id = 0
  · rw [clampControl_unused h, h, Nat.min_zero]
  · rw [clampControl_used h]

theorem clampControl_clampControl (x : ControlEntry) : clampControl (clampControl x) = clampControl x := by
  by_cases h : x.id = 0
  · rw [clampControl_unused h, clampControl_unused rfl]
  · have hid : (clampControl x).id ≠ 0 := by rw [clampControl_id]; omega
    rw [clampControl_used hid, clampControl_used h]
    simp [BitVec.and_assoc]

theorem clampPort_eq (p : Nat × Nat) : clampPort p = (max 1 (min 62 p.1), min 15 p.2) := by
  rw [clampPort, clampNat_eq (by decide), clampNat_eq (by decide), Nat.zero_max]

theorem clampPort_of_mem {p : Nat × Nat} (h1 : 1 ≤ p.1) (h2 : p.1 ≤ 62) (h3 : p.2 ≤ 15) : clampPort p = p := by
  rw [clampPort, clampNat_of_mem h1 h2, clampNat_of_mem (Nat.zero_le _) h3]

theorem clampMap_disabled {x : MapEntry} (h : x.enabled = false) : clampMap x = MapEntry.blank := by
  rw [clampMap, h, if_neg Bool.false_ne_true]

theorem clampMap_of_enabled {x : MapEntry} (h : x.enabled = true) :
    clampMap x =
      { x with origin := min 62 x.origin, standby := min 62 x.standby, prec := max 1 (min 15 x.prec),
               primary := clampPort x.primary, alternate := x.alternate.map clampPort } := by
  rw [clampMap, if_pos h]
  simp only [clampNat_eq (Nat.zero_le 62), clampNat_eq (show 1 ≤ 15 by decide), Nat.zero_max]

@[simp] theorem clampMap_enabled (x : MapEntry) : (clampMap x).enabled = x.enabled := by
  cases h : x.enabled with
  | true => rw [clampMap_of_enabled h, h]
  | false => rw [clampMap_disabled h]; rfl

theorem clampMap_bus {x : MapEntry} (h : x.enabled = true) : (clampMap x).bus = x.bus := by
  rw [clampMap_of_enabled h]

/-! ## The channel map (R187) -/

section
variable {map : Vector MapEntry 16} {c : Chan}

theorem duplicateOf_iff :
    duplicateOf map c = true ↔
      map[c].enabled = true ∧ ∃ k, k < c ∧ map[k].enabled = true ∧ map[k].bus = map[c].bus := by
  simp [duplicateOf, and_assoc]

/-- Of enabled entries with one bus channel, every one but the first is disabled. -/
theorem correctMap_duplicate (h : duplicateOf map c = true) : correctMap map c = MapEntry.blank := by
  rw [correctMap, if_pos h]

/-- An enabled entry that stays loses an alternate equal to its primary, and nothing else. -/
theorem correctMap_first (hc : map[c].enabled = true) (h : duplicateOf map c = false) :
    correctMap map c =
      { map[c] with
        alternate := if map[c].alternate = some map[c].primary then none else map[c].alternate } := by
  rw [correctMap, if_neg (by rw [h]; exact Bool.false_ne_true)]
  by_cases halt : map[c].alternate = some map[c].primary
  · rw [if_pos ⟨hc, halt⟩, if_pos halt]
  · rw [if_neg fun h => halt h.2, if_neg halt]

theorem correctMap_disabled (hc : map[c].enabled = false) : correctMap map c = map[c] := by
  have hd : ¬duplicateOf map c = true := fun h => Bool.false_ne_true (hc.symm.trans (duplicateOf_iff.mp h).1)
  rw [correctMap, if_neg hd, if_neg fun h => Bool.false_ne_true (hc.symm.trans h.1)]

theorem correctMap_enabled : (correctMap map c).enabled = (map[c].enabled && !duplicateOf map c) := by
  cases hd : duplicateOf map c with
  | true => rw [correctMap_duplicate hd, Bool.not_true, Bool.and_false]; rfl
  | false =>
    cases hc : map[c].enabled with
    | true => rw [correctMap_first hc hd, hc]; rfl
    | false => rw [correctMap_disabled hc, hc]; rfl

end

/-! ## A configuration -/

section
variable (c : Config)

theorem clampConfig_map (ch : Chan) : (clampConfig c).map[ch] = clampMap c.map[ch] := by simp [clampConfig]

theorem correctImage_control (i : Fin 4) : (correctImage c).1.control[i] = clampControl c.control[i] := by
  simp [correctImage, mapConfig, relateConfig, clampConfig]

theorem correctImage_map (ch : Chan) : (correctImage c).1.map[ch] = correctMap (clampConfig c).map ch := by
  simp [correctImage, mapConfig, relateConfig]

end

/-- The numbers of a configuration, the entries apart, against those of the image (R186). -/
def ScalarsCorrected (c r : Config) : Prop :=
  r.linkDelay = min 1023 c.linkDelay ∧ r.gain = min 7 c.gain ∧ r.outlierLimit = max 1 (min 4095 c.outlierLimit) ∧
    r.suspectFrames = max 1 (min 50 c.suspectFrames) ∧
    r.lossFrames = max (r.suspectFrames + 1) (max 2 (min 250 c.lossFrames)) ∧
    r.isolationFrames = max 1 (min 50 c.isolationFrames) ∧ r.laneQuietFrames = max 1 (min 50 c.laneQuietFrames) ∧
    r.claimExpiry = max 2 (min 16 c.claimExpiry) ∧ r.bidWindow = max r.claimExpiry (max 2 (min 32 c.bidWindow)) ∧
    r.preroll = max 2 (min 30 c.preroll) ∧ r.confirmFrames = max 1 (min 8 c.confirmFrames) ∧
    r.handbackLead = max (r.preroll + 1) (max 3 (min 250 c.handbackLead)) ∧
    r.reportPeriod = max 1 (min 50 c.reportPeriod) ∧ r.asrunPeriod = max 1 (min 50 c.asrunPeriod) ∧
    r.ratio = max 1 (min 15 c.ratio) ∧ r.decrement = min 65535 c.decrement ∧ r.clip = min 65535 c.clip ∧
    r.limit = min r.clip c.limit ∧ r.timeStation = min 62 c.timeStation

/-- A number that may not be below another, corrected against it. -/
theorem raised_eq (x y : Nat) : (if y < x then x else y) = max x y := by split <;> omega

/-- A number that must be above another, corrected against it. -/
theorem raised_above_eq (x y : Nat) : (if y ≤ x then x + 1 else y) = max (x + 1) y := by split <;> omega

/-- The two passes give each number its corrected value. -/
theorem correctImage_scalars (c : Config) : ScalarsCorrected c (correctImage c).1 := by
  simp only [ScalarsCorrected, correctImage, mapConfig, relateConfig, clampConfig]
  simp only [clampNat_eq (show 1 ≤ 4095 by decide), clampNat_eq (show 1 ≤ 50 by decide),
    clampNat_eq (show 2 ≤ 250 by decide), clampNat_eq (show 2 ≤ 16 by decide), clampNat_eq (show 2 ≤ 32 by decide),
    clampNat_eq (show 2 ≤ 30 by decide), clampNat_eq (show 1 ≤ 8 by decide), clampNat_eq (show 3 ≤ 250 by decide),
    clampNat_eq (show 1 ≤ 15 by decide), clampNat_eq (Nat.zero_le _), Nat.zero_max, true_and, and_true]
  refine ⟨raised_above_eq _ _, raised_eq _ _, raised_above_eq _ _, ?_⟩
  split <;> omega

/-- An entry stays enabled exactly when no enabled entry of an earlier channel names its bus channel. -/
theorem correctImage_enabled_iff (c : Config) (ch : Chan) :
    (correctImage c).1.map[ch].enabled = true ↔
      c.map[ch].enabled = true ∧ ∀ k : Chan, k < ch → c.map[k].enabled = true → c.map[k].bus ≠ c.map[ch].bus := by
  rw [correctImage_map, correctMap_enabled, clampConfig_map, clampMap_enabled, Bool.and_eq_true]
  refine and_congr_right fun hch => ?_
  rw [Bool.not_eq_true', ← Bool.not_eq_true, duplicateOf_iff]
  simp only [clampConfig_map, clampMap_enabled, hch, clampMap_bus hch, true_and, not_exists, not_and]
  refine forall_congr' fun k => imp_congr_right fun _ => forall_congr' fun hk => ?_
  rw [clampMap_bus hk]

/-- An entry that is enabled after the corrections holds its corrected fields. -/
theorem correctImage_map_of_enabled {c : Config} {ch : Chan} (h : (correctImage c).1.map[ch].enabled = true) :
    (correctImage c).1.map[ch] =
      { c.map[ch] with
        origin := min 62 c.map[ch].origin, standby := min 62 c.map[ch].standby
        prec := max 1 (min 15 c.map[ch].prec), primary := clampPort c.map[ch].primary
        alternate :=
          if c.map[ch].alternate.map clampPort = some (clampPort c.map[ch].primary) then none
          else c.map[ch].alternate.map clampPort } := by
  have hch : c.map[ch].enabled = true := ((correctImage_enabled_iff c ch).mp h).1
  rw [correctImage_map, correctMap_enabled, Bool.and_eq_true, Bool.not_eq_true'] at h
  obtain ⟨hclamped, hfirst⟩ := h
  rw [correctImage_map, correctMap_first hclamped hfirst, clampConfig_map, clampMap_of_enabled hch]

/-- An entry that is not enabled after the corrections holds nothing. -/
theorem correctImage_map_of_disabled {c : Config} {ch : Chan} (h : (correctImage c).1.map[ch].enabled = false) :
    (correctImage c).1.map[ch] = MapEntry.blank := by
  rw [correctImage_map, correctMap_enabled, Bool.and_eq_false_iff] at h
  rw [correctImage_map]
  rcases h with h | h
  · rw [correctMap_disabled h, clampConfig_map, clampMap_disabled]
    rwa [clampConfig_map, clampMap_enabled] at h
  · exact correctMap_duplicate (by simpa using h)

/-! ## The result lies in its ranges and keeps the relations -/

/-- A corrected server and port lie in their ranges. -/
theorem clampPort_mem (p : Nat × Nat) : 1 ≤ (clampPort p).1 ∧ (clampPort p).1 ≤ 62 ∧ (clampPort p).2 ≤ 15 := by
  rw [clampPort_eq]
  dsimp only
  omega

theorem correctImage_corrected (c : Config) : Corrected (correctImage c).1 := by
  obtain ⟨hlink, hgain, houtlier, hsuspect, hloss, hisolation, hquiet, hexpiry, hbid, hpreroll, hconfirm, hlead, hreport,
    hasrun, hratio, hdecrement, hclip, hlimit, htime⟩ := correctImage_scalars c
  refine ⟨?_, ?_, fun i => ?_, fun ch hch => ?_, fun d e hd he hbus => ?_⟩
  · rw [hlink, hgain, houtlier, hloss, hsuspect, hisolation, hquiet, hbid, hexpiry, hlead, hpreroll, hconfirm, hreport,
      hasrun, hratio, hdecrement, hclip, htime]
    clear * -
    and_intros <;> omega
  · rw [hloss, hbid, hlimit, hlead]
    clear * -
    and_intros <;> omega
  · rw [correctImage_control, clampControl_id]
    exact Nat.min_le_left 62 _
  · rw [correctImage_map_of_enabled hch]
    obtain ⟨hserver, hserver', hport⟩ := clampPort_mem c.map[ch].primary
    refine ⟨Nat.min_le_left 62 _, Nat.min_le_left 62 _, Nat.le_max_left 1 _, by dsimp only; omega, hserver, hserver', hport,
      ?_, fun p hp => ?_⟩
    · dsimp only
      split
      · exact (Option.some_ne_none _).symm
      · assumption
    · dsimp only at hp
      split at hp
      · cases hp
      · obtain ⟨q, -, rfl⟩ := Option.map_eq_some_iff.mp hp
        exact clampPort_mem q
  · obtain ⟨hd', hdfirst⟩ := (correctImage_enabled_iff c d).mp hd
    obtain ⟨he', hefirst⟩ := (correctImage_enabled_iff c e).mp he
    rw [correctImage_map_of_enabled hd, correctImage_map_of_enabled he] at hbus
    rcases lt_trichotomy d e with hlt | heq | hgt
    · exact absurd hbus (hefirst d hlt hd')
    · exact heq
    · exact absurd hbus.symm (hdfirst e hgt he')

/-! ## A configuration that needs no correction -/

/-- Configurations with the same numbers differ in their entries at most. -/
theorem Config.eq_of_scalars {r c : Config} (h : Config.scalars r = Config.scalars c) :
    r = { c with control := r.control, map := r.map } := by
  cases r
  cases c
  simp only [Config.scalars, List.cons.injEq, and_true] at h
  simpa only [Config.mk.injEq, and_true] using h

section
variable {c : Config} (h : Corrected c)
include h

/-- Neither pass replaces a number of it. -/
theorem Corrected.scalars : Config.scalars (relateConfig (clampConfig c)) = Config.scalars c := by
  obtain ⟨⟨hlink, hgain, houtlier, houtlier', hsuspect, hsuspect', hloss, hloss', hisolation, hisolation', hquiet, hquiet',
    hexpiry, hexpiry', hbid, hbid', hpreroll, hpreroll', hconfirm, hconfirm', hlead, hreport, hreport', hasrun, hasrun',
    hratio, hratio', hdecrement, hclip, htime⟩, ⟨hlater, hwindow, hunder, hlonger⟩, -⟩ := h
  simp only [Config.scalars, relateConfig, clampConfig, clampNat_of_mem (Nat.zero_le _) hlink,
    clampNat_of_mem (Nat.zero_le _) hgain, clampNat_of_mem houtlier houtlier', clampNat_of_mem hsuspect hsuspect',
    clampNat_of_mem hloss hloss', clampNat_of_mem hisolation hisolation', clampNat_of_mem hquiet hquiet',
    clampNat_of_mem hexpiry hexpiry', clampNat_of_mem hbid hbid', clampNat_of_mem hpreroll hpreroll',
    clampNat_of_mem hconfirm hconfirm', clampNat_of_mem (show 3 ≤ c.handbackLead by omega) hlead,
    clampNat_of_mem hreport hreport', clampNat_of_mem hasrun hasrun', clampNat_of_mem hratio hratio',
    clampNat_of_mem (Nat.zero_le _) hdecrement, clampNat_of_mem (Nat.zero_le _) hclip,
    clampNat_of_mem (Nat.zero_le _) (hunder.trans hclip), clampNat_of_mem (Nat.zero_le _) htime,
    if_neg hlater.not_ge, if_neg hwindow.not_gt, if_neg hunder.not_gt, if_neg hlonger.not_ge]

theorem Corrected.clampMap_eq {ch : Chan} (hch : c.map[ch].enabled = true) : clampMap c.map[ch] = c.map[ch] := by
  obtain ⟨-, -, -, hentries, -⟩ := h
  obtain ⟨horigin, hstandby, hprec, hprec', hserver, hserver', hport, -, halternate⟩ := hentries ch hch
  have halt : c.map[ch].alternate.map clampPort = c.map[ch].alternate := by
    cases hp : c.map[ch].alternate with
    | none => rfl
    | some p =>
      obtain ⟨h1, h2, h3⟩ := halternate p hp
      exact congrArg some (clampPort_of_mem h1 h2 h3)
  rw [clampMap_of_enabled hch, clampPort_of_mem hserver hserver' hport, halt, Nat.min_eq_right horigin,
    Nat.min_eq_right hstandby, Nat.min_eq_right hprec', Nat.max_eq_right hprec]

theorem Corrected.correctImage_enabled (ch : Chan) : (correctImage c).1.map[ch].enabled = c.map[ch].enabled := by
  obtain ⟨-, -, -, -, hbuses⟩ := h
  refine Bool.eq_iff_iff.mpr ((correctImage_enabled_iff c ch).trans (and_iff_left_of_imp fun hch k hk hke hbus => ?_))
  exact hk.ne (hbuses k ch hke hch hbus)

/-- An enabled entry stays as it is. -/
theorem Corrected.correctImage_map {ch : Chan} (hch : c.map[ch].enabled = true) :
    (correctImage c).1.map[ch] = c.map[ch] := by
  have hclamped := h.clampMap_eq hch
  have henabled := (h.correctImage_enabled ch).trans hch
  rw [correctImage_map_of_enabled henabled]
  rw [clampMap_of_enabled hch] at hclamped
  obtain ⟨-, -, -, hentries, -⟩ := h
  obtain ⟨-, -, -, -, -, -, -, hnot, -⟩ := hentries ch hch
  have hprimary : clampPort c.map[ch].primary = c.map[ch].primary := congrArg MapEntry.primary hclamped
  have halternate : c.map[ch].alternate.map clampPort = c.map[ch].alternate := congrArg MapEntry.alternate hclamped
  rw [halternate, hprimary, if_neg hnot]
  rw [halternate, hprimary] at hclamped
  exact hclamped

theorem Corrected.clampControl_id_eq (i : Fin 4) : (clampControl c.control[i]).id = c.control[i].id := by
  obtain ⟨-, -, hids, -⟩ := h
  rw [clampControl_id, Nat.min_eq_right (hids i)]

end

/-! ## The count (R186) -/

/-- How many places two lists differ in. -/
def differing (xs zs : List Nat) : Nat := ((xs.zip zs).filter fun p => p.1 != p.2).length

theorem eq_of_mem_zip_self {xs : List Nat} {p : Nat × Nat} (h : p ∈ xs.zip xs) : p.1 = p.2 := by
  have hzip : xs.zip xs = xs.map fun x => (x, x) := by simpa using List.zip_map' (l := xs) (f := id) (g := id)
  rw [hzip] at h
  obtain ⟨x, -, rfl⟩ := List.mem_map.mp h
  rfl

theorem differing_self (xs : List Nat) : differing xs xs = 0 := by
  rw [differing, List.length_eq_zero_iff, List.filter_eq_nil_iff]
  intro p hp
  rw [eq_of_mem_zip_self hp, bne_self_eq_false]
  exact Bool.false_ne_true

theorem differing_append {xs zs xs' zs' : List Nat} (h : xs.length = zs.length) :
    differing (xs ++ xs') (zs ++ zs') = differing xs zs + differing xs' zs' := by
  rw [differing, List.zip_append h, List.filter_append, List.length_append]
  rfl

theorem replaced_append {xs ys zs xs' ys' zs' : List Nat} (h : xs.length = ys.length) (h' : ys.length = zs.length) :
    replaced (xs ++ xs') (ys ++ ys') (zs ++ zs') = replaced xs ys zs + replaced xs' ys' zs' := by
  have hzip : xs.length = (ys.zip zs).length := by rw [List.length_zip, ← h', Nat.min_self, h]
  rw [replaced, List.zip_append h', List.zip_append hzip, List.filter_append, List.length_append]
  rfl

/-- Where no field returns to its first value, the fields that either pass replaced are those that differ in the end. -/
theorem replaced_eq_differing {xs ys zs : List Nat} (h : ys.length = zs.length)
    (hback : ∀ p ∈ xs.zip (ys.zip zs), p.1 = p.2.2 → p.2.1 = p.2.2) : replaced xs ys zs = differing xs zs := by
  have hends : xs.zip zs = (xs.zip (ys.zip zs)).map (Prod.map id Prod.snd) :=
    calc xs.zip zs = xs.zip ((ys.zip zs).map Prod.snd) := by rw [List.map_snd_zip h.ge]
      _ = (xs.zip (ys.zip zs)).map (Prod.map id Prod.snd) := List.zip_map_right
  rw [replaced, differing, hends, List.filter_map, List.length_map]
  refine congrArg List.length (List.filter_congr fun p hp => ?_)
  have hp := hback p hp
  rw [Bool.eq_iff_iff, Bool.or_eq_true, bne_iff_ne, bne_iff_ne]
  change p.1 ≠ p.2.1 ∨ p.2.1 ≠ p.2.2 ↔ (p.1 != p.2.2) = true
  rw [bne_iff_ne]
  omega

/-- What the first pass alone may replace. -/
theorem replaced_self (xs ys : List Nat) : replaced xs ys ys = differing xs ys :=
  replaced_eq_differing rfl fun _ hp _ => eq_of_mem_zip_self (List.of_mem_zip hp).2

/-- A number that the second pass changes does not return to what the image spells: a bound that the first pass set lies
on the other side. -/
theorem scalars_not_restored (c : Config) :
    ∀ p ∈ (Config.scalars c).zip
        ((Config.scalars (clampConfig c)).zip (Config.scalars (relateConfig (clampConfig c)))),
      p.1 = p.2.2 → p.2.1 = p.2.2 := by
  have hloss : c.lossFrames = (relateConfig (clampConfig c)).lossFrames →
      (clampConfig c).lossFrames = (relateConfig (clampConfig c)).lossFrames := by
    simp only [relateConfig, clampConfig, clampNat_eq (show 2 ≤ 250 by decide), clampNat_eq (show 1 ≤ 50 by decide)]
    split <;> omega
  have hbid : c.bidWindow = (relateConfig (clampConfig c)).bidWindow →
      (clampConfig c).bidWindow = (relateConfig (clampConfig c)).bidWindow := by
    simp only [relateConfig, clampConfig, clampNat_eq (show 2 ≤ 16 by decide), clampNat_eq (show 2 ≤ 32 by decide)]
    split <;> omega
  have hlimit : c.limit = (relateConfig (clampConfig c)).limit →
      (clampConfig c).limit = (relateConfig (clampConfig c)).limit := by
    simp only [relateConfig, clampConfig, clampNat_eq (Nat.zero_le 65535)]
    split <;> omega
  have hlead : c.handbackLead = (relateConfig (clampConfig c)).handbackLead →
      (clampConfig c).handbackLead = (relateConfig (clampConfig c)).handbackLead := by
    simp only [relateConfig, clampConfig, clampNat_eq (show 2 ≤ 30 by decide), clampNat_eq (show 3 ≤ 250 by decide)]
    split <;> omega
  simp only [Config.scalars, List.zip_cons_cons, List.zip_nil_left, List.forall_mem_cons]
  exact ⟨fun _ => rfl, fun _ => rfl, fun _ => rfl, fun _ => rfl, hloss, fun _ => rfl, fun _ => rfl, fun _ => rfl, hbid,
    fun _ => rfl, fun _ => rfl, hlead, fun _ => rfl, fun _ => rfl, fun _ => rfl, fun _ => rfl, hlimit, fun _ => rfl,
    fun _ => rfl, fun _ hp => absurd hp List.not_mem_nil⟩

/-- The numbers of the entries. -/
def entryScalars (r : Config) : List Nat :=
  r.control.toList.map ControlEntry.id ++ r.map.toList.flatMap mapScalars

theorem allScalars_eq (r : Config) : allScalars r = Config.scalars r ++ entryScalars r := List.append_assoc _ _ _

/-- The fields that the passes replaced are those whose value changed: the second pass leaves the entries. -/
theorem replaced_allScalars (c : Config) :
    replaced (allScalars c) (allScalars (clampConfig c)) (allScalars (relateConfig (clampConfig c))) =
      differing (allScalars c) (allScalars (relateConfig (clampConfig c))) := by
  have hentries : entryScalars (relateConfig (clampConfig c)) = entryScalars (clampConfig c) := rfl
  have hlength (r t : Config) : (Config.scalars r).length = (Config.scalars t).length := rfl
  rw [allScalars_eq, allScalars_eq, allScalars_eq, hentries, replaced_append (hlength _ _) (hlength _ _), replaced_self,
    replaced_eq_differing (hlength _ _) (scalars_not_restored c), differing_append (hlength _ _)]

/-- Of two conditions that exclude each other, the places where one holds are counted apart. -/
theorem length_filter_or {α : Type} {l : List α} {p q : α → Bool} (h : ∀ a ∈ l, p a = true → q a = false) :
    (l.filter fun a => p a || q a).length = (l.filter p).length + (l.filter q).length := by
  rw [List.length_eq_length_filter_add p, List.filter_filter, List.filter_filter]
  congr 2
  · exact List.filter_congr fun a _ => by cases p a <;> rfl
  · refine List.filter_congr fun a ha => ?_
    cases hp : p a with
    | true => rw [h a ha hp]; rfl
    | false => simp

/-- R187 disables the enabled entries that do not stay enabled, and removes the alternates that do not stay. -/
theorem mapCorrections_eq (second : Config) :
    mapCorrections second =
      ((List.finRange 16).filter fun ch => second.map[ch].enabled && !(correctMap second.map ch).enabled).length +
        ((List.finRange 16).filter fun ch => (correctMap second.map ch).enabled &&
          decide (second.map[ch].alternate ≠ (correctMap second.map ch).alternate)).length := by
  rw [← length_filter_or]
  · refine congrArg List.length (List.filter_congr fun ch _ => ?_)
    cases hd : duplicateOf second.map ch with
    | true =>
      obtain ⟨hch, -⟩ := duplicateOf_iff.mp hd
      rw [correctMap_duplicate hd, hch]
      rfl
    | false =>
      cases hch : second.map[ch].enabled with
      | false => rw [correctMap_disabled hch, hch]; rfl
      | true =>
        rw [correctMap_first hch hd, hch]
        generalize second.map[ch] = x
        by_cases halt : x.alternate = some x.primary <;> simp [halt]
  · intro ch _ h
    rw [Bool.and_eq_true, Bool.not_eq_true'] at h
    rw [h.2, Bool.false_and]

/-- The count of corrections: the fields whose value changed, the entries disabled and the alternates removed. -/
theorem correctImage_count (c : Config) :
    (correctImage c).2 =
      min 255
        (differing (allScalars c) (allScalars (relateConfig (clampConfig c))) +
          ((List.finRange 16).filter fun ch =>
            (clampConfig c).map[ch].enabled && !(correctImage c).1.map[ch].enabled).length +
          ((List.finRange 16).filter fun ch => (correctImage c).1.map[ch].enabled &&
            decide ((clampConfig c).map[ch].alternate ≠ (correctImage c).1.map[ch].alternate)).length) := by
  rw [Nat.add_assoc]
  simp only [correctImage_map]
  exact congrArg₂ (fun m n => min 255 (m + n)) (replaced_allScalars c) (mapCorrections_eq (relateConfig (clampConfig c)))

/-! ## Stability -/

theorem exists_getElem_of_mem {α : Type} {n : Nat} {v : Vector α n} {x : α} (h : x ∈ v.toList) :
    ∃ i : Fin n, v[i] = x := by
  obtain ⟨i, hi, hx⟩ := Vector.getElem_of_mem (Vector.mem_toList_iff.mp h)
  exact ⟨⟨i, hi⟩, hx⟩

theorem eq_of_getElem_fin {α : Type} {n : Nat} {v w : Vector α n} (h : ∀ i : Fin n, v[i] = w[i]) : v = w :=
  Vector.ext fun i hi => h ⟨i, hi⟩

theorem mapScalars_clampMap_disabled {x : MapEntry} (h : x.enabled = false) : mapScalars (clampMap x) = mapScalars x := by
  rw [clampMap_disabled h, mapScalars, mapScalars, h]
  rfl

section
variable {c : Config} (h : Corrected c)
include h

theorem Corrected.entryScalars : entryScalars (clampConfig c) = entryScalars c := by
  have hcontrol : (clampConfig c).control.toList.map ControlEntry.id = c.control.toList.map ControlEntry.id := by
    rw [clampConfig, Vector.toList_map, List.map_map]
    refine List.map_congr_left fun x hx => ?_
    obtain ⟨i, rfl⟩ := exists_getElem_of_mem hx
    exact h.clampControl_id_eq i
  have hmap : (clampConfig c).map.toList.flatMap mapScalars = c.map.toList.flatMap mapScalars := by
    rw [clampConfig, Vector.toList_map, List.flatMap_map]
    refine List.flatMap_congr fun x hx => ?_
    obtain ⟨ch, rfl⟩ := exists_getElem_of_mem hx
    cases hch : c.map[ch].enabled with
    | true => rw [h.clampMap_eq hch]
    | false => exact mapScalars_clampMap_disabled hch
  rw [Machine.entryScalars, hcontrol, hmap, Machine.entryScalars]

/-- No correction is counted. -/
theorem Corrected.count : (correctImage c).2 = 0 := by
  have hscalars : allScalars (relateConfig (clampConfig c)) = allScalars c := by
    rw [allScalars_eq, allScalars_eq, h.scalars]
    exact congrArg (Config.scalars c ++ ·) h.entryScalars
  have hdisabled (ch : Chan) : ((clampConfig c).map[ch].enabled && !(correctImage c).1.map[ch].enabled) = false := by
    rw [clampConfig_map, clampMap_enabled, h.correctImage_enabled, Bool.and_not_self]
  have hremoved (ch : Chan) : ((correctImage c).1.map[ch].enabled &&
      decide ((clampConfig c).map[ch].alternate ≠ (correctImage c).1.map[ch].alternate)) = false := by
    rw [h.correctImage_enabled]
    cases hch : c.map[ch].enabled with
    | false => rfl
    | true => rw [clampConfig_map, h.clampMap_eq hch, h.correctImage_map hch]; simp
  rw [correctImage_count, hscalars, differing_self]
  simp only [hdisabled, hremoved, List.filter_false, List.length_nil, Nat.add_zero, Nat.min_zero]

/-- Its numbers stay. -/
theorem Corrected.correctImage_eq :
    (correctImage c).1 = { c with control := (correctImage c).1.control, map := (correctImage c).1.map } :=
  Config.eq_of_scalars h.scalars

end

/-- What was corrected once needs no correction. -/
theorem correctImage_correctImage (c : Config) : correctImage (correctImage c).1 = ((correctImage c).1, 0) := by
  have hr := correctImage_corrected c
  have hcontrol : (correctImage (correctImage c).1).1.control = (correctImage c).1.control := by
    refine eq_of_getElem_fin fun i => ?_
    rw [correctImage_control, correctImage_control c, clampControl_clampControl]
  have hmap : (correctImage (correctImage c).1).1.map = (correctImage c).1.map := by
    refine eq_of_getElem_fin fun ch => ?_
    cases hch : (correctImage c).1.map[ch].enabled with
    | true => exact hr.correctImage_map hch
    | false =>
      rw [correctImage_map_of_disabled hch, correctImage_map_of_disabled ((hr.correctImage_enabled ch).trans hch)]
  refine Prod.ext ?_ hr.count
  rw [hr.correctImage_eq, hcontrol, hmap]

end Sys2Proof.Machine

/-! SUPPORT. R190: how the numbers, flags and entries of the 254 bytes of an image are read. -/

namespace Sys2Proof.Machine

/-! ## Bytes of a number (R190) -/

section
variable {image : List Byte} {o : Nat}

/-- A field of one byte more ends with the byte that follows. -/
theorem fieldAt_succ {n : Nat} (h : o + n < image.length) :
    fieldAt image o (n + 1) = 256 * fieldAt image o n + (image.getD (o + n) 0).toNat := by
  have htake : (image.drop o).take (n + 1) = (image.drop o).take n ++ [image.getD (o + n) 0] := by
    rw [List.take_add_one, List.getElem?_drop, List.getElem?_eq_getElem h, List.getD_eq_getElem _ _ h]
    rfl
  rw [fieldAt, htake, beNat_append, Nat.mul_comm]
  simp [beNat, fieldAt]

theorem fieldAt_byte (h : o < image.length) : fieldAt image o 1 = (image.getD o 0).toNat := by
  rw [fieldAt_succ h]
  simp [fieldAt, beNat]

theorem fieldAt_half (h : o + 1 < image.length) :
    fieldAt image o 2 = 256 * (image.getD o 0).toNat + (image.getD (o + 1) 0).toNat := by
  rw [fieldAt_succ h, fieldAt_byte (by omega)]

theorem fieldAt_four (h : o + 3 < image.length) :
    fieldAt image o 4 =
      16777216 * (image.getD o 0).toNat + 65536 * (image.getD (o + 1) 0).toNat +
        256 * (image.getD (o + 2) 0).toNat + (image.getD (o + 3) 0).toNat := by
  rw [fieldAt_succ h, fieldAt_succ (by omega), fieldAt_half (by omega)]
  omega

/-- A number that is read fits the word that holds it. -/
theorem toNat_ofNat_fieldAt (n : Nat) : (BitVec.ofNat (8 * n) (fieldAt image o n)).toNat = fieldAt image o n := by
  refine Nat.mod_eq_of_lt ?_
  calc fieldAt image o n < 256 ^ ((image.drop o).take n).length := beNat_lt _
    _ ≤ 256 ^ n := Nat.pow_le_pow_right (by decide) (List.length_take_le _ _)
    _ = 2 ^ (8 * n) := (Nat.pow_mul 2 8 n).symm

theorem imageFlag_eq (h : o < image.length) {bit : Nat} (hbit : bit < 8) :
    imageFlag image o bit = (image.getD o 0).toNat.testBit bit := by
  rw [imageFlag, BitVec.getLsbD_ofNat, fieldAt_byte h, decide_eq_true hbit, Bool.true_and]

end

/-! ## The image (12 section 12.6) -/

theorem readImage_control (image : List Byte) (i : Fin 4) :
    (readImage image).control[i] = readControl image (24 + 5 * i.val) := by simp [readImage]

theorem readImage_map (image : List Byte) (ch : Chan) :
    (readImage image).map[ch] = readMapEntry image (44 + 13 * ch.val) := by simp [readImage]

section
variable {image : List Byte} {b : Nat → Nat} {o : Nat} (hb : ∀ k, b k = (image.getD k 0).toNat)
include hb

theorem readControl_spec (h : o + 4 < image.length) :
    (readControl image o).id = b o ∧ (readControl image o).perm.toNat = 256 * b (o + 1) + b (o + 2) ∧
      (readControl image o).mask.toNat = 256 * b (o + 3) + b (o + 4) := by
  simp only [hb]
  exact ⟨fieldAt_byte (by omega), (toNat_ofNat_fieldAt 2).trans (fieldAt_half (by omega)),
    (toNat_ofNat_fieldAt 2).trans (fieldAt_half h)⟩

theorem readMapEntry_spec (h : o + 12 < image.length) :
    (readMapEntry image o).enabled = (b o).testBit 0 ∧ (readMapEntry image o).armed = (b o).testBit 1 ∧
      (readMapEntry image o).bus.toNat = b (o + 1) ∧ (readMapEntry image o).origin = b (o + 2) ∧
      (readMapEntry image o).standby = b (o + 3) ∧ (readMapEntry image o).prec = b (o + 4) ∧
      (readMapEntry image o).primary = (b (o + 5), b (o + 6)) ∧
      (readMapEntry image o).alternate = (if (b o).testBit 2 = true then some (b (o + 7), b (o + 8)) else none) ∧
      (readMapEntry image o).filler.toNat =
        16777216 * b (o + 9) + 65536 * b (o + 10) + 256 * b (o + 11) + b (o + 12) := by
  have hbyte (k : Nat) (hk : k ≤ 12) : fieldAt image (o + k) 1 = b (o + k) := by
    rw [hb]; exact fieldAt_byte (by omega)
  have hflag (bit : Nat) (hbit : bit < 8) : imageFlag image o bit = (b o).testBit bit := by
    rw [hb]; exact imageFlag_eq (by omega) hbit
  refine ⟨hflag 0 (by decide), hflag 1 (by decide), (toNat_ofNat_fieldAt 1).trans (hbyte 1 (by decide)),
    hbyte 2 (by decide), hbyte 3 (by decide), hbyte 4 (by decide), ?_, ?_, ?_⟩
  · exact Prod.ext (hbyte 5 (by decide)) (hbyte 6 (by decide))
  · rw [readMapEntry, hflag 2 (by decide), hbyte 7 (by decide), hbyte 8 (by decide)]
  · simp only [hb]
    exact (toNat_ofNat_fieldAt 4).trans (fieldAt_four h)

end

/-- Settles O3: soundness and stability by the passes, each field by its correction, the count by the fields that differ,
and the reading by the bytes of each field. -/
theorem correctedImageIsSoundAndStable : Obligations.CorrectedImageIsSoundAndStable := by
  refine ⟨fun c => ⟨correctImage_corrected c, Nat.min_le_left 255 _, correctImage_correctImage c⟩, fun c hc => ?_,
    ?_, ?_, ?_⟩
  · refine ⟨hc.count, hc.correctImage_eq, fun i => ?_, fun ch => ⟨hc.correctImage_enabled ch, hc.correctImage_map⟩⟩
    have hid := hc.clampControl_id_eq i
    rw [correctImage_control]
    refine ⟨hid, fun h => ?_⟩
    rw [clampControl_id] at hid
    rw [clampControl_used h, hid]
  · rintro c r rfl
    refine ⟨correctImage_scalars c, fun i => ?_, fun ch x port hx hport => ?_⟩
    · rw [correctImage_control, clampControl_id]
      exact ⟨rfl, fun h => by rw [clampControl_used h]; exact ⟨rfl, rfl⟩⟩
    · obtain rfl : port = clampPort := funext fun p => (hport p).trans (clampPort_eq p).symm
      subst hx
      exact ⟨correctImage_enabled_iff c ch, correctImage_map_of_enabled⟩
  · rintro c second r rfl rfl
    exact correctImage_count c
  · rintro image b r hlength hb rfl
    have hbyte (k : Nat) (hk : k < 254) : fieldAt image k 1 = b k := by
      rw [hb]; exact fieldAt_byte (by omega)
    have hhalf (k : Nat) (hk : k + 1 < 254) : fieldAt image k 2 = 256 * b k + b (k + 1) := by
      rw [hb, hb]; exact fieldAt_half (by omega)
    refine ⟨?_, fun i o ho => ?_, fun ch o ho => ?_⟩
    · exact ⟨hhalf 0 (by decide), hbyte 2 (by decide), hhalf 3 (by decide), hbyte 5 (by decide), hbyte 6 (by decide),
        hbyte 7 (by decide), hbyte 8 (by decide), hbyte 9 (by decide), hbyte 10 (by decide), hbyte 11 (by decide),
        hbyte 12 (by decide), hbyte 13 (by decide), hbyte 14 (by decide), hbyte 15 (by decide), hbyte 16 (by decide),
        hhalf 17 (by decide), hhalf 19 (by decide), hhalf 21 (by decide), hbyte 23 (by decide)⟩
    · rw [readImage_control, ← ho]
      exact readControl_spec hb (by omega)
    · rw [readImage_map, ← ho]
      exact readMapEntry_spec hb (by omega)

end Sys2Proof.Machine
